-- ==== Sys2Proof/Word.lean ====
section
/-!
DEFINITION. The word types of the device and their plainest arithmetic.
-/
namespace Sys2Proof

abbrev Byte := BitVec 8
abbrev W16 := BitVec 16
abbrev W32 := BitVec 32
abbrev W64 := BitVec 64

/-- A lane row (R215): the 128 lanes in order; a lane beyond the list reads as zero. -/
abbrev Row := List W32

/-- Little-endian bytes of a number (R6): `n` bytes, lowest first. -/
def leBytes : (n : Nat) → (x : Nat) → List Byte
  | 0, _ => []
  | n + 1, x => BitVec.ofNat 8 x :: leBytes n (x / 256)

/-- The number a little-endian byte list holds (R6). -/
def leNat : List Byte → Nat
  | [] => 0
  | b :: bs => b.toNat + 256 * leNat bs

/-- Bits hi:lo of a natural number, both ends included (R6). -/
def natBits (x hi lo : Nat) : Nat := x / 2 ^ lo % 2 ^ (hi + 1 - lo)

/-- The four streams of a context, in ring order (R16). -/
inductive StreamId where
  | c | a | m | s
  deriving DecidableEq, Repr, Inhabited

/-- Number of a stream: its class code on a page (R99) and in a record (R349). -/
def StreamId.num : StreamId → Nat
  | .c => 0
  | .a => 1
  | .m => 2
  | .s => 3

/-- The stream after this one in the ring (R16). -/
def StreamId.next : StreamId → StreamId
  | .c => .a
  | .a => .m
  | .m => .s
  | .s => .c

/-- The stream before this one in the ring (R16). -/
def StreamId.prev : StreamId → StreamId
  | .c => .s
  | .a => .c
  | .m => .a
  | .s => .m

end Sys2Proof
end

