-- ==== Sys2Proof/Syntax.lean ====
section
/-!
DEFINITION. The abstract syntax: operand types and Instr, one constructor for each row of the opcode table. The header (R75, R77) stands beside an instruction, not in it.
-/
namespace Sys2Proof

abbrev SReg := Fin 32
abbrev FReg := Fin 16
abbrev GReg := Fin 16
abbrev LReg := Fin 8
abbrev VReg := Fin 16
abbrev MReg := Fin 32
abbrev KReg := Fin 32
abbrev PReg := Fin 8
abbrev QNo := Fin 8
abbrev BankNo := Fin 64
abbrev TagNo := Fin 128
abbrev BarNo := Fin 512

/-- Scopes, narrow to wide (R84, R237). -/
inductive Scope where
  | core | bay | die | dev | dom
  deriving DecidableEq, Repr, Inhabited

/-- Element formats by FMT code (R56). -/
inductive Fmt where
  | raw | fp32 | bf16 | fp16 | e4m3 | e5m2 | int8 | int32 | dsh8 | e4m3s | e5m2s
  deriving DecidableEq, Repr, Inhabited

/-- The rules by which the scanner refuses a word (R96), in its order: a reserved major; a function, operation or kind; a register number; a zero field; a queue; a CSR; selectors and directions; a scope; an FMT immediate; a combination; a value a description reserves; a loop offset; a first word at the page's end. -/
inductive ScanRule where
  | major | selector | register | zeroField | queue | csr | matrix | scope | format | combination | reserved | loopOffset | lastWord
  deriving DecidableEq, Repr, Inhabited

/-- Access sizes of LD and ST (R118). -/
inductive MemSize where
  | b | h | w | d
  deriving DecidableEq, Repr, Inhabited

/-- Differentiation modes (R42, R151). -/
inductive DMode where
  | off | fwd | rev
  deriving DecidableEq, Repr, Inhabited

/-- The CSRs of R42. -/
inductive Csr where
  | ctxclass | status | vrank | vcount | part | frnd | fflags | scaleRcp | dmode
  | tapeBase | tapeLimit | tapeHead | adjRoot | patchEpoch | yieldDl | expStall
  | trapVec | trapCause
  deriving DecidableEq, Repr, Inhabited

/-- Directions of a product operand (R83). -/
inductive Dir where
  | r | c | w
  deriving DecidableEq, Repr, Inhabited

/-- Source of a product operand (R82). -/
inductive Sel where
  | slot (m : MReg)
  | pat (p : PReg)
  deriving DecidableEq, Repr, Inhabited

/-- Kind and parameters of PAT.SET (R93, R194). -/
inductive PatSpec where
  | none | ones | ltri | utri | sltri
  | ident (off : BitVec 8)
  | perm (q : QNo)
  | band (count : BitVec 4) (first : BitVec 4)
  deriving DecidableEq, Repr, Inhabited

/-- Conditions of VCMP (R218). -/
inductive VCond where
  | eq | lt | le | un
  deriving DecidableEq, Repr, Inhabited

/-- Operations of the atomics (R123). -/
inductive AtOp where
  | add | binc | cas | swp | max | fadd
  deriving DecidableEq, Repr, Inhabited

/-- aux bits of VST and RT.ST (R225). -/
structure StAux where
  sat : Bool
  scl : Bool
  hist : Bool
  deriving DecidableEq, Repr, Inhabited

/-- An atomic request at its home (R125, R392), sent by a party this model does not step. -/
structure AtomReq where
  op : AtOp
  w32 : Bool
  loc : Nat
  b : W64
  expect : W64
  deriving DecidableEq, Repr, Inhabited

/-- A deferred fault of a command (R168): class, qualifier, block and expansion point, pointer. -/
structure CmdFault where
  cls : Nat
  qual : Nat
  block : Nat
  point : Nat
  ptr : W64
  deriving DecidableEq, Repr, Inhabited

/-- A trap to be taken (R345, R349, R352): class, stream, qualifier and INFO bytes. -/
structure TrapReq where
  cls : Nat
  stream : StreamId
  qual : Nat
  info : List Byte
  deriving DecidableEq, Repr, Inhabited

/-- How a context was stopped for a save (R362 STOP). -/
inductive StopKind where
  | cooperative | forced | urgent | overrun | memproc | granule
  deriving DecidableEq, Repr, Inhabited

/-- One table entry the memory processor writes (R289): the location of its 8 bytes and its value. -/
structure PteWrite where
  loc : Nat
  entry : W64
  deriving DecidableEq, Repr, Inhabited

/-- A map request (R96, R265): the page, its frame, its attributes and the entries to write. -/
structure MapReq where
  part : Nat
  frame : Nat
  size : Nat
  exec : Option StreamId
  writes : List PteWrite
  deriving DecidableEq, Repr, Inhabited

/-- The memory processor's answer to a fault (R354). -/
inductive Answer where
  | mapped (writes : List PteWrite)
  | declined
  deriving DecidableEq, Repr, Inhabited

/-- A range a shootdown names (R301): VMID, ASID or all, first byte and length of the virtual range. -/
structure ShootReq where
  vmid : Nat
  asid : Option Nat
  va : Nat
  len : Nat
  writes : List PteWrite
  deriving DecidableEq, Repr, Inhabited

/-- A page migration (R247, R306): old and new frame, size, and the stage-2 entries of the new frame. -/
structure MigrateReq where
  oldFrame : Nat
  newFrame : Nat
  size : Nat
  writes : List PteWrite
  deriving DecidableEq, Repr, Inhabited

/-- An error a code found (R281, R282): where, how many bytes, correctable or not, the stage. -/
structure MemErr where
  loc : Nat
  len : Nat
  corrected : Bool
  stage : Nat
  deriving DecidableEq, Repr, Inhabited

/-- The unit a self-test examined and its outcome (R283). -/
inductive TestedUnit where
  | dramRow (loc len : Nat) (spare : Option Nat)
  | granule (core gran : Nat)
  | lane (port : Nat)
  deriving DecidableEq, Repr, Inhabited

/-- A received Ethernet frame (R185, R396). -/
structure EthFrame where
  die : Nat
  port : Nat
  bytes : List Byte
  fcsOk : Bool
  time : W64
  deriving DecidableEq, Repr, Inhabited

/-- Registers of the field maps that have no row of their own (R7, R338, R385). -/
inductive DevReg where
  | jlimit (die stream : Nat)
  | jhead (die stream : Nat)
  | jmode (die stream : Nat)
  | jdraw (die stream : Nat) (k : Fin 3)
  | slip (fn port off : Nat)
  | result (fn port : Nat)
  | compvec (fn port : Nat)
  | defvec (fn : Nat)
  | evcount (fn : Nat)
  | bootstat
  deriving DecidableEq, Repr, Inhabited

/-- What the configuration image carries, as far as the boot stages of R403 use it. -/
structure BootImage where
  bytes : List Byte
  formatOk : Bool
  partOk : Bool
  firmwareOk : Bool
  badDie : Option (Fin 4)
  mode : Nat
  rank : Nat
  domCount : Nat
  multiDomain : Bool
  routes : List Nat
  quotas : List Nat
  lowMarks : List Nat
  highMarks : List Nat
  dieLow : List Nat
  dieHigh : List Nat
  bmbx : List Nat
  defVecs : List W64
  s2Roots : List Nat
  ptp : Nat
  patch : Option (List Byte)
  deriving DecidableEq, Repr, Inhabited

/-- The configuration images a boot may find: that of the module's flash, and the one the host writes (R403 stage 2). -/
structure BootImages where
  flash : Option BootImage
  host : Option BootImage
  deriving DecidableEq, Repr, Inhabited

/-- The contributions of the other ranks to a collective, in rank order, as their payloads arrive on VC 2 (R181, R393), and whether commands differ. -/
structure PeerData where
  bufs : List (List Byte)
  mismatch : Bool
  deriving DecidableEq, Repr, Inhabited

/-- A general core of a die (R3, R337). -/
structure GpAt where
  die : Nat
  core : Nat
  deriving DecidableEq, Repr, Inhabited

/-- A catalogue entry of a die (R324). -/
structure NodeAt where
  die : Nat
  idx : Nat
  deriving DecidableEq, Repr, Inhabited

/-- A doubleword of a journal stream's JDRAW register (R338, R339). -/
structure JdrawAt where
  stream : Nat
  dw : Fin 4
  deriving DecidableEq, Repr, Inhabited

/-- Every step of the part: the instructions of the four maps (R87 to R95) and the steps no word encodes. -/
inductive Instr where
  -- C stream, INT family (R106)
  | add (d a b : SReg) | sub (d a b : SReg) | mul (d a b : SReg) | mulh (d a b : SReg)
  | div (d a b : SReg) | divu (d a b : SReg) | rem (d a b : SReg) | remu (d a b : SReg)
  | and (d a b : SReg) | or (d a b : SReg) | xor (d a b : SReg)
  | shl (d a b : SReg) | shr (d a b : SReg) | sra (d a b : SReg)
  | min (d a b : SReg) | max (d a b : SReg) | minu (d a b : SReg) | maxu (d a b : SReg)
  | slt (d a b : SReg) | sltu (d a b : SReg)
  | clz (d a : SReg) | ctz (d a : SReg) | popc (d a : SReg)
  | bext (d a b : SReg)
  -- immediates (R108, R109)
  | addi (d a : SReg) (imm : BitVec 12) | andi (d a : SReg) (imm : BitVec 12)
  | ori (d a : SReg) (imm : BitVec 12) | xori (d a : SReg) (imm : BitVec 12)
  | shli (d a : SReg) (sh : BitVec 6) | shri (d a : SReg) (sh : BitVec 6)
  | srai (d a : SReg) (sh : BitVec 6) | slti (d a : SReg) (imm : BitVec 12)
  | lui (d : SReg) (imm : BitVec 17) | li (d : SReg) (imm : BitVec 17) (ext : W32)
  -- FPR family (R110 to R113)
  | fadd (nf : Bool) (d a b : FReg) | fsub (nf : Bool) (d a b : FReg)
  | fmul (nf : Bool) (d a b : FReg) | ffma (nf : Bool) (d a b : FReg)
  | fdiv (nf : Bool) (d a b : FReg) | fsqrt (nf : Bool) (d a : FReg)
  | fmin (nf : Bool) (d a b : FReg) | fmax (nf : Bool) (d a b : FReg)
  | fcmpEq (nf : Bool) (d : SReg) (a b : FReg) | fcmpLt (nf : Bool) (d : SReg) (a b : FReg)
  | fcmpLe (nf : Bool) (d : SReg) (a b : FReg)
  | fcvtW (nf : Bool) (d : SReg) (a : FReg) | fcvtF (nf : Bool) (d : FReg) (a : SReg)
  | fclass (nf : Bool) (d : SReg) (a : FReg) | fmv (nf : Bool) (d a : FReg)
  | fsgnj (nf : Bool) (d a b : FReg)
  -- branches, jumps, loops (R114 to R117)
  | beq (a b : SReg) (off : BitVec 12) | bne (a b : SReg) (off : BitVec 12)
  | blt (a b : SReg) (off : BitVec 12) | bge (a b : SReg) (off : BitVec 12)
  | bltu (a b : SReg) (off : BitVec 12) | bgeu (a b : SReg) (off : BitVec 12)
  | jmp (off : BitVec 22) | jal (off : BitVec 22) | jr (a : SReg)
  | loop (a : SReg) (off : BitVec 12)
  -- scalar memory and atomics (R118 to R125)
  | ld (size : MemSize) (d a : SReg) (off : BitVec 10)
  | st (size : MemSize) (d a : SReg) (off : BitVec 10)
  | atAdd (d a b : SReg) (scope : Scope) (w32 : Bool)
  | atBinc (d a b : SReg) (scope : Scope) (w32 : Bool)
  | atCas (d a b : SReg) (scope : Scope) (w32 : Bool)
  | atSwp (d a b : SReg) (scope : Scope) (w32 : Bool)
  | atMax (d a b : SReg) (scope : Scope) (w32 : Bool)
  | atFadd (d a b : SReg) (scope : Scope)
  | atomicPerform (r : AtomReq)
  -- queues (R126)
  | qpush (q : QNo) (a : SReg) | qpop (d : SReg) (q : QNo) | qcnt (d : SReg) (q : QNo)
  -- synchronisation and system (R127 to R153)
  | phase (scope : Scope)
  | barInit (b : BarNo) (a : SReg) (scope : Scope) | barArr (b : BarNo) | barWt (b : BarNo)
  | barDl (b : BarNo) (a : SReg) (proceed : Bool)
  | barrierCompletion (home : Nat) | barrierDeadline (b : BarNo)
  | mbxSend (a b : SReg) | mbxRecv (d a : SReg) | mbxTry (d a : SReg)
  | rngNext (d : SReg) | nodeAdd (d a : SReg) | nodeDone | yield | tsc (d : SReg)
  | trap (a : SReg) | eret | brk | diffMode (mode : DMode) | waitEv (d a : SReg) | ctxSw
  | csrr (d : SReg) (csr : Csr) | csrw (csr : Csr) (a : SReg) | csrx (d : SReg) (csr : Csr) (a : SReg)
  -- A stream (R154 to R186)
  | gadd (d a b : GReg) | gsub (d a b : GReg) | gmul (d a b : GReg) | gshl (d a b : GReg)
  | gshr (d a b : GReg) | gand (d a b : GReg) | gor (d a b : GReg) | gmin (d a b : GReg)
  | gaddi (d a : GReg) (imm : BitVec 12) | gli (d : GReg) (imm : BitVec 17) (ext : W32)
  | gpop (d : GReg) (q : QNo) | gpush (q : QNo) (a : GReg)
  | gbEq (a b : GReg) (off : BitVec 12) | gbNe (a b : GReg) (off : BitVec 12)
  | gbLt (a b : GReg) (off : BitVec 12) | gbGe (a b : GReg) (off : BitVec 12)
  | gjmp (off : BitVec 22) | gloop (a : GReg) (off : BitVec 12)
  | laySet (l : LReg) (a : GReg) | bfSet (bank : BankNo) (fmt : Fmt)
  | cpIn (g : GReg) (bank : BankNo) (l : LReg) (tag : TagNo) (ser : Bool) (w1 : W32)
  | cpOut (g : GReg) (bank : BankNo) (l : LReg) (tag : TagNo) (ser : Bool) (w1 : W32)
  | cpBb (g : GReg) (bank : BankNo) (l : LReg) (tag : TagNo) (ser : Bool) (w1 : W32)
  | cpGth (g : GReg) (bank : BankNo) (l : LReg) (tag : TagNo) (ser : Bool) (w1 : W32)
  | cpSct (g : GReg) (bank : BankNo) (l : LReg) (tag : TagNo) (ser : Bool) (w1 : W32)
  | cpFill (g : GReg) (bank : BankNo) (l : LReg) (tag : TagNo) (ser : Bool) (w1 : W32)
  | copyCommandStart (id : Nat) | copyComplete (id : Nat) | deferredCopyFault (id : Nat) (f : CmdFault)
  | cpWait (d : GReg) (tag : TagNo)
  | seal (a : GReg)
  | shdOpen (a : GReg) | shdPub (a : GReg) (scope : Scope) | shdPubn (a b : GReg) (scope : Scope)
  | shdDrop (a : GReg)
  | bktSet (a b : GReg) (scope : Scope) | bucketFire (base : W64)
  | colRed (g : GReg) (comm : BankNo) (l : LReg) (tag : TagNo) (ser : Bool) (w1 : BitVec 28)
  | colRs (g : GReg) (comm : BankNo) (l : LReg) (tag : TagNo) (ser : Bool) (w1 : BitVec 28)
  | colAg (g : GReg) (comm : BankNo) (l : LReg) (tag : TagNo) (ser : Bool) (w1 : BitVec 28)
  | colBc (g : GReg) (comm : BankNo) (l : LReg) (tag : TagNo) (ser : Bool) (w1 : BitVec 28)
  | collectiveComplete (id : Nat) (peers : PeerData)
  | colWait (d : GReg) (tag : TagNo) | colArb (a : GReg)
  | pktArm (a : GReg) | pktWait (d : GReg)
  -- M stream (R187 to R214)
  | mmaZ (nf : Bool) (k : KReg) (asel : Sel) (adir : Dir) (bsel : Sel) (bdir : Dir)
  | mmaC (nf : Bool) (k : KReg) (asel : Sel) (adir : Dir) (bsel : Sel) (bdir : Dir)
  | fold (d a b : KReg) | foldP (d a : KReg)
  | cixSet (imm : BitVec 17) | cixSetQ (q : QNo)
  | lds (m : MReg) (bank : BankNo) (row : Byte) | ldsSp (m : MReg) (bank : BankNo) (row : Byte) (mb : BitVec 3)
  | slotLoadComplete (id : Nat)
  | accLd (k : KReg) (bank : BankNo) (row : Byte) | accRel (k : KReg) | accPairReturn (pair : Nat)
  | slotClm (m : MReg) | slotRel (m : MReg) | slotGranuleReturn (gran : Nat)
  | patSet (p : PReg) (spec : PatSpec)
  | patOh (p : PReg) (bank : BankNo) (row : Byte) (trapOnRange : Bool) (q6 : Bool)
  | lseAcq | lseRel | leaseGrant (die bay : Nat)
  | mbQNz (q : QNo) (off : BitVec 12) | mbQZ (q : QNo) (off : BitVec 12)
  | mloop (q : QNo) (off : BitVec 12) | mjmp (off : BitVec 22)
  | arrayCommandStart (id : Nat) | arrayCommandComplete (id : Nat)
  | foldStart (id : Nat) | foldComplete (id : Nat)
  -- S stream (R215 to R236)
  | vadd (nf : Bool) (d a b : VReg) | vsub (nf : Bool) (d a b : VReg) | vmul (nf : Bool) (d a b : VReg)
  | vfma (nf : Bool) (d a b c : VReg) | vmax (nf : Bool) (d a b : VReg) | vmin (nf : Bool) (d a b : VReg)
  | vcmp (nf : Bool) (d a b : VReg) (cond : VCond) | vsel (nf : Bool) (d a b c : VReg)
  | vfld (nf : Bool) (d a b : VReg) (wm1 : BitVec 4) | vrcp (nf : Bool) (d a : VReg) | vrsq (nf : Bool) (d a : VReg)
  | vcvt (nf : Bool) (d a : VReg) (sat : Bool) (fmt : Fmt) | vmov (nf : Bool) (d a : VReg)
  | vbc (nf : Bool) (d : VReg) (q : QNo)
  | vld (d : VReg) (bank : BankNo) (row : Byte) | vst (a : VReg) (bank : BankNo) (row : Byte) (aux : StAux)
  | rtRow (nf : Bool) (d : VReg) (k : KReg) (row : BitVec 7)
  | rtSt (k : KReg) (bank : BankNo) (row : Byte) (aux : StAux) | rtStRetire
  | histAdd (nf : Bool) (a : VReg) | histRd (nf : Bool) (ctr : Byte) | histClr (nf : Bool)
  | flgRd (nf : Bool) (d : VReg) | flgClr (nf : Bool)
  | sbQNz (q : QNo) (off : BitVec 12) | sbQZ (q : QNo) (off : BitVec 12)
  | sloop (q : QNo) (off : BitVec 12) | sjmp (off : BitVec 22) | sclSet (nf : Bool) (q : QNo)
  -- steps of the core that no word encodes
  | retirementTokenGive (x : StreamId) | resultLanding
  -- memory system
  | parkedWritePlace (part : Nat) | outOfSpaceExpiry (part : Nat) | ballooningEngine (part : Nat)
  | balloonMessage (part : Nat) (msg : BitVec 63)
  | expanderBlockDecode (id : Nat) | versionFold
  -- scheduling
  | yieldDeadline | priorityAging | dispatch (die : Nat) | forcedStopOverrun | contextSave (stop : StopKind)
  | nodeFinish (die idx : Nat) | memoryProcessorPreemption (die idx : Nat)
  -- traps
  | trapEntry (t : TrapReq) | timedRestart (die bay : Nat) | interruptEntry | asyncTrap
  | memoryProcessorAnswer (launch : Nat) (ans : Answer)
  -- errata, mapping, errors
  | patchImageLoad (image : List Byte) | epochTransitionClose
  | mapRequest (r : MapReq) | shootdown (r : ShootReq) | pageMigration (r : MigrateReq)
  | memoryError (e : MemErr) | selfTest (unit : TestedUnit) (lasting : Bool)
  -- links, network, clock, host
  | flitReceive (port : Nat) (bytes : List Byte) | linkRetrain (port : Nat) (goodLanes : Nat) | linkLoss (port : Nat)
  | frameReceive (f : EthFrame) | frameTransmit (die : Nat) (bytes : List Byte) (descr : Nat)
  | ptpClockDiscipline (ns : Nat)
  | submit (fn port : Nat) (word : W32) | doorbell (fn : Nat) (word : W64)
  | hostBar2Write (fn : Nat) (asid : Nat) (ptr : W64) (bytes : List Byte)
  | hostTranslationRequest (fn : Nat) (asid : Nat) (va : W64) | revocationConfirm (seq : Nat)
  | hostLinkDown (link : Nat)
  | registerWrite (reg : DevReg) (value : W64)
  | mailboxBind (die box : Nat) (word : W64)
  | send (die core : Nat) (asid : Nat) (box : Nat) (stores : List (W64 × Byte)) (msg : W64)
  | recv (die core : Nat) (box : Nat)
  | jbase (die stream : Nat) (value : W64) | jdrawCommit (gp : GpAt) (stream : Nat) (dw3 : W64)
  | jdrawReplay (die : Nat) (reg : JdrawAt) | jstat (die stream : Nat) (value : BitVec 3)
  | attestationRequest (nonce : List Byte) | certificateRequest
  | resetRelease (images : BootImages) | powerRemoval
  | quotaEnlargement (part : Nat) (grant : Option Nat)
  | generalInstanceEnd (node : NodeAt) (stores : List (W64 × Byte)) | asidRegistration (fn asid : Nat)
  | pinRequest (part : Nat) (frame len : Nat) | communicatorTableSet (die entry : Nat) (ranks : List Nat)
  deriving DecidableEq, Repr, Inhabited

end Sys2Proof
end

