-- ==== Sys2Proof/WellFormed.lean ====
section
/-!
DEFINITION. The conditions of R96 that the types of Syntax.lean do not already carry: queues a stream may name (R85), loop offsets, reserved register numbers and codes, the combinations of R93.
-/
namespace Sys2Proof

/-- A loop offset is 1 to 2,047 (R87, R91, R92, R94, R96). -/
def loopOffOk (off : BitVec 12) : Bool := decide (1 ≤ off.toNat) && decide (off.toNat ≤ 2047)

/-- Queues the M stream pops (R85, R92). -/
def mQueueOk (q : QNo) : Bool := q == 2 || q == 6

/-- Queues the S stream pops (R85, R94). -/
def sQueueOk (q : QNo) : Bool := q == 4 || q == 7

/-- Format codes VCVT takes: 2 to 8 (R95). -/
def vcvtFmtOk : Fmt → Bool
  | .bf16 | .fp16 | .e4m3 | .e5m2 | .int8 | .int32 | .dsh8 => true
  | .raw | .fp32 | .e4m3s | .e5m2s => false

/-- The combinations R93 accepts. -/
def patSpecOk : PatSpec → Bool
  | .none | .ones | .ltri | .utri | .sltri => true
  | .ident off => off != 0x80#8
  | .perm q => mQueueOk q
  | .band count _ => decide (1 ≤ count.toNat) && decide (count.toNat ≤ 9)

/-- Is a selector with its direction legal: `.w` on a pattern is reserved (R83). -/
def opndOk : Sel → Dir → Bool
  | .pat _, .w => false
  | _, _ => true

/-- Do both selectors name patterns: reserved (R82). -/
def bothPat : Sel → Sel → Bool
  | .pat _, .pat _ => true
  | _, _ => false

/-- The product words R82 and R83 accept: not both selectors patterns, no `.w` on a pattern. -/
def mmaOk (asel : Sel) (adir : Dir) (bsel : Sel) (bdir : Dir) : Bool :=
  !(bothPat asel bsel || !opndOk asel adir || !opndOk bsel bdir)

/-- Which terms the encoding of their row admits (R85, R93 to R96). The steps no word encodes carry no such condition. -/
def Instr.wf : Instr → Bool
  | .add _ _ _ => true
  | .sub _ _ _ => true
  | .mul _ _ _ => true
  | .mulh _ _ _ => true
  | .div _ _ _ => true
  | .divu _ _ _ => true
  | .rem _ _ _ => true
  | .remu _ _ _ => true
  | .and _ _ _ => true
  | .or _ _ _ => true
  | .xor _ _ _ => true
  | .shl _ _ _ => true
  | .shr _ _ _ => true
  | .sra _ _ _ => true
  | .min _ _ _ => true
  | .max _ _ _ => true
  | .minu _ _ _ => true
  | .maxu _ _ _ => true
  | .slt _ _ _ => true
  | .sltu _ _ _ => true
  | .clz _ _ => true
  | .ctz _ _ => true
  | .popc _ _ => true
  | .bext _ _ _ => true
  | .addi _ _ _ => true
  | .andi _ _ _ => true
  | .ori _ _ _ => true
  | .xori _ _ _ => true
  | .shli _ _ _ => true
  | .shri _ _ _ => true
  | .srai _ _ _ => true
  | .slti _ _ _ => true
  | .lui _ _ => true
  | .li _ _ _ => true
  | .fadd _ _ _ _ => true
  | .fsub _ _ _ _ => true
  | .fmul _ _ _ _ => true
  | .ffma _ _ _ _ => true
  | .fdiv _ _ _ _ => true
  | .fsqrt _ _ _ => true
  | .fmin _ _ _ _ => true
  | .fmax _ _ _ _ => true
  | .fcmpEq _ _ _ _ => true
  | .fcmpLt _ _ _ _ => true
  | .fcmpLe _ _ _ _ => true
  | .fcvtW _ _ _ => true
  | .fcvtF _ _ _ => true
  | .fclass _ _ _ => true
  | .fmv _ _ _ => true
  | .fsgnj _ _ _ _ => true
  | .beq _ _ _ => true
  | .bne _ _ _ => true
  | .blt _ _ _ => true
  | .bge _ _ _ => true
  | .bltu _ _ _ => true
  | .bgeu _ _ _ => true
  | .jmp _ => true
  | .jal _ => true
  | .jr _ => true
  | .loop _ off => loopOffOk off
  | .ld _ _ _ _ => true
  | .st _ _ _ _ => true
  | .atAdd _ _ _ _ _ => true
  | .atBinc _ _ _ _ _ => true
  | .atCas _ _ _ _ _ => true
  | .atSwp _ _ _ _ _ => true
  | .atMax _ _ _ _ _ => true
  | .atFadd _ _ _ _ => true
  | .atomicPerform _ => true
  | .qpush q _ => q == 0 || q == 2 || q == 4
  | .qpop _ q => q == 1 || q == 3 || q == 5
  | .qcnt _ q => decide (q.val ≤ 5)
  | .phase _ => true
  | .barInit _ _ _ => true
  | .barArr _ => true
  | .barWt _ => true
  | .barDl _ _ _ => true
  | .barrierCompletion _ => true
  | .barrierDeadline _ => true
  | .mbxSend _ _ => true
  | .mbxRecv _ _ => true
  | .mbxTry _ _ => true
  | .rngNext d => decide (1 ≤ d.val) && decide (d.val ≤ 30)
  | .nodeAdd _ _ => true
  | .nodeDone => true
  | .yield => true
  | .tsc _ => true
  | .trap _ => true
  | .eret => true
  | .brk => true
  | .diffMode _ => true
  | .waitEv _ _ => true
  | .ctxSw => true
  | .csrr _ _ => true
  | .csrw _ _ => true
  | .csrx _ _ _ => true
  | .gadd _ _ _ => true
  | .gsub _ _ _ => true
  | .gmul _ _ _ => true
  | .gshl _ _ _ => true
  | .gshr _ _ _ => true
  | .gand _ _ _ => true
  | .gor _ _ _ => true
  | .gmin _ _ _ => true
  | .gaddi _ _ _ => true
  | .gli _ _ _ => true
  | .gpop _ q => q == 0
  | .gpush q _ => q == 1 || q == 6 || q == 7
  | .gbEq _ _ _ => true
  | .gbNe _ _ _ => true
  | .gbLt _ _ _ => true
  | .gbGe _ _ _ => true
  | .gjmp _ => true
  | .gloop _ off => loopOffOk off
  | .laySet _ _ => true
  | .bfSet _ _ => true
  | .cpIn _ _ _ _ _ _ => true
  | .cpOut _ _ _ _ _ _ => true
  | .cpBb _ _ _ _ _ _ => true
  | .cpGth _ _ _ _ _ _ => true
  | .cpSct _ _ _ _ _ _ => true
  | .cpFill _ _ _ _ _ _ => true
  | .copyCommandStart _ => true
  | .copyComplete _ => true
  | .deferredCopyFault _ _ => true
  | .cpWait _ _ => true
  | .seal _ => true
  | .shdOpen _ => true
  | .shdPub _ _ => true
  | .shdPubn _ _ _ => true
  | .shdDrop _ => true
  | .bktSet _ _ _ => true
  | .bucketFire _ => true
  | .colRed _ _ _ _ _ w1 => w1.toNat % 2 ^ 11 == 0
  | .colRs _ _ _ _ _ w1 => w1.toNat % 2 ^ 11 == 0
  | .colAg _ _ _ _ _ w1 => w1.toNat % 2 ^ 11 == 0
  | .colBc _ _ _ _ _ w1 => w1.toNat % 2 ^ 11 == 0
  | .collectiveComplete _ _ => true
  | .colWait _ _ => true
  | .colArb _ => true
  | .pktArm _ => true
  | .pktWait _ => true
  | .mmaZ _ _ asel adir bsel bdir => mmaOk asel adir bsel bdir
  | .mmaC _ _ asel adir bsel bdir => mmaOk asel adir bsel bdir
  | .fold _ _ _ => true
  | .foldP _ _ => true
  | .cixSet _ => true
  | .cixSetQ q => mQueueOk q
  | .lds _ _ _ => true
  | .ldsSp _ _ _ mb => mb != 0#3
  | .slotLoadComplete _ => true
  | .accLd _ _ _ => true
  | .accRel _ => true
  | .accPairReturn _ => true
  | .slotClm _ => true
  | .slotRel _ => true
  | .slotGranuleReturn _ => true
  | .patSet _ spec => patSpecOk spec
  | .patOh _ _ _ _ _ => true
  | .lseAcq => true
  | .lseRel => true
  | .leaseGrant _ _ => true
  | .mbQNz q _ => mQueueOk q
  | .mbQZ q _ => mQueueOk q
  | .mloop q off => mQueueOk q && loopOffOk off
  | .mjmp _ => true
  | .arrayCommandStart _ => true
  | .arrayCommandComplete _ => true
  | .foldStart _ => true
  | .foldComplete _ => true
  | .vadd _ _ _ _ => true
  | .vsub _ _ _ _ => true
  | .vmul _ _ _ _ => true
  | .vfma _ _ _ _ _ => true
  | .vmax _ _ _ _ => true
  | .vmin _ _ _ _ => true
  | .vcmp _ _ _ _ _ => true
  | .vsel _ _ _ _ _ => true
  | .vfld _ _ _ _ _ => true
  | .vrcp _ _ _ => true
  | .vrsq _ _ _ => true
  | .vcvt _ _ _ _ fmt => vcvtFmtOk fmt
  | .vmov _ _ _ => true
  | .vbc _ _ q => sQueueOk q
  | .vld _ _ _ => true
  | .vst _ _ _ _ => true
  | .rtRow _ _ _ _ => true
  | .rtSt _ _ _ _ => true
  | .rtStRetire => true
  | .histAdd _ _ => true
  | .histRd _ ctr => decide (ctr.toNat ≤ 33)
  | .histClr _ => true
  | .flgRd _ _ => true
  | .flgClr _ => true
  | .sbQNz q _ => sQueueOk q
  | .sbQZ q _ => sQueueOk q
  | .sloop q off => sQueueOk q && loopOffOk off
  | .sjmp _ => true
  | .sclSet _ q => sQueueOk q
  | .retirementTokenGive _ => true
  | .resultLanding => true
  | .parkedWritePlace _ => true
  | .outOfSpaceExpiry _ => true
  | .ballooningEngine _ => true
  | .balloonMessage _ _ => true
  | .expanderBlockDecode _ => true
  | .versionFold => true
  | .yieldDeadline => true
  | .priorityAging => true
  | .dispatch _ => true
  | .forcedStopOverrun => true
  | .contextSave _ => true
  | .nodeFinish _ _ => true
  | .trapEntry _ => true
  | .timedRestart _ _ => true
  | .interruptEntry => true
  | .asyncTrap => true
  | .memoryProcessorAnswer _ _ => true
  | .patchImageLoad _ => true
  | .epochTransitionClose => true
  | .mapRequest _ => true
  | .shootdown _ => true
  | .pageMigration _ => true
  | .memoryError _ => true
  | .selfTest _ _ => true
  | .flitReceive _ _ => true
  | .linkRetrain _ _ => true
  | .linkLoss _ => true
  | .frameReceive _ => true
  | .frameTransmit _ _ _ => true
  | .ptpClockDiscipline _ => true
  | .submit _ _ _ => true
  | .doorbell _ _ => true
  | .hostBar2Write _ _ _ _ => true
  | .hostTranslationRequest _ _ _ => true
  | .revocationConfirm _ => true
  | .hostLinkDown _ => true
  | .registerWrite _ _ => true
  | .mailboxBind _ _ _ => true
  | .send _ _ _ _ _ _ => true
  | .recv _ _ _ => true
  | .jbase _ _ _ => true
  | .jdrawCommit _ _ _ => true
  | .jdrawReplay _ _ => true
  | .jstat _ _ _ => true
  | .attestationRequest _ => true
  | .certificateRequest => true
  | .resetRelease _ => true
  | .powerRemoval => true
  | .memoryProcessorPreemption _ _ => true
  | .quotaEnlargement _ _ => true
  | .generalInstanceEnd _ _ => true
  | .asidRegistration _ _ => true
  | .pinRequest _ _ _ => true
  | .communicatorTableSet _ _ _ => true

end Sys2Proof
end

