-- ==== Sys2Proof/Decode.lean ====
section
/-!
DEFINITION. The decoder (R74 to R95): one map for each stream class, total on any word, `none` where R96 refuses the word; after it the encoder, written from the same tables. Words are read as natural numbers; a field is a division and a remainder.
-/
namespace Sys2Proof

/-- Bits lo to lo + n - 1 of a word (R6, R79). -/
def fld (w lo n : Nat) : Nat := w / 2 ^ lo % 2 ^ n

theorem fld_lt (w lo n : Nat) : fld w lo n < 2 ^ n := Nat.mod_lt _ (Nat.two_pow_pos n)

/-- A five-bit field as a register number of a family of 32 (R80). -/
def reg32 (w lo : Nat) : Fin 32 := ⟨fld w lo 5, fld_lt w lo 5⟩
/-- A four-bit field of format FV (R80). -/
def reg16v (w lo : Nat) : Fin 16 := ⟨fld w lo 4, fld_lt w lo 4⟩
/-- What the scanner finds in a word: the instruction, or the rule that refuses it (R96). -/
abbrev Scan := Except ScanRule

/-- Name the rule a value breaks. -/
def orRule {α : Type} (r : ScanRule) : Option α → Scan α
  | some x => .ok x
  | none => .error r

/-- A five-bit field naming a family of 16; a larger number is reserved (R80). -/
def reg16 (w lo : Nat) : Scan (Fin 16) :=
  if h : fld w lo 5 < 16 then .ok ⟨fld w lo 5, h⟩ else .error .register
/-- A field of n bits naming a family of 8; a larger number breaks a rule (R80, R85). -/
def reg8 (r : ScanRule) (w lo n : Nat) : Scan (Fin 8) :=
  if h : fld w lo n < 8 then .ok ⟨fld w lo n, h⟩ else .error r
/-- The bank field of FC and FS (R80). -/
def bank6 (w lo : Nat) : BankNo := ⟨fld w lo 6, fld_lt w lo 6⟩
/-- The copy tag of FC and of the waits (R79). -/
def tag7 (w lo : Nat) : TagNo := ⟨fld w lo 7, fld_lt w lo 7⟩
/-- A barrier number (R131). -/
def bar9 (w : Nat) : BarNo := ⟨fld w 0 9, fld_lt w 0 9⟩
/-- The layout register of FC (R79). -/
def lay3 (w : Nat) : LReg := ⟨fld w 8 3, fld_lt w 8 3⟩

/-- A scope code (R84). -/
def scopeOf : Nat → Option Scope
  | 0 => some .core
  | 1 => some .bay
  | 2 => some .die
  | 3 => some .dev
  | 4 => some .dom
  | _ => none

/-- An FMT code (R56). -/
def fmtOf : Nat → Option Fmt
  | 0 => some .raw
  | 1 => some .fp32
  | 2 => some .bf16
  | 3 => some .fp16
  | 4 => some .e4m3
  | 5 => some .e5m2
  | 6 => some .int8
  | 7 => some .int32
  | 8 => some .dsh8
  | 9 => some .e4m3s
  | 10 => some .e5m2s
  | _ => none

/-- A size code of LD and ST (R118). -/
def sizeOf2 : Nat → MemSize
  | 0 => .b
  | 1 => .h
  | 2 => .w
  | _ => .d

/-- A CSR number (R42). -/
def csrOf : Nat → Option Csr
  | 0x000 => some .ctxclass
  | 0x001 => some .status
  | 0x002 => some .vrank
  | 0x003 => some .vcount
  | 0x004 => some .part
  | 0x010 => some .frnd
  | 0x011 => some .fflags
  | 0x020 => some .scaleRcp
  | 0x030 => some .dmode
  | 0x031 => some .tapeBase
  | 0x032 => some .tapeLimit
  | 0x033 => some .tapeHead
  | 0x034 => some .adjRoot
  | 0x040 => some .patchEpoch
  | 0x050 => some .yieldDl
  | 0x060 => some .expStall
  | 0x070 => some .trapVec
  | 0x071 => some .trapCause
  | _ => none

/-- A DIFF.MODE mode (R151). -/
def dmodeOf : Nat → Option DMode
  | 0 => some .off
  | 1 => some .fwd
  | 2 => some .rev
  | _ => none

/-- A direction code (R83). -/
def dirOf : Nat → Option Dir
  | 0 => some .r
  | 1 => some .c
  | 2 => some .w
  | _ => none

/-- A matrix selector (R82). -/
def selOf (n : Nat) : Option Sel :=
  if h : n < 32 then some (.slot ⟨n, h⟩)
  else if h : n - 32 < 8 then some (.pat ⟨n - 32, h⟩)
  else none

/-- A VCMP condition (R218). -/
def vcondOf : Nat → Option VCond
  | 0 => some .eq
  | 1 => some .lt
  | 2 => some .le
  | 3 => some .un
  | _ => none

/-- The aux field of VST and RT.ST (R225). -/
def stAuxOf (n : Nat) : StAux := ⟨n % 2 == 1, n / 2 % 2 == 1, n / 4 % 2 == 1⟩

/-- A zero field must be zero (R86). -/
def zeroField (n : Nat) (i : Scan Instr) : Scan Instr := if n = 0 then i else .error .zeroField

/-- A decoded term counts only when it is well formed (R96). -/
def keepWf (r : ScanRule) (i : Instr) : Scan Instr := if i.wf then .ok i else .error r

/-- What refuses a loop word of the M or S stream: its offset, or its queue (R96). -/
def loopRule (off : BitVec 12) : ScanRule := if off.slt 1#12 then .loopOffset else .reserved

/-- The INT family (R88). -/
def decInt (w : Nat) : Scan Instr :=
  let d := reg32 w 17
  let a := reg32 w 12
  let b := reg32 w 7
  match fld w 0 7 with
  | 0 => .ok (.add d a b)
  | 1 => .ok (.sub d a b)
  | 2 => .ok (.mul d a b)
  | 3 => .ok (.mulh d a b)
  | 4 => .ok (.div d a b)
  | 5 => .ok (.divu d a b)
  | 6 => .ok (.rem d a b)
  | 7 => .ok (.remu d a b)
  | 8 => .ok (.and d a b)
  | 9 => .ok (.or d a b)
  | 10 => .ok (.xor d a b)
  | 11 => .ok (.shl d a b)
  | 12 => .ok (.shr d a b)
  | 13 => .ok (.sra d a b)
  | 14 => .ok (.min d a b)
  | 15 => .ok (.max d a b)
  | 16 => .ok (.minu d a b)
  | 17 => .ok (.maxu d a b)
  | 18 => .ok (.slt d a b)
  | 19 => .ok (.sltu d a b)
  | 20 => zeroField (fld w 7 5) (.ok (.clz d a))
  | 21 => zeroField (fld w 7 5) (.ok (.ctz d a))
  | 22 => zeroField (fld w 7 5) (.ok (.popc d a))
  | 23 => .ok (.bext d a b)
  | _ => .error .selector

/-- The FPR family (R89): fn bit 6 is nf, bits 5:4 are a zero field. -/
def decFpr (w : Nat) : Scan Instr :=
  let nf := fld w 6 1 == 1
  zeroField (fld w 4 2) <|
  match fld w 0 4 with
  | 0 => do return .fadd nf (← reg16 w 17) (← reg16 w 12) (← reg16 w 7)
  | 1 => do return .fsub nf (← reg16 w 17) (← reg16 w 12) (← reg16 w 7)
  | 2 => do return .fmul nf (← reg16 w 17) (← reg16 w 12) (← reg16 w 7)
  | 3 => do return .ffma nf (← reg16 w 17) (← reg16 w 12) (← reg16 w 7)
  | 4 => do return .fdiv nf (← reg16 w 17) (← reg16 w 12) (← reg16 w 7)
  | 5 => zeroField (fld w 7 5) (do return .fsqrt nf (← reg16 w 17) (← reg16 w 12))
  | 6 => do return .fmin nf (← reg16 w 17) (← reg16 w 12) (← reg16 w 7)
  | 7 => do return .fmax nf (← reg16 w 17) (← reg16 w 12) (← reg16 w 7)
  | 8 => do return .fcmpEq nf (reg32 w 17) (← reg16 w 12) (← reg16 w 7)
  | 9 => do return .fcmpLt nf (reg32 w 17) (← reg16 w 12) (← reg16 w 7)
  | 10 => do return .fcmpLe nf (reg32 w 17) (← reg16 w 12) (← reg16 w 7)
  | 11 => zeroField (fld w 7 5) (do return .fcvtW nf (reg32 w 17) (← reg16 w 12))
  | 12 => zeroField (fld w 7 5) (do return .fcvtF nf (← reg16 w 17) (reg32 w 12))
  | 13 => zeroField (fld w 7 5) (do return .fclass nf (reg32 w 17) (← reg16 w 12))
  | 14 => zeroField (fld w 7 5) (do return .fmv nf (← reg16 w 17) (← reg16 w 12))
  | 15 => do return .fsgnj nf (← reg16 w 17) (← reg16 w 12) (← reg16 w 7)
  | _ => .error .selector

/-- ATOM (R90). -/
def decAtom (w : Nat) : Scan Instr := do
  let d := reg32 w 17
  let a := reg32 w 12
  let b := reg32 w 7
  let sc ← orRule .scope (scopeOf (fld w 1 3))
  let w32 := fld w 0 1 == 1
  match fld w 4 3 with
  | 0 => .ok (.atAdd d a b sc w32)
  | 1 => .ok (.atBinc d a b sc w32)
  | 2 => .ok (.atCas d a b sc w32)
  | 3 => .ok (.atSwp d a b sc w32)
  | 4 => .ok (.atMax d a b sc w32)
  | 5 => if w32 then .ok (.atFadd d a b sc) else .error .combination
  | _ => .error .reserved

/-- The C-stream map (R87). -/
def decC (w ext : Nat) : Scan Instr :=
  let d := reg32 w 17
  let a := reg32 w 12
  let b := reg32 w 7
  let imm := BitVec.ofNat 12 (fld w 0 12)
  let off := imm
  let off22 := BitVec.ofNat 22 (fld w 0 22)
  let fn := fld w 0 7
  match fld w 22 6 with
  | 0x00 => decInt w
  | 0x01 => .ok (.addi d a imm)
  | 0x02 => .ok (.andi d a imm)
  | 0x03 => .ok (.ori d a imm)
  | 0x04 => .ok (.xori d a imm)
  | 0x05 => zeroField (fld w 6 6) (.ok (.shli d a (BitVec.ofNat 6 (fld w 0 6))))
  | 0x06 => zeroField (fld w 6 6) (.ok (.shri d a (BitVec.ofNat 6 (fld w 0 6))))
  | 0x07 => zeroField (fld w 6 6) (.ok (.srai d a (BitVec.ofNat 6 (fld w 0 6))))
  | 0x08 => .ok (.slti d a imm)
  | 0x09 => .ok (.lui d (BitVec.ofNat 17 (fld w 0 17)))
  | 0x0A => .ok (.li d (BitVec.ofNat 17 (fld w 0 17)) (BitVec.ofNat 32 ext))
  | 0x0B => decFpr w
  | 0x0C => .ok (.beq d a off)
  | 0x0D => .ok (.bne d a off)
  | 0x0E => .ok (.blt d a off)
  | 0x0F => .ok (.bge d a off)
  | 0x10 => .ok (.bltu d a off)
  | 0x11 => .ok (.bgeu d a off)
  | 0x12 => .ok (.jmp off22)
  | 0x13 => .ok (.jal off22)
  | 0x14 => zeroField (fld w 17 5) (zeroField (fld w 0 12) (.ok (.jr a)))
  | 0x15 => zeroField (fld w 12 5) (keepWf .loopOffset (.loop d off))
  | 0x16 => .ok (.ld (sizeOf2 (fld w 10 2)) d a (BitVec.ofNat 10 (fld w 0 10)))
  | 0x17 => .ok (.st (sizeOf2 (fld w 10 2)) d a (BitVec.ofNat 10 (fld w 0 10)))
  | 0x18 => decAtom w
  | 0x19 =>
    match fn with
    | 0 => zeroField (fld w 17 5) (do keepWf .queue (.qpush (← reg8 .queue w 7 5) a))
    | 1 => zeroField (fld w 12 5) (do keepWf .queue (.qpop d (← reg8 .queue w 7 5)))
    | 2 => zeroField (fld w 12 5) (do keepWf .queue (.qcnt d (← reg8 .queue w 7 5)))
    | _ => .error .selector
  | 0x1A => zeroField (fld w 3 19) (do return .phase (← orRule .scope (scopeOf (fld w 0 3))))
  | 0x1B =>
    match fld w 9 3 with
    | 0 => do return .barInit (bar9 w) a (← orRule .reserved (scopeOf (fld w 17 5)))
    | 1 => zeroField (fld w 12 10) (.ok (.barArr (bar9 w)))
    | 2 => zeroField (fld w 12 10) (.ok (.barWt (bar9 w)))
    | 3 => zeroField (fld w 18 4) (.ok (.barDl (bar9 w) a (fld w 17 1 == 1)))
    | _ => .error .reserved
  | 0x1C =>
    match fn with
    | 0 => zeroField (fld w 17 5) (.ok (.mbxSend a b))
    | 1 => zeroField (fld w 7 5) (.ok (.mbxRecv d a))
    | 2 => zeroField (fld w 7 5) (.ok (.mbxTry d a))
    | _ => .error .selector
  | 0x1D =>
    match fn with
    | 0 => zeroField (fld w 7 10) (keepWf .reserved (.rngNext d))
    | 1 => zeroField (fld w 7 5) (.ok (.nodeAdd d a))
    | 2 => zeroField (fld w 7 15) (.ok .nodeDone)
    | 3 => zeroField (fld w 7 15) (.ok .yield)
    | 4 => zeroField (fld w 7 10) (.ok (.tsc d))
    | _ => .error .selector
  | 0x1E =>
    match fn with
    | 0 => zeroField (fld w 17 5) (zeroField (fld w 7 5) (.ok (.trap a)))
    | 1 => zeroField (fld w 7 15) (.ok .eret)
    | 2 => zeroField (fld w 7 15) (.ok .brk)
    | 3 => zeroField (fld w 12 10) (do return .diffMode (← orRule .reserved (dmodeOf (fld w 7 5))))
    | 4 => zeroField (fld w 7 5) (.ok (.waitEv d a))
    | 5 => zeroField (fld w 7 15) (.ok .ctxSw)
    | _ => .error .selector
  | 0x1F => zeroField (fld w 12 5) (do return .csrr d (← orRule .csr (csrOf (fld w 0 12))))
  | 0x20 => zeroField (fld w 17 5) (do return .csrw (← orRule .csr (csrOf (fld w 0 12))) a)
  | 0x21 => do return .csrx d (← orRule .csr (csrOf (fld w 0 12))) a
  | _ => .error .major

/-- A COL word (R91, R180): word 1 bits 31:28 name the operation. -/
def decCol (w ext : Nat) : Scan Instr := do
  let g ← reg16 w 17
  let w1 := BitVec.ofNat 28 (fld ext 0 28)
  let ser := fld w 0 1 == 1
  zeroField (fld ext 0 11) <|
  match fld ext 28 4 with
  | 0 => .ok (.colRed g (bank6 w 11) (lay3 w) (tag7 w 1) ser w1)
  | 1 => .ok (.colRs g (bank6 w 11) (lay3 w) (tag7 w 1) ser w1)
  | 2 => .ok (.colAg g (bank6 w 11) (lay3 w) (tag7 w 1) ser w1)
  | 3 => .ok (.colBc g (bank6 w 11) (lay3 w) (tag7 w 1) ser w1)
  | _ => .error .reserved

/-- The A-stream map (R91). -/
def decA (w ext : Nat) : Scan Instr :=
  let imm := BitVec.ofNat 12 (fld w 0 12)
  let off22 := BitVec.ofNat 22 (fld w 0 22)
  let fn := fld w 0 7
  let ser := fld w 0 1 == 1
  let w1 := BitVec.ofNat 32 ext
  match fld w 22 6 with
  | 0x00 =>
    match fn with
    | 0 => do return .gadd (← reg16 w 17) (← reg16 w 12) (← reg16 w 7)
    | 1 => do return .gsub (← reg16 w 17) (← reg16 w 12) (← reg16 w 7)
    | 2 => do return .gmul (← reg16 w 17) (← reg16 w 12) (← reg16 w 7)
    | 3 => do return .gshl (← reg16 w 17) (← reg16 w 12) (← reg16 w 7)
    | 4 => do return .gshr (← reg16 w 17) (← reg16 w 12) (← reg16 w 7)
    | 5 => do return .gand (← reg16 w 17) (← reg16 w 12) (← reg16 w 7)
    | 6 => do return .gor (← reg16 w 17) (← reg16 w 12) (← reg16 w 7)
    | 7 => do return .gmin (← reg16 w 17) (← reg16 w 12) (← reg16 w 7)
    | _ => .error .selector
  | 0x01 => do return .gaddi (← reg16 w 17) (← reg16 w 12) imm
  | 0x02 => do return .gli (← reg16 w 17) (BitVec.ofNat 17 (fld w 0 17)) (BitVec.ofNat 32 ext)
  | 0x03 =>
    match fn with
    | 0 => zeroField (fld w 12 5) (do keepWf .queue (.gpop (← reg16 w 17) (← reg8 .queue w 7 5)))
    | 1 => zeroField (fld w 17 5) (do keepWf .queue (.gpush (← reg8 .queue w 7 5) (← reg16 w 12)))
    | _ => .error .selector
  | 0x04 => do return .gbEq (← reg16 w 17) (← reg16 w 12) imm
  | 0x05 => do return .gbNe (← reg16 w 17) (← reg16 w 12) imm
  | 0x06 => do return .gbLt (← reg16 w 17) (← reg16 w 12) imm
  | 0x07 => do return .gbGe (← reg16 w 17) (← reg16 w 12) imm
  | 0x08 => .ok (.gjmp off22)
  | 0x09 => zeroField (fld w 12 5) (do keepWf .loopOffset (.gloop (← reg16 w 17) imm))
  | 0x0A => zeroField (fld w 0 12) (do return .laySet (← reg8 .register w 17 5) (← reg16 w 12))
  | 0x0B => zeroField (fld w 12 10) (zeroField (fld w 4 2) (do return .bfSet (bank6 w 6) (← orRule .format (fmtOf (fld w 0 4)))))
  | 0x0C => do return .cpIn (← reg16 w 17) (bank6 w 11) (lay3 w) (tag7 w 1) ser w1
  | 0x0D => do return .cpOut (← reg16 w 17) (bank6 w 11) (lay3 w) (tag7 w 1) ser w1
  | 0x0E => do return .cpBb (← reg16 w 17) (bank6 w 11) (lay3 w) (tag7 w 1) ser w1
  | 0x0F => do return .cpGth (← reg16 w 17) (bank6 w 11) (lay3 w) (tag7 w 1) ser w1
  | 0x10 => do return .cpSct (← reg16 w 17) (bank6 w 11) (lay3 w) (tag7 w 1) ser w1
  | 0x11 => do return .cpFill (← reg16 w 17) (bank6 w 11) (lay3 w) (tag7 w 1) ser w1
  | 0x12 => zeroField (fld w 7 10) (do return .cpWait (← reg16 w 17) (tag7 w 0))
  | 0x13 => zeroField (fld w 17 5) (zeroField (fld w 0 12) (do return .seal (← reg16 w 12)))
  | 0x14 => zeroField (fld w 17 5) <| zeroField (fld w 0 1) <|
    match fld w 4 3 with
    | 0 => zeroField (fld w 7 5) (zeroField (fld w 1 3) (do return .shdOpen (← reg16 w 12)))
    | 1 => zeroField (fld w 7 5) (do return .shdPub (← reg16 w 12) (← orRule .scope (scopeOf (fld w 1 3))))
    | 2 => do return .shdPubn (← reg16 w 12) (← reg16 w 7) (← orRule .scope (scopeOf (fld w 1 3)))
    | 3 => zeroField (fld w 7 5) (zeroField (fld w 1 3) (do return .shdDrop (← reg16 w 12)))
    | _ => .error .reserved
  | 0x15 => zeroField (fld w 17 5) (zeroField (fld w 0 1) (zeroField (fld w 4 3)
      (do return .bktSet (← reg16 w 12) (← reg16 w 7) (← orRule .scope (scopeOf (fld w 1 3))))))
  | 0x16 => decCol w ext
  | 0x17 => zeroField (fld w 7 10) (do return .colWait (← reg16 w 17) (tag7 w 0))
  | 0x18 => zeroField (fld w 17 5) (zeroField (fld w 0 12) (do return .colArb (← reg16 w 12)))
  | 0x19 =>
    match fn with
    | 0 => zeroField (fld w 17 5) (zeroField (fld w 7 5) (do return .pktArm (← reg16 w 12)))
    | 1 => zeroField (fld w 7 10) (do return .pktWait (← reg16 w 17))
    | _ => .error .selector
  | _ => .error .major

/-- The FM words (R82, R83). -/
def decMma (w : Nat) (mk : Bool → KReg → Sel → Dir → Sel → Dir → Instr) : Scan Instr := do
  let asel ← orRule .matrix (selOf (fld w 11 6))
  let adir ← orRule .matrix (dirOf (fld w 9 2))
  let bsel ← orRule .matrix (selOf (fld w 3 6))
  let bdir ← orRule .matrix (dirOf (fld w 1 2))
  if mmaOk asel adir bsel bdir then .ok (mk (fld w 0 1 == 1) (reg32 w 17) asel adir bsel bdir) else .error .matrix

/-- Kind, queue and parameter of PAT.SET (R93). -/
def patSpecOf (kind q imm : Nat) : Option PatSpec :=
  match kind with
  | 0 => if q = 0 ∧ imm = 0 then some .none else none
  | 1 => if q = 0 ∧ imm = 0 then some .ones else none
  | 2 => if q = 0 ∧ imm = 0 then some .ltri else none
  | 3 => if q = 0 ∧ imm = 0 then some .utri else none
  | 4 => if q = 0 ∧ imm = 0 then some .sltri else none
  | 5 => if q = 0 then some (.ident (BitVec.ofNat 8 imm)) else none
  | 6 => if imm = 0 then (if q = 2 then some (.perm 2) else if q = 6 then some (.perm 6) else none) else none
  | 8 => if q = 2 then some (.band (BitVec.ofNat 4 (imm / 16)) (BitVec.ofNat 4 (imm % 16))) else none
  | _ => none

/-- The M-stream map (R92). -/
def decM (w : Nat) : Scan Instr :=
  let h := reg32 w 17
  let bk := bank6 w 11
  let row := BitVec.ofNat 8 (fld w 3 8)
  let aux := fld w 0 3
  let off := BitVec.ofNat 12 (fld w 0 12)
  match fld w 22 6 with
  | 0x00 => decMma w .mmaZ
  | 0x01 => decMma w .mmaC
  | 0x02 =>
    match fld w 0 7 with
    | 0 => .ok (.fold h (reg32 w 12) (reg32 w 7))
    | 1 => zeroField (fld w 7 5) (.ok (.foldP h (reg32 w 12)))
    | _ => .error .selector
  | 0x03 =>
    match fld w 17 5 with
    | 0 => .ok (.cixSet (BitVec.ofNat 17 (fld w 0 17)))
    | 2 => zeroField (fld w 0 17) (.ok (.cixSetQ 2))
    | 6 => zeroField (fld w 0 17) (.ok (.cixSetQ 6))
    | _ => .error .reserved
  | 0x04 => zeroField aux (.ok (.lds h bk row))
  | 0x05 => keepWf .reserved (.ldsSp h bk row (BitVec.ofNat 3 aux))
  | 0x06 => zeroField aux (.ok (.accLd h bk row))
  | 0x07 => zeroField (fld w 0 17) (.ok (.accRel h))
  | 0x08 => zeroField (fld w 0 17) (.ok (.slotClm h))
  | 0x09 => zeroField (fld w 0 17) (.ok (.slotRel h))
  | 0x0A => do keepWf .combination (.patSet (← reg8 .register w 17 5)
      (← orRule (if fld w 8 4 = 7 ∨ 8 < fld w 8 4 then .selector else .combination) (patSpecOf (fld w 8 4) (fld w 12 5) (fld w 0 8))))
  | 0x0B => zeroField (fld w 2 1) (do return .patOh (← reg8 .register w 17 5) bk row (fld w 0 1 == 1) (fld w 1 1 == 1))
  | 0x0C => zeroField (fld w 7 15) <|
    match fld w 0 7 with
    | 0 => .ok .lseAcq
    | 1 => .ok .lseRel
    | _ => .error .selector
  | 0x0D =>
    match fld w 12 5 with
    | 0 => do keepWf .reserved (.mbQNz (← reg8 .reserved w 17 5) off)
    | 1 => do keepWf .reserved (.mbQZ (← reg8 .reserved w 17 5) off)
    | _ => .error .reserved
  | 0x0E => zeroField (fld w 12 5) (do keepWf (loopRule off) (.mloop (← reg8 .reserved w 17 5) off))
  | 0x0F => .ok (.mjmp (BitVec.ofNat 22 (fld w 0 22)))
  | _ => .error .major

/-- The VOP family (R95). -/
def decVop (w : Nat) : Scan Instr :=
  let nf := fld w 0 1 == 1
  let d := reg16v w 18
  let a := reg16v w 14
  let b := reg16v w 10
  let c := reg16v w 6
  match fld w 1 5 with
  | 0 => zeroField (fld w 6 4) (.ok (.vadd nf d a b))
  | 1 => zeroField (fld w 6 4) (.ok (.vsub nf d a b))
  | 2 => zeroField (fld w 6 4) (.ok (.vmul nf d a b))
  | 3 => .ok (.vfma nf d a b c)
  | 4 => zeroField (fld w 6 4) (.ok (.vmax nf d a b))
  | 5 => zeroField (fld w 6 4) (.ok (.vmin nf d a b))
  | 6 => do return .vcmp nf d a b (← orRule .reserved (vcondOf (fld w 6 4)))
  | 7 => .ok (.vsel nf d a b c)
  | 8 => .ok (.vfld nf d a b (BitVec.ofNat 4 (fld w 6 4)))
  | 9 => zeroField (fld w 6 8) (.ok (.vrcp nf d a))
  | 10 => zeroField (fld w 6 8) (.ok (.vrsq nf d a))
  | 11 => zeroField (fld w 11 3) (do keepWf .reserved (.vcvt nf d a (fld w 10 1 == 1) (← orRule .reserved (fmtOf (fld w 6 4)))))
  | 12 => zeroField (fld w 6 8) (.ok (.vmov nf d a))
  | _ => .error .selector

/-- The S-stream map (R94). -/
def decS (w : Nat) : Scan Instr :=
  let nf := fld w 0 1 == 1
  let bk := bank6 w 11
  let row := BitVec.ofNat 8 (fld w 3 8)
  let off := BitVec.ofNat 12 (fld w 0 12)
  match fld w 22 6 with
  | 0x00 => decVop w
  | 0x01 => zeroField (fld w 1 13) (do keepWf .reserved (.vbc nf (reg16v w 18) (← reg8 .reserved w 14 4)))
  | 0x02 => zeroField (fld w 0 3) (do return .vld (← reg16 w 17) bk row)
  | 0x03 => do return .vst (← reg16 w 17) bk row (stAuxOf (fld w 0 3))
  | 0x04 => zeroField (fld w 15 2) (zeroField (fld w 10 1) (zeroField (fld w 1 2)
      (.ok (.rtRow nf (reg16v w 11) (reg32 w 17) (BitVec.ofNat 7 (fld w 3 7))))))
  | 0x05 => .ok (.rtSt (reg32 w 17) bk row (stAuxOf (fld w 0 3)))
  | 0x06 =>
    match fld w 1 5 with
    | 0 => zeroField (fld w 18 4) (zeroField (fld w 6 8) (.ok (.histAdd nf (reg16v w 14))))
    | 1 => zeroField (fld w 14 8) (keepWf .reserved (.histRd nf (BitVec.ofNat 8 (fld w 6 8))))
    | 2 => zeroField (fld w 6 16) (.ok (.histClr nf))
    | _ => .error .selector
  | 0x07 =>
    match fld w 1 5 with
    | 0 => zeroField (fld w 6 12) (.ok (.flgRd nf (reg16v w 18)))
    | 1 => zeroField (fld w 6 16) (.ok (.flgClr nf))
    | _ => .error .selector
  | 0x08 =>
    match fld w 12 5 with
    | 0 => do keepWf .reserved (.sbQNz (← reg8 .reserved w 17 5) off)
    | 1 => do keepWf .reserved (.sbQZ (← reg8 .reserved w 17 5) off)
    | _ => .error .reserved
  | 0x09 => zeroField (fld w 12 5) (do keepWf (loopRule off) (.sloop (← reg8 .reserved w 17 5) off))
  | 0x0A => .ok (.sjmp (BitVec.ofNat 22 (fld w 0 22)))
  | 0x0B => zeroField (fld w 18 4) (zeroField (fld w 1 13)
      (do keepWf .reserved (.sclSet nf (← reg8 .reserved w 14 4))))
  | _ => .error .major

/-- The map of a stream class (R99) on a first word and the word after it, with the rule that refuses them. -/
def scanWord (x : StreamId) (w ext : Nat) : Scan Instr :=
  match x with
  | .c => decC w ext
  | .a => decA w ext
  | .m => decM w
  | .s => decS w

/-- The instruction of a first word and the word after it, `none` where R96 refuses them. -/
def decodeWord (x : StreamId) (w ext : Nat) : Option Instr :=
  match scanWord x w ext with
  | .ok i => some i
  | .error _ => none

/-- Words of an instruction by its stream and major opcode (R78, R100): LI, GLI and the FC format take two. -/
def wordCount (x : StreamId) (w : Nat) : Nat :=
  match x with
  | .c => if fld w 22 6 = 0x0A then 2 else 1
  | .a => if fld w 22 6 = 0x02 ∨ (0x0C ≤ fld w 22 6 ∧ fld w 22 6 ≤ 0x11) ∨ fld w 22 6 = 0x16 then 2 else 1
  | .m => 1
  | .s => 1

/-- The header bits (R74). -/
def headerOf (w : Nat) : BitVec 4 := BitVec.ofNat 4 (fld w 28 4)

/-- A decoded instruction with its header and what is left of the bytes. -/
structure Decoded where
  hdr : BitVec 4
  instr : Instr
  rest : List Byte
  deriving DecidableEq, Repr

/-- The decoder on bytes, each word little-endian (R6): one instruction of the stream's map, or a refusal. -/
def decodeBytes (x : StreamId) (bs : List Byte) : Option Decoded :=
  if bs.length < 4 then none
  else
    let w := leNat (bs.take 4)
    if wordCount x w = 1 then
      (decodeWord x w 0).map fun i => ⟨headerOf w, i, bs.drop 4⟩
    else if bs.length < 8 then none
    else (decodeWord x w (leNat ((bs.drop 4).take 4))).map fun i => ⟨headerOf w, i, bs.drop 8⟩

/-- The streams whose maps accept a table word, in the order C, A, M, S. The class of a page is not part of a word (R99), so the first is taken (log 5). -/
def tableStream (w : Nat) : Option StreamId :=
  let w0 := w % 2 ^ 32
  let w1 := w / 2 ^ 32 % 2 ^ 32
  if (decodeWord .c w0 w1).isSome then some .c
  else if (decodeWord .a w0 w1).isSome then some .a
  else if (decodeWord .m w0 w1).isSome then some .m
  else if (decodeWord .s w0 w1).isSome then some .s
  else none

/-- The instruction the decoder reads from table bits: word 0 in bits 31:0, the extension word in bits 63:32; bits above `nbits` are zero. -/
def decodeTableWord (nbits w : Nat) : Option Instr :=
  let v := w % 2 ^ nbits
  match tableStream v with
  | none => none
  | some x => (decodeBytes x (leBytes 8 v)).map (·.instr)

/-! ## The encoder -/

/-- Format F3 with header zero (R79). -/
def encF3 (maj d a b fn : Nat) : Nat := maj * 2 ^ 22 + d * 2 ^ 17 + a * 2 ^ 12 + b * 2 ^ 7 + fn
/-- Formats FI and FB (R79). -/
def encFI (maj d a imm : Nat) : Nat := maj * 2 ^ 22 + d * 2 ^ 17 + a * 2 ^ 12 + imm
/-- Format FJ (R79). -/
def encFJ (maj off : Nat) : Nat := maj * 2 ^ 22 + off
/-- Format FL (R79). -/
def encFL (maj d imm : Nat) : Nat := maj * 2 ^ 22 + d * 2 ^ 17 + imm
/-- Format FM (R79). -/
def encFM (maj k asel adir bsel bdir nf : Nat) : Nat :=
  maj * 2 ^ 22 + k * 2 ^ 17 + asel * 2 ^ 11 + adir * 2 ^ 9 + bsel * 2 ^ 3 + bdir * 2 + nf
/-- Word 0 of format FC (R79). -/
def encFC (maj g bank lay tag aux : Nat) : Nat :=
  maj * 2 ^ 22 + g * 2 ^ 17 + bank * 2 ^ 11 + lay * 2 ^ 8 + tag * 2 + aux
/-- Format FV (R79). -/
def encFV (maj d a b c fn nf : Nat) : Nat :=
  maj * 2 ^ 22 + d * 2 ^ 18 + a * 2 ^ 14 + b * 2 ^ 10 + c * 2 ^ 6 + fn * 2 + nf
/-- Format FS (R79). -/
def encFS (maj h bank row aux : Nat) : Nat :=
  maj * 2 ^ 22 + h * 2 ^ 17 + bank * 2 ^ 11 + row * 2 ^ 3 + aux

def Scope.code : Scope → Nat
  | .core => 0
  | .bay => 1
  | .die => 2
  | .dev => 3
  | .dom => 4

def Fmt.code : Fmt → Nat
  | .raw => 0
  | .fp32 => 1
  | .bf16 => 2
  | .fp16 => 3
  | .e4m3 => 4
  | .e5m2 => 5
  | .int8 => 6
  | .int32 => 7
  | .dsh8 => 8
  | .e4m3s => 9
  | .e5m2s => 10

def MemSize.code : MemSize → Nat
  | .b => 0
  | .h => 1
  | .w => 2
  | .d => 3

def Csr.code : Csr → Nat
  | .ctxclass => 0x000
  | .status => 0x001
  | .vrank => 0x002
  | .vcount => 0x003
  | .part => 0x004
  | .frnd => 0x010
  | .fflags => 0x011
  | .scaleRcp => 0x020
  | .dmode => 0x030
  | .tapeBase => 0x031
  | .tapeLimit => 0x032
  | .tapeHead => 0x033
  | .adjRoot => 0x034
  | .patchEpoch => 0x040
  | .yieldDl => 0x050
  | .expStall => 0x060
  | .trapVec => 0x070
  | .trapCause => 0x071

def DMode.code : DMode → Nat
  | .off => 0
  | .fwd => 1
  | .rev => 2

def Dir.code : Dir → Nat
  | .r => 0
  | .c => 1
  | .w => 2

def Sel.code : Sel → Nat
  | .slot m => m.val
  | .pat p => 32 + p.val

def VCond.code : VCond → Nat
  | .eq => 0
  | .lt => 1
  | .le => 2
  | .un => 3

def StAux.code (x : StAux) : Nat := x.sat.toNat + 2 * x.scl.toNat + 4 * x.hist.toNat

def PatSpec.kindCode : PatSpec → Nat
  | .none => 0
  | .ones => 1
  | .ltri => 2
  | .utri => 3
  | .sltri => 4
  | .ident _ => 5
  | .perm _ => 6
  | .band _ _ => 8

def PatSpec.queueCode : PatSpec → Nat
  | .perm q => q.val
  | .band _ _ => 2
  | _ => 0

def PatSpec.paramCode : PatSpec → Nat
  | .ident off => off.toNat
  | .band count first => count.toNat * 16 + first.toNat
  | _ => 0

/-- The stream whose map holds an instruction (R87 to R94); `none` for the steps no word encodes. -/
def Instr.stream : Instr → Option StreamId
  | .add _ _ _ => some .c
  | .sub _ _ _ => some .c
  | .mul _ _ _ => some .c
  | .mulh _ _ _ => some .c
  | .div _ _ _ => some .c
  | .divu _ _ _ => some .c
  | .rem _ _ _ => some .c
  | .remu _ _ _ => some .c
  | .and _ _ _ => some .c
  | .or _ _ _ => some .c
  | .xor _ _ _ => some .c
  | .shl _ _ _ => some .c
  | .shr _ _ _ => some .c
  | .sra _ _ _ => some .c
  | .min _ _ _ => some .c
  | .max _ _ _ => some .c
  | .minu _ _ _ => some .c
  | .maxu _ _ _ => some .c
  | .slt _ _ _ => some .c
  | .sltu _ _ _ => some .c
  | .clz _ _ => some .c
  | .ctz _ _ => some .c
  | .popc _ _ => some .c
  | .bext _ _ _ => some .c
  | .addi _ _ _ => some .c
  | .andi _ _ _ => some .c
  | .ori _ _ _ => some .c
  | .xori _ _ _ => some .c
  | .shli _ _ _ => some .c
  | .shri _ _ _ => some .c
  | .srai _ _ _ => some .c
  | .slti _ _ _ => some .c
  | .lui _ _ => some .c
  | .li _ _ _ => some .c
  | .fadd _ _ _ _ => some .c
  | .fsub _ _ _ _ => some .c
  | .fmul _ _ _ _ => some .c
  | .ffma _ _ _ _ => some .c
  | .fdiv _ _ _ _ => some .c
  | .fsqrt _ _ _ => some .c
  | .fmin _ _ _ _ => some .c
  | .fmax _ _ _ _ => some .c
  | .fcmpEq _ _ _ _ => some .c
  | .fcmpLt _ _ _ _ => some .c
  | .fcmpLe _ _ _ _ => some .c
  | .fcvtW _ _ _ => some .c
  | .fcvtF _ _ _ => some .c
  | .fclass _ _ _ => some .c
  | .fmv _ _ _ => some .c
  | .fsgnj _ _ _ _ => some .c
  | .beq _ _ _ => some .c
  | .bne _ _ _ => some .c
  | .blt _ _ _ => some .c
  | .bge _ _ _ => some .c
  | .bltu _ _ _ => some .c
  | .bgeu _ _ _ => some .c
  | .jmp _ => some .c
  | .jal _ => some .c
  | .jr _ => some .c
  | .loop _ _ => some .c
  | .ld _ _ _ _ => some .c
  | .st _ _ _ _ => some .c
  | .atAdd _ _ _ _ _ => some .c
  | .atBinc _ _ _ _ _ => some .c
  | .atCas _ _ _ _ _ => some .c
  | .atSwp _ _ _ _ _ => some .c
  | .atMax _ _ _ _ _ => some .c
  | .atFadd _ _ _ _ => some .c
  | .atomicPerform _ => none
  | .qpush _ _ => some .c
  | .qpop _ _ => some .c
  | .qcnt _ _ => some .c
  | .phase _ => some .c
  | .barInit _ _ _ => some .c
  | .barArr _ => some .c
  | .barWt _ => some .c
  | .barDl _ _ _ => some .c
  | .barrierCompletion _ => none
  | .barrierDeadline _ => none
  | .mbxSend _ _ => some .c
  | .mbxRecv _ _ => some .c
  | .mbxTry _ _ => some .c
  | .rngNext _ => some .c
  | .nodeAdd _ _ => some .c
  | .nodeDone => some .c
  | .yield => some .c
  | .tsc _ => some .c
  | .trap _ => some .c
  | .eret => some .c
  | .brk => some .c
  | .diffMode _ => some .c
  | .waitEv _ _ => some .c
  | .ctxSw => some .c
  | .csrr _ _ => some .c
  | .csrw _ _ => some .c
  | .csrx _ _ _ => some .c
  | .gadd _ _ _ => some .a
  | .gsub _ _ _ => some .a
  | .gmul _ _ _ => some .a
  | .gshl _ _ _ => some .a
  | .gshr _ _ _ => some .a
  | .gand _ _ _ => some .a
  | .gor _ _ _ => some .a
  | .gmin _ _ _ => some .a
  | .gaddi _ _ _ => some .a
  | .gli _ _ _ => some .a
  | .gpop _ _ => some .a
  | .gpush _ _ => some .a
  | .gbEq _ _ _ => some .a
  | .gbNe _ _ _ => some .a
  | .gbLt _ _ _ => some .a
  | .gbGe _ _ _ => some .a
  | .gjmp _ => some .a
  | .gloop _ _ => some .a
  | .laySet _ _ => some .a
  | .bfSet _ _ => some .a
  | .cpIn _ _ _ _ _ _ => some .a
  | .cpOut _ _ _ _ _ _ => some .a
  | .cpBb _ _ _ _ _ _ => some .a
  | .cpGth _ _ _ _ _ _ => some .a
  | .cpSct _ _ _ _ _ _ => some .a
  | .cpFill _ _ _ _ _ _ => some .a
  | .copyCommandStart _ => none
  | .copyComplete _ => none
  | .deferredCopyFault _ _ => none
  | .cpWait _ _ => some .a
  | .seal _ => some .a
  | .shdOpen _ => some .a
  | .shdPub _ _ => some .a
  | .shdPubn _ _ _ => some .a
  | .shdDrop _ => some .a
  | .bktSet _ _ _ => some .a
  | .bucketFire _ => none
  | .colRed _ _ _ _ _ _ => some .a
  | .colRs _ _ _ _ _ _ => some .a
  | .colAg _ _ _ _ _ _ => some .a
  | .colBc _ _ _ _ _ _ => some .a
  | .collectiveComplete _ _ => none
  | .colWait _ _ => some .a
  | .colArb _ => some .a
  | .pktArm _ => some .a
  | .pktWait _ => some .a
  | .mmaZ _ _ _ _ _ _ => some .m
  | .mmaC _ _ _ _ _ _ => some .m
  | .fold _ _ _ => some .m
  | .foldP _ _ => some .m
  | .cixSet _ => some .m
  | .cixSetQ _ => some .m
  | .lds _ _ _ => some .m
  | .ldsSp _ _ _ _ => some .m
  | .slotLoadComplete _ => none
  | .accLd _ _ _ => some .m
  | .accRel _ => some .m
  | .accPairReturn _ => none
  | .slotClm _ => some .m
  | .slotRel _ => some .m
  | .slotGranuleReturn _ => none
  | .patSet _ _ => some .m
  | .patOh _ _ _ _ _ => some .m
  | .lseAcq => some .m
  | .lseRel => some .m
  | .leaseGrant _ _ => none
  | .mbQNz _ _ => some .m
  | .mbQZ _ _ => some .m
  | .mloop _ _ => some .m
  | .mjmp _ => some .m
  | .arrayCommandStart _ => none
  | .arrayCommandComplete _ => none
  | .foldStart _ => none
  | .foldComplete _ => none
  | .vadd _ _ _ _ => some .s
  | .vsub _ _ _ _ => some .s
  | .vmul _ _ _ _ => some .s
  | .vfma _ _ _ _ _ => some .s
  | .vmax _ _ _ _ => some .s
  | .vmin _ _ _ _ => some .s
  | .vcmp _ _ _ _ _ => some .s
  | .vsel _ _ _ _ _ => some .s
  | .vfld _ _ _ _ _ => some .s
  | .vrcp _ _ _ => some .s
  | .vrsq _ _ _ => some .s
  | .vcvt _ _ _ _ _ => some .s
  | .vmov _ _ _ => some .s
  | .vbc _ _ _ => some .s
  | .vld _ _ _ => some .s
  | .vst _ _ _ _ => some .s
  | .rtRow _ _ _ _ => some .s
  | .rtSt _ _ _ _ => some .s
  | .rtStRetire => none
  | .histAdd _ _ => some .s
  | .histRd _ _ => some .s
  | .histClr _ => some .s
  | .flgRd _ _ => some .s
  | .flgClr _ => some .s
  | .sbQNz _ _ => some .s
  | .sbQZ _ _ => some .s
  | .sloop _ _ => some .s
  | .sjmp _ => some .s
  | .sclSet _ _ => some .s
  | .retirementTokenGive _ => none
  | .resultLanding => none
  | .parkedWritePlace _ => none
  | .outOfSpaceExpiry _ => none
  | .ballooningEngine _ => none
  | .balloonMessage _ _ => none
  | .expanderBlockDecode _ => none
  | .versionFold => none
  | .yieldDeadline => none
  | .priorityAging => none
  | .dispatch _ => none
  | .forcedStopOverrun => none
  | .contextSave _ => none
  | .nodeFinish _ _ => none
  | .trapEntry _ => none
  | .timedRestart _ _ => none
  | .interruptEntry => none
  | .asyncTrap => none
  | .memoryProcessorAnswer _ _ => none
  | .patchImageLoad _ => none
  | .epochTransitionClose => none
  | .mapRequest _ => none
  | .shootdown _ => none
  | .pageMigration _ => none
  | .memoryError _ => none
  | .selfTest _ _ => none
  | .flitReceive _ _ => none
  | .linkRetrain _ _ => none
  | .linkLoss _ => none
  | .frameReceive _ => none
  | .frameTransmit _ _ _ => none
  | .ptpClockDiscipline _ => none
  | .submit _ _ _ => none
  | .doorbell _ _ => none
  | .hostBar2Write _ _ _ _ => none
  | .hostTranslationRequest _ _ _ => none
  | .revocationConfirm _ => none
  | .hostLinkDown _ => none
  | .registerWrite _ _ => none
  | .mailboxBind _ _ _ => none
  | .send _ _ _ _ _ _ => none
  | .recv _ _ _ => none
  | .jbase _ _ _ => none
  | .jdrawCommit _ _ _ => none
  | .jdrawReplay _ _ => none
  | .jstat _ _ _ => none
  | .attestationRequest _ => none
  | .certificateRequest => none
  | .resetRelease _ => none
  | .powerRemoval => none
  | .memoryProcessorPreemption _ _ => none
  | .quotaEnlargement _ _ => none
  | .generalInstanceEnd _ _ => none
  | .asidRegistration _ _ => none
  | .pinRequest _ _ _ => none
  | .communicatorTableSet _ _ _ => none

/-- The words of an instruction with header zero, as numbers (R79 to R95); empty for the steps no word encodes. -/
def encodeNat : Instr → List Nat
  | .add d a b => [encF3 0x00 d a b 0]
  | .sub d a b => [encF3 0x00 d a b 1]
  | .mul d a b => [encF3 0x00 d a b 2]
  | .mulh d a b => [encF3 0x00 d a b 3]
  | .div d a b => [encF3 0x00 d a b 4]
  | .divu d a b => [encF3 0x00 d a b 5]
  | .rem d a b => [encF3 0x00 d a b 6]
  | .remu d a b => [encF3 0x00 d a b 7]
  | .and d a b => [encF3 0x00 d a b 8]
  | .or d a b => [encF3 0x00 d a b 9]
  | .xor d a b => [encF3 0x00 d a b 10]
  | .shl d a b => [encF3 0x00 d a b 11]
  | .shr d a b => [encF3 0x00 d a b 12]
  | .sra d a b => [encF3 0x00 d a b 13]
  | .min d a b => [encF3 0x00 d a b 14]
  | .max d a b => [encF3 0x00 d a b 15]
  | .minu d a b => [encF3 0x00 d a b 16]
  | .maxu d a b => [encF3 0x00 d a b 17]
  | .slt d a b => [encF3 0x00 d a b 18]
  | .sltu d a b => [encF3 0x00 d a b 19]
  | .clz d a => [encF3 0x00 d a 0 20]
  | .ctz d a => [encF3 0x00 d a 0 21]
  | .popc d a => [encF3 0x00 d a 0 22]
  | .bext d a b => [encF3 0x00 d a b 23]
  | .addi d a imm => [encFI 1 d a imm.toNat]
  | .andi d a imm => [encFI 2 d a imm.toNat]
  | .ori d a imm => [encFI 3 d a imm.toNat]
  | .xori d a imm => [encFI 4 d a imm.toNat]
  | .shli d a sh => [encFI 5 d a sh.toNat]
  | .shri d a sh => [encFI 6 d a sh.toNat]
  | .srai d a sh => [encFI 7 d a sh.toNat]
  | .slti d a imm => [encFI 8 d a imm.toNat]
  | .lui d imm => [encFL 0x09 d imm.toNat]
  | .li d imm ext => [encFL 0x0A d imm.toNat, ext.toNat]
  | .fadd nf d a b => [encF3 0x0B d a b (nf.toNat * 64 + 0)]
  | .fsub nf d a b => [encF3 0x0B d a b (nf.toNat * 64 + 1)]
  | .fmul nf d a b => [encF3 0x0B d a b (nf.toNat * 64 + 2)]
  | .ffma nf d a b => [encF3 0x0B d a b (nf.toNat * 64 + 3)]
  | .fdiv nf d a b => [encF3 0x0B d a b (nf.toNat * 64 + 4)]
  | .fsqrt nf d a => [encF3 0x0B d a 0 (nf.toNat * 64 + 5)]
  | .fmin nf d a b => [encF3 0x0B d a b (nf.toNat * 64 + 6)]
  | .fmax nf d a b => [encF3 0x0B d a b (nf.toNat * 64 + 7)]
  | .fcmpEq nf d a b => [encF3 0x0B d a b (nf.toNat * 64 + 8)]
  | .fcmpLt nf d a b => [encF3 0x0B d a b (nf.toNat * 64 + 9)]
  | .fcmpLe nf d a b => [encF3 0x0B d a b (nf.toNat * 64 + 10)]
  | .fcvtW nf d a => [encF3 0x0B d a 0 (nf.toNat * 64 + 11)]
  | .fcvtF nf d a => [encF3 0x0B d a 0 (nf.toNat * 64 + 12)]
  | .fclass nf d a => [encF3 0x0B d a 0 (nf.toNat * 64 + 13)]
  | .fmv nf d a => [encF3 0x0B d a 0 (nf.toNat * 64 + 14)]
  | .fsgnj nf d a b => [encF3 0x0B d a b (nf.toNat * 64 + 15)]
  | .beq a b off => [encFI 12 a b off.toNat]
  | .bne a b off => [encFI 13 a b off.toNat]
  | .blt a b off => [encFI 14 a b off.toNat]
  | .bge a b off => [encFI 15 a b off.toNat]
  | .bltu a b off => [encFI 16 a b off.toNat]
  | .bgeu a b off => [encFI 17 a b off.toNat]
  | .jmp off => [encFJ 0x12 off.toNat]
  | .jal off => [encFJ 0x13 off.toNat]
  | .jr a => [encF3 0x14 0 a 0 0]
  | .loop a off => [encFI 0x15 a 0 off.toNat]
  | .ld size d a off => [encFI 0x16 d a (size.code * 2 ^ 10 + off.toNat)]
  | .st size d a off => [encFI 0x17 d a (size.code * 2 ^ 10 + off.toNat)]
  | .atAdd d a b scope w32 => [encF3 0x18 d a b (0 * 16 + scope.code * 2 + w32.toNat)]
  | .atBinc d a b scope w32 => [encF3 0x18 d a b (1 * 16 + scope.code * 2 + w32.toNat)]
  | .atCas d a b scope w32 => [encF3 0x18 d a b (2 * 16 + scope.code * 2 + w32.toNat)]
  | .atSwp d a b scope w32 => [encF3 0x18 d a b (3 * 16 + scope.code * 2 + w32.toNat)]
  | .atMax d a b scope w32 => [encF3 0x18 d a b (4 * 16 + scope.code * 2 + w32.toNat)]
  | .atFadd d a b scope => [encF3 0x18 d a b (5 * 16 + scope.code * 2 + 1)]
  | .atomicPerform _ => []
  | .qpush q a => [encF3 0x19 0 a q 0]
  | .qpop d q => [encF3 0x19 d 0 q 1]
  | .qcnt d q => [encF3 0x19 d 0 q 2]
  | .phase scope => [encF3 0x1A 0 0 0 scope.code]
  | .barInit b a scope => [encFI 0x1B scope.code a b]
  | .barArr b => [encFI 0x1B 0 0 (1 * 2 ^ 9 + b)]
  | .barWt b => [encFI 0x1B 0 0 (2 * 2 ^ 9 + b)]
  | .barDl b a proceed => [encFI 0x1B proceed.toNat a (3 * 2 ^ 9 + b)]
  | .barrierCompletion _ => []
  | .barrierDeadline _ => []
  | .mbxSend a b => [encF3 0x1C 0 a b 0]
  | .mbxRecv d a => [encF3 0x1C d a 0 1]
  | .mbxTry d a => [encF3 0x1C d a 0 2]
  | .rngNext d => [encF3 0x1D d 0 0 0]
  | .nodeAdd d a => [encF3 0x1D d a 0 1]
  | .nodeDone => [encF3 0x1D 0 0 0 2]
  | .yield => [encF3 0x1D 0 0 0 3]
  | .tsc d => [encF3 0x1D d 0 0 4]
  | .trap a => [encF3 0x1E 0 a 0 0]
  | .eret => [encF3 0x1E 0 0 0 1]
  | .brk => [encF3 0x1E 0 0 0 2]
  | .diffMode mode => [encF3 0x1E 0 0 mode.code 3]
  | .waitEv d a => [encF3 0x1E d a 0 4]
  | .ctxSw => [encF3 0x1E 0 0 0 5]
  | .csrr d csr => [encFI 0x1F d 0 csr.code]
  | .csrw csr a => [encFI 0x20 0 a csr.code]
  | .csrx d csr a => [encFI 0x21 d a csr.code]
  | .gadd d a b => [encF3 0x00 d a b 0]
  | .gsub d a b => [encF3 0x00 d a b 1]
  | .gmul d a b => [encF3 0x00 d a b 2]
  | .gshl d a b => [encF3 0x00 d a b 3]
  | .gshr d a b => [encF3 0x00 d a b 4]
  | .gand d a b => [encF3 0x00 d a b 5]
  | .gor d a b => [encF3 0x00 d a b 6]
  | .gmin d a b => [encF3 0x00 d a b 7]
  | .gaddi d a imm => [encFI 0x01 d a imm.toNat]
  | .gli d imm ext => [encFL 0x02 d imm.toNat, ext.toNat]
  | .gpop d q => [encF3 0x03 d 0 q 0]
  | .gpush q a => [encF3 0x03 0 a q 1]
  | .gbEq a b off => [encFI 4 a b off.toNat]
  | .gbNe a b off => [encFI 5 a b off.toNat]
  | .gbLt a b off => [encFI 6 a b off.toNat]
  | .gbGe a b off => [encFI 7 a b off.toNat]
  | .gjmp off => [encFJ 0x08 off.toNat]
  | .gloop a off => [encFI 0x09 a 0 off.toNat]
  | .laySet l a => [encF3 0x0A l a 0 0]
  | .bfSet bank fmt => [encFI 0x0B 0 0 (bank * 2 ^ 6 + fmt.code)]
  | .cpIn g bank l tag ser w1 => [encFC 12 g bank l tag ser.toNat, w1.toNat]
  | .cpOut g bank l tag ser w1 => [encFC 13 g bank l tag ser.toNat, w1.toNat]
  | .cpBb g bank l tag ser w1 => [encFC 14 g bank l tag ser.toNat, w1.toNat]
  | .cpGth g bank l tag ser w1 => [encFC 15 g bank l tag ser.toNat, w1.toNat]
  | .cpSct g bank l tag ser w1 => [encFC 16 g bank l tag ser.toNat, w1.toNat]
  | .cpFill g bank l tag ser w1 => [encFC 17 g bank l tag ser.toNat, w1.toNat]
  | .copyCommandStart _ => []
  | .copyComplete _ => []
  | .deferredCopyFault _ _ => []
  | .cpWait d tag => [encFI 0x12 d 0 tag]
  | .seal a => [encF3 0x13 0 a 0 0]
  | .shdOpen a => [encF3 0x14 0 a 0 0]
  | .shdPub a scope => [encF3 0x14 0 a 0 (1 * 16 + scope.code * 2)]
  | .shdPubn a b scope => [encF3 0x14 0 a b (2 * 16 + scope.code * 2)]
  | .shdDrop a => [encF3 0x14 0 a 0 (3 * 16)]
  | .bktSet a b scope => [encF3 0x15 0 a b (scope.code * 2)]
  | .bucketFire _ => []
  | .colRed g comm l tag ser w1 => [encFC 0x16 g comm l tag ser.toNat, 0 * 2 ^ 28 + w1.toNat]
  | .colRs g comm l tag ser w1 => [encFC 0x16 g comm l tag ser.toNat, 1 * 2 ^ 28 + w1.toNat]
  | .colAg g comm l tag ser w1 => [encFC 0x16 g comm l tag ser.toNat, 2 * 2 ^ 28 + w1.toNat]
  | .colBc g comm l tag ser w1 => [encFC 0x16 g comm l tag ser.toNat, 3 * 2 ^ 28 + w1.toNat]
  | .collectiveComplete _ _ => []
  | .colWait d tag => [encFI 0x17 d 0 tag]
  | .colArb a => [encF3 0x18 0 a 0 0]
  | .pktArm a => [encF3 0x19 0 a 0 0]
  | .pktWait d => [encF3 0x19 d 0 0 1]
  | .mmaZ nf k asel adir bsel bdir => [encFM 0x00 k asel.code adir.code bsel.code bdir.code nf.toNat]
  | .mmaC nf k asel adir bsel bdir => [encFM 0x01 k asel.code adir.code bsel.code bdir.code nf.toNat]
  | .fold d a b => [encF3 0x02 d a b 0]
  | .foldP d a => [encF3 0x02 d a 0 1]
  | .cixSet imm => [encFL 0x03 0 imm.toNat]
  | .cixSetQ q => [encFL 0x03 q 0]
  | .lds m bank row => [encFS 0x04 m bank row.toNat 0]
  | .ldsSp m bank row mb => [encFS 0x05 m bank row.toNat mb.toNat]
  | .slotLoadComplete _ => []
  | .accLd k bank row => [encFS 0x06 k bank row.toNat 0]
  | .accRel k => [encFS 0x07 k 0 0 0]
  | .accPairReturn _ => []
  | .slotClm m => [encFS 0x08 m 0 0 0]
  | .slotRel m => [encFS 0x09 m 0 0 0]
  | .slotGranuleReturn _ => []
  | .patSet p spec => [encFI 0x0A p spec.queueCode (spec.kindCode * 2 ^ 8 + spec.paramCode)]
  | .patOh p bank row t q6 => [encFS 0x0B p bank row.toNat (t.toNat + 2 * q6.toNat)]
  | .lseAcq => [encF3 0x0C 0 0 0 0]
  | .lseRel => [encF3 0x0C 0 0 0 1]
  | .leaseGrant _ _ => []
  | .mbQNz q off => [encFI 0x0D q 0 off.toNat]
  | .mbQZ q off => [encFI 0x0D q 1 off.toNat]
  | .mloop q off => [encFI 0x0E q 0 off.toNat]
  | .mjmp off => [encFJ 0x0F off.toNat]
  | .arrayCommandStart _ => []
  | .arrayCommandComplete _ => []
  | .foldStart _ => []
  | .foldComplete _ => []
  | .vadd nf d a b => [encFV 0x00 d a b 0 0 nf.toNat]
  | .vsub nf d a b => [encFV 0x00 d a b 0 1 nf.toNat]
  | .vmul nf d a b => [encFV 0x00 d a b 0 2 nf.toNat]
  | .vfma nf d a b c => [encFV 0x00 d a b c 3 nf.toNat]
  | .vmax nf d a b => [encFV 0x00 d a b 0 4 nf.toNat]
  | .vmin nf d a b => [encFV 0x00 d a b 0 5 nf.toNat]
  | .vcmp nf d a b cond => [encFV 0x00 d a b cond.code 6 nf.toNat]
  | .vsel nf d a b c => [encFV 0x00 d a b c 7 nf.toNat]
  | .vfld nf d a b wm1 => [encFV 0x00 d a b wm1.toNat 8 nf.toNat]
  | .vrcp nf d a => [encFV 0x00 d a 0 0 9 nf.toNat]
  | .vrsq nf d a => [encFV 0x00 d a 0 0 10 nf.toNat]
  | .vcvt nf d a sat fmt => [encFV 0x00 d a sat.toNat fmt.code 11 nf.toNat]
  | .vmov nf d a => [encFV 0x00 d a 0 0 12 nf.toNat]
  | .vbc nf d q => [encFV 0x01 d q 0 0 0 nf.toNat]
  | .vld d bank row => [encFS 0x02 d bank row.toNat 0]
  | .vst a bank row aux => [encFS 0x03 a bank row.toNat aux.code]
  | .rtRow nf d k row => [encFS 0x04 k d row.toNat nf.toNat]
  | .rtSt k bank row aux => [encFS 0x05 k bank row.toNat aux.code]
  | .rtStRetire => []
  | .histAdd nf a => [encFV 0x06 0 a 0 0 0 nf.toNat]
  | .histRd nf ctr => [encFV 0x06 0 0 (ctr.toNat / 16) (ctr.toNat % 16) 1 nf.toNat]
  | .histClr nf => [encFV 0x06 0 0 0 0 2 nf.toNat]
  | .flgRd nf d => [encFV 0x07 d 0 0 0 0 nf.toNat]
  | .flgClr nf => [encFV 0x07 0 0 0 0 1 nf.toNat]
  | .sbQNz q off => [encFI 0x08 q 0 off.toNat]
  | .sbQZ q off => [encFI 0x08 q 1 off.toNat]
  | .sloop q off => [encFI 0x09 q 0 off.toNat]
  | .sjmp off => [encFJ 0x0A off.toNat]
  | .sclSet nf q => [encFV 0x0B 0 q 0 0 0 nf.toNat]
  | .retirementTokenGive _ => []
  | .resultLanding => []
  | .parkedWritePlace _ => []
  | .outOfSpaceExpiry _ => []
  | .ballooningEngine _ => []
  | .balloonMessage _ _ => []
  | .expanderBlockDecode _ => []
  | .versionFold => []
  | .yieldDeadline => []
  | .priorityAging => []
  | .dispatch _ => []
  | .forcedStopOverrun => []
  | .contextSave _ => []
  | .nodeFinish _ _ => []
  | .trapEntry _ => []
  | .timedRestart _ _ => []
  | .interruptEntry => []
  | .asyncTrap => []
  | .memoryProcessorAnswer _ _ => []
  | .patchImageLoad _ => []
  | .epochTransitionClose => []
  | .mapRequest _ => []
  | .shootdown _ => []
  | .pageMigration _ => []
  | .memoryError _ => []
  | .selfTest _ _ => []
  | .flitReceive _ _ => []
  | .linkRetrain _ _ => []
  | .linkLoss _ => []
  | .frameReceive _ => []
  | .frameTransmit _ _ _ => []
  | .ptpClockDiscipline _ => []
  | .submit _ _ _ => []
  | .doorbell _ _ => []
  | .hostBar2Write _ _ _ _ => []
  | .hostTranslationRequest _ _ _ => []
  | .revocationConfirm _ => []
  | .hostLinkDown _ => []
  | .registerWrite _ _ => []
  | .mailboxBind _ _ _ => []
  | .send _ _ _ _ _ _ => []
  | .recv _ _ _ => []
  | .jbase _ _ _ => []
  | .jdrawCommit _ _ _ => []
  | .jdrawReplay _ _ => []
  | .jstat _ _ _ => []
  | .attestationRequest _ => []
  | .certificateRequest => []
  | .resetRelease _ => []
  | .powerRemoval => []
  | .memoryProcessorPreemption _ _ => []
  | .quotaEnlargement _ _ => []
  | .generalInstanceEnd _ _ => []
  | .asidRegistration _ _ => []
  | .pinRequest _ _ _ => []
  | .communicatorTableSet _ _ _ => []

/-- The words of an instruction under a header (R74, R78): the header stands in the first word only. -/
def encode (h : BitVec 4) (i : Instr) : List W32 :=
  match encodeNat i with
  | [] => []
  | w :: ws => BitVec.ofNat 32 (h.toNat * 2 ^ 28 + w) :: ws.map (BitVec.ofNat 32)

/-- The bytes of an instruction, each word little-endian (R6). -/
def encodeBytes (h : BitVec 4) (i : Instr) : List Byte :=
  (encode h i).flatMap fun w => leBytes 4 w.toNat

end Sys2Proof
end

