-- ==== Sys2Proof/Machine/Flags.lean ====
section
/-!
DEFINITION. Flag sets: six sticky bits CR NV DZ OF UF NX, bit 5 to bit 0 (R26); FFLAGS holds bits 4:0 of one (R42). Flag computations of every arithmetic result stand in Num.lean beside the result they belong to.
-/
namespace Sys2Proof.Machine

/-- Raised or sticky flags (R26, R42). -/
abbrev Flags := BitVec 6

def flNX : Flags := 1#6
def flUF : Flags := 2#6
def flOF : Flags := 4#6
def flDZ : Flags := 8#6
def flNV : Flags := 16#6
def flCR : Flags := 32#6

/-- Raise `f` when `c` holds. -/
def flagIf (c : Bool) (f : Flags) : Flags := if c then f else 0#6

/-- Sticky update: a bit once set stays set, and an instruction whose nf bit is 1 leaves the register unchanged (R26, R61, R110). -/
def mergeFlags (nf : Bool) (old raised : Flags) : Flags := if nf then old else old ||| raised

/-- The part of a flag set that FFLAGS holds: NV DZ OF UF NX (R42). -/
def fflagsOf (f : Flags) : BitVec 5 := f.setWidth 5

end Sys2Proof.Machine
end

