-- ==== Sys2Proof/Machine/Num.lean ====
section
/-!
DEFINITION. Number formats, conversions, FP32 arithmetic and the order of sums (spec 02, R49 to R72; R110 to R113). An exact value is a sign, a natural significand and a power of two.
-/
namespace Sys2Proof.Machine

/-- An exact value (R58): NaN, an infinity, or (-1)^neg × m × 2^e; m = 0 is the signed zero. -/
inductive Ex where
  | nan
  | inf (neg : Bool)
  | fin (neg : Bool) (m : Nat) (e : Int)
  deriving DecidableEq, Repr, Inhabited

/-- A result with the flags its computation raised. -/
structure Res where
  bits : Nat
  flags : Flags
  deriving DecidableEq, Repr, Inhabited

/-- The layout of an IEEE-like format (R49): exponent bits, fraction bits, bias, has infinities. -/
structure FpLayout where
  ebits : Nat
  fbits : Nat
  bias : Nat
  hasInf : Bool
  deriving DecidableEq, Repr

def fp32L : FpLayout := ⟨8, 23, 127, true⟩
def bf16L : FpLayout := ⟨8, 7, 127, true⟩
def fp16L : FpLayout := ⟨5, 10, 15, true⟩
def e4m3L : FpLayout := ⟨4, 3, 7, false⟩
def e5m2L : FpLayout := ⟨5, 2, 15, true⟩

/-- Canonical NaN of a format (R49). -/
def FpLayout.qnan (l : FpLayout) : Nat :=
  if l.hasInf then (2 ^ l.ebits - 1) * 2 ^ l.fbits + 2 ^ (l.fbits - 1) else 2 ^ (l.ebits + l.fbits) - 1

/-- Encoding of the largest finite value without its sign (R49). -/
def FpLayout.maxBits (l : FpLayout) : Nat :=
  if l.hasInf then (2 ^ l.ebits - 1) * 2 ^ l.fbits - 1 else 2 ^ (l.ebits + l.fbits) - 2

def FpLayout.infBits (l : FpLayout) : Nat := (2 ^ l.ebits - 1) * 2 ^ l.fbits

/-- Sign bit of an encoding as a number to add. -/
def FpLayout.signBit (l : FpLayout) (neg : Bool) : Nat := if neg then 2 ^ (l.ebits + l.fbits) else 0

/-- Power of two of the smallest subnormal (R49, R50). -/
def FpLayout.minExp (l : FpLayout) : Int := 1 - (l.bias : Int) - l.fbits

/-- Decode an encoding (R50). -/
def FpLayout.decode (l : FpLayout) (x : Nat) : Ex :=
  let neg := x / 2 ^ (l.ebits + l.fbits) % 2 == 1
  let e := x / 2 ^ l.fbits % 2 ^ l.ebits
  let f := x % 2 ^ l.fbits
  if e = 2 ^ l.ebits - 1 ∧ (l.hasInf ∨ f = 2 ^ l.fbits - 1) then
    if l.hasInf ∧ f = 0 then .inf neg else .nan
  else if e = 0 then .fin neg f l.minExp
  else .fin neg (2 ^ l.fbits + f) (l.minExp + (e - 1))

/-- Number of significant bits. -/
def bitLen (n : Nat) : Nat := if n = 0 then 0 else n.log2 + 1

/-- exponent(x) of R65 for a non-zero significand. -/
def exponentOf (m : Nat) (e : Int) : Int := e + (bitLen m : Int) - 1

/-- A magnitude rounded to a grid: q × 2^g, and whether it differs from the exact one. -/
structure Rounded where
  q : Nat
  g : Int
  inexact : Bool
  deriving DecidableEq, Repr

/-- Does rounding go up in magnitude: `mode` as in R62, `r` the remainder of 2^sh. -/
def roundsUp (mode : Nat) (neg : Bool) (q r sh : Nat) : Bool :=
  match mode with
  | 0 => decide (2 ^ sh < 2 * r) || (decide (2 ^ sh = 2 * r) && q % 2 == 1)
  | 1 => false
  | 2 => neg && r != 0
  | _ => !neg && r != 0

/-- Round m × 2^e to a multiple of 2^g (R62). -/
def roundAt (mode : Nat) (neg : Bool) (m : Nat) (e g : Int) : Rounded :=
  if g ≤ e then ⟨m * 2 ^ (e - g).toNat, g, false⟩
  else
    let sh := (g - e).toNat
    let q := m / 2 ^ sh
    let r := m % 2 ^ sh
    ⟨if roundsUp mode neg q r sh then q + 1 else q, g, r != 0⟩

/-- Round to the fraction width of a format, exponent unbounded above (R58): the grid of the value's exponent, not below the smallest subnormal. -/
def FpLayout.round (l : FpLayout) (mode : Nat) (neg : Bool) (m : Nat) (e : Int) : Rounded :=
  let r := roundAt mode neg m e (max (exponentOf m e - l.fbits) l.minExp)
  if r.q = 2 ^ (l.fbits + 1) then ⟨2 ^ l.fbits, r.g + 1, r.inexact⟩ else r

/-- Encoding of q × 2^g without sign, for a rounded magnitude within the exponent range; the caller checks overflow. -/
def FpLayout.encodeMag (l : FpLayout) (r : Rounded) : Nat :=
  if r.q < 2 ^ l.fbits then r.q
  else (r.g - l.minExp).toNat * 2 ^ l.fbits + r.q

/-- Is a rounded magnitude above the largest finite value. -/
def FpLayout.overflows (l : FpLayout) (r : Rounded) : Bool :=
  decide (2 ^ l.fbits ≤ r.q) && decide (l.maxBits < l.encodeMag r)

/-- Flags of a rounded result that did not overflow (R58, R63): tininess after rounding. -/
def FpLayout.roundFlags (l : FpLayout) (r : Rounded) : Flags :=
  flagIf r.inexact flNX ||| flagIf (r.inexact && decide (r.q < 2 ^ l.fbits)) flUF

/-- IEEE 754 rounding of an exact value to FP32 in a mode (R62, R63, R65); NaN per R64. -/
def roundFp32 (mode : Nat) (x : Ex) : Res :=
  match x with
  | .nan => ⟨fp32L.qnan, 0#6⟩
  | .inf neg => ⟨fp32L.signBit neg + fp32L.infBits, 0#6⟩
  | .fin neg m e =>
    if m = 0 then ⟨fp32L.signBit neg, 0#6⟩
    else
      let r := fp32L.round mode neg m e
      if fp32L.overflows r then
        let toMax := mode == 1 || (mode == 2 && !neg) || (mode == 3 && neg)
        ⟨fp32L.signBit neg + (if toMax then fp32L.maxBits else fp32L.infBits), flOF ||| flNX⟩
      else ⟨fp32L.signBit neg + fp32L.encodeMag r, fp32L.roundFlags r⟩

/-- The exact value of FP32 bits (R49, R50). -/
def decodeFp32 (x : W32) : Ex := fp32L.decode x.toNat

/-- Value of a DSH8 term in units of 2⁻⁶ (R52). -/
def dshTerm (s c : Nat) : Int := if c = 7 then 0 else if s = 1 then -(2 ^ (6 - c) : Nat) else (2 ^ (6 - c) : Nat)

/-- Value of a DSH8 byte in units of 2⁻⁶ (R52). -/
def dshValue (b : Nat) : Int := dshTerm (b / 128 % 2) (b / 16 % 8) + dshTerm (b / 8 % 2) (b % 8)

/-- An integer times a power of two as an exact value; zero is +0. -/
def exOfInt (i : Int) (e : Int) : Ex := .fin (decide (i < 0)) i.natAbs e

/-- Ranks a DSH8 byte for a target u in units of 2⁻⁸ (R53): distance, then magnitude, then code pair, then byte. -/
def dshKey (u : Int) (b : Nat) : Nat :=
  (((u - 4 * dshValue b).natAbs * 256 + (dshValue b).natAbs) * 64 + (b / 16 % 8) * 8 + b % 8) * 256 + b

/-- dsh8_encode (R53). The target keeps one sticky bit below 2⁻⁷, which decides every comparison of distances. -/
def dsh8Encode (x : Ex) : Res :=
  match x with
  | .nan => ⟨0x77, flNV⟩
  | .inf neg => ⟨if neg then 0x88 else 0x00, flNV⟩
  | .fin neg m e =>
    let k := roundAt 1 false m e (-7)
    if 256 < k.q ∨ (k.q = 256 ∧ k.inexact) then ⟨if neg then 0x88 else 0x00, flOF ||| flNX⟩
    else
      let mag : Int := ((2 * k.q + k.inexact.toNat : Nat) : Int)
      let u : Int := if neg then -mag else mag
      let best := ((List.range 255).foldl (fun acc b => min acc (dshKey u (b + 1))) (dshKey u 0)) % 256
      let v := dshValue best
      let exact := !k.inexact && decide (4 * v = u)
      ⟨if v = 0 then 0x77 else best, flagIf (!exact) flNX⟩

/-- Exact value rounded to an integer (R58, R112): sign, magnitude, inexact. -/
def roundInt (mode : Nat) (neg : Bool) (m : Nat) (e : Int) : Int × Bool :=
  let r := roundAt mode neg m e 0
  ((if neg then -(r.q : Int) else r.q), r.inexact)

/-- Bounds of the integer formats (R51). -/
def imaxOf (w : Nat) : Int := 2 ^ (w - 1) - 1
def iminOf (w : Nat) : Int := -(2 ^ (w - 1))

/-- Two's-complement bits of an integer in w bits. -/
def intBits (w : Nat) (i : Int) : Nat := (BitVec.ofInt w i).toNat

/-- Conversion of an exact value to INT8 or INT32 under a rounding mode (R58 with nearest even, R112). -/
def convertInt (mode w : Nat) (x : Ex) : Res :=
  match x with
  | .nan => ⟨0, flNV⟩
  | .inf neg => ⟨intBits w (if neg then iminOf w else imaxOf w), flNV⟩
  | .fin neg m e =>
    let (i, inexact) := roundInt mode neg m e
    if imaxOf w < i then ⟨intBits w (imaxOf w), flNV⟩
    else if i < iminOf w then ⟨intBits w (iminOf w), flNV⟩
    else ⟨intBits w i, flagIf inexact flNX⟩

/-- convert(x, fmt, sat) for the floating formats of R49 (R58). -/
def convertFp (l : FpLayout) (x : Ex) (sat : Bool) : Res :=
  match x with
  | .nan => ⟨l.qnan, 0#6⟩
  | .inf neg =>
    if l.hasInf then ⟨l.signBit neg + l.infBits, 0#6⟩
    else if sat then ⟨l.signBit neg + l.maxBits, 0#6⟩
    else ⟨l.qnan, flNV⟩
  | .fin neg m e =>
    if m = 0 then ⟨l.signBit neg, 0#6⟩
    else
      let r := l.round 0 neg m e
      if l.overflows r then
        ⟨if sat then l.signBit neg + l.maxBits
         else if l.hasInf then l.signBit neg + l.infBits else l.qnan, flOF ||| flNX⟩
      else ⟨l.signBit neg + l.encodeMag r, l.roundFlags r⟩

/-- The floating layout of an element format; RAW and the integer formats have none (R49, R54, R56). -/
def fmtLayout : Fmt → Option FpLayout
  | .fp32 => some fp32L
  | .bf16 => some bf16L
  | .fp16 => some fp16L
  | .e4m3 | .e4m3s => some e4m3L
  | .e5m2 | .e5m2s => some e5m2L
  | .raw | .int8 | .int32 | .dsh8 => none

/-- Bytes of one element; block-scaled elements count their data byte (R55, R56). -/
def elemBytes : Fmt → Nat
  | .fp32 | .int32 => 4
  | .bf16 | .fp16 => 2
  | .raw | .e4m3 | .e5m2 | .int8 | .dsh8 | .e4m3s | .e5m2s => 1

/-- Is the format block-scaled (R54). -/
def fmtScaled : Fmt → Bool
  | .e4m3s | .e5m2s => true
  | _ => false

/-- decode(format, bits) for one element without a scale (R65). A RAW byte is read as an unsigned number; nothing decodes RAW (R57). -/
def decodeFmt (f : Fmt) (x : Nat) : Ex :=
  match f with
  | .raw => .fin false x 0
  | .fp32 => fp32L.decode x
  | .bf16 => bf16L.decode x
  | .fp16 => fp16L.decode x
  | .e4m3 | .e4m3s => e4m3L.decode x
  | .e5m2 | .e5m2s => e5m2L.decode x
  | .int8 => exOfInt (BitVec.ofNat 8 x).toInt 0
  | .int32 => exOfInt (BitVec.ofNat 32 x).toInt 0
  | .dsh8 => exOfInt (dshValue x) (-6)

/-- Multiply an exact value by a power of two. -/
def Ex.scale (x : Ex) (k : Int) : Ex :=
  match x with
  | .fin neg m e => .fin neg m (e + k)
  | y => y

/-- An element of a block with its scale code (R54). -/
def decodeScaled (f : Fmt) (x c : Nat) : Ex :=
  if c = 255 then .nan else (decodeFmt f x).scale ((c : Int) - 127)

/-- convert(x, format, sat) (R58) for an element that carries no block scale. -/
def convert (f : Fmt) (x : Ex) (sat : Bool) : Res :=
  match f with
  | .raw => ⟨0, 0#6⟩
  | .dsh8 => dsh8Encode x
  | .int8 => convertInt 0 8 x
  | .int32 => convertInt 0 32 x
  | .fp32 => convertFp fp32L x sat
  | .bf16 => convertFp bf16L x sat
  | .fp16 => convertFp fp16L x sat
  | .e4m3 | .e4m3s => convertFp e4m3L x sat
  | .e5m2 | .e5m2s => convertFp e5m2L x sat

/-- The sat an implicit conversion takes (R58): 1 when the destination has no infinity. -/
def implicitSat (f : Fmt) : Bool :=
  match fmtLayout f with
  | some l => !l.hasInf
  | none => true

/-- A block of four converted for a block-scaled destination (R59, R60): scale code, element bytes, flags. -/
structure Block4 where
  code : Nat
  bytes : List Nat
  flags : List Flags
  deriving DecidableEq, Repr

/-- The largest exponent over the finite non-zero values of a block (R60 step 2). -/
def blockExp : List Ex → Option Int
  | [] => none
  | .fin _ m e :: xs =>
    if m = 0 then blockExp xs
    else match blockExp xs with
      | none => some (exponentOf m e)
      | some k => some (max k (exponentOf m e))
  | _ :: xs => blockExp xs

/-- R60 for the block-scaled format `f`. -/
def convertBlock (f : Fmt) (xs : List Ex) : Block4 :=
  if xs.any (· == .nan) then ⟨255, xs.map fun _ => 0, xs.map fun _ => 0#6⟩
  else
    let code : Int := match blockExp xs with
      | none => 127
      | some e => max 0 (min 254 (e - (if f = .e4m3s then 8 else 15) + 127))
    let rs := xs.map fun x =>
      let r : Res := convert f (x.scale (127 - code)) true
      match f, x with
      | .e4m3s, .inf _ => Res.mk r.bits (r.flags ||| flNV)
      | _, _ => r
    ⟨code.toNat, rs.map (·.bits), rs.map (·.flags)⟩

/-! ## FP32 arithmetic (R62 to R64, R110 to R113) -/

/-- A signed significand at a common exponent. -/
def signedAt (neg : Bool) (m : Nat) (e g : Int) : Int :=
  let v : Int := ((m * 2 ^ (e - g).toNat : Nat) : Int)
  if neg then -v else v

/-- Exact sum of two exact values; an exact zero of opposite signs is +0, or −0 when rounding toward −∞ (IEEE 754, R62, R65). -/
def exAdd (mode : Nat) (x y : Ex) : Ex × Flags :=
  match x, y with
  | .nan, _ => (.nan, 0#6)
  | _, .nan => (.nan, 0#6)
  | .inf a, .inf b => if a = b then (.inf a, 0#6) else (.nan, flNV)
  | .inf a, .fin _ _ _ => (.inf a, 0#6)
  | .fin _ _ _, .inf b => (.inf b, 0#6)
  | .fin a m e, .fin b n f =>
    if m = 0 ∧ n = 0 then (.fin (if a = b then a else mode == 2) 0 0, 0#6)
    else
      let g := min e f
      let s := signedAt a m e g + signedAt b n f g
      (if s = 0 then .fin (mode == 2) 0 0 else exOfInt s g, 0#6)

/-- Exact product (R66): a zero times an infinity is NaN and raises NV. -/
def exMul (x y : Ex) : Ex × Flags :=
  match x, y with
  | .nan, _ => (.nan, 0#6)
  | _, .nan => (.nan, 0#6)
  | .inf a, .inf b => (.inf (a != b), 0#6)
  | .inf a, .fin b n _ => if n = 0 then (.nan, flNV) else (.inf (a != b), 0#6)
  | .fin a m _, .inf b => if m = 0 then (.nan, flNV) else (.inf (a != b), 0#6)
  | .fin a m e, .fin b n f => (.fin (a != b) (m * n) (e + f), 0#6)

/-- Change the sign. -/
def Ex.negate : Ex → Ex
  | .nan => .nan
  | .inf n => .inf (!n)
  | .fin n m e => .fin (!n) m e

/-- Round the pair of an exact value and its flags to FP32. -/
def finish32 (mode : Nat) (p : Ex × Flags) : Res :=
  let r := roundFp32 mode p.1
  ⟨r.bits, r.flags ||| p.2⟩

def addFp32 (mode : Nat) (a b : W32) : Res := finish32 mode (exAdd mode (decodeFp32 a) (decodeFp32 b))
def subFp32 (mode : Nat) (a b : W32) : Res := finish32 mode (exAdd mode (decodeFp32 a) (decodeFp32 b).negate)
def mulFp32 (mode : Nat) (a b : W32) : Res := finish32 mode (exMul (decodeFp32 a) (decodeFp32 b))

/-- a × b + c with one rounding; 0 × ∞ raises NV whatever c is (R64, R110). -/
def fmaFp32 (mode : Nat) (a b c : W32) : Res :=
  let p := exMul (decodeFp32 a) (decodeFp32 b)
  let s := exAdd mode p.1 (decodeFp32 c)
  finish32 mode (s.1, s.2 ||| p.2)

/-- Exact quotient cut to a significand of at least 32 bits whose last bit is sticky, so that every rounding of it to FP32 is that of the exact quotient. -/
def quotientEx (neg : Bool) (m : Nat) (e : Int) (n : Nat) (f : Int) : Ex :=
  let k := 34 + bitLen n
  let q := m * 2 ^ k / n
  let r := m * 2 ^ k % n
  .fin neg (2 * q + (if r = 0 then 0 else 1)) (e - f - k - 1)

/-- a ÷ b (R63, R110). -/
def divEx (x y : Ex) : Ex × Flags :=
  match x, y with
  | .nan, _ => (.nan, 0#6)
  | _, .nan => (.nan, 0#6)
  | .inf _, .inf _ => (.nan, flNV)
  | .inf a, .fin b _ _ => (.inf (a != b), 0#6)
  | .fin a _ _, .inf b => (.fin (a != b) 0 0, 0#6)
  | .fin a m e, .fin b n f =>
    if n = 0 then (if m = 0 then (.nan, flNV) else (.inf (a != b), flDZ))
    else if m = 0 then (.fin (a != b) 0 0, 0#6)
    else (quotientEx (a != b) m e n f, 0#6)

def divFp32 (mode : Nat) (a b : W32) : Res := finish32 mode (divEx (decodeFp32 a) (decodeFp32 b))

/-- Integer square root by bits from the top: the largest r with r² ≤ n, r below 2^k. -/
def isqrtBits (n : Nat) : Nat → Nat → Nat
  | 0, r => r
  | k + 1, r => isqrtBits n k (if (r + 2 ^ k) * (r + 2 ^ k) ≤ n then r + 2 ^ k else r)

def isqrt (n : Nat) : Nat := isqrtBits n (bitLen n / 2 + 1) 0

/-- √x cut to at least 32 bits with a sticky last bit; √(−0) = −0 (R110). -/
def sqrtEx (x : Ex) : Ex × Flags :=
  match x with
  | .nan => (.nan, 0#6)
  | .inf true => (.nan, flNV)
  | .inf false => (.inf false, 0#6)
  | .fin neg m e =>
    if m = 0 then (.fin neg 0 0, 0#6)
    else if neg then (.nan, flNV)
    else
      let odd := e % 2 != 0
      let m2 := (if odd then m * 2 else m) * 2 ^ 70
      let e2 := (if odd then e - 1 else e) - 70
      let r := isqrt m2
      (.fin false (2 * r + (if r * r = m2 then 0 else 1)) (e2 / 2 - 1), 0#6)

def sqrtFp32 (mode : Nat) (a : W32) : Res := finish32 mode (sqrtEx (decodeFp32 a))

/-- 1 ÷ x, and 1 ÷ √x, rounded once (R221, R63). -/
def rcpFp32 (mode : Nat) (a : W32) : Res := finish32 mode (divEx (.fin false 1 0) (decodeFp32 a))

/-- An FP32 as an ordered key: −0 below +0, infinities at the ends; NaN has no key (R111). -/
def orderKey (a : W32) : Int :=
  let m : Int := ((a.toNat % 2 ^ 31 : Nat) : Int)
  if a.toNat / 2 ^ 31 = 1 then -m - 1 else m

def isNan32 (a : W32) : Bool := decide (0x7F800000 < a.toNat % 2 ^ 31)

/-- The value order: the two zeros are equal (R111). -/
def valueKey (a : W32) : Int := if a.toNat % 2 ^ 31 = 0 then 0 else orderKey a

def qnan32 : W32 := 0x7FC00000#32

/-- FMIN and FMAX (R111). -/
def minFp32 (a b : W32) : W32 :=
  if isNan32 a then (if isNan32 b then qnan32 else b)
  else if isNan32 b then a
  else if orderKey b < orderKey a then b else a

def maxFp32 (a b : W32) : W32 :=
  if isNan32 a then (if isNan32 b then qnan32 else b)
  else if isNan32 b then a
  else if orderKey a < orderKey b then b else a

/-- FCMP (R111): false with a NaN. -/
def eqFp32 (a b : W32) : Bool := !isNan32 a && !isNan32 b && valueKey a == valueKey b
def ltFp32 (a b : W32) : Bool := !isNan32 a && !isNan32 b && decide (valueKey a < valueKey b)
def leFp32 (a b : W32) : Bool := !isNan32 a && !isNan32 b && decide (valueKey a ≤ valueKey b)

/-- FCVT.W (R112): the INT32 as 32 bits. -/
def cvtW (mode : Nat) (a : W32) : Res := convertInt mode 32 (decodeFp32 a)

/-- FCVT.F (R112). -/
def cvtF (mode : Nat) (x : W64) : Res := roundFp32 mode (exOfInt x.toInt 0)

/-- FCLASS (R113). -/
def classFp32 (a : W32) : Nat :=
  let neg := a.toNat / 2 ^ 31 == 1
  let m := a.toNat % 2 ^ 31
  if isNan32 a then 2 ^ 8
  else if m = 0x7F800000 then (if neg then 2 ^ 0 else 2 ^ 7)
  else if m = 0 then (if neg then 2 ^ 3 else 2 ^ 4)
  else if m < 0x00800000 then (if neg then 2 ^ 2 else 2 ^ 5)
  else (if neg then 2 ^ 1 else 2 ^ 6)

/-- FSGNJ (R110). -/
def sgnj (a b : W32) : W32 := (a &&& 0x7FFFFFFF#32) ||| (b &&& 0x80000000#32)

/-! ## The canonical order of a sum (R66 to R73) -/

/-- One addend of a group: an exact product (with the flags of forming it) or the running value. -/
structure Addend where
  val : Ex
  flags : Flags
  deriving DecidableEq, Repr

/-- Exact product of two decoded elements (R66). -/
def product (x y : Ex) : Addend := let p := exMul x y; ⟨p.1, p.2⟩

/-- align_truncate in units of 2^g (R65): floor toward −∞, and whether it changed the term. -/
def alignTruncate (neg : Bool) (m : Nat) (e g : Int) : Int × Bool :=
  if g ≤ e then (signedAt neg m e g, false)
  else
    let sh := (g - e).toNat
    let q : Int := ((m / 2 ^ sh : Nat) : Int)
    let rest := m % 2 ^ sh != 0
    (if neg then (if rest then -q - 1 else -q) else q, rest)

/-- Largest exponent over the finite non-zero terms. -/
def maxExp : List Ex → Option Int := blockExp

/-- Sum of the aligned terms in units of 2^g, and whether any changed (R69). -/
def alignedSum (g : Int) : List Ex → Int × Bool
  | [] => (0, false)
  | .fin neg m e :: xs =>
    let t := alignTruncate neg m e g
    let r := alignedSum g xs
    (t.1 + r.1, t.2 || r.2)
  | _ :: xs => alignedSum g xs

def hasInfOf (neg : Bool) (xs : List Ex) : Bool := xs.any (· == .inf neg)

/-- group_sum (R69): `run` is the running value with its flags; none is the absent value. A term changed by alignment raises NX; it raises UF only where the rounding of S does (R63; log 100). -/
def groupSum (terms : List Addend) (run : Option Res) : Option Res :=
  let all := terms ++ (run.map fun r => [⟨fp32L.decode r.bits, r.flags⟩]).getD []
  if all.isEmpty then none
  else
    let fl := all.foldl (fun acc t => acc ||| t.flags) 0#6
    let xs := all.map (·.val)
    if xs.any (· == .nan) then some ⟨fp32L.qnan, fl⟩
    else if hasInfOf true xs && hasInfOf false xs then some ⟨fp32L.qnan, fl ||| flNV⟩
    else if hasInfOf false xs then some ⟨fp32L.infBits, fl⟩
    else if hasInfOf true xs then some ⟨fp32L.signBit true + fp32L.infBits, fl⟩
    else match maxExp xs with
      | none => some ⟨fp32L.signBit (xs.all fun x => match x with | .fin n _ _ => n | _ => false), fl⟩
      | some e =>
        let s := alignedSum (e - 47) xs
        let r : Res := if s.1 = 0 then ⟨0, 0#6⟩ else roundFp32 0 (exOfInt s.1 (e - 47))
        some ⟨r.bits, fl ||| r.flags ||| flagIf s.2 flNX⟩

/-- chunk_sum over the groups of a chunk in order (R70): the groups' terms, structural zeros already left out. -/
def chunkRun (groups : List (List Addend)) (acc : Option Res) : Option Res :=
  groups.foldl (fun run g => groupSum g run) acc

/-- An absent sum becomes +0 at the end of a chunk (R70). -/
def chunkSum (groups : List (List Addend)) (acc : Option Res) : Res :=
  (chunkRun groups acc).getD ⟨0, 0#6⟩

/-- One addition of the INT32 sum (R72): modulo 2³², OF when it leaves the INT32 range. -/
def addInt32 (r : Res) (x : Int) : Res :=
  let s := (BitVec.ofNat 32 r.bits).toInt + x
  ⟨intBits 32 s, r.flags ||| flagIf (decide (imaxOf 32 < s) || decide (s < iminOf 32)) flOF⟩

/-- Integer products added in ascending index to the running value (R72). -/
def intRun (prods : List Int) (acc : Res) : Res := prods.foldl addInt32 acc

/-- fp32_add (R65). -/
def fp32Add (a b : W32) : Res := addFp32 0 a b

end Sys2Proof.Machine
end

