-- ==== Sys2Proof/Config.lean ====
section
/-!
DEFINITION. What the part fixes (R1, R3, R10) and the free values: opaque constants that no proof can see through, one for each point the spec leaves open.
-/
namespace Sys2Proof.Config

/-- Dies of the LX9604-P (R10). -/
def dies : Nat := 4
/-- Bays of a die (R10). -/
def bays : Nat := 24
/-- Cores of a bay (R10). -/
def cores : Nat := 4
/-- Bytes of a granule (R249). -/
def granuleBytes : Nat := 65536
/-- Granules of a core's pool (R3, R249). -/
def granules : Nat := 48
/-- Sectors of one die's DRAM (R264). -/
def dieSectors : Nat := 1207959552
/-- Sectors of the version area of a die: 64 MiB (R259, R265). -/
def areaSectors : Nat := 1048576
/-- Spilled versions the version area of a die holds (R259). -/
def areaVersions : Nat := 131072
/-- Bytes of one die's bonded DRAM: 72 GiB (R3); the stacks lie above (R288). -/
def dramBytes : Nat := 72 * 2 ^ 30
/-- Cycles of 200 µs (R269). -/
def parkCycles : Nat := 260000
/-- Array cycles a lease term may span (R211). -/
def leaseCycles : Nat := 4096

/-- FREE VALUE (log 4): the cycles a queued command or access takes beyond the next cycle (R122, R165), kept within the bound its tier has (R261). -/
opaque queuedLatency : Nat → Nat
/-- FREE VALUE (log 11): sectors the lossless codec needs for the 512 bytes of a block (R264, R266); see `sectorsOf` for its bounds. -/
opaque codecSectors : List Byte → Nat
/-- FREE VALUE (log 9): does the signature of an image verify under a key (R379, R403)? -/
opaque signatureOk : (key : Nat) → (message signature : List Byte) → Bool
/-- FREE VALUE (log 9): SHA-512 of a byte list (R379, R407). -/
opaque sha512Of : List Byte → Vector Byte 64
/-- Its bytes. -/
def sha512 (b : List Byte) : List Byte := (sha512Of b).toList
/-- FREE VALUE (log 9): the identity key's signature of a report (R407). -/
opaque identitySig : List Byte → Vector Byte 132
/-- Its bytes. -/
def identitySign (b : List Byte) : List Byte := (identitySig b).toList
/-- FREE VALUE (log 9): the first 128 bits of HMAC-SHA-512 under the key of a boot (R363). -/
opaque bootMac : (boot : Nat) → List Byte → BitVec 128
/-- FREE VALUE (log 9): the certificate chain Penkor issued for the device (R406). -/
opaque certificate : List Byte
/-- FREE VALUE (log 18): the syndrome an error-log entry records (R284). -/
opaque syndrome : Nat → W64
/-- FREE VALUE (log 26): the 4 KiB frame of the record page the memory processor gives a launch, and the page of the virtual address it maps it at (R350, R361). -/
opaque recordFrame : (launch : Nat) → Nat
opaque recordVa : (launch : Nat) → Nat
/-- FREE VALUE (log 117): the frame of the firmware handler the memory processor maps at the default vector of a partition (R326). -/
opaque handlerFrame : (vmid : Nat) → Nat
/-- FREE VALUE (log 118): sectors of a die the memory processor keeps for spare rows and for its firmware (R265). -/
opaque reservedSectors : (die : Nat) → Nat
/-- FREE VALUE (log 119): versions a die's slices spill for want of another entry, beside those of lines with more than 8, by the number they hold (R259). -/
opaque roomSpills : (die versions : Nat) → Nat
/-- FREE VALUE (log 32): the frames of the roots of a process's stage-1, unified and adjoint trees (`which` 0, 1, 2), which the memory processor chooses at registration (R292, R296). -/
opaque treeRoot : (vmid asid which : Nat) → Nat
/-- FREE VALUE (log 121): LEVEL of a fault report for the root entry of a unified table, level 4, which the field cannot hold (R304). -/
opaque rootLevel : Nat
/-- FREE VALUE (log 122): the frame of the adjoint page the memory processor maps for a differentiable page, named by its first address (R307). -/
opaque adjointFrame : (vmid asid va : Nat) → Nat
/-- FREE VALUE (log 33): blocks the demotion area of a partition holds, sized at its setup (R273). -/
opaque demotionBlocks : (vmid : Nat) → Nat
/-- FREE VALUE (log 9): the firmware a configuration image carries, whose format the spec does not give (R403, R407). -/
opaque firmwareOf : List Byte → List Byte
/-- FREE VALUE (log 19): cycles from the arrival of the block before at an expander to that of a block of a command; from its issue for the first (R279, R285). -/
opaque blockArrival : (cmd block : Nat) → Nat
/-- FREE VALUE (log 19): cycles in which another expander's FIFO that holds blocks of a context is full, by counter (R279). -/
opaque sharedFull : Nat → Nat
/-- FREE VALUE (log 19): bits of a value whose content the spec does not state, by counter. -/
opaque freeWord : Nat → W64

/-- Sectors a block needs: 1 to 8 (R264). -/
def sectorsOf (bytes : List Byte) : Nat := Nat.max 1 (Nat.min 8 (codecSectors bytes))

end Sys2Proof.Config
end

