-- ==== Sys2Proof/Machine/State.lean ====
section
/-!
DEFINITION. The state of the device as plain data: contexts, bays, memory with its versions, and the device's own units. Each structure names the rules that give its fields. `State.reset` is the machine right after reset.
-/
namespace Sys2Proof.Machine

/-- Why a step stops. No meaning of an instruction raises one of these: a trap of the spec is a next state. -/
inductive Fault where
  /-- Raised by `step` when no instruction can ever issue again because the device is without power (R408). Safe: the hardware keeps no state either. -/
  | noPower
  deriving DecidableEq, Repr

/-- Why an instruction has no meaning here. -/
inductive Refusal where
  /-- Raised by `exec` for an instruction this model has not reached. Safe: nothing is said about it. -/
  | notModelled (mnemonic : String)
  /-- Raised by `step` when a word that no opcode map accepts reaches issue (R96, R101: the scanner never lets one issue). Safe: the hardware never issues it. -/
  | reservedEncoding (stream : StreamId) (word : W32)
  deriving DecidableEq, Repr

/-! ## Pieces of a context -/

/-- What each stream of a context has retired before a point: accession counts by stream (R128, R351). -/
structure Ord where
  c : Nat
  a : Nat
  m : Nat
  s : Nat
  deriving DecidableEq, Repr, Inhabited

/-- A token in a FIFO: the cycle it was given in and what it orders (R17, R18, R128). -/
structure Tok where
  given : Nat
  ord : Ord
  deriving DecidableEq, Repr, Inhabited

/-- A token FIFO between two adjacent streams: its tokens, and the cycle and count of the last takes (R17, R18). -/
structure Fifo where
  toks : List Tok
  takenAt : Nat
  taken : Nat
  deriving DecidableEq, Repr, Inhabited

/-- An entry of a queue: its value and the cycle it was pushed in (R20, R21). -/
structure QEnt where
  val : W64
  pushed : Nat
  deriving DecidableEq, Repr, Inhabited

/-- A queue register: entries oldest first, and the cycle and count of the last pops (R20, R21). -/
structure Queue where
  ents : List QEnt
  poppedAt : Nat
  popped : Nat
  deriving DecidableEq, Repr, Inhabited

/-- An entry of a loop stack (R116): body start, end word, remaining count. -/
structure LoopEnt where
  start : W64
  stop : W64
  cnt : W64
  deriving DecidableEq, Repr, Inhabited

/-- One stream of a context (R16, R18, R77, R116, R351). `held` lists the headers of the instructions that stay at retirement for a full FIFO, oldest first; `ref` is the cycle from which the next issue delay counts. -/
structure Strm where
  pc : W64
  loops : List LoopEnt
  held : List (BitVec 4)
  ref : Nat
  stopped : Bool
  acc : Nat
  ord : Ord
  deriving DecidableEq, Repr, Inhabited

/-- A pattern register (R39, R193 to R195) with the codes or indices read at setting. -/
inductive Pat where
  | none | ones | ltri | utri | sltri
  | ident (off : Int)
  | perm (idx : List Int)
  | onehot (codes : List Nat) (n base : Nat) (trapOnRange : Bool)
  | band (first : Int) (coeffs : List (BitVec 16))
  deriving DecidableEq, Repr, Inhabited

/-- What a word access to a bank does (R250, R252): a load with the bytes it has and those it still wants, a store of bytes, an atomic. -/
inductive WordOp where
  | ld (d : SReg) (got : List Byte) (bad : Bool) (left : Nat)
  | st (bytes : List Byte)
  | rmw (d : SReg) (r : AtomReq)
  deriving DecidableEq, Repr, Inhabited

/-- A word access of a C stream to a bank, not performed yet (R250 to R253): its number, the first cycle its grant may serve it in, where its remaining bytes begin, whether its first 8-byte unit has been served, its pointer and instruction address, whether a handler issued it, and its accession and issue cycle, which say what it is ordered before (R128). A load of another context's bank carries the bytes its view held at its issue (R239). -/
structure WordReq where
  id : Nat
  from0 : Nat
  loc : Nat
  op : WordOp
  begun : Bool
  ptr : W64
  addr : W64
  own : Bool
  pos : Nat
  made : Nat
  deriving DecidableEq, Repr, Inhabited

/-- States of an operand-slot handle (R33). -/
inductive SlotSt where
  | unbound | claimed | loaded
  deriving DecidableEq, Repr, Inhabited

/-- A folio (R187, R192): format, the 128 lines as bytes of the bank rows, and the metadata bytes of a 2:4 load. -/
structure Folio where
  fmt : Fmt
  lines : List (List Byte)
  meta24 : Option (List (List Byte))
  deriving DecidableEq, Repr, Inhabited

/-- An operand-slot handle (R33): state, slot granule and folio. Loads in flight stand in `Ctx.loads` (R191). -/
structure Slot where
  st : SlotSt
  gran : Nat
  folio : Folio
  deriving DecidableEq, Repr, Inhabited

/-- An accumulator element: present, bits, carried flags (R70, R200, R202). -/
structure AccElt where
  present : Bool
  bits : W32
  flags : Flags
  deriving DecidableEq, Repr, Inhabited

/-- A tile of 128 rows of 128 elements; a missing element is absent with no flags. -/
abbrev Tile := List (List AccElt)

/-- States of an accumulator handle (R36). -/
inductive AccSt where
  | empty | seeded | tagged
  deriving DecidableEq, Repr, Inhabited

/-- An accumulator handle (R36, R37, R204) as the M stream sees it at issue. -/
structure Acc where
  st : AccSt
  int : Bool
  level : Nat
  index : Nat
  isOpen : Bool
  wrapped : Bool
  pair : Nat
  deriving DecidableEq, Repr, Inhabited

/-- What an array command does (R199, R206, R207). -/
inductive ACmdKind where
  | grid | fold | load
  deriving DecidableEq, Repr, Inhabited

/-- An accepted array command or slot-path load with its result and cycles (R191, R207, R209, R213): its issue cycle and accession, the pairs and slot granules it reads, its start (predicted until it has started) and the data type and tile it leaves. CIX, KDEP, wrapped and the handle it writes stand as they were at its issue (R335, R365); `opens` says whether it leaves a chunk open (R230), `again` whether the array executes it again after a resume, `lease` the grant cycle of the term that accepted it and the commands that had accepted before it (R211). -/
structure ACmd where
  id : Nat
  kind : ACmdKind
  instr : Instr
  issued : Nat
  acc : Nat
  pair : Nat
  reads : List Nat
  slots : List Nat
  start : Nat
  occ : Nat
  done : Nat
  started : Bool
  int : Bool
  result : Tile
  cix : Nat
  kdep : Nat
  wrapped : Bool
  opens : Bool
  again : Bool
  kreg : KReg
  before : Acc
  lease : Option (Nat × Nat)
  deriving DecidableEq, Repr, Inhabited

/-- What an urgent stop puts back: the handles, CIX, KDEP and wrapped as the M stream left them (R335). -/
structure Tags where
  ks : Vector Acc 32
  cix : Nat
  kdep : Nat
  wrapped : Bool
  deriving DecidableEq, Repr, Inhabited

/-- The front of a pair (R38): its data type, whether its chunk is open (R230), and its tile. -/
structure Front where
  pair : Nat
  int : Bool
  isOpen : Bool
  tile : Tile
  deriving DecidableEq, Repr, Inhabited

/-- A handle as it stood before an ACC.REL, for a retirement not ordered after it (R208): the accession and cycle of the ACC.REL, and the front when the pair has been taken again. -/
structure Rel where
  k : Nat
  old : Acc
  acc : Nat
  cycle : Nat
  front : Option Front
  deriving DecidableEq, Repr, Inhabited

/-- A load of an operand slot in flight on the slot-load path (R191, R192). -/
structure SLoad where
  id : Nat
  gran : Nat
  start : Nat
  done : Nat
  deriving DecidableEq, Repr, Inhabited

/-- A retirement in progress (R209, R217, R229): the handle's pair, first cycle, the cycle it retires in, the header whose gives it owes then, and whether it counts as a retired instruction (a substitute before the last does not, R376). -/
structure Retiring where
  id : Nat
  pair : Nat
  start : Nat
  done : Nat
  give : BitVec 4
  counts : Bool
  deriving DecidableEq, Repr, Inhabited

/-- A barrier as its context keeps it (R40, R132 to R136). -/
structure BarSt where
  scope : Scope
  expected : Nat
  arrived : Bool
  gen : Nat
  deadline : W64
  proceed : Bool
  deriving DecidableEq, Repr, Inhabited

/-- A recorded deferred fault (R168): the fault with the command's address, buffer, communicator, kind of access, fault report (R304, R352), and whether the command writes memory (R177). -/
structure TagFault where
  fault : CmdFault
  addr : W64
  ptr : W64
  comm : Nat
  kind : Nat
  report : List Byte
  memWriter : Bool
  deriving DecidableEq, Repr, Inhabited

/-- A copy tag that is not at rest (R41, R169, R177, R182): completed count since the last wait, recorded fault, the first recorded fault of a command that writes memory, non-finite bit. BUSY is "a command under the tag is in flight". -/
structure TagSt where
  done : Nat
  fault : Option TagFault
  writer : Option TagFault
  nonFinite : Bool
  deriving DecidableEq, Repr, Inhabited

/-- Where a result goes that lands in a later cycle (R104, R105, R357), or an effect with a fixed later cycle (R44, R160, R225). `bankRow` names the retirement that covers the row and, once that has come, its accession (R128); `await` is the result of a timed access that has not been performed yet, by the number of the access; `remote` is a word access in flight to another core (R253); `far` is a value that comes from another device, with its place, pointer and instruction (R366). `give` are the gives of a rewritten or emulated word, the last four the registers an emulated one leaves beside those above (R376). -/
inductive Land where
  | s (d : SReg) (v : W64)
  | f (d : FReg) (v : W32)
  | g (d : GReg) (v : W64)
  | lay (d : LReg) (v : W64)
  | v (d : VReg) (row : Row)
  | fflags (f : Flags)
  | lf (fs : List Flags)
  | hist (ctrs : List Nat)
  | csr (c : Csr) (v : W64)
  | bf (b : Nat) (f : Fmt)
  | bankRow (loc : Nat) (bytes : List Byte) (ret : Nat) (cov : Option Nat)
  | await (d : SReg) (id : Nat)
  | refresh (scope : Scope) (acc : Nat) (issued : Nat)
  | mbxTry (d : SReg) (box : Nat)
  | far (d : SReg) (v : W64) (loc : Nat) (ptr addr : W64)
  | faulted (d : SReg) (loc : Nat) (ptr addr : W64)
  | remote (core : Nat)
  | give (x : StreamId) (h : BitVec 4)
  | tag (n : Nat) (t : TagSt)
  | barSet (bs : List (Nat × BarSt))
  | mregs (ms : Vector Slot 32) (ks : Vector Acc 32) (ps : Vector Pat 8) (cix : Nat)
  | lfHist (lf : List Flags) (hist : Vector W32 34)
  deriving DecidableEq, Repr, Inhabited

/-- A pending result with its landing cycle and issue order. -/
structure Pend where
  due : Nat
  seq : Nat
  what : Land
  deriving DecidableEq, Repr, Inhabited

/-- The six copies and the collectives (R161, R180). -/
inductive CmdKind where
  | cpIn | cpOut | cpBb | cpGth | cpSct | cpFill | colRed | colRs | colAg | colBc
  deriving DecidableEq, Repr, Inhabited

/-- How far a command has come: waiting for `.s`, moving, parked for sectors, waiting for the memory processor at an element, armed on a bucket. -/
inductive CmdSt where
  | waiting | running | parked | pageWait | armed
  deriving DecidableEq, Repr, Inhabited

/-- A copy or collective command in flight (R161 to R181); `moved` is e(n) of R170, `skip` the bank bytes a later-issued command wrote first (R165), `nonFin` whether a collective with parked writes made an infinity or NaN (R182). -/
structure Cmd where
  id : Nat
  kind : CmdKind
  tag : Nat
  ser : Bool
  bank : Nat
  fmt : Fmt
  xfmt : Fmt
  ptr : W64
  lay : W64
  w1 : Nat
  addr : W64
  st : CmdSt
  issued : Nat
  due : Nat
  moved : Nat
  acc : Nat
  ord : Ord
  seen : List Nat
  dmode : DMode
  tape : Option W64
  blocks : List (Nat × List Byte)
  nextBlock : Nat
  fault : Option CmdFault
  colSeq : Nat
  report : List Byte
  skip : List (Nat × Nat)
  nonFin : Bool
  deriving DecidableEq, Repr, Inhabited

/-- What kind of entry is held at the home: a plain byte write, an adjoint accumulate, or an atomic parked for sectors with its destination register (R257, R267, R314). -/
inductive PrivKind where
  | plain | acc (v : W32) | atom (r : AtomReq) (d : Nat) (id : Nat)
  deriving DecidableEq, Repr, Inhabited

/-- The source of a private entry: the C stream, a command under its tag (R257), or a row instruction of the S stream by the number of its retirement, for bank bytes (R128, R236). -/
inductive PrivSrc where
  | cs | cmd (id tag : Nat) | row (id : Nat)
  deriving DecidableEq, Repr, Inhabited

/-- A written byte with its poison mark (R282). -/
structure PCell where
  loc : Nat
  byte : Byte
  poison : Bool
  deriving DecidableEq, Repr, Inhabited

/-- A private entry at the home of its bytes (R257): who wrote, what its writer had seen published, the accession of the write or of the CP.WAIT that returned its tag, its place and cycle in the queue of parked writes when it is parked (R267), its pointer and instruction address, its C-stream accession, its issue position (R312), whether it is an accumulate or the clear of a cell (R313, R319), and the A-stream accession of the append or pop it belongs to (R311). -/
structure Priv where
  src : PrivSrc
  kind : PrivKind
  cells : List PCell
  seen : List Nat
  waited : Option Nat
  waitedAt : Nat
  parked : Option (Nat × Nat)
  ptr : W64
  addr : W64
  pos : Nat
  ipos : Nat
  diff : Bool
  tape : Option Nat
  deriving DecidableEq, Repr, Inhabited

/-- Where a write stands in its context, for what a boundary covers (R128, R319): who wrote, its C-stream accession, when its tag was returned, whether it acts on an adjoint cell. -/
structure Prov where
  src : PrivSrc
  pos : Nat
  waited : Option Nat
  waitedAt : Nat
  diff : Bool
  deriving DecidableEq, Repr, Inhabited

def Priv.prov (p : Priv) : Prov := ⟨p.src, p.pos, p.waited, p.waitedAt, p.diff⟩

/-- A byte of a view that differs from the base: its value and the version it came from (0: a home value of an atomic) (R238, R244). -/
structure ViewEnt where
  cell : PCell
  ver : Nat
  deriving DecidableEq, Repr, Inhabited

/-- What a C-stream refresh or publish made known, from an accession on (R242). -/
structure AcqRec where
  acc : Nat
  cycle : Nat
  stamps : List Nat
  deriving DecidableEq, Repr, Inhabited

/-- An open shadow (R174 to R177): descriptor pointer, its fields, the extents of its rows as (row, location, length), the bytes of the shadow, and which command wrote each of them, by issue position (R165). -/
structure Shadow where
  ext : List (Nat × Nat × Nat)
  desc : W64
  base : W64
  rowBytes : Nat
  nrows : Nat
  stride : Nat
  cells : List PCell
  wrote : List (Nat × Nat)
  deriving DecidableEq, Repr, Inhabited

/-- A gradient bucket (R178, R179): range and its extents by location, scope, counter, armed collective. -/
structure Bucket where
  ext : List (Nat × Nat)
  base : W64
  total : Nat
  scope : Scope
  count : Nat
  armed : Option Nat
  deriving DecidableEq, Repr, Inhabited

/-- A bank armed for a frame (R184, R185), with the arming order on the die. -/
structure Armed where
  bank : Nat
  etype : Nat
  udp : Nat
  ports : Nat
  order : Nat
  deriving DecidableEq, Repr, Inhabited

/-- A valid trap frame (R353, R357, R377): the loop stack of C, the substitute indexes, the latches and issue points of a timed context, the PCs of C, A, M, S at entry, the write a REPLAY makes again, the barrier a timed BAR.WT was waiting on. -/
structure Frame where
  loops : List LoopEnt
  subst : List (StreamId × Nat)
  latches : List Pend
  refs : List Nat
  spcs : List W64
  replay : Option Priv
  bar : Option Nat
  deriving DecidableEq, Repr, Inhabited

/-- The life of a context (R12, R13, R334, R354, R418). -/
inductive Life where
  | vacant | active | resident | awaiting | stopped
  deriving DecidableEq, Repr, Inhabited

/-- An asynchronous trap held for the next entry boundary (R348). -/
structure Held where
  cls : Nat
  info : List Byte
  deriving DecidableEq, Repr, Inhabited

/-- A context bank with the context it holds (R11 to R45). `irqNow` says that an interrupt pending when a handler set STATUS bit 1 is let in (R153, R347), `roomWait` how many spills a boundary that waits for version space would add, 0 when none waits (R260). -/
structure Ctx where
  -- where it is and what it belongs to
  life : Life
  die : Nat
  bay : Nat
  core : Nat
  bank : Nat
  launch : Nat
  nodeDie : Nat
  nodeIdx : Nat
  turnAt : Nat
  -- CSRs (R42)
  timed : Bool
  status : BitVec 2
  vrank : W32
  vcount : W32
  part : W64
  frnd : BitVec 4
  fflags : BitVec 5
  scaleRcp : W32
  dmode : DMode
  tapeBase : W64
  tapeLimit : W64
  tapeHead : W64
  adjRoot : W64
  patchEpoch : W32
  yieldDl : W64
  expStall : W64
  trapVec : W64
  trapCause : W64
  -- registers (R23)
  s : Vector W64 32
  f : Vector W32 16
  g : Vector W64 16
  l : Vector W64 8
  v : Vector Row 16
  lf : List Flags
  lfNow : Nat × List Flags
  hist : Vector W32 34
  bf : Vector Fmt 48
  arm : List Armed
  ms : Vector Slot 32
  ks : Vector Acc 32
  ps : Vector Pat 8
  cix : Nat
  kdep : Nat
  wrapped : Bool
  bars : List (Nat × BarSt)
  tags : List (Nat × TagSt)
  -- streams (R16 to R21)
  strC : Strm
  strA : Strm
  strM : Strm
  strS : Strm
  fifoCA : Fifo
  fifoAC : Fifo
  fifoAM : Fifo
  fifoMA : Fifo
  fifoMS : Fifo
  fifoSM : Fifo
  fifoSC : Fifo
  fifoCS : Fifo
  qs : Vector Queue 8
  -- results and work in flight
  pend : List Pend
  words : List WordReq
  cmds : List Cmd
  acmds : List ACmd
  loads : List SLoad
  pathFree : Nat
  rets : List Retiring
  rtFree : Nat
  fronts : List Front
  rels : List Rel
  freeSlots : List Nat
  freePairs : List Nat
  backSlots : List Nat
  backPairs : List Nat
  -- A-stream mechanisms (R172 to R186)
  shadows : List Shadow
  buckets : List Bucket
  weights : BitVec 16
  landed : List Nat
  -- events and traps (R148, R345 to R357)
  events : BitVec 5
  irq : BitVec 7
  irqAt : Nat
  irqNow : Bool
  held : List Held
  heldAt : Nat
  frame : Option Frame
  frameImg : List Byte
  withdrawn : List Priv
  subst : List (StreamId × Nat)
  trapWait : Option TrapReq
  report : List Byte
  barWait : Option Nat
  diffWait : Bool
  roomWait : Nat
  saving : Option StopKind
  forcedCtr : Option Nat
  dlSeen : Bool
  abandoned : List ACmd
  tagsAtStop : Option Tags
  -- ordering (R238 to R257)
  priv : List Priv
  view : List ViewEnt
  accView : List Nat
  acq : List AcqRec
  -- translation (R292, R296, R299)
  asid : Nat
  vmid : Nat
  s1Root : Nat
  s2Root : Nat
  uRoot : Nat
  locked : List (Nat × Nat)
  lockedA : List (Nat × Nat)
  recPage : Nat
  recVa : W64
  lastTsc : W64
  deriving DecidableEq, Repr, Inhabited

/-! ## Memory -/

/-- A version of some bytes (R240, R241, R258): its place in the event order, the publisher's unit and rank, what the write had seen, the bytes, or an adjoint accumulate; its issue position (R165), and where its write stands in its context, for later boundaries that cover it too (R128). -/
structure Ver where
  id : Nat
  stamp : Nat
  scope : Scope
  die : Nat
  bay : Nat
  core : Nat
  vrank : Nat
  idx : Nat
  idxDie : Nat
  rank : Nat
  launch : Nat
  seen : List Nat
  cells : List PCell
  acc : Option W32
  pos : Nat
  prov : Prov
  deriving DecidableEq, Repr, Inhabited


/-- A publish in the event order (R240, R242): its stamp, scope, unit, and what its context knew at that point. -/
structure Pub where
  stamp : Nat
  scope : Scope
  die : Nat
  bay : Nat
  core : Nat
  rank : Nat
  known : List Nat
  deriving DecidableEq, Repr, Inhabited

/-- Memory by location (a natural number, see `Loc` in Mem.lean): base bytes in canonical form, poisoned 8-byte units, versions, home values of atomically written bytes, sealed ranges (R249 to R259, R282); `stages` names the stage of the units a link (1) or a slice (2) spoiled (R281). -/
structure Mem where
  base : List Host.Cell
  poison : List Nat
  vers : List Ver
  pubs : List Pub
  baseVer : List (Nat × Nat)
  atoms : List Host.Cell
  sealedR : List (Nat × Nat)
  stages : List (Nat × Nat)
  deriving DecidableEq, Repr, Inhabited

/-! ## Units of the device -/

/-- A lease term (R211): its context, grant cycle and accepted commands. -/
structure Term where
  launch : Nat
  grant : Nat
  count : Nat
  deriving DecidableEq, Repr, Inhabited

/-- A pending lease request (R212). -/
structure LReq where
  launch : Nat
  made : Nat
  deriving DecidableEq, Repr, Inhabited

/-- A bay (R11, R77, R211 to R213, R356): schedule counter, cycles in which it was not frozen (R212, R334), frozen or not, whether a parked write holds it (R360), contexts whose handlers hold it, lease term and requests, when the last term ended, the last grant, grants so far with their cycles, and the last restart as its cycle plus 1 (R359). -/
structure Bay where
  die : Nat
  num : Nat
  ctr : Nat
  run : Nat
  frozen : Bool
  hold : Bool
  trapped : List Nat
  term : Option Term
  ended : Nat
  reqs : List LReq
  lastGrant : Option (Nat × Nat)
  granted : List (Nat × Nat)
  restarted : Nat
  deriving DecidableEq, Repr, Inhabited

/-- An open generation of a barrier: arrivals counted and, when complete, the cycle it completed in and the greatest PTP time of the cycles before that one (R134, R135, R138). -/
structure BarGen where
  gen : Nat
  count : Nat
  doneAt : Option Nat
  top : W64
  deriving DecidableEq, Repr, Inhabited

/-- The home of a named barrier (R133, R138): its unit, its node or co-schedule set, its number. -/
structure BarHome where
  unit : Nat
  group : Nat
  num : Nat
  scope : Scope
  expected : Nat
  gens : List BarGen
  deriving DecidableEq, Repr, Inhabited

/-- States of a call slip (R328). -/
inductive NodeSt where
  | waiting | ready | running | stopping | saved | finishing
  deriving DecidableEq, Repr, Inhabited

/-- A tile-operand declaration (R324). -/
structure Tod where
  intent : Nat
  len : Nat
  ptr : W64
  deriving DecidableEq, Repr, Inhabited

/-- A pre-emption request that stands (R333): its requester as (die, index), (4, 0) for the memory processor and (5, 0) for granule retirement, and whether it is urgent. -/
structure PreReq where
  die : Nat
  idx : Nat
  urgent : Bool
  deriving DecidableEq, Repr, Inhabited

/-- A general core that runs an instance of a node: its die and number, the node, and the entry address and a0 the loader gave it (R325, R331). -/
structure GpCore where
  die : Nat
  core : Nat
  nd : Nat
  ni : Nat
  entry : W64
  a0 : W64
  deriving DecidableEq, Repr, Inhabited

/-- An accepted call slip with its run-time record (R324, R328 to R333, R340) and the function and port it came through (R385, R387). `requests` are in the order they were made, `decl` the stores of its general instances that have ended, `tdone` the time an engine was done, `after` the latest TDONE of its predecessors. -/
structure Node where
  die : Nat
  idx : Nat
  st : NodeSt
  tods : List Tod
  nbank : Nat
  nacc : Nat
  nops : Nat
  urgent : Bool
  prio : Nat
  timed : Bool
  kind : Nat
  span : Nat
  csize : Nat
  cset : Nat
  rdepth : Nat
  preds : Nat
  ydl : Nat
  v : Nat
  succs : List (Nat × Nat)
  rmin : Nat
  range : Nat
  comp : W64
  code : W64
  -- run-time record
  asid : Nat
  vmid : Nat
  readySeq : Nat
  readyAt : Nat
  aged : Nat
  status : Nat
  xrank : Nat
  npre : Nat
  novr : Nat
  drop : Bool
  tlaunch : W64
  launched : Bool
  launchSeq : Nat
  live : List Nat
  ended : Nat
  requests : List PreReq
  savedOne : Bool
  hbIn : List Nat
  fn : Nat
  port : Option Nat
  decl : List (W64 × Byte)
  tdone : Option W64
  after : W64
  deriving DecidableEq, Repr, Inhabited

/-- A range unit (R144, R332). -/
structure RangeU where
  die : Nat
  nodeDie : Nat
  nodeIdx : Nat
  start : Nat
  remaining : Nat
  minimum : Nat
  instances : Nat
  steals : Nat
  deriving DecidableEq, Repr, Inhabited

/-- A mailbox (R140, R337): binding word, messages oldest first. -/
structure Mbx where
  die : Nat
  num : Nat
  binding : W64
  msgs : List W64
  deriving DecidableEq, Repr, Inhabited

/-- A journal stream (R338). -/
structure Jrn where
  die : Nat
  num : Nat
  base : W64
  limit : W64
  head : W64
  mode : BitVec 2
  stat : BitVec 3
  draw : List W64
  lastSeq : Option W32
  deriving DecidableEq, Repr, Inhabited

/-- A 512-byte block's reservation on a compressible page (R264, R266), and whether it is demoted (R273). -/
structure Block where
  loc : Nat
  sectors : Nat
  demoted : Bool
  lastUse : Nat
  deriving DecidableEq, Repr, Inhabited

/-- A mapped page of a partition (R264, R265): frame, size, its C attribute, and whether a stage-1 leaf marked it D when it was mapped (R268, R270). -/
structure Page where
  frame : Nat
  size : Nat
  comp : Bool
  diff : Bool
  deriving DecidableEq, Repr, Inhabited

/-- An accepted donation (R270): virtual address, size, and the places its range was mapped to, as (location, length). -/
structure Donation where
  va : Nat
  size : Nat
  pieces : List (Nat × Nat)
  deriving DecidableEq, Repr, Inhabited

/-- A change of table entries in force that waits for its shootdown (R300, R301): a shootdown, a migration (R247), a map request, an answer to a fault, a donation (R270). -/
inductive Change where
  | shoot (r : ShootReq)
  | move (r : MigrateReq)
  | map (r : MapReq)
  | answer (launch : Nat) (writes : List PteWrite)
  | give (part : Nat) (d : Donation)
  deriving DecidableEq, Repr, Inhabited

/-- A partition (R265 to R271, R405): `balloon` lists the locations of donated blocks not yet claimed, oldest first; `demArea` counts the blocks its demotion area can hold. -/
structure Part where
  vmid : Nat
  dies : List Nat
  quota : Nat
  low : Nat
  high : Nat
  used : Nat
  nominal : Nat
  bmbx : Nat
  defVec : W64
  s2Root : Nat
  balloon : List Nat
  donations : List Donation
  pages : List Page
  pins : List (Nat × Nat)
  oos : Nat
  malformed : Nat
  donated : Nat
  running : Bool
  alerted : Bool
  demArea : Nat
  deriving DecidableEq, Repr, Inhabited

/-- A registered address space (R292, R296, R384). -/
structure Aspace where
  asid : Nat
  vmid : Nat
  fn : Nat
  s1Root : Nat
  uRoot : Nat
  adjRoot : Nat
  deriving DecidableEq, Repr, Inhabited

/-- A patch set (R373, R380): its epoch, the 256 bits of each slot's entry as its image holds them, and its micro-routine area (R376). -/
structure PatchSet where
  epoch : Nat
  slots : List (List Byte)
  area : List Byte
  deriving DecidableEq, Repr, Inhabited

/-- A scanned executable page (R96, R380, R381): frame, size, class, whether it still has X, in which epochs it is legal. -/
structure Scanned where
  frame : Nat
  size : Nat
  cls : StreamId
  exec : Bool
  legal : List Nat
  deriving DecidableEq, Repr, Inhabited

/-- A Krytwin port (R389 to R391): `faulty` counts its lanes with a lasting fault (R283), `owed` the credits it has still to return for each VC, `nak` says that it asks for a replay; `sendQ` holds what waits for a credit or a place in the replay buffer, `received` its flit buffers in use, each with its VC. -/
structure Link where
  port : Nat
  lanes : Nat
  faulty : Nat
  txSeq : Nat
  rxSeq : Nat
  credits : List Nat
  owed : List Nat
  nak : Bool
  sendQ : List (Nat × List Byte)
  replay : List (Nat × List Byte)
  received : List (Nat × List Byte)
  lost : Bool
  deriving DecidableEq, Repr, Inhabited

/-- One submission port of a function (R385). -/
structure SubPort where
  fn : Nat
  port : Nat
  slip : List Byte
  result : W64
  compvec : BitVec 6
  deriving DecidableEq, Repr, Inhabited

/-- A function of the host interface (R384 to R386): default vector, event count, doorbells. -/
structure Fn where
  fn : Nat
  asids : List Nat
  defVec : BitVec 6
  evCount : W64
  deriving DecidableEq, Repr, Inhabited

/-- What leaves the device (R284, R329, R386, R387, R396, R407); `payload` is what a collective of a communicator sends of the device's own buffer on VC 2 (R393). -/
inductive Out where
  | msix (fn vec : Nat)
  | balloonAlert (part short : Nat)
  | memprocFault (dev launch : Nat) (report : List Byte)
  | doubleTrap (launch : Nat)
  | frame (die : Nat) (bytes : List Byte) (time : W64)
  | mmioRead (die : Nat) (value : W64)
  | flit (port : Nat) (bytes : List Byte)
  | answer (fn asid : Nat) (va : W64) (ok : Bool) (pa : Nat) (perm : Nat)
  | revoke (seq : Nat)
  | report (bytes : List Byte)
  | certs (bytes : List Byte)
  | status (code : Nat)
  | overcommit (part : Nat)
  | scanFail (off : Nat) (rule : ScanRule)
  | mpuReq (fn : Nat)
  deriving DecidableEq, Repr, Inhabited

/-- A logged error (R284). -/
structure LogEnt where
  time : W64
  loc : Nat
  unit : Nat
  corrected : Bool
  syndrome : W64
  lasting : Option Bool
  deriving DecidableEq, Repr, Inhabited

/-- The archive of a saved context (R361 to R365): where its bytes stand in memory, the SEQ the device recorded for it, how it stopped, and the context they stand for, with its abandoned commands. -/
structure Archive where
  addr : Nat
  seq : Nat
  stop : StopKind
  ctx : Ctx
  deriving DecidableEq, Repr, Inhabited

/-- How the last move of a stream ended; the issue step reads it (R18, R76). -/
inductive Last where
  | none | retired | issued | waiting | trapped | event
  deriving DecidableEq, Repr, Inhabited

/-- The whole machine. `dieMarks` holds the low and high marks of each die (R268), `foreign` the atomics of other parties that wait for sectors (R266, R267), `ptpTop` the greatest PTP time of the cycles before this one (R135). `hostWait` the writes of the host and the general cores that wait for version space (R260). `judging` is the model's own: what a stream would do is being found out, so that a trap is noted and not entered (R346, R356). -/
structure State where
  powered : Bool
  cycle : Nat
  ptpBase : Nat
  ptpTop : W64
  me : Ctx
  ring : List Ctx
  slot : StreamId
  last : Last
  judging : Bool
  inputs : List Instr
  hostWait : List Instr
  outbox : List Out
  mem : Mem
  bays : List Bay
  bars : List BarHome
  nodes : List Node
  dispatchDue : List Nat
  ranges : List RangeU
  mailboxes : List Mbx
  journals : List Jrn
  blocks : List Block
  parts : List Part
  dieMarks : List (Nat × Nat)
  foreign : List (Nat × AtomReq)
  spaces : List Aspace
  comms : List (Nat × Nat × List Nat)
  colSeqs : List (Nat × Nat × Nat)
  patches : List PatchSet
  scanned : List Scanned
  links : List Link
  routes : List Nat
  subPorts : List SubPort
  fns : List Fn
  answers : List (Nat × Nat × W64)
  hostPubs : List (Nat × Nat)
  gpKnown : List (Nat × Nat × List Nat)
  jrnPend : List (Nat × Nat × W64 × List Byte)
  revoking : List Nat
  shoots : List (Change × List Nat)
  rowsLost : List (Nat × Nat)
  errors : List LogEnt
  retired : List Nat
  archives : List Archive
  rxRing : List EthFrame
  rxDropped : Nat
  rank : Nat
  devCount : Nat
  partMode : Nat
  lx9601 : Bool
  bootstat : W64
  boot : Nat
  evidence : List (List Byte)
  saveSeq : Nat
  stamp : Nat
  launches : Nat
  seqs : Nat
  fresh : Nat
  gpCores : List GpCore
  bayServed : List (Nat × Nat)
  deriving DecidableEq, Repr, Inhabited

/-! ## Reset -/

def Ord.zero : Ord := ⟨0, 0, 0, 0⟩
def Fifo.empty : Fifo := ⟨[], 0, 0⟩
def Queue.empty : Queue := ⟨[], 0, 0⟩
def Strm.fresh (pc : W64) : Strm := ⟨pc, [], [], 0, false, 0, Ord.zero⟩
def Folio.none : Folio := ⟨.raw, [], Option.none⟩
def Slot.fresh : Slot := ⟨.unbound, 0, Folio.none⟩
def Acc.fresh : Acc := ⟨.empty, false, 0, 0, false, false, 0⟩

/-- A context bank with the launch values of R23 and R42; values the loader sets at launch are 0, YIELD.DL "no deadline" (log 16). -/
def Ctx.fresh : Ctx where
  life := .vacant
  die := 0
  bay := 0
  core := 0
  bank := 0
  launch := 0
  nodeDie := 0
  nodeIdx := 0
  turnAt := 0
  timed := false
  status := 0#2
  vrank := 0#32
  vcount := 0#32
  part := 0#64
  frnd := 0#4
  fflags := 0#5
  scaleRcp := 0x3F800000#32
  dmode := .off
  tapeBase := 0#64
  tapeLimit := 0#64
  tapeHead := 0#64
  adjRoot := 0#64
  patchEpoch := 0#32
  yieldDl := 0xFFFFFFFFFFFFFFFF#64
  expStall := 0#64
  trapVec := 0#64
  trapCause := 0#64
  s := Vector.replicate 32 0#64
  f := Vector.replicate 16 0#32
  g := Vector.replicate 16 0#64
  l := Vector.replicate 8 0#64
  v := Vector.replicate 16 []
  lf := []
  lfNow := (0, [])
  hist := Vector.replicate 34 0#32
  bf := Vector.replicate 48 .raw
  arm := []
  ms := Vector.replicate 32 Slot.fresh
  ks := Vector.replicate 32 Acc.fresh
  ps := Vector.replicate 8 .none
  cix := 0
  kdep := 256
  wrapped := false
  bars := []
  tags := []
  strC := Strm.fresh 0#64
  strA := Strm.fresh 0#64
  strM := Strm.fresh 0#64
  strS := Strm.fresh 0#64
  fifoCA := Fifo.empty
  fifoAC := Fifo.empty
  fifoAM := Fifo.empty
  fifoMA := Fifo.empty
  fifoMS := Fifo.empty
  fifoSM := Fifo.empty
  fifoSC := Fifo.empty
  fifoCS := Fifo.empty
  qs := Vector.replicate 8 Queue.empty
  pend := []
  words := []
  cmds := []
  acmds := []
  loads := []
  pathFree := 0
  rets := []
  rtFree := 0
  fronts := []
  rels := []
  freeSlots := []
  freePairs := []
  backSlots := []
  backPairs := []
  shadows := []
  buckets := []
  weights := 0x0101#16
  landed := []
  events := 0#5
  irq := 0#7
  irqAt := 0
  irqNow := false
  held := []
  heldAt := 0
  frame := none
  frameImg := []
  withdrawn := []
  subst := []
  trapWait := none
  report := []
  barWait := none
  diffWait := false
  roomWait := 0
  saving := none
  forcedCtr := none
  dlSeen := false
  abandoned := []
  tagsAtStop := none
  priv := []
  view := []
  accView := []
  acq := []
  asid := 0
  vmid := 0
  s1Root := 0
  s2Root := 0
  uRoot := 0
  locked := []
  lockedA := []
  recPage := 0
  recVa := 0#64
  lastTsc := 0#64

def Mem.empty : Mem := ⟨[], [], [], [], [], [], [], []⟩

def Bay.fresh (die num : Nat) : Bay := ⟨die, num, 0, 0, false, false, [], none, 0, [], none, [], 0⟩

def Link.fresh (port : Nat) : Link := ⟨port, 8, 0, 0, 0, [64, 64, 64], [0, 0, 0], false, [], [], [], false⟩

/-- The machine right after reset: no context launched, no node, memory with nothing listed, the boot stages not yet run (R403). -/
def State.reset : State where
  powered := true
  cycle := 0
  ptpBase := 0
  ptpTop := 0#64
  me := Ctx.fresh
  ring := []
  slot := .c
  last := .none
  judging := false
  inputs := []
  hostWait := []
  outbox := []
  mem := Mem.empty
  bays := []
  bars := []
  nodes := []
  dispatchDue := []
  ranges := []
  mailboxes := []
  journals := []
  blocks := []
  parts := []
  dieMarks := []
  foreign := []
  spaces := []
  comms := []
  colSeqs := []
  patches := [⟨0, [], []⟩]
  scanned := []
  links := []
  routes := []
  subPorts := []
  fns := []
  answers := []
  hostPubs := []
  gpKnown := []
  jrnPend := []
  revoking := []
  shoots := []
  rowsLost := []
  errors := []
  retired := []
  archives := []
  rxRing := []
  rxDropped := 0
  rank := 0
  devCount := 1
  partMode := 0
  lx9601 := false
  bootstat := 0#64
  boot := 0
  evidence := []
  saveSeq := 0
  stamp := 0
  launches := 0
  seqs := 0
  fresh := 0
  gpCores := []
  bayServed := []

end Sys2Proof.Machine
end

