-- ==== Sys2Proof/Machine/Mem.lean ====
section
/-!
DEFINITION. Base memory by location. A location is one natural number: device rank × 2^60 + kind × 2^56 + offset, with kind 0 a physical address (R288), 1 an SRAM pool byte (R249), 2 a host bus address (R296), 3 the compression record of a partition (R271), 4 an SRAM pool byte as other contexts see it (R237, R240). An unlisted location reads as 0 (log 1).
-/
namespace Sys2Proof.Machine

/-- Location of a physical address on a device. -/
def locPa (rank pa : Nat) : Nat := rank * 2 ^ 60 + pa
/-- Location of a byte of a core's pool (R10, R249): core index 0 to 383, granule 0 to 47. -/
def locSram (rank core gran off : Nat) : Nat :=
  rank * 2 ^ 60 + 2 ^ 56 + core * 0x300000 + gran * 65536 + off
/-- Location of a host bus address (R296). -/
def locHost (rank a : Nat) : Nat := rank * 2 ^ 60 + 2 * 2 ^ 56 + a

def locRank (x : Nat) : Nat := x / 2 ^ 60
def locKind (x : Nat) : Nat := x / 2 ^ 56 % 16
def locOff (x : Nat) : Nat := x % 2 ^ 56
/-- Die of a physical address (R288). -/
def paDie (x : Nat) : Nat := locOff x / 2 ^ 46 % 4
/-- Is a location bonded DRAM (R3, R272, R288): below 72 GiB on its die. -/
def isDram (x : Nat) : Bool := locKind x == 0 && decide (locOff x % 2 ^ 46 < Config.dramBytes)
def isSram (x : Nat) : Bool := locKind x == 1
def isHostBus (x : Nat) : Bool := locKind x == 2
/-- Is a location a byte of a partition's compression record (R271)? -/
def isRecord (x : Nat) : Bool := locKind x == 3
/-- Where the byte of a bank stands as other contexts see it through SCR pointers (R237 to R240): the bank itself belongs to its context's own streams (R236). -/
def locSeen (x : Nat) : Nat := if isSram x then x + 3 * 2 ^ 56 else x
/-- Is a location a bank byte as other contexts see it? -/
def isSeen (x : Nat) : Bool := locKind x == 4
/-- The bank byte a seen location stands for; any other location itself. -/
def bankOf (x : Nat) : Nat := if isSeen x then x - 3 * 2 ^ 56 else x
/-- Location of a byte of a partition's compression record page. -/
def locRecord (rank vmid off : Nat) : Nat := rank * 2 ^ 60 + 3 * 2 ^ 56 + vmid * 4096 + off

/-- The byte a sorted list holds at a location; 0 when unlisted (log 1). -/
def getCell (x : Nat) : List Host.Cell → Byte
  | [] => 0#8
  | (a, b) :: r => if a = x then b else getCell x r

/-- Write one byte, keeping the canonical form: rising locations, no entry that reads as an unlisted one. -/
def putCell (x : Nat) (b : Byte) : List Host.Cell → List Host.Cell
  | [] => if b = 0#8 then [] else [(x, b)]
  | (a, c) :: r =>
    if x < a then (if b = 0#8 then (a, c) :: r else (x, b) :: (a, c) :: r)
    else if x = a then (if b = 0#8 then r else (x, b) :: r)
    else (a, c) :: putCell x b r

/-- All locations of a list are above x. -/
def above (x : Nat) : List Host.Cell → Bool
  | [] => true
  | (a, _) :: r => decide (x < a) && above x r

/-- The canonical form: strictly rising locations, no zero byte. -/
def cellsOk : List Host.Cell → Bool
  | [] => true
  | (a, b) :: r => b != 0#8 && above a r && cellsOk r

/-- Memory is in its canonical form. -/
def Mem.wf (m : Mem) : Bool := cellsOk m.base

/-- One byte of base memory. -/
def readBase (m : Mem) (x : Nat) : Byte := getCell x m.base

/-- Bytes of a list from x on, lowest first. -/
def readCells (l : List Host.Cell) (x n : Nat) : List Byte := (List.range n).map fun i => getCell (x + i) l

/-- Bytes of base memory from x on, lowest first. -/
def readBases (m : Mem) (x n : Nat) : List Byte := readCells m.base x n

/-- Write bytes from x on. -/
def putCells (l : List Host.Cell) (x : Nat) : List Byte → List Host.Cell
  | [] => l
  | b :: bs => putCells (putCell x b l) (x + 1) bs

/-- The 8-byte unit of a location (R282). -/
def unitOf (x : Nat) : Nat := x / 8

/-- Does a write of n bytes at x cover all of unit u (R282). -/
def coversUnit (x n u : Nat) : Bool := decide (x ≤ 8 * u) && decide (8 * u + 8 ≤ x + n)

/-- Is any byte of the range in a poisoned unit (R282). -/
def poisonedRange (m : Mem) (x n : Nat) : Bool :=
  m.poison.any fun u => decide (x < 8 * u + 8) && decide (8 * u < x + n)

/-- A write straight to the home or bank: bytes replaced; a unit it covers whole loses its poison (R282). -/
def writeBases (m : Mem) (x : Nat) (bs : List Byte) : Mem :=
  { m with base := putCells m.base x bs, poison := m.poison.filter fun u => !coversUnit x bs.length u }

/-- The stage the error of a poisoned place was pinned to (R281, R352): 0 DRAM, 1 link, 2 slice, 3 bank. -/
def stageOf (m : Mem) (x : Nat) : Nat := if isSram x then 3 else ((m.stages.find? (·.1 == unitOf x)).map (·.2)).getD 0

/-- Mark the units of a range poisoned (R282). -/
def poisonRange (m : Mem) (x n : Nat) : Mem :=
  let us := (List.range ((x + n + 7) / 8 - x / 8)).map (x / 8 + ·)
  { m with poison := m.poison ++ us.filter fun u => !m.poison.contains u }

/-- The 8-byte entry at a physical address (R288, R293): walkers read it at its home. -/
def readEntry (m : Mem) (rank pa : Nat) : Nat := leNat (readBases m (locPa rank pa) 8)

/-- Write an 8-byte table entry at its home (R289). -/
def writeEntry (m : Mem) (rank pa : Nat) (e : W64) : Mem := writeBases m (locPa rank pa) (leBytes 8 e.toNat)

/-- Is a home value recorded for a location (R244). -/
def hasHome (m : Mem) (x : Nat) : Bool := m.atoms.any (·.1 == x)

/-- Record a home value (R244): sorted by location. -/
def putHome (x : Nat) (b : Byte) : List Host.Cell → List Host.Cell
  | [] => [(x, b)]
  | (a, c) :: r => if x < a then (x, b) :: (a, c) :: r else if x = a then (x, b) :: r else (a, c) :: putHome x b r

/-- The cell of a version at a location. -/
def cellAt (x : Nat) (cs : List PCell) : Option PCell := cs.find? (·.loc == x)

/-- The version of the latest publish of a plain byte of a location among some in event order. -/
def latestVer (x : Nat) : List Ver → Option Ver
  | [] => none
  | v :: vs =>
    match latestVer x vs with
    | some u => some u
    | none => if v.acc.isNone && (cellAt x v.cells).isSome then some v else none

/-- Does the base of a byte come from a version published after another (R240, R259)? -/
def baseLater (m : Mem) (x : Nat) (v : Ver) : Bool :=
  match m.baseVer.find? (·.1 == x) with
  | none => false
  | some (_, b) => m.vers.any fun u => u.id == b && decide (v.stamp < u.stamp)

/-- The latest published plain byte of a location by event order; none when only the base holds it. -/
def latestPub (m : Mem) (x : Nat) : Option PCell :=
  match latestVer x m.vers with
  | none => none
  | some v => if baseLater m x v then none else cellAt x v.cells

/-- The value a location has at its home (R244, R125): the last of its atomics and publishes. -/
def homeByte (m : Mem) (x : Nat) : Byte :=
  if hasHome m x then getCell x m.atoms
  else match latestPub m x with
    | some c => c.byte
    | none => readBase m x

def homeBytes (m : Mem) (x n : Nat) : List Byte := (List.range n).map fun i => homeByte m (x + i)

end Sys2Proof.Machine
end

