-- ==== Sys2Proof/Machine/Regs.lean ====
section
/-!
DEFINITION. Reading and writing the registers of a context, time, pending results, queues and token FIFOs. Every register access of a meaning goes through here: s0 and g0 read as zero and discard writes (R23).
-/
namespace Sys2Proof.Machine

/-- Replace the context whose turn it is. -/
def State.withMe (s : State) (c : Ctx) : State := { s with me := c }

/-- Change the context whose turn it is. -/
def State.mapMe (s : State) (f : Ctx → Ctx) : State := { s with me := f s.me }

/-- All contexts, the one whose turn it is first. -/
def State.ctxs (s : State) : List Ctx := s.me :: s.ring

/-- Change every context. -/
def State.mapCtxs (s : State) (f : Ctx → Ctx) : State := { s with me := f s.me, ring := s.ring.map f }

/-- Change the context of a launch number. -/
def State.mapLaunch (s : State) (n : Nat) (f : Ctx → Ctx) : State :=
  s.mapCtxs fun c => if c.launch = n ∧ c.life ≠ .vacant then f c else c

/-- The context of a launch number. -/
def State.ctxOf (s : State) (n : Nat) : Option Ctx := s.ctxs.find? fun c => c.launch == n && c.life != .vacant

/-- A bay; one not listed yet is as after reset. -/
def State.bay (s : State) (die num : Nat) : Bay :=
  (s.bays.find? fun b => b.die == die && b.num == num).getD (Bay.fresh die num)

/-- Store a bay. -/
def State.setBay (s : State) (b : Bay) : State :=
  { s with bays := b :: s.bays.filter fun x => !(x.die == b.die && x.num == b.num) }

/-- Act with the context of a launch number as the one whose turn it is, then give the turn back. -/
def State.onLaunch (n : Nat) (f : State → State) (s : State) : State :=
  if s.me.launch = n then f s
  else match s.ring.find? (·.launch == n) with
    | none => s
    | some c =>
      let m := s.me.launch
      let s1 := f { s with me := c, ring := s.ring.map fun d => if d.launch = n then s.me else d }
      match s1.ring.find? (·.launch == m) with
      | none => s1
      | some d => { s1 with
          me := d
          ring := (if s1.me.life = .vacant then s1.ring.filter (·.launch != m) else s1.ring.map fun e => if e.launch = m then s1.me else e) }

/-- The state with the context of a launch number as the one whose turn it is, for reading. -/
def State.seenBy (s : State) (n : Nat) : State :=
  match s.ring.find? (·.launch == n) with
  | none => s
  | some c => { s with me := c, ring := s.ring.map fun d => if d.launch = n then s.me else d }

def State.myBay (s : State) : Bay := s.bay s.me.die s.me.bay

/-- The time a context counts in: the schedule counter of its bay when timed, else the cycle (R77, R356). -/
def State.nowOf (s : State) (c : Ctx) : Nat := if c.timed then (s.bay c.die c.bay).ctr else s.cycle

def State.now (s : State) : Nat := s.nowOf s.me

/-- The time results of the context land in: its own, but real cycles in the handler of a timed context, whose schedule counter is held (R353, R356, R368; log 94). -/
def State.clock (s : State) : Nat := if s.me.status.getLsbD 0 then s.cycle else s.now

/-- PTP time of a cycle in nanoseconds (R5, R147, R399; log 15). -/
def State.ptpAt (s : State) (cyc : Nat) : W64 := BitVec.ofNat 64 (s.ptpBase + cyc * 10 / 13)

def State.ptp (s : State) : W64 := s.ptpAt s.cycle

/-- Supervisor mode (R42, R45). -/
def Ctx.sup (c : Ctx) : Bool := c.status.getLsbD 0

/-- Is the stream paced by the schedule: a timed context outside its handler (R77, R353). In the handler results are exposed for their latency in real cycles (R104; log 94). -/
def Ctx.paced (c : Ctx) : Bool := c.timed && !c.sup

/-! ## Registers -/

def rdS (c : Ctx) (r : SReg) : W64 := if r = 0 then 0#64 else c.s[r]
def putS (c : Ctx) (r : SReg) (v : W64) : Ctx := if r = 0 then c else { c with s := c.s.set r v }
def rdF (c : Ctx) (r : FReg) : W32 := c.f[r]
def putF (c : Ctx) (r : FReg) (v : W32) : Ctx := { c with f := c.f.set r v }
def rdG (c : Ctx) (r : GReg) : W64 := if r = 0 then 0#64 else c.g[r]
def putG (c : Ctx) (r : GReg) (v : W64) : Ctx := if r = 0 then c else { c with g := c.g.set r v }
def rdL (c : Ctx) (r : LReg) : W64 := c.l[r]
def putL (c : Ctx) (r : LReg) (v : W64) : Ctx := { c with l := c.l.set r v }
def rdV (c : Ctx) (r : VReg) : Row := c.v[r]
def putV (c : Ctx) (r : VReg) (v : Row) : Ctx := { c with v := c.v.set r v }

/-- Lane j of a row (R215): a lane beyond the list is +0. -/
def lane (r : Row) (j : Nat) : W32 := r.getD j 0#32

/-- Set the bits of FFLAGS that were raised (R26, R110). -/
def orFflags (c : Ctx) (f : Flags) : Ctx := { c with fflags := c.fflags ||| fflagsOf f }

/-- Set raised lane flags (R26): lane by lane. -/
def orLf (c : Ctx) (fs : List Flags) : Ctx :=
  { c with lf := (List.range 128).map fun j => c.lf.getD j 0#6 ||| fs.getD j 0#6 }

/-- C-stream FP32 rounding (R42, R62). -/
def Ctx.rmC (c : Ctx) : Nat := c.frnd.toNat % 4
/-- Retire-unit row rounding (R42, R62). -/
def Ctx.rmR (c : Ctx) : Nat := c.frnd.toNat / 4

/-! ## Pending results (R104, R105) -/

/-- Is a result a row write of a bank: performed during its cycle, so that what reads the bank in that cycle reads it as it was (R225, R229, R251)? -/
def Land.inBank : Land → Bool
  | .bankRow _ _ _ _ => true
  | _ => false

/-- The land order inside one cycle: CSR writes before the flags of instructions in flight (R153), then registers, then rows of banks (R251). -/
def Land.order : Land → Nat
  | .csr _ _ => 0
  | .bankRow _ _ _ _ => 2
  | _ => 1

/-- Add a pending result, kept by landing cycle, then kind, then issue order. -/
def insertPend (p : Pend) : List Pend → List Pend
  | [] => [p]
  | q :: r =>
    if p.due < q.due ∨ (p.due = q.due ∧ p.what.order < q.what.order) then p :: q :: r else q :: insertPend p r

def pendAt (due : Nat) (what : Land) (s : State) : State :=
  { s with me := { s.me with pend := insertPend ⟨due, s.seqs, what⟩ s.me.pend }, seqs := s.seqs + 1 }

/-- Write the s register of a result: it lands `lat` cycles after the issue (R104). -/
def wrS (d : SReg) (v : W64) (lat : Nat) (s : State) : State := pendAt (s.clock + lat) (.s d v) s

def wrF (d : FReg) (v : W32) (lat : Nat) (s : State) : State := pendAt (s.clock + lat) (.f d v) s

def wrG (d : GReg) (v : W64) (lat : Nat) (s : State) : State := pendAt (s.clock + lat) (.g d v) s

def wrL (d : LReg) (v : W64) (s : State) : State := pendAt (s.clock + 1) (.lay d v) s

def wrV (d : VReg) (v : Row) (lat : Nat) (s : State) : State := pendAt (s.clock + lat) (.v d v) s

/-- Raise FFLAGS in the landing cycle (R105), unless nf is 1 (R110). -/
def raiseC (nf : Bool) (f : Flags) (lat : Nat) (s : State) : State := if nf then s else pendAt (s.clock + lat) (.fflags f) s

/-- Raise LF in the landing cycle, unless nf is 1 (R26, R216). -/
def raiseR (nf : Bool) (fs : List Flags) (lat : Nat) (s : State) : State := if nf then s else pendAt (s.clock + lat) (.lf fs) s

/-- Cycles of a round trip of a queued instruction to another unit (R127, R142); the spec bounds none (log 4). -/
def State.trip (s : State) : Nat := 1 + Config.queuedLatency s.seqs

/-! ## Streams and tokens (R16 to R18) -/

def Ctx.strm (c : Ctx) : StreamId → Strm
  | .c => c.strC
  | .a => c.strA
  | .m => c.strM
  | .s => c.strS

def Ctx.setStrm (c : Ctx) (x : StreamId) (t : Strm) : Ctx :=
  match x with
  | .c => { c with strC := t }
  | .a => { c with strA := t }
  | .m => { c with strM := t }
  | .s => { c with strS := t }

def Ctx.mapStrm (c : Ctx) (x : StreamId) (f : Strm → Strm) : Ctx := c.setStrm x (f (c.strm x))

/-- The FIFO from one stream to the next in the ring (forward) or to the one before (backward) (R16, R17). -/
def Ctx.fifo (c : Ctx) (x : StreamId) (fwd : Bool) : Fifo :=
  match x, fwd with
  | .c, true => c.fifoCA
  | .c, false => c.fifoCS
  | .a, true => c.fifoAM
  | .a, false => c.fifoAC
  | .m, true => c.fifoMS
  | .m, false => c.fifoMA
  | .s, true => c.fifoSC
  | .s, false => c.fifoSM

def Ctx.setFifo (c : Ctx) (x : StreamId) (fwd : Bool) (q : Fifo) : Ctx :=
  match x, fwd with
  | .c, true => { c with fifoCA := q }
  | .c, false => { c with fifoCS := q }
  | .a, true => { c with fifoAM := q }
  | .a, false => { c with fifoAC := q }
  | .m, true => { c with fifoMS := q }
  | .m, false => { c with fifoMA := q }
  | .s, true => { c with fifoSC := q }
  | .s, false => { c with fifoSM := q }

def Ord.max (a b : Ord) : Ord := ⟨Nat.max a.c b.c, Nat.max a.a b.a, Nat.max a.m b.m, Nat.max a.s b.s⟩

/-- A stream's knowledge with its own retired count. -/
def Strm.know (t : Strm) (x : StreamId) : Ord :=
  match x with
  | .c => { t.ord with c := t.acc }
  | .a => { t.ord with a := t.acc }
  | .m => { t.ord with m := t.acc }
  | .s => { t.ord with s := t.acc }

/-- Does the FIFO hold a token given before this cycle (R18). -/
def Fifo.ready (q : Fifo) (cyc : Nat) : Bool :=
  match q.toks with
  | [] => false
  | t :: _ => decide (t.given < cyc)

/-- Take the oldest token (R18). -/
def Fifo.take (q : Fifo) (cyc : Nat) : Fifo :=
  ⟨q.toks.drop 1, cyc, if q.takenAt = cyc then q.taken + 1 else 1⟩

/-- Tokens that still hold room in this cycle: a take makes room only in the next (R18). -/
def Fifo.fill (q : Fifo) (cyc : Nat) : Nat := q.toks.length + (if q.takenAt = cyc then q.taken else 0)

/-- Has the FIFO room for a give in this cycle (R17, R18). -/
def Fifo.room (q : Fifo) (cyc : Nat) : Bool := decide (q.fill cyc < 15)

/-- Give a token (R18). -/
def Fifo.give (q : Fifo) (cyc : Nat) (o : Ord) : Fifo := { q with toks := q.toks ++ [⟨cyc, o⟩] }

/-! ## Queues (R20, R21) -/

/-- Entries that count in this cycle: those pushed before it (R21, R126). -/
def Queue.held (q : Queue) (cyc : Nat) : Nat := (q.ents.filter fun e => decide (e.pushed < cyc)).length

/-- Slots taken in this cycle: a pop frees its slot only in the next (R21). -/
def Queue.fill (q : Queue) (cyc : Nat) : Nat := q.ents.length + (if q.poppedAt = cyc then q.popped else 0)

def Queue.full (q : Queue) (cyc : Nat) : Bool := decide (8 ≤ q.fill cyc)

def Queue.push (q : Queue) (v : W64) (cyc : Nat) : Queue := { q with ents := q.ents ++ [⟨v, cyc⟩] }

/-- The oldest entry when it can be popped in this cycle (R21). -/
def Queue.front? (q : Queue) (cyc : Nat) : Option W64 :=
  match q.ents with
  | [] => none
  | e :: _ => if e.pushed < cyc then some e.val else none

def Queue.pop (q : Queue) (n cyc : Nat) : Queue :=
  ⟨q.ents.drop n, cyc, if q.poppedAt = cyc then q.popped + n else n⟩

/-- The oldest n entries when all can be popped in this cycle (R21, R194). -/
def Queue.fronts? (q : Queue) (n cyc : Nat) : Option (List W64) :=
  let es := q.ents.take n
  if es.length = n ∧ es.all (fun e => decide (e.pushed < cyc)) then some (es.map (·.val)) else none

def Ctx.queue (c : Ctx) (q : QNo) : Queue := c.qs[q]
def Ctx.setQueue (c : Ctx) (q : QNo) (x : Queue) : Ctx := { c with qs := c.qs.set q x }

/-! ## Partition word (R28, R30) -/

def Ctx.gbase (c : Ctx) : Nat := natBits c.part.toNat 55 50
def Ctx.gcount (c : Ctx) : Nat := natBits c.part.toNat 49 44
def Ctx.nops (c : Ctx) : Nat := natBits c.part.toNat 43 38
def Ctx.nacc (c : Ctx) : Nat := natBits c.part.toNat 37 33
def Ctx.nbank (c : Ctx) : Nat := natBits c.part.toNat 32 27

/-- Granule of bank b (R30). -/
def Ctx.bankGran (c : Ctx) (b : Nat) : Nat := c.gbase + 1 + c.nops + 2 * c.nacc + b

/-- Physical core index (R10). -/
def Ctx.coreIdx (c : Ctx) : Nat := c.die * 96 + c.bay * 4 + c.core

/-- Location of a byte of a context's bank. -/
def bankLoc (rank : Nat) (c : Ctx) (b off : Nat) : Nat := locSram rank c.coreIdx (c.bankGran b) off

/-- FMT of a bank; a bank at or above NBANK reads 0 (R31). -/
def Ctx.bankFmt (c : Ctx) (b : Nat) : Fmt := if h : b < 48 then (if b < c.nbank then c.bf[b] else .raw) else .raw

/-- Is the bank armed (R31, R184). -/
def Ctx.isArmed (c : Ctx) (b : Nat) : Bool := c.arm.any (·.bank == b)

/-- Barrier state by number; one never initialised is clear (R40). -/
def Ctx.bar? (c : Ctx) (b : Nat) : Option BarSt := (c.bars.find? (·.1 == b)).map (·.2)
def Ctx.setBar (c : Ctx) (b : Nat) (x : BarSt) : Ctx := { c with bars := (b, x) :: c.bars.filter (·.1 != b) }

/-- Copy tag by number; at rest it has nothing recorded (R41). -/
def Ctx.tag (c : Ctx) (t : Nat) : TagSt := ((c.tags.find? (·.1 == t)).map (·.2)).getD ⟨0, none, none, false⟩
def Ctx.setTag (c : Ctx) (t : Nat) (x : TagSt) : Ctx := { c with tags := (t, x) :: c.tags.filter (·.1 != t) }
/-- BUSY: a command under the tag is in flight (R41). -/
def Ctx.tagBusy (c : Ctx) (t : Nat) : Bool := c.cmds.any (·.tag == t)

/-- The next free value number (log 17). -/
def State.bumpFresh (s : State) : State := { s with fresh := s.fresh + 1 }

def State.emit (s : State) (o : Out) : State := { s with outbox := s.outbox ++ [o] }

end Sys2Proof.Machine
end

