-- ==== Sys2Proof/Machine/Order.lean ====
section
/-!
DEFINITION. Views, private entries, publishes, refreshes, atomics at their home, parked writes (spec 09, R237 to R248; R257 to R259, R264 to R269, R314, R315).
-/
namespace Sys2Proof.Machine

/-- Width of a scope: core < bay < die < device < domain (R237). -/
def scopeNum : Scope → Nat
  | .core => 0
  | .bay => 1
  | .die => 2
  | .dev => 3
  | .dom => 4

def scopeMin (a b : Scope) : Scope := if scopeNum a ≤ scopeNum b then a else b
def scopeLe (a b : Scope) : Bool := decide (scopeNum a ≤ scopeNum b)

/-- Where a publisher or reader stands: its unit at every scope (R237). -/
structure Place where
  rank : Nat
  die : Nat
  bay : Nat
  core : Nat
  deriving DecidableEq, Repr

def State.placeOf (s : State) (c : Ctx) : Place := ⟨s.rank, c.die, c.bay, c.core⟩
def Ver.place (v : Ver) : Place := ⟨v.rank, v.die, v.bay, v.core⟩
def Pub.place (p : Pub) : Place := ⟨p.rank, p.die, p.bay, p.core⟩

/-- Two places share a unit at a scope (R237). -/
def sharesUnit (x : Scope) (a b : Place) : Bool :=
  match x with
  | .dom => true
  | .dev => a.rank == b.rank
  | .die => a.rank == b.rank && a.die == b.die
  | .bay => a.rank == b.rank && a.die == b.die && a.bay == b.bay
  | .core => a.rank == b.rank && a.die == b.die && a.bay == b.bay && a.core == b.core

/-- Stamps the C stream knows to be ordered before it (R242). -/
def Ctx.knownC (c : Ctx) : List Nat := c.acq.flatMap (·.stamps)

/-- Stamps a stream knows: what the C stream knew up to the accession the stream has a token for; in a timed context up to earlier cycles; what a launch or resume made known (accession 0) stands before every stream (R128, R242, R243). -/
def Ctx.knownBy (c : Ctx) (x : StreamId) (now : Nat) : List Nat :=
  match x with
  | .c => c.knownC
  | _ =>
    let limit := (c.strm x).ord.c
    (c.acq.filter fun r => r.acc == 0 || if c.timed then decide (r.cycle < now) else decide (r.acc ≤ limit)).flatMap (·.stamps)

/-! ## The order of versions (R241) -/

/-- Lexicographic comparison of equal-length keys. -/
def keyLt : List Nat → List Nat → Bool
  | a :: as, b :: bs => decide (a < b) || (a == b && keyLt as bs)
  | _, _ => false

def Ver.key (v : Ver) : List Nat := [v.vrank, v.idx, v.idxDie, v.rank, v.launch]

/-- v1 below v2 (R241): versions of one context stand in the event order of their publishes; of the writes one publish covers, `winnerAt` has kept the greater. -/
def verLt (a b : Ver) : Bool :=
  if a.launch = b.launch then decide (a.stamp < b.stamp)
  else if b.seen.contains a.stamp then true
  else if a.seen.contains b.stamp then false
  else keyLt a.key b.key

def Mem.ver? (m : Mem) (id : Nat) : Option Ver := m.vers.find? (·.id == id)

/-! ## Reading through a view (R239, R315) -/

/-- The base byte with its poison. -/
def baseCell (m : Mem) (x : Nat) : PCell := ⟨x, readBase m x, m.poison.contains (unitOf x)⟩

/-- The plain byte a view holds. -/
def viewCell (m : Mem) (c : Ctx) (x : Nat) : PCell :=
  match c.view.find? (·.cell.loc == x) with
  | some e => e.cell
  | none => baseCell m x

/-- The version number a view holds for a byte; 0 for the base or a home value. -/
def viewVer (c : Ctx) (x : Nat) : Nat :=
  match c.view.find? (·.cell.loc == x) with
  | some e => e.ver
  | none => 0

/-- The latest private byte of some entries in performing order, with what its writer had seen. -/
def latestPriv (x : Nat) : List Priv → Option (PCell × List Nat)
  | [] => none
  | p :: ps =>
    match latestPriv x ps with
    | some r => some r
    | none => match p.kind, cellAt x p.cells with
      | .plain, some c => some (c, p.seen)
      | _, _ => none

/-- What the writer of the version that a view holds for a byte had seen; of the version the base came from when the view holds none. -/
def viewSeen (m : Mem) (c : Ctx) (x : Nat) : List Nat :=
  let id := if viewVer c x != 0 then viewVer c x else ((m.baseVer.find? (·.1 == x)).map (·.2)).getD 0
  ((m.ver? id).map (·.seen)).getD []

/-- The issue position of the context's own write that its view holds for a byte; 0 when the view holds another's (R311). -/
def viewPos (m : Mem) (c : Ctx) (x : Nat) : Nat :=
  match m.ver? (viewVer c x) with
  | some v => if v.launch = c.launch then v.pos else 0
  | none => 0

/-- Does a private append or pop yield at a byte to a later one of the context that has been published (R311)? -/
def outdated (m : Mem) (c : Ctx) (x : Nat) (p : Priv) : Bool := p.tape.isSome && decide (p.ipos < viewPos m c x)

/-- The plain byte a read returns under R239, given the private entries the read may see. -/
def plainCell (m : Mem) (c : Ctx) (vis : List Priv) (x : Nat) : PCell × List Nat :=
  match latestPriv x (vis.filter fun p => !outdated m c x p) with
  | some r => r
  | none => (viewCell m c x, viewSeen m c x)

/-- An accumulate to be applied: its order key, its stamp (0 when unpublished) and value (R315). -/
structure AccItem where
  key : List Nat
  val : W32
  deriving DecidableEq, Repr

def insertAcc (a : AccItem) : List AccItem → List AccItem
  | [] => [a]
  | b :: r => if keyLt a.key b.key then a :: b :: r else b :: insertAcc a r

def sortAcc (l : List AccItem) : List AccItem := l.foldl (fun acc a => insertAcc a acc) []

/-- Published accumulates of a cell in the context's view that its base does not replace (R315). -/
def pubAccs (m : Mem) (c : Ctx) (cell : Nat) (seen : List Nat) : List AccItem :=
  m.vers.filterMap fun v =>
    match v.acc with
    | some w =>
      if v.cells.any (·.loc == cell) && c.accView.contains v.id && !seen.contains v.stamp then
        some ⟨[v.vrank, v.idx, v.idxDie, v.rank, v.pos], w⟩
      else none
    | none => none

/-- Does a plain write of the context come after an accumulate of a cell in the order of R312, so that it discards it (R314), parked or not (R267)? -/
def overwritten (ps : List Priv) (cell : Nat) (p : Priv) : Bool :=
  ps.any fun q => q.kind == .plain && (cellAt cell q.cells).isSome && decide (p.ipos ≤ q.ipos)

/-- The context's own unpublished accumulates of a cell among some entries (R314). -/
def privAccs (s : State) (c : Ctx) (vis : List Priv) (cell : Nat) : List AccItem :=
  vis.filterMap fun p =>
    match p.kind with
    | .acc w => if p.cells.any (·.loc == cell) && !overwritten vis cell p then some ⟨[c.vrank.toNat, c.nodeIdx, c.nodeDie, s.rank, p.ipos], w⟩ else none
    | .plain => none
    | .atom _ _ _ => none

/-- The accumulates of a cell: the pending ones in the order of R315, then the context's own unpublished ones in program order (R239, R314). -/
def accsOf (s : State) (c : Ctx) (vis : List Priv) (cell : Nat) : List AccItem :=
  sortAcc (pubAccs s.mem c cell (plainCell s.mem c vis cell).2) ++ sortAcc (privAccs s c vis cell)

/-! ## The compression record (R271) -/

def State.part? (s : State) (vmid : Nat) : Option Part := s.parts.find? (·.vmid == vmid)

def Page.has (g : Page) (rank x : Nat) : Bool := decide (locPa rank g.frame ≤ x) && decide (x < locPa rank g.frame + g.size)

/-- Does a partition map a location? -/
def Part.maps (p : Part) (rank x : Nat) : Bool := p.pages.any fun g => g.has rank x

/-- Sectors of a die assigned to no partition, beside the version area and what the memory processor keeps (R265, R271, R283): a partition's quota counts evenly on its dies, rounded up. -/
def dieFree (s : State) (die : Nat) : Nat :=
  Config.dieSectors - Config.areaSectors - Config.reservedSectors die - ((s.parts.filter fun p => p.dies.contains die).map fun p => (p.quota + p.dies.length - 1) / p.dies.length).sum -
    ((s.rowsLost.filter (·.1 == die)).map (·.2)).sum

/-- The partition whose compressible page holds a location on this device's DRAM (R264, R272). -/
def compPart (s : State) (x : Nat) : Option Part :=
  if isDram x then s.parts.find? fun p => p.pages.any fun g => g.comp && g.has s.rank x else none

/-- Blocks of a partition that lie on the stacks, those of a donated range included (R271, R273). -/
def demotedOf (s : State) (p : Part) : Nat :=
  (s.blocks.filter fun b => b.demoted && (p.maps s.rank (b.loc * 512) || p.balloon.contains b.loc)).length

/-- A count in a 32-bit field of the record; one it cannot hold saturates (log 125). -/
def sat32 (n : Nat) : Nat := min n 0xFFFFFFFF

/-- The 64 bytes of a partition's compression record (R271). -/
def compRecord (s : State) (p : Part) : List Byte :=
  let parked := ((s.ctxs.filter (·.vmid == p.vmid)).flatMap fun c => c.priv.filter (·.parked.isSome)).length +
    (s.foreign.filter fun f => p.maps s.rank f.2.loc).length
  leBytes 64 (p.bmbx * 2 ^ 480 + sat32 p.nominal * 2 ^ 448 + sat32 p.quota * 2 ^ 416 + sat32 p.used * 2 ^ 384 + sat32 p.high * 2 ^ 352 +
    sat32 p.low * 2 ^ 320 + sat32 p.donated * 2 ^ 288 + sat32 parked * 2 ^ 256 + sat32 (demotedOf s p) * 2 ^ 224 + sat32 p.oos * 2 ^ 192 +
    sat32 (dieFree s (p.dies.headD 0)) * 2 ^ 160 + sat32 p.malformed * 2 ^ 128)

/-- A byte of the compression record's page. -/
def recordByte (s : State) (x : Nat) : Byte :=
  match s.part? (locOff x / 4096) with
  | none => 0#8
  | some p => (compRecord s p).getD (locOff x % 4096) 0#8

/-- A byte as a read returns it: the plain byte, or the byte of the cell's accumulated value (R239, R315). -/
def readCell (s : State) (c : Ctx) (vis : List Priv) (x : Nat) : PCell :=
  if isRecord x then ⟨x, recordByte s x, false⟩
  else
    let cell := x / 4 * 4
    let p := (plainCell s.mem c vis x).1
    match accsOf s c vis cell with
    | [] => p
    | as =>
      let base := BitVec.ofNat 32 (leNat ((List.range 4).map fun i => (plainCell s.mem c vis (cell + i)).1.byte))
      let v := as.foldl (fun acc a => BitVec.ofNat 32 (fp32Add acc a.val).bits) base
      ⟨x, (leBytes 4 v.toNat).getD (x - cell) 0#8, p.poison⟩

def readRange (s : State) (c : Ctx) (vis : List Priv) (x n : Nat) : List PCell :=
  (List.range n).map fun i => readCell s c vis (x + i)

/-- Private entries a C-stream LD may see (R239 clause 1): its own, and the appends and pops of the A stream ordered before it (R311). -/
def visC (c : Ctx) : List Priv := c.priv.filter fun p => p.src == .cs || (match p.tape with
  | some n => decide (n ≤ c.strC.ord.a)
  | none => false)

/-- Entries in the order of their issue positions (R165, R312). -/
def insertById (p : Priv) : List Priv → List Priv
  | [] => [p]
  | q :: r => if p.ipos < q.ipos then p :: q :: r else q :: insertById p r

/-- Private entries the memory read of a command at A-stream accession `acc` may see (R239 clause 2): writes of commands whose tag a wait returned IDLE before the command's issue, and the appends and pops ordered before it (R311); `o` is what it knows of the other streams. -/
def visCmd (c : Ctx) (acc : Nat) (o : Ord) : List Priv :=
  (c.priv.filter fun p =>
    match p.src, p.waited, p.tape with
    | .cmd _ _, some w, _ => decide (w ≤ acc)
    | .cmd _ _, none, some n => decide (n < acc)
    | .cs, _, some _ => decide (p.pos ≤ o.c)
    | _, _, _ => false).foldl (fun l p => insertById p l) []

/-- The private entries a read at the issue of the A stream's next instruction may see (R239 clause 2). -/
def visA (c : Ctx) : List Priv := visCmd c (c.strA.acc + 1) (c.strA.know .a)

/-- All the context's own entries (R313 step 1). -/
def visAll (c : Ctx) : List Priv := c.priv

/-! ## Private writes (R257, R282, R314) -/

/-- The cells of a write of bytes at x: a unit the write covers whole is not poisoned, else it keeps the poison its writer's own reads meet (R282). -/
def newCells (s : State) (c : Ctx) (x : Nat) (bs : List Byte) : List PCell :=
  (List.range bs.length).map fun i =>
    let loc := x + i
    ⟨loc, bs.getD i 0#8,
      if coversUnit x bs.length (unitOf loc) then false
      else (List.range 8).any fun j => (plainCell s.mem c c.priv (8 * unitOf loc + j)).1.poison⟩

/-- Does a write of source `a` replace an earlier one of source `b` (R257): both of the C stream, of the S stream, or of commands under one tag, of which a write of the later-issued command stays (R165, R241)? -/
def replaces (a b : PrivSrc) : Bool :=
  match a, b with
  | .cs, .cs => true
  | .row _, .row _ => true
  | .cmd i t, .cmd j u => t == u && decide (j ≤ i)
  | _, _ => false

/-- Drop the cells of earlier entries of the same source that a write replaces, and the accumulates before it in issue position, which a plain write discards, parked or not (R257, R312, R314). A plain write that is parked keeps its place in its queue (R267). -/
def replacePriv (src : PrivSrc) (ipos : Nat) (cells : List PCell) (ps : List Priv) : List Priv :=
  let hit (p : Priv) (x : PCell) : Bool := cells.any (·.loc == x.loc) && (match p.kind with
    | .plain => p.parked.isNone && replaces src p.src
    | .acc _ => decide (p.ipos ≤ ipos)
    | .atom _ _ _ => false)
  (ps.map fun p => { p with cells := p.cells.filter fun x => !hit p x }).filter fun p => !p.cells.isEmpty

/-- The cells of a command's write that no later-issued command under its tag has written (R165, R241). -/
def freshCells (p : Priv) (ps : List Priv) : List PCell :=
  match p.src with
  | .cmd i t => p.cells.filter fun x => !ps.any fun q => q.kind == .plain && (cellAt x.loc q.cells).isSome && (match q.src with
      | .cmd j u => t == u && decide (i < j)
      | .cs | .row _ => false)
  | .cs | .row _ => p.cells

/-- Add a private entry to the context. One that is parked replaces nothing until it is placed (R267, R269). -/
def addPriv (p : Priv) (c : Ctx) : Ctx :=
  match p.kind with
  | .plain =>
    if p.parked.isSome then { c with priv := c.priv ++ [p] }
    else
      let cells := freshCells p c.priv
      if cells.isEmpty then c else { c with priv := replacePriv p.src p.ipos cells c.priv ++ [{ p with cells := cells }] }
  | .acc _ | .atom _ _ _ => { c with priv := c.priv ++ [p] }

/-! ## Sectors and parked writes (R264 to R269) -/

/-- The bytes of a block at its home, no reserved write applied. -/
def homeContent (s : State) (blk : Nat) : List Byte := homeBytes s.mem (blk * 512) 512

/-- Put the cells that lie in a block over its bytes. -/
def overlay (blk : Nat) (cells : List PCell) (bs : List Byte) : List Byte :=
  cells.foldl (fun bs x => if x.loc / 512 = blk then bs.set (x.loc % 512) x.byte else bs) bs

/-- Apply a reserved write to the bytes of a block; an accumulate adds to its cell (R266, R314). -/
def applyPriv (blk : Nat) (p : Priv) (bs : List Byte) : List Byte :=
  match p.kind with
  | .plain | .atom _ _ _ => overlay blk p.cells bs
  | .acc v =>
    let x := ((p.cells.map (·.loc)).headD 0)
    let old := BitVec.ofNat 32 (leNat ((bs.drop (x % 512)).take 4))
    overlay blk ((leBytes 4 (fp32Add old v).bits).zipIdx.map fun (b, i) => ⟨x + i, b, false⟩) bs

/-- Content of a block with every reserved write of every context applied, those into open shadows included (R266). -/
def blockContent (s : State) (blk : Nat) : List Byte :=
  let shadowed := (s.ctxs.flatMap fun c => c.shadows).foldl (fun bs h => overlay blk h.cells bs) (homeContent s blk)
  ((s.ctxs.flatMap fun c => c.priv).filter (·.parked.isNone)).foldl (fun bs p => applyPriv blk p bs) shadowed

/-- A block; one that no write has reached since its page was mapped holds what its content needs (R264). -/
def State.blockOf (s : State) (blk : Nat) : Block :=
  (s.blocks.find? (·.loc == blk)).getD ⟨blk, Config.sectorsOf (homeContent s blk), false, 0⟩

def State.setBlock (s : State) (b : Block) : State :=
  { s with blocks := b :: s.blocks.filter (·.loc != b.loc) }

def State.setPart (s : State) (p : Part) : State :=
  { s with parts := s.parts.map fun q => if q.vmid = p.vmid then p else q }

/-- Free sectors of a partition: quota minus sectors held (R266). -/
def Part.free (p : Part) : Nat := p.quota - p.used

/-- Every parked entry of a partition (R267). -/
def parkedOf (s : State) (vmid : Nat) : List Priv :=
  (s.ctxs.filter (·.vmid == vmid)).flatMap fun c => c.priv.filter (·.parked.isSome)

/-- Does a parked write of the block stand before a new one (R267). -/
def blockParked (s : State) (blk : Nat) : Bool :=
  (s.ctxs.any fun c => c.priv.any fun p => p.parked.isSome && p.cells.any fun x => x.loc / 512 == blk) ||
  s.foreign.any fun f => f.2.loc / 512 == blk

/-- Try to reserve the sectors a block needs for some content (R266, R273): the new state and whether they were found. A demoted block is promoted. A partition not set up yet needs none. -/
def reserveFor (vmid blk : Nat) (content : List Byte) (s : State) : State × Bool :=
  match s.part? vmid with
  | none => (s, true)
  | some p =>
    let b := s.blockOf blk
    let need := Config.sectorsOf content
    let held := if b.demoted then 0 else b.sectors
    if need ≤ held then (s.setBlock { b with lastUse := s.cycle }, true)
    else if need - held ≤ p.free then
      ((s.setBlock { b with sectors := need, demoted := false, lastUse := s.cycle }).setPart { p with used := p.used + (need - held) }, true)
    else (s, false)

/-- The same for the content with every reserved write applied. -/
def reserveBlock (vmid blk : Nat) (s : State) : State × Bool := reserveFor vmid blk (blockContent s blk) s

/-- Blocks a set of cells touches. -/
def blocksOf (cells : List PCell) : List Nat := (cells.map fun x => x.loc / 512).eraseDups

/-- Place or park a new private entry of the context whose turn it is (R266, R267). `comp` says whether its page is compressible. -/
def placePriv (comp : Bool) (p : Priv) (s : State) : State :=
  let s1 := s.mapMe (addPriv p)
  if !comp then s1
  else
    let r := (blocksOf p.cells).foldl (fun (acc : State × Bool) blk =>
      if acc.2 && !blockParked acc.1 blk then reserveBlock s.me.vmid blk acc.1 else (acc.1, false)) (s1, true)
    if r.2 then r.1
    else
      let q := { p with parked := some (s.seqs, s.cycle) }
      { s with me := addPriv q s.me, seqs := s.seqs + 1 }

/-! ## Publish (R128, R240, R258) -/

/-- The tag number of a write that is no command's: a shadow swap (R177), the SEALED flag (R172). -/
def swapTag : Nat := 128

/-- Is a write covered by a boundary of stream x (R128)? A swap is covered by every later publish of its context (R177). -/
def covers (c : Ctx) (x : StreamId) (now : Nat) (p : Prov) : Bool :=
  let o := (c.strm x).ord
  match p.src with
  | .cs => if x = .c then true else if c.timed then decide (p.waitedAt < now) else decide (p.pos ≤ o.c)
  | .cmd _ t =>
    match p.waited with
    | none => t == swapTag
    | some w => if x = .a then true else if c.timed then decide (p.waitedAt < now) else decide (w ≤ o.a)
  | .row _ =>
    match p.waited with
    | none => false
    | some w => if c.timed then decide (p.waitedAt < now) else decide (w ≤ o.s)

/-- Does a word access write its bank? -/
def WordOp.writes : WordOp → Bool
  | .ld _ _ _ _ => false
  | .st _ | .rmw _ _ => true

/-- Does a covered entry stay parked, or a store of a queued C stream still travel to its bank, so that the boundary waits (R129, R253, R267)? -/
def coverParked (c : Ctx) (x : StreamId) (now : Nat) : Bool :=
  (c.priv.any fun p => p.parked.isSome && covers c x now p.prov) || (x == .c && !c.timed && c.words.any fun w => w.op.writes)

/-- Does entry q replace the winner so far at one byte (R241): between commands the later issued, else the one performed last. -/
def beats (q w : Priv) : Bool :=
  match q.src, w.src with
  | .cmd i _, .cmd j _ => decide (j ≤ i)
  | _, _ => true

/-- The winning plain entry at a location. -/
def winnerAt (x : Nat) (ps : List Priv) : Option Priv :=
  ps.foldl (fun acc p =>
    if p.kind = .plain ∧ (cellAt x p.cells).isSome then
      match acc with
      | none => some p
      | some w => if beats p w then some p else some w
    else acc) none

/-- Put a cell into a view. -/
def putView (e : ViewEnt) (v : List ViewEnt) : List ViewEnt := e :: v.filter (·.cell.loc != e.cell.loc)

/-- Versions made of covered entries, numbered from `id` on. -/
def versOf (s : State) (c : Ctx) (scope : Scope) (stamp id : Nat) (cov : List Priv) : List Ver :=
  (cov.zipIdx id).map fun (p, i) =>
    { id := i, stamp := stamp, scope := scope, die := c.die, bay := c.bay, core := c.core, vrank := c.vrank.toNat,
      idx := c.nodeIdx, idxDie := c.nodeDie, rank := s.rank, launch := c.launch, seen := p.seen,
      cells := (match p.kind with
        | .plain => p.cells.filter fun x => winnerAt x.loc cov == some p
        | .acc _ | .atom _ _ _ => p.cells),
      acc := (match p.kind with
        | .plain | .atom _ _ _ => none
        | .acc w => some w),
      pos := p.ipos, prov := p.prov }

/-- Bytes of some cells that lie in extents. -/
def bytesIn (ext : List (Nat × Nat)) (cells : List PCell) : Nat :=
  (cells.filter fun x => ext.any fun e => decide (e.1 ≤ x.loc) && decide (x.loc < e.1 + e.2)).length

/-- Buckets count the bytes that become visible at their scope (R178): those of new versions, and those of versions that were visible in narrower scopes only. -/
def countBuckets (s : State) (scope : Scope) (pl : Place) (cells : List PCell) (wider : List Ver) : State :=
  s.mapCtxs fun c =>
    { c with buckets := c.buckets.map fun b =>
        if scopeLe b.scope scope && sharesUnit b.scope pl (s.placeOf c) then
          { b with count := b.count + bytesIn b.ext cells + ((wider.filter fun v => !scopeLe b.scope v.scope).map fun v => bytesIn b.ext v.cells).sum }
        else b }

/-- Published plain bytes enter the atomic order of their element (R244). -/
def homeUpdate (atoms : List Host.Cell) (vs : List Ver) : List Host.Cell :=
  vs.foldl (fun l v => if v.acc.isSome then l else
    v.cells.foldl (fun l x => if l.any (·.1 == x.loc) then putHome x.loc x.byte l else l) l) atoms

/-- The context's own view takes what it publishes (R240). -/
def ownView (view : List ViewEnt) (vs : List Ver) : List ViewEnt :=
  vs.foldl (fun w v => if v.acc.isSome then w else v.cells.foldl (fun w x => putView ⟨x, v.id⟩ w) w) view

/-- Is a version of the context published at a narrower scope covered by a publish at this one (R128, R240)? -/
def widens (c : Ctx) (scope : Scope) (sel : Prov → Bool) (v : Ver) : Bool :=
  v.launch == c.launch && !scopeLe scope v.scope && sel v.prov

/-- Publish the selected writes of the context whose turn it is at a scope, as one event: private entries become versions, and versions of narrower scopes are available at this one too (R128, R240, R258). -/
def publishSel (scope : Scope) (x : StreamId) (sel : Prov → Bool) (s : State) : State :=
  let c := s.me
  let stamp := s.stamp + 1
  let cov := c.priv.filter fun p => sel p.prov && p.parked.isNone
  let vs := versOf s c scope stamp (s.seqs + 1) cov
  let wider := s.mem.vers.filter (widens c scope sel)
  let known := stamp :: ((wider.map (·.stamp)).eraseDups ++ c.knownBy x s.now)
  let me := { c with
    priv := c.priv.filter fun p => !(sel p.prov && p.parked.isNone)
    view := ownView c.view vs
    accView := c.accView ++ (vs.filter (·.acc.isSome)).map (·.id)
    acq := c.acq ++ [⟨c.strC.acc + 1, s.now, [stamp]⟩]
    roomWait := 0 }
  let mem := { s.mem with
    vers := (s.mem.vers.map fun v => if widens c scope sel v then { v with scope := scope } else v) ++ vs
    pubs := s.mem.pubs ++ [⟨stamp, scope, c.die, c.bay, c.core, s.rank, known⟩]
    atoms := homeUpdate s.mem.atoms vs }
  countBuckets { s with me := me, mem := mem, stamp := stamp, seqs := s.seqs + 1 + cov.length }
    scope (s.placeOf c) (cov.flatMap (·.cells)) wider

/-- Contexts that hold a view: launched and not saved (R259). -/
def residentCtxs (s : State) : List Ctx := s.ctxs.filter fun c => c.life != .vacant

/-- Is the base of a byte above a version (R241)? -/
def baseAbove (m : Mem) (v : Ver) (x : Nat) : Bool :=
  match m.baseVer.find? (·.1 == x) with
  | some (_, b) => (match m.ver? b with
    | some u => verLt v u
    | none => false)
  | none => false

/-- Is a version's byte below the one every resident view holds (R241, R259)? A view with no entry holds the base; one with a home value takes no version it knows (R244). -/
def below (s : State) (v : Ver) (x : Nat) : Bool :=
  (residentCtxs s).all fun c =>
    match c.view.find? (·.cell.loc == x) with
    | none => baseAbove s.mem v x
    | some e =>
      if e.ver = 0 then c.knownC.contains v.stamp
      else match s.mem.ver? e.ver with
        | some u => verLt v u
        | none => false

/-- An accumulate in every resident view, and in that of every later launch (R315). -/
def accSeenByAll (s : State) (v : Ver) : Bool :=
  scopeLe .dev v.scope && (residentCtxs s).all fun c => c.accView.contains v.id

/-- Is the entry of a version's byte free, since every resident view is past it (R259, R315)? -/
def pastByte (s : State) (v : Ver) (x : Nat) : Bool := if v.acc.isSome then accSeenByAll s v else below s v x

/-- Lines of 512 bytes of a die with each version they hold an entry for (R255, R259). -/
def lineVersions (s : State) (die : Nat) : List (Nat × Nat) :=
  (s.mem.vers.flatMap fun v => ((v.cells.filter fun x => locKind x.loc == 0 && locRank x.loc == s.rank && paDie x.loc == die && !pastByte s v x.loc).map fun x => (x.loc / 512, v.id)).eraseDups)

/-- Versions of a die spilled to its version area: those of a line beyond 8, its base not counted (DESIGN CHOICE, log 38), and of the rest those its slices have no entry for (R259). -/
def spilledOn (s : State) (die : Nat) : Nat :=
  let ps := lineVersions s die
  let deep := ((ps.map (·.1)).eraseDups.map fun l => (ps.filter (·.1 == l)).length - 8).sum
  deep + min (ps.length - deep) (Config.roomSpills die ps.length)

/-- Do the versions a change adds find no room in some die's area (R260)? -/
def overSpilled (s t : State) : Bool := (List.range 4).any fun d => decide (Config.areaVersions < spilledOn t d) && decide (spilledOn s d < spilledOn t d)

/-- Spills a publish adds beyond what the version areas hold: 0 when its versions can be placed (R260). -/
def spaceShort (scope : Scope) (x : StreamId) (sel : Prov → Bool) (s : State) : Nat :=
  if s.me.priv.any fun p => sel p.prov && p.parked.isNone then
    let t := publishSel scope x sel s
    (List.range 4).foldl (fun k d => if Config.areaVersions < spilledOn t d then max k (spilledOn t d - spilledOn s d) else k) 0
  else 0

/-- Does a boundary of a context still wait for version space (R260)? -/
def lacksRoom (s : State) (c : Ctx) : Bool :=
  decide (0 < c.roomWait) && (List.range 4).any fun d => decide (Config.areaVersions < spilledOn s d + c.roomWait)

/-- A boundary of stream x publishes what it covers (R128). -/
def publish (scope : Scope) (x : StreamId) (s : State) : State :=
  publishSel scope x (covers s.me x s.now) s

/-! ## Refresh (R240, R244) -/

/-- Available to a reader for a refresh at a scope: published at a scope within the reader's unit (R240). -/
def available (scope vscope : Scope) (reader writer : Place) : Bool :=
  sharesUnit (scopeMin scope vscope) reader writer

/-- Is the value a location has at its home poisoned: that of its last publish, or of the base (R244, R282)? -/
def homeBad (m : Mem) (x : Nat) : Bool :=
  match latestPub m x with
  | some c => c.poison
  | none => m.poison.contains (unitOf x)

/-- The narrowest scope an atomic of the reader accepts on a location (R124). -/
def narrowest (s : State) (c : Ctx) (x : Nat) : Scope :=
  if isSram (bankOf x) then
    let core := locOff (bankOf x) / 0x300000
    if core = c.coreIdx then .core else if core / 4 = c.coreIdx / 4 then .bay else if core / 96 = c.die then .die else .dev
  else if locRank x ≠ s.rank then .dom
  else if isDram x && paDie x == c.die then .die
  else .dev

/-- Take one byte of a version into a view when it is the greater (R240, R241). -/
def takeCell (m : Mem) (known : List Nat) (v : Ver) (w : List ViewEnt) (x : PCell) : List ViewEnt :=
  match w.find? (·.cell.loc == x.loc) with
  | none =>
    match m.baseVer.find? (·.1 == x.loc) with
    | some (_, b) => match m.ver? b with
      | some u => if verLt u v then putView ⟨x, v.id⟩ w else w
      | none => putView ⟨x, v.id⟩ w
    | none => putView ⟨x, v.id⟩ w
  | some e =>
    if e.ver = 0 then (if known.contains v.stamp then w else putView ⟨x, v.id⟩ w)
    else match m.ver? e.ver with
      | some u => if verLt u v then putView ⟨x, v.id⟩ w else w
      | none => putView ⟨x, v.id⟩ w

/-- A refresh of a context at a scope (R240, R244). It visits the versions in the order of their publishes: where R241's order of three versions runs in a circle, that decides (DESIGN CHOICE, log 133). -/
def refreshCtx (s : State) (scope : Scope) (c : Ctx) : Ctx :=
  let here := s.placeOf c
  let known := c.knownC
  let w1 := s.mem.vers.foldl (fun w v =>
    if v.acc.isNone && available scope v.scope here v.place then v.cells.foldl (takeCell s.mem known v) w else w) c.view
  let w2 := s.mem.atoms.foldl (fun w (x, b) =>
    if scopeLe (narrowest s c x) scope then putView ⟨⟨x, b, homeBad s.mem x⟩, 0⟩ w else w) w1
  let stamps := (s.mem.pubs.filter fun p => available scope p.scope here p.place).flatMap (·.known)
  let news := (s.mem.vers.filter fun v => v.acc.isSome && available scope v.scope here v.place && !c.accView.contains v.id).map (·.id)
  { c with view := w2, accView := c.accView ++ news, acq := c.acq ++ [⟨c.strC.acc + 1, s.nowOf c, (stamps.filter fun t => !known.contains t).eraseDups⟩] }

/-- The acquire of a launch or resume (R243): what it makes known stands before every stream's first instruction. -/
def acquireCtx (s : State) (scope : Scope) (c : Ctx) : Ctx :=
  let d := refreshCtx s scope c
  { d with acq := c.acq ++ (d.acq.drop c.acq.length).map fun r => { r with acc := 0 } }

/-- A refresh by the context whose turn it is. -/
def refresh (scope : Scope) (s : State) : State := s.withMe (refreshCtx s scope s.me)

/-! ## Atomics at their home (R123, R125) -/

/-- The value an atomic reads at its home: the last atomic or publish of each byte (R125, R244). -/
def homeRead (s : State) (x n : Nat) : List Byte := homeBytes s.mem (locSeen x) n

/-- An atomic writes its cell at its home; a bank holds it for the streams that reach it directly too (R125, R236). -/
def homeWrite (x : Nat) (bs : List Byte) (s : State) : State :=
  if isSram x then { s with mem := { writeBases s.mem x bs with
      atoms := (bs.zipIdx x).foldl (fun l (b, y) => putHome (locSeen y) b l) s.mem.atoms
      poison := (s.mem.poison.filter fun u => !coversUnit x bs.length u).filter fun u => !coversUnit (locSeen x) bs.length u } }
  else { s with mem := { s.mem with atoms := (bs.zipIdx x).foldl (fun l (b, y) => putHome y b l) s.mem.atoms
                                    poison := s.mem.poison.filter fun u => !coversUnit x bs.length u } }

/-- New cell value of an atomic and its flags (R123): `old`, `b` and `e` (the expected value of CAS) are cut to the width. -/
def atomicNew (op : AtOp) (w32 : Bool) (old b e : W64) : W64 × Flags :=
  if w32 then
    let o := old.setWidth 32
    let v := b.setWidth 32
    match op with
    | .add => ((o + v).setWidth 64, 0#6)
    | .binc => ((if o < v then o + 1#32 else o).setWidth 64, 0#6)
    | .cas => ((if o = e.setWidth 32 then v else o).setWidth 64, 0#6)
    | .swp => (v.setWidth 64, 0#6)
    | .max => ((if o.slt v then v else o).setWidth 64, 0#6)
    | .fadd => let r := fp32Add o v; (BitVec.ofNat 64 r.bits, r.flags)
  else
    match op with
    | .add => (old + b, 0#6)
    | .binc => (if old < b then old + 1#64 else old, 0#6)
    | .cas => (if old = e then b else old, 0#6)
    | .swp => (b, 0#6)
    | .max => (if old.slt b then b else old, 0#6)
    | .fadd => (old, 0#6)

/-- The old value as sd receives it (R123): a 32-bit integer is sign-extended, an AT.FADD value zero-extended. -/
def atomicOld (op : AtOp) (w32 : Bool) (old : W64) : W64 :=
  if w32 then (if op = .fadd then (old.setWidth 32).setWidth 64 else (old.setWidth 32).signExtend 64) else old

/-- Is the old value of an atomic poisoned (R123, R282)? -/
def atomBad (m : Mem) (r : AtomReq) : Bool :=
  (List.range (if r.w32 then 4 else 8)).any fun i => homeBad m (locSeen (r.loc + i))

/-- The cells an atomic writes, by the value its home holds now (R123, R125, R266). -/
def atomCells (s : State) (r : AtomReq) : List PCell :=
  let n := if r.w32 then 4 else 8
  let old := BitVec.ofNat 64 (leNat (homeRead s r.loc n))
  newCells s s.me r.loc (leBytes n (atomicNew r.op r.w32 old r.b r.expect).1.toNat)

/-- Perform an atomic at its home (R125): the old value, the flags, whether the old value is poisoned, and the state. A poisoned cell is left as it is. -/
def performAtomic (r : AtomReq) (s : State) : W64 × Flags × Bool × State :=
  let n := if r.w32 then 4 else 8
  if atomBad s.mem r then (0#64, 0#6, true, s)
  else
    let old := BitVec.ofNat 64 (leNat (homeRead s r.loc n))
    let nw := atomicNew r.op r.w32 old r.b r.expect
    (atomicOld r.op r.w32 old, nw.2, false, homeWrite r.loc (leBytes n nw.1.toNat) s)

/-! ## Folding (R259, R315) -/

/-- Is a version's byte the last one published, though a greater version of the byte exists? The next atomic at its home reads it (R244). -/
def lastLower (m : Mem) (v : Ver) (x : Nat) : Bool :=
  !hasHome m x && ((latestVer x m.vers).map (·.id)) == some v.id && !baseLater m x v &&
  (baseAbove m v x || m.vers.any fun u => u.acc.isNone && (cellAt x u.cells).isSome && verLt v u)

/-- Does a version's byte fold: it is below the one every resident view holds (R259)? The record of a byte published at less than device scope stays until the base is above it, since a launch would not see it, and so does one that the next atomic reads; it takes no entry (`lineVersions`), and folding changes no value read (R240, R244; log 38). -/
def foldable (s : State) (v : Ver) (x : PCell) : Bool :=
  (scopeLe .dev v.scope || baseAbove s.mem v x.loc) && !lastLower s.mem v x.loc && below s v x.loc

/-- Does a version hold the whole 8-byte unit of a byte (R282)? -/
def wholeUnit (v : Ver) (x : Nat) : Bool := (List.range 8).all fun j => (cellAt (8 * unitOf x + j) v.cells).isSome

/-- A byte of a version becomes the base, with its poison: one that does not cover its whole unit leaves it poisoned (R259, R282). -/
def foldByte (v : Ver) (x : PCell) (m : Mem) : Mem :=
  { m with
    base := putCell x.loc x.byte m.base
    baseVer := (x.loc, v.id) :: m.baseVer.filter (·.1 != x.loc)
    poison := if x.poison then (if m.poison.contains (unitOf x.loc) then m.poison else m.poison ++ [unitOf x.loc])
      else if wholeUnit v x.loc then m.poison.filter (· != unitOf x.loc) else m.poison }

/-- Fold the bytes of versions below every resident view into the base, in the order of R241, and free them (R259). -/
def foldVersions (s : State) : State :=
  let m := s.mem
  let step (m' : Mem) (v : Ver) : Mem :=
    if v.acc.isSome then m'
    else
      let goes := v.cells.filter (foldable s v)
      let m1 := goes.foldl (fun (q : Mem) (x : PCell) =>
        let older := match q.baseVer.find? (·.1 == x.loc) with
          | some (_, b) => (match m.ver? b with
            | some u => verLt u v
            | none => true)
          | none => true
        if older then foldByte v x q else q) m'
      { m1 with vers := m1.vers.map fun u => if u.id = v.id then { u with cells := u.cells.filter fun x => !foldable s v x } else u }
  { s with mem := m.vers.foldl step m }

/-- The version every resident view holds for the four bytes of a cell, 0 for the base; none when they differ. -/
def cellVer (s : State) (cell : Nat) : Option Nat :=
  let ids := ((residentCtxs s).flatMap fun c => (List.range 4).map fun i => viewVer c (cell + i)).eraseDups
  match ids with
  | [] => some 0
  | [i] => some i
  | _ => none

def accKey (v : Ver) : List Nat := [v.vrank, v.idx, v.idxDie, v.rank, v.pos]

def insertVer (v : Ver) : List Ver → List Ver
  | [] => [v]
  | u :: r => if keyLt (accKey v) (accKey u) then v :: u :: r else u :: insertVer v r

/-- Bytes of a cell among some. -/
def inCell (cell : Nat) (cs : List PCell) : Bool := cs.any fun x => decide (cell ≤ x.loc) && decide (x.loc < cell + 4)

/-- What the writer of each plain write of a cell had seen, the version `id` apart: published ones, private ones, those a context makes again (R269), and what the A stream and the commands in flight of every resident context know. -/
def cellWrites (s : State) (cell id : Nat) : List (List Nat) :=
  (s.mem.vers.filter fun w => w.acc.isNone && w.id != id && inCell cell w.cells).map (·.seen) ++
  (residentCtxs s ++ s.archives.map (·.ctx)).flatMap fun c =>
    ((c.priv ++ c.withdrawn ++ (c.frame.bind (·.replay)).toList).filter fun p => p.kind == .plain && inCell cell p.cells).map (·.seen) ++
    [c.knownC, c.knownBy .a (s.nowOf c)] ++ c.cmds.map (·.seen)

/-- May an accumulate fold into version `id` of its cell: every view includes it, and no other plain write of the cell stands, or can come, beside it (R315)? -/
def accFolds (s : State) (cell id : Nat) (v : Ver) : Bool := accSeenByAll s v && (cellWrites s cell id).all (·.contains v.stamp)

/-- The pending accumulates of a cell that fold into its base: in the order of R315, up to the first that may not, so that no value read changes. -/
def accFolding (s : State) (cell id : Nat) : List Ver :=
  let b := if id != 0 then id else ((s.mem.baseVer.find? (·.1 == cell)).map (·.2)).getD 0
  let seen := ((s.mem.ver? b).map (·.seen)).getD []
  ((s.mem.vers.filter fun v => v.acc.isSome && v.cells.any (·.loc == cell) && !seen.contains v.stamp).foldl (fun l v => insertVer v l) []).takeWhile (accFolds s cell id)

/-- Would a launch find the version that accumulates fold into: the base, or one of device scope (R240, R243)? -/
def foldTarget (m : Mem) (id : Nat) : Bool := id == 0 || (m.ver? id).any fun u => scopeLe .dev u.scope

/-- Cells with accumulates to fold, each with the version they fold into. -/
def accCells (s : State) : List (Nat × Nat) :=
  ((s.mem.vers.filter fun v => v.acc.isSome && accSeenByAll s v).flatMap fun v => v.cells.map (·.loc)).eraseDups.filterMap fun x =>
    match cellVer s x with
    | none => none
    | some i => if hasHome s.mem x || !foldTarget s.mem i || (accFolding s x i).isEmpty then none else some (x, i)

/-- Replace the bytes of a cell where a version or a view holds them. -/
def newBytes (cell : Nat) (bs : List Byte) (x : PCell) : PCell :=
  if cell ≤ x.loc ∧ x.loc < cell + 4 then { x with byte := bs.getD (x.loc - cell) 0#8 } else x

/-- Fold the accumulates of one cell (R259, R315). -/
def foldCell (s : State) (e : Nat × Nat) : State :=
  let fs := accFolding s e.1 e.2
  let old := match s.mem.ver? e.2 with
    | some u => (List.range 4).map fun i => ((cellAt (e.1 + i) u.cells).map (·.byte)).getD (readBase s.mem (e.1 + i))
    | none => readBases s.mem e.1 4
  let v := fs.foldl (fun acc a => BitVec.ofNat 32 (fp32Add acc (a.acc.getD 0#32)).bits) (BitVec.ofNat 32 (leNat old))
  let bs := leBytes 4 v.toNat
  let m1 := if e.2 = 0 then { s.mem with base := putCells s.mem.base e.1 bs } else s.mem
  let upd (u : Ver) : Ver := if u.id = e.2 then { u with cells := u.cells.map (newBytes e.1 bs) } else u
  { s.mapCtxs (fun c => { c with view := c.view.map fun w => if w.ver = e.2 ∧ e.2 ≠ 0 then { w with cell := newBytes e.1 bs w.cell } else w }) with
    mem := { m1 with vers := ((m1.vers.filter fun u => !(fs.any fun f => f.id == u.id)).map upd) } }

/-- Fold the pending accumulates that every resident view includes (R259, R315). -/
def foldAccs (s : State) : State := (accCells s).foldl foldCell s

end Sys2Proof.Machine
end

