-- ==== Sys2Proof/Machine/Operands.lean ====
section
/-!
DEFINITION. Operand forms: tagged pointers (R46 to R48), address translation (spec 14, R287 to R296, R303), layout words (R157 to R159), immediates and branch targets (R81).
-/
namespace Sys2Proof.Machine

/-! ## Immediates and targets (R81) -/

/-- imm12 sign-extended to 64 bits (R108). -/
def sx12 (i : BitVec 12) : W64 := i.signExtend 64
/-- The 49-bit value of LI and GLI (R81, R109). -/
def li49 (imm : BitVec 17) (ext : W32) : W64 := ((imm ++ ext : BitVec 49)).signExtend 64
/-- A branch target: the instruction's own address plus 4 × offset (R81). -/
def target12 (pc : W64) (off : BitVec 12) : W64 := pc + (off.signExtend 64 <<< 2)
def target22 (pc : W64) (off : BitVec 22) : W64 := pc + (off.signExtend 64 <<< 2)

/-! ## Pages and entries (R288 to R291) -/

def eBit (e i : Nat) : Bool := e / 2 ^ i % 2 == 1
def eV (e : Nat) : Bool := eBit e 0
def eR (e : Nat) : Bool := eBit e 1
def eW (e : Nat) : Bool := eBit e 2
def eX (e : Nat) : Bool := eBit e 3
def eG (e : Nat) : Bool := eBit e 4
def eC (e : Nat) : Bool := eBit e 5
def eD (e : Nat) : Bool := eBit e 6
def eH (e : Nat) : Bool := eBit e 7
def eAddr (e : Nat) : Nat := natBits e 52 12
def eScls (e : Nat) : Nat := natBits e 54 53

/-- Trailing ones of a number, at most `n` of them. -/
def trailingOnes : Nat → Nat → Nat
  | 0, _ => 0
  | n + 1, x => if x % 2 = 1 then trailingOnes n (x / 2) + 1 else 0

/-- log2 of the page size over 4 KiB (R291). -/
def leafT (e : Nat) : Nat := trailingOnes 41 (eAddr e)
def leafSize (e : Nat) : Nat := 2 ^ (12 + leafT e)
def leafBase (e : Nat) : Nat := eAddr e / 2 ^ (leafT e + 1) * 2 ^ (leafT e + 1) * 2 ^ 11

/-- Which tree an entry stands in: it decides which attributes a leaf may carry (R289, R296). -/
inductive Tree where
  | stage1 | stage2 | unified
  deriving DecidableEq, Repr

/-- Points to a table (R290). -/
def isTable (e : Nat) : Bool := !eR e && !eW e && !eX e

/-- Malformed entries (R290, R291, R296). -/
def malformed (t : Tree) (lvl e : Nat) : Bool :=
  natBits e 63 55 != 0 || natBits e 11 8 != 0 ||
  (if isTable e then
    lvl == 0 || eBit e 52 || eScls e != 0 || eH e || eD e || eC e || eG e
  else
    (eW e && !eR e) || (eX e && eW e) || (eX e && eD e) || (eScls e != 0 && !eX e) ||
    (eH e && t != .unified) || (eH e && eX e) || (eD e && t != .stage1) || (eG e && t != .stage1) || (eC e && t != .stage2) ||
    decide (20 < leafT e) || decide (leafT e < 9 * lvl) || decide (9 * lvl + 8 < leafT e))

/-- A translation fault (R303, R304) on device `dev`, whose tables failed: its memory processor is told (R295). -/
structure TFault where
  dev : Nat
  stage : Nat
  level : Nat
  cause : Nat
  walk : Bool
  ipa : Nat
  deriving DecidableEq, Repr, Inhabited

/-- Index of a level (R288). -/
def tblIndex (a lvl : Nat) : Nat := a / 2 ^ (12 + 9 * lvl) % 512

/-- Address of the table a table entry names (R289). -/
def tblAddr (e : Nat) : Nat := natBits e 51 12 * 4096

/-- LEVEL of a fault report (R304): the level of the entry; a unified root is level 4, which the field of 2 bits cannot hold (log 121). -/
def levelField (lvl : Nat) : Nat := if lvl < 4 then lvl else Config.rootLevel % 4

/-- A leaf a walk ends at, with its level. -/
structure Leaf where
  e : Nat
  lvl : Nat
  deriving DecidableEq, Repr, Inhabited

/-- The stage-2 loop (R293) of a device: from level `n - 1` down. -/
def walk2 (m : Mem) (rank : Nat) (walk : Bool) (ipa : Nat) : (n : Nat) → (t : Nat) → Except TFault Leaf
  | 0, _ => .error ⟨rank, 1, 0, 1, walk, ipa⟩
  | n + 1, t =>
    let e := readEntry m rank (t + 8 * tblIndex ipa n)
    if !eV e then .error ⟨rank, 1, n, 0, walk, ipa⟩
    else if malformed .stage2 n e then .error ⟨rank, 1, n, 1, walk, ipa⟩
    else if isTable e then walk2 m rank walk ipa n (tblAddr e)
    else .ok ⟨e, n⟩

/-- The stage-1, adjoint or unified loop (R293, R296): each entry is reached through stage 2 of the issuing device. -/
def walk1 (m : Mem) (rank s2 : Nat) (tr : Tree) (va : Nat) : (n : Nat) → (t : Nat) → Except TFault Leaf
  | 0, _ => .error ⟨rank, 0, 0, 1, false, 0⟩
  | n + 1, t =>
    let ea := t + 8 * tblIndex va n
    match walk2 m rank true ea 4 s2 with
    | .error f => .error f
    | .ok l =>
      let e := readEntry m rank (leafBase l.e + ea % leafSize l.e)
      if !eV e then .error ⟨rank, 0, levelField n, 0, false, 0⟩
      else if malformed tr n e then .error ⟨rank, 0, levelField n, 1, false, 0⟩
      else if isTable e then walk1 m rank s2 tr va n (tblAddr e)
      else .ok ⟨e, n⟩

/-- Kinds of access (R294, R304). -/
inductive AccKind where
  | read | write | rmw | exec
  deriving DecidableEq, Repr

def AccKind.num : AccKind → Nat
  | .read => 0
  | .write => 1
  | .rmw => 2
  | .exec => 3

/-- Do the bits of a leaf allow the access (R294). -/
def allows (k : AccKind) (e : Nat) : Bool :=
  match k with
  | .read => eR e
  | .write => eW e
  | .rmw => eR e && eW e
  | .exec => eX e

/-- A translated byte: its location, the attributes of its page, bytes left in the combined page, and that page's size. -/
structure Trans where
  loc : Nat
  diff : Bool
  comp : Bool
  left : Nat
  size : Nat
  deriving DecidableEq, Repr, Inhabited

/-- Why a pointer cannot be used: an access fault with its qualifier, or a translation fault. -/
inductive PErr where
  | acc (qual : Nat)
  | tr (f : TFault)
  deriving DecidableEq, Repr

/-- The second half of a GLB, ADJ or HOST translation: permissions of the stage-1 leaf, found on device `here`, then stage 2 of the device that holds the page and its permissions (R294, R295). Memory on the stacks is never compressed (R272). The other device walks from the root of the issuing context's partition (DEDUCED, log 135). -/
def finishTrans (m : Mem) (here rank s2 : Nat) (k : AccKind) (scls : Option Nat) (l1 : Leaf) (va : Nat) : Except PErr Trans :=
  if !allows k l1.e then .error (.tr ⟨here, 0, levelField l1.lvl, 2, false, 0⟩)
  else if (match scls with
    | some x => eScls l1.e != x
    | none => false) then .error (.tr ⟨here, 0, levelField l1.lvl, 3, false, 0⟩)
  else
    let ipa := leafBase l1.e + va % leafSize l1.e
    match walk2 m rank false ipa 4 s2 with
    | .error f => .error (.tr f)
    | .ok l2 =>
      if !allows k l2.e then .error (.tr ⟨rank, 1, l2.lvl, 2, false, ipa⟩)
      else
        let loc := locPa rank (leafBase l2.e + ipa % leafSize l2.e)
        .ok ⟨loc, eD l1.e, eC l2.e && isDram loc,
          min (leafSize l1.e - va % leafSize l1.e) (leafSize l2.e - ipa % leafSize l2.e), min (leafSize l1.e) (leafSize l2.e)⟩

/-- Translate a virtual address through a stage-1-like root (R287, R293). -/
def translate1 (m : Mem) (here rank s2 root : Nat) (k : AccKind) (scls : Option Nat) (va : Nat) : Except PErr Trans :=
  match walk1 m here s2 .stage1 va 4 root with
  | .error f => .error (.tr f)
  | .ok l1 => finishTrans m here rank s2 k scls l1 va

/-- Translate a unified address (R296): a host page passes no stage 2. The table's own addresses are IPAs, as those of stage 1 are (DEDUCED, log 134). -/
def translateU (m : Mem) (rank s2 root : Nat) (k : AccKind) (va : Nat) : Except PErr Trans :=
  match walk1 m rank s2 .unified va 5 root with
  | .error f => .error (.tr f)
  | .ok l1 =>
    if eH l1.e then
      if allows k l1.e then .ok ⟨locHost rank (leafBase l1.e + va % leafSize l1.e), false, false, leafSize l1.e - va % leafSize l1.e, leafSize l1.e⟩
      else .error (.tr ⟨rank, 0, levelField l1.lvl, 2, false, 0⟩)
    else finishTrans m rank rank s2 k none l1 va

/-! ## Tagged pointers (R46 to R48) -/

/-- Space codes (R46). -/
inductive Space where
  | glb | scr | adj | tape | host | bad
  deriving DecidableEq, Repr

def spaceOf (p : W64) : Space :=
  match natBits p.toNat 63 60 with
  | 0 => .glb
  | 1 => .scr
  | 2 => .adj
  | 3 => .tape
  | 5 => .host
  | _ => .bad

def ptrVa (p : W64) : Nat := natBits p.toNat 46 0
def ptrRank (p : W64) : Nat := natBits p.toNat 59 47
def ptrBank (p : W64) : Nat := natBits p.toNat 21 16
def ptrByte (p : W64) : Nat := natBits p.toNat 15 0

/-- The device a GLB or ADJ pointer names (R46, R48): `self`, or a rank below the domain's device count. -/
def State.devOf (s : State) (p : W64) : Option Nat :=
  if ptrRank p = 0x1FFF then some s.rank
  else if ptrRank p < s.devCount then some (ptrRank p) else none

/-- The virtual core rank of an SCR pointer; `none` is the issuing instance itself (R47, R48). -/
def scrRank (p : W64) : Except PErr (Option Nat) :=
  let low := natBits p.toNat 59 51
  let high := natBits p.toNat 50 39
  if natBits p.toNat 38 22 ≠ 0 then .error (.acc 0)
  else if low = 0x1FF then (if high = 0 then .ok none else .error (.acc 0))
  else .ok (some (high * 511 + low))

/-- The context an SCR pointer addresses (R47, R48, R287). -/
def State.scrCtx (s : State) (c : Ctx) (p : W64) : Except PErr Ctx :=
  match scrRank p with
  | .error e => .error e
  | .ok none => .ok c
  | .ok (some r) =>
    if r < c.vcount.toNat then
      if r = c.vrank.toNat then .ok c
      else match s.ctxs.find? fun x => x.life != .vacant && x.nodeDie == c.nodeDie && x.nodeIdx == c.nodeIdx && x.vrank.toNat == r with
        | some x => .ok x
        | none => .error (.acc 0)
    else .error (.acc 0)

/-- Resolve n bytes at an SCR pointer (R48): the bank of the addressed instance; bytes past the bank fault. -/
def State.scrLoc (s : State) (c : Ctx) (p : W64) (n : Nat) : Except PErr Trans :=
  match s.scrCtx c p with
  | .error e => .error e
  | .ok x =>
    if x.nbank ≤ ptrBank p then .error (.acc 7)
    else if 65536 < ptrByte p + n then .error (.acc 0)
    else .ok ⟨bankLoc s.rank x (ptrBank p) (ptrByte p), false, false, 65536 - ptrByte p, 65536⟩

/-- TAPE space: TAPE.BASE + offset as a GLB pointer (R46, R287). -/
def tapePtr (c : Ctx) (p : W64) : Except PErr W64 :=
  if natBits p.toNat 59 32 ≠ 0 then .error (.acc 0) else .ok (c.tapeBase + BitVec.ofNat 64 (natBits p.toNat 31 0))

/-- Every context the device keeps, saved ones included (R361). -/
def State.kept (s : State) : List Ctx := s.ctxs ++ s.archives.map (·.ctx)

/-- A translated byte as it stands beside the donations: the places of a donated range are mapped no more (R270). -/
def undonated (s : State) (t : Trans) : Except PErr Trans :=
  let ps := s.parts.flatMap fun p => p.donations.flatMap (·.pieces)
  if ps.any fun r => decide (r.1 ≤ t.loc) && decide (t.loc < r.1 + r.2) then .error (.tr ⟨s.rank, 0, 0, 0, false, 0⟩)
  else .ok { t with left := ps.foldl (fun l r => if t.loc < r.1 ∧ r.1 < t.loc + l then r.1 - t.loc else l) t.left }

/-- The context of the process whose record page the loader maps at the page of a pointer, on this device (R350). -/
def recOwner (s : State) (c : Ctx) (r : Nat) (p : W64) : Option Ctx :=
  (c :: s.kept).find? fun x => x.recPage != 0 && x.vmid == c.vmid && x.asid == c.asid && r == s.rank && ptrVa p / 4096 == ptrVa x.recVa / 4096

/-- The partition of the context, when the pointer is in the page of its default vector on this device (R326). -/
def handlerPart (s : State) (c : Ctx) (r : Nat) (p : W64) : Option Part :=
  s.parts.find? fun q => q.vmid == c.vmid && q.defVec != 0#64 && r == s.rank && ptrVa p / 4096 == ptrVa q.defVec / 4096

/-- The page of the default vector: its leaf has V and X, class C (R99, R294, R326; log 117). -/
def handlerLoc (s : State) (q : Part) (k : AccKind) (scls : Option Nat) (p : W64) : Except PErr Trans :=
  if k ≠ .exec then .error (.tr ⟨s.rank, 0, 0, 2, false, 0⟩)
  else if scls ≠ none ∧ scls ≠ some 0 then .error (.tr ⟨s.rank, 0, 0, 3, false, 0⟩)
  else .ok ⟨locPa s.rank (Config.handlerFrame q.vmid % 2 ^ 34 * 4096 + ptrVa p % 4096), false, false, 4096 - ptrVa p % 4096, 4096⟩

/-- Translate one GLB byte (R287, R295); the compression record is mapped read-only in every table of its partition (R271), the record page of each context of the process V, R, W by the loader, no stream fetching there (R350), and the default vector's page in every table of the partition (R326). -/
def State.glbLoc (s : State) (c : Ctx) (k : AccKind) (scls : Option Nat) (p : W64) : Except PErr Trans :=
  match s.devOf p with
  | none => .error (.acc 0)
  | some r =>
    if scls.isNone && r == s.rank && ptrVa p / 4096 == 0x7FFFFFFFF && (s.part? c.vmid).isSome then
      if k = .read then .ok ⟨locRecord s.rank c.vmid (ptrVa p % 4096), false, false, 4096 - ptrVa p % 4096, 4096⟩
      else .error (.tr ⟨s.rank, 0, 0, 2, false, 0⟩)
    else match recOwner s c r p with
      | some x =>
        if scls.isNone then .ok ⟨locPa s.rank (x.recPage + ptrVa p % 4096), false, false, 4096 - ptrVa p % 4096, 4096⟩ else .error (.acc 1)
      | none => match handlerPart s c r p with
        | some q => handlerLoc s q k scls p
        | none => (translate1 s.mem s.rank r c.s2Root c.s1Root k scls (ptrVa p)).bind (undonated s)

/-- The adjoint page the memory processor maps for the differentiable page of a pointer in the process's own adjoint tree: of the same size, with R and W (R307; log 122). -/
def adjPage (s : State) (c : Ctx) (r : Nat) (p : W64) : Option Trans :=
  if !(s.spaces.any fun a => a.asid == c.asid && a.vmid == c.vmid && a.adjRoot == c.adjRoot.toNat) then none
  else match walk1 s.mem s.rank c.s2Root .stage1 (ptrVa p) 4 c.s1Root with
    | .error _ => none
    | .ok l =>
      let n := leafSize l.e
      let o := ptrVa p % n
      if eD l.e then some ⟨locPa r (Config.adjointFrame c.vmid c.asid (ptrVa p - o) % 2 ^ 34 * 4096 + o), false, false, n - o, n⟩ else none

/-- Translate one ADJ byte through the adjoint tree (R287, R307); a differentiable page that no entry there maps has its adjoint page all the same. -/
def State.adjLoc (s : State) (c : Ctx) (k : AccKind) (p : W64) : Except PErr Trans :=
  match s.devOf p with
  | none => .error (.acc 0)
  | some r =>
    if c.adjRoot = 0#64 then .error (.acc 5)
    else match translate1 s.mem s.rank r c.s2Root c.adjRoot.toNat k none (ptrVa p) with
      | .ok t => undonated s t
      | .error (.acc q) => .error (.acc q)
      | .error (.tr f) => match (if f.cause = 0 then adjPage s c r p else none) with
        | some t => .ok t
        | none => .error (.tr f)

/-- Does a stage-1 tree hold a differentiable leaf, from a table of level `n - 1` down? Its process has an adjoint tree then (R307). -/
def mapsDiff (m : Mem) (rank s2 : Nat) : (n : Nat) → (t : Nat) → Bool
  | 0, _ => false
  | n + 1, t => (List.range 512).any fun i =>
    match walk2 m rank true (t + 8 * i) 4 s2 with
    | .error _ => false
    | .ok l =>
      let e := readEntry m rank (leafBase l.e + (t + 8 * i) % leafSize l.e)
      eV e && !malformed .stage1 n e && if isTable e then mapsDiff m rank s2 n (tblAddr e) else eD e

/-- ADJ.ROOT as the loader writes it at a launch: the root of the process's adjoint tree, 0 when it has none (R307). -/
def adjRootOf (s : State) (c : Ctx) : W64 := if mapsDiff s.mem s.rank c.s2Root 4 c.s1Root then c.adjRoot else 0#64

/-- Translate one HOST byte (R46, R296). -/
def State.hostLoc (s : State) (c : Ctx) (k : AccKind) (p : W64) : Except PErr Trans :=
  if natBits p.toNat 59 57 ≠ 0 then .error (.acc 0)
  else (translateU s.mem s.rank c.s2Root c.uRoot k (natBits p.toNat 56 0)).bind (undonated s)

/-- Where one byte of a pointer lies (R46 to R48, R287): `n` is the bytes the access still has, for the SCR bound. -/
def State.place (s : State) (c : Ctx) (k : AccKind) (p : W64) (n : Nat) : Except PErr Trans :=
  match spaceOf p with
  | .glb => s.glbLoc c k none p
  | .scr => s.scrLoc c p n
  | .adj => s.adjLoc c k p
  | .tape => match tapePtr c p with
    | .error e => .error e
    | .ok q => if spaceOf q = .glb then s.glbLoc c k none q else .error (.acc 0)
  | .host => s.hostLoc c k p
  | .bad => .error (.acc 0)

/-- A run of bytes at one place. -/
structure Seg where
  tr : Trans
  len : Nat
  deriving DecidableEq, Repr, Inhabited

/-- All pieces of n bytes at a pointer, page by page, before any byte moves (R119); `fuel` bounds the pages. -/
def State.segs (s : State) (c : Ctx) (k : AccKind) : (fuel : Nat) → (p : W64) → (n : Nat) → Except PErr (List Seg)
  | 0, _, _ => .ok []
  | fuel + 1, p, n =>
    if n = 0 then .ok []
    else match s.place c k p n with
      | .error e => .error e
      | .ok t =>
        let l := min n (max 1 t.left)
        match s.segs c k fuel (p + BitVec.ofNat 64 l) (n - l) with
        | .error e => .error e
        | .ok r => .ok (⟨t, l⟩ :: r)

/-- The pieces of an access of n bytes; a page holds at least one byte, so n pieces suffice. -/
def State.access (s : State) (c : Ctx) (k : AccKind) (p : W64) (n : Nat) : Except PErr (List Seg) := s.segs c k n p n

/-- The locations of the pieces, byte by byte. -/
def segLocs (ss : List Seg) : List Nat := ss.flatMap fun g => (List.range g.len).map (g.tr.loc + ·)

/-- Does the access touch a differentiable page (R121, R173). -/
def segsDiff (ss : List Seg) : Bool := ss.any (·.tr.diff)
def segsComp (ss : List Seg) : Bool := ss.any (·.tr.comp)

/-- Does a write of these places meet a sealed page (R172). -/
def sealedHit (m : Mem) (ss : List Seg) : Bool :=
  ss.any fun g => m.sealedR.any fun r => decide (g.tr.loc < r.1 + r.2) && decide (r.1 < g.tr.loc + g.len)

/-- Does a row of an open shadow hold any of these bytes (R176). -/
def extHit (ext : List (Nat × Nat × Nat)) (x n : Nat) : Bool :=
  ext.any fun e => decide (x < e.2.1 + e.2.2) && decide (e.2.1 < x + n)

/-- A shadow open in some context on these places; `own` counts the issuing context's shadows too (R176). -/
def shadowHit (s : State) (own : Bool) (ss : List Seg) : Bool :=
  ss.any fun g => s.ctxs.any fun c => (own || c.launch != s.me.launch) && c.shadows.any fun h => extHit h.ext g.tr.loc g.len

/-- Is a location in the record page of a context (R350). -/
def inRecPage (s : State) (c : Ctx) (x : Nat) : Bool :=
  c.recPage != 0 && decide (locPa s.rank c.recPage ≤ x) && decide (x < locPa s.rank c.recPage + 4096)

/-- Does an access touch a record page that is not the context's own, or its own through another stream (R350). -/
def recPageHit (s : State) (own : Bool) (ss : List Seg) : Bool :=
  ss.any fun g => s.kept.any fun c => (own || c.launch != s.me.launch) && inRecPage s c g.tr.loc

/-- Exposed latency of a timed access by tier; none where a timed context may not go (R122). -/
def tierOf (s : State) (c : Ctx) (x : Nat) : Option Nat :=
  if isSram x then
    let core := locOff x / 0x300000
    if core = c.coreIdx then some 4 else if core / 4 = c.coreIdx / 4 then some 24 else none
  else if isHostBus x || locRank x != s.rank then none
  else if isDram x && paDie x == c.die then some 1280
  else some 4096

/-- Are the n bytes from x on all in some of the ranges, which may continue one another? `fuel` bounds the ranges used. -/
def coveredBy (ranges : List (Nat × Nat)) : (fuel : Nat) → (x n : Nat) → Bool
  | 0, _, n => n == 0
  | f + 1, x, n =>
    n == 0 || match ranges.find? fun r => decide (r.1 ≤ x) && decide (x < r.1 + r.2) with
      | none => false
      | some r => coveredBy ranges f (r.1 + r.2) (n - (r.1 + r.2 - x))

/-- The first byte of a pointer as a locked entry names it: the rank of its device and its virtual address (R46, R299). -/
def State.lockKey (s : State) (p : W64) : Nat := ((s.devOf p).getD (ptrRank p)) * 2 ^ 47 + ptrVa p

/-- Are n bytes of a timed access in the page ranges locked at launch (R167, R299)? SCR needs no translation; a locked page stands for its adjoint page too (log 112). -/
def lockedIn (s : State) (ranges : List (Nat × Nat)) (p : W64) (n : Nat) : Bool :=
  match spaceOf p with
  | .glb | .adj => coveredBy ranges (ranges.length + 1) (s.lockKey p) n
  | .scr | .tape | .host | .bad => true

/-- May a timed context not make an access for the space and the pages it names (R122, R167, R299)? A pointer that names no device is left to R48. -/
def timedOut (s : State) (ranges : List (Nat × Nat)) (p : W64) (n : Nat) : Bool :=
  s.me.timed && match spaceOf p with
    | .glb | .adj => (s.devOf p).isSome && !lockedIn s ranges p n
    | .tape | .host => true
    | .scr | .bad => false

/-! ## Layout words (R157 to R159) -/

def layFmt (l : W64) : Option Fmt := fmtOf (natBits l.toNat 63 60)
def layRows (l : W64) : Nat := natBits l.toNat 59 53 + 1
def layCols (l : W64) : Nat := natBits l.toNat 52 44 + 1
def layStride (l : W64) : Nat := natBits l.toNat 43 20
def layZ (l : W64) : Bool := eBit l.toNat 19
def layT (l : W64) : Bool := eBit l.toNat 18
def layExp (l : W64) : Nat := natBits l.toNat 17 16
def layAlign (l : W64) : Nat := natBits l.toNat 15 12
def layReserved (l : W64) : Nat := natBits l.toNat 11 0

/-- Bits 63:53 hold ROWS as 7 bits: a value of 127 is 128 rows (R157). -/
def isPow2From4 (n : Nat) : Bool := decide (4 ≤ n) && n == 2 ^ n.log2

/-- The Z-order index of leaf coordinates (R159). -/
def zIndex (a b i j : Nat) : Nat :=
  (List.range (max a b)).foldl (fun z k =>
    z + (if k < b then j / 2 ^ k % 2 * 2 ^ (k + min k a) else 0)
      + (if k < a then i / 2 ^ k % 2 * 2 ^ (k + 1 + min k (b - 1)) else 0)) 0

/-- Byte offset of memory element (y, x) from the pointer, e bytes an element, of a memory tile of rm rows and cm columns (R159). -/
def memOff (z : Bool) (stride e rm cm y x : Nat) : Nat :=
  if z then (16 * zIndex (rm / 4).log2 (cm / 4).log2 (y / 4) (x / 4) + (4 * (y % 4) + x % 4)) * e
  else y * stride + x * e

/-- Byte offset of bank element (i, j) (R159). -/
def tileOff (l : W64) (e i j : Nat) : Nat :=
  let t := layT l
  memOff (layZ l) (layStride l) e (if t then layCols l else layRows l) (if t then layRows l else layCols l)
    (if t then j else i) (if t then i else j)

/-- Byte offset of element (i, j) of a row-wise block-scaled memory tile: units of 80 bytes (R55), and of its scale byte. -/
def scaledOff (l : W64) (i j : Nat) : Nat := i * layStride l + j / 64 * 80 + j % 64
def scaleOff (l : W64) (i j : Nat) : Nat := i * layStride l + j / 64 * 80 + 64 + j % 64 / 4

end Sys2Proof.Machine
end

