-- ==== Sys2Proof/Machine/Exc.lean ====
section
/-!
DEFINITION. Why an instruction traps at issue: class, qualifier and the INFO bytes of R352, and the fault report of R304.
-/
namespace Sys2Proof.Machine

/-- A trap an instruction raises: its class, qualifier, and INFO (64 bytes) with the fault report after it (R349, R351, R352). -/
structure Exc where
  cls : Nat
  qual : Nat
  info : List Byte
  deriving DecidableEq, Repr, Inhabited

/-- Pad a byte list to n bytes with zeros. -/
def padTo (n : Nat) (l : List Byte) : List Byte := (List.range n).map fun i => l.getD i 0#8

def le64 (x : W64) : List Byte := leBytes 8 x.toNat

/-- The words of the instruction at a stream's PC as they stand in memory: first word, and extension word or 0 (R352). -/
def State.wordsAt (s : State) (x : StreamId) : Nat × Nat :=
  match s.glbLoc s.me .exec none (s.me.strm x).pc with
  | .error _ => (0, 0)
  | .ok t =>
    let w := leNat (readBases s.mem t.loc 4)
    (w, if wordCount x w = 2 then leNat (readBases s.mem (t.loc + 4) 4) else 0)

/-- Instruction address, first word and extension word (R352). -/
def State.instrInfo (s : State) (x : StreamId) : List Byte :=
  let w := s.wordsAt x
  le64 (s.me.strm x).pc ++ leBytes 4 w.1 ++ leBytes 4 w.2

/-- Illegal dynamic combination (R97, R345 class 1). -/
def exIllegal (s : State) (x : StreamId) : Exc := ⟨1, 0, s.instrInfo x⟩

/-- Tree order, with CIX (R352 class 2). -/
def exTree (s : State) : Exc := ⟨2, 0, s.instrInfo .m ++ leBytes 4 s.me.cix⟩

/-- Out-of-range code, with the first out-of-range line (R352 class 10). -/
def exRange (s : State) (line : Nat) : Exc := ⟨10, 0, s.instrInfo .m ++ leBytes 2 line⟩

/-- INFO of classes 5, 6 and 7 (R352). -/
def accInfo (addr ptr : W64) (k : AccKind) (tag : Nat) : List Byte :=
  padTo 64 (le64 addr ++ le64 ptr ++ [BitVec.ofNat 8 k.num, BitVec.ofNat 8 tag])

/-- Access fault of a stream's instruction (R345 class 5); `tag` is 0xFF when there is none. -/
def exAcc (s : State) (x : StreamId) (qual : Nat) (ptr : W64) (k : AccKind) (tag : Nat) : Exc :=
  ⟨5, qual, accInfo (s.me.strm x).pc ptr k tag⟩

/-- Source of a reported fault (R304 SRC). -/
inductive FaultSrc where
  | instr | fetch | copy (tag : Nat) | collective (tag : Nat)
  deriving DecidableEq, Repr

def FaultSrc.num : FaultSrc → Nat
  | .instr => 0
  | .fetch => 1
  | .copy _ => 2
  | .collective _ => 3

def FaultSrc.tag : FaultSrc → Nat
  | .copy t => t
  | .collective t => t
  | _ => 0

/-- The fault report (R304). -/
def faultReport (c : Ctx) (x : StreamId) (ptr : W64) (k : AccKind) (src : FaultSrc) (f : TFault) : List Byte :=
  leBytes 32 (ptr.toNat * 2 ^ 192 + f.ipa * 2 ^ 144 + c.asid * 2 ^ 128 + c.vmid * 2 ^ 120 + c.coreIdx * 2 ^ 111 +
    c.bank * 2 ^ 110 + x.num * 2 ^ 108 + src.tag * 2 ^ 101 + src.num * 2 ^ 98 + k.num * 2 ^ 96 +
    f.stage * 2 ^ 95 + f.walk.toNat * 2 ^ 94 + f.level * 2 ^ 92 + f.cause * 2 ^ 89)

/-- The fault report with the device whose memory processor gets it after its 32 bytes (R295, R304). -/
def sentReport (c : Ctx) (x : StreamId) (ptr : W64) (k : AccKind) (src : FaultSrc) (f : TFault) : List Byte :=
  faultReport c x ptr k src f ++ leBytes 2 f.dev

/-- Does R303 send the fault to the memory processor: any stage-2 fault, and invalid or malformed entries. -/
def toMemProc (f : TFault) : Bool := f.stage == 1 || decide (f.cause < 2)

/-- The trap of a pointer that cannot be used (R302, R303, R345, R352). -/
def exPtr (s : State) (x : StreamId) (ptr : W64) (k : AccKind) (src : FaultSrc) (e : PErr) : Exc :=
  let tag := match src with
    | .copy t | .collective t => t
    | _ => 0xFF
  match e with
  | .acc q => exAcc s x q ptr k tag
  | .tr f =>
    if toMemProc f then
      ⟨7, if f.cause = 2 then 1 else 0, accInfo (s.me.strm x).pc ptr k tag ++ sentReport s.me x ptr k src f⟩
    else exAcc s x 1 ptr k tag

/-- INFO of an uncorrectable error (R281, R352 class 14): data of a bank is named by the pointer the instruction used (R370). -/
def poisonInfo (m : Mem) (addr : W64) (loc : Nat) (ptr : W64) (tag : Nat) : List Byte :=
  padTo 64 (le64 addr ++ leBytes 8 (if isSram loc then ptr.toNat else locOff loc) ++ [BitVec.ofNat 8 tag, BitVec.ofNat 8 (stageOf m loc)])

/-- The SCR pointer of a place in the context's own banks (R46, R47), for an instruction that names a bank and a row. -/
def ownPtr (s : State) (loc : Nat) : W64 :=
  BitVec.ofNat 64 (2 ^ 60 + 0x1FF * 2 ^ 51 + (locOff loc - locOff (bankLoc s.rank s.me 0 0)))

/-- An uncorrectable error that an instruction of a stream meets in what it reads for itself (R282; log 111). -/
def exPoison (s : State) (x : StreamId) (loc : Nat) (ptr : W64) (tag : Nat) : Exc := ⟨14, 0, poisonInfo s.mem (s.me.strm x).pc loc ptr tag⟩

/-- As a trap request on a stream. -/
def Exc.on (e : Exc) (x : StreamId) : TrapReq := ⟨e.cls, x, e.qual, e.info⟩

end Sys2Proof.Machine
end

