-- ==== Sys2Proof/Machine/Image.lean ====
section
/-!
DEFINITION. The bytes of a trap frame and of an archive, where the spec lays them out: the registers, the header, the MACs (R353, R361 to R363).
-/
namespace Sys2Proof.Config

/-- FREE VALUE (log 12): a byte, by archive offset, of the areas whose inner layout the spec does not give, in the image of a context: v, CSRs, counts, loop stacks, handles, tags, patterns, latches, barriers, the gaps between areas (R361). -/
opaque archiveByte : (off : Nat) → Machine.Ctx → Byte
/-- FREE VALUE (log 12): a byte, by granule and offset, of an operand slot or an accumulator front in its granule (R361). -/
opaque granuleByte : (gran off : Nat) → Machine.Ctx → Byte

end Sys2Proof.Config

namespace Sys2Proof.Machine

/-! ## The context's registers (R353 step 3, R361) -/

/-- LF: lane j at bits 6j + 5 to 6j. -/
def lfBytes (c : Ctx) : List Byte :=
  leBytes 96 ((List.range 128).foldl (fun n j => n + (c.lf.getD j 0#6).toNat * 2 ^ (6 * j)) 0)

/-- A bank's format register (R31). -/
def bfNumber (c : Ctx) (b : Fin 48) : Nat := (c.bf[b]).code + (if c.arm.any (·.bank == b.val) then 16 else 0)

/-- The accession vector (R361). -/
def accvBytes (c : Ctx) : List Byte := leBytes 6 c.strC.acc ++ leBytes 6 c.strA.acc ++ leBytes 6 c.strM.acc ++ leBytes 6 c.strS.acc

/-- The record of an abandoned array command (R365; log 90): its words, then CIX at bits 31:0, KDEP at 39:32, wrapped at 40, and from 41 on the commands its lease term had accepted before it plus 1, or 0 without a term. -/
def abandonedRecord (a : ACmd) : List Byte :=
  let ws := encode 0#4 a.instr
  leBytes 4 (ws.headD 0#32).toNat ++ leBytes 4 (ws.getD 1 0#32).toNat ++
    leBytes 8 (a.cix % 2 ^ 32 + a.kdep % 2 ^ 8 * 2 ^ 32 + a.wrapped.toNat * 2 ^ 40 + (match a.lease with
      | some l => (l.2 + 1) % 2 ^ 23
      | none => 0) * 2 ^ 41)

/-- The parts of the image whose bytes the spec gives, by rising archive offset (R361). -/
def imageParts (c : Ctx) : List (Nat × List Byte) :=
  [(0x1000, c.s.toList.flatMap le64),
   (0x1100, c.f.toList.flatMap fun w => leBytes 4 w.toNat),
   (0x1140, c.g.toList.flatMap le64),
   (0x11C0, c.l.toList.flatMap le64),
   (0x1A00, lfBytes c),
   (0x1A60, c.hist.toList.flatMap fun w => leBytes 4 w.toNat),
   (0x1B00, (List.finRange 48).flatMap fun b => leBytes 4 (bfNumber c b))] ++
  ((List.finRange 8).map fun q => (0x1C00 + 64 * q.val, (c.qs[q]).ents.flatMap fun e => le64 e.val)) ++
  [(0x1E10, le64 c.strC.pc ++ le64 c.strA.pc ++ le64 c.strM.pc ++ le64 c.strS.pc),
   (0x1E30, accvBytes c),
   (0x4000, c.abandoned.flatMap abandonedRecord)]

/-- Lay parts out from an offset to an end; the bytes between them are free values. -/
def layOut (fill : Nat → Byte) (stop : Nat) : (o : Nat) → List (Nat × List Byte) → List Byte
  | o, [] => (List.range (stop - o)).map fun k => fill (o + k)
  | o, (p, bs) :: r => (List.range (p - o)).map (fun k => fill (o + k)) ++ bs ++ layOut fill stop (p + bs.length) r

/-- Archive offsets 0x1000 to 0x4FFF of a context, which are its trap frame too (R353, R361). -/
def ctxImage (c : Ctx) : List Byte := layOut (fun o => Config.archiveByte o c) 0x5000 0x1000 (imageParts c)

/-! ## The header (R362) -/

/-- Blocks of an archive (R361). -/
def archiveBlocks (g : Nat) : Nat := 16 + 16 * g

/-- The number the header's first 64 bytes hold (R362). -/
def headerNumber (c : Ctx) (seq stop : Nat) : Nat :=
  0x4C415243 * 2 ^ 480 + seq % 2 ^ 64 * 2 ^ 416 + c.nodeDie % 4 * 2 ^ 414 + c.nodeIdx % 2 ^ 14 * 2 ^ 400 + c.vrank.toNat * 2 ^ 368 +
  c.timed.toNat * 2 ^ 367 + c.frame.isSome.toNat * 2 ^ 366 + c.abandoned.length % 32 * 2 ^ 361 + stop % 8 * 2 ^ 358 +
  c.part.toNat * 2 ^ 288 + archiveBlocks c.gcount * 2 ^ 256

/-- Bytes 0 to 4,079 of block 0 (R362). -/
def headerBlock (c : Ctx) (seq stop : Nat) : List Byte := padTo 4080 (leBytes 64 (headerNumber c seq stop))

/-! ## Blocks of 4 KiB (R361, R363) -/

/-- Bytes of a list of cells from x on, all of them at x or above it and rising. -/
def spanBytes : (n x : Nat) → List Host.Cell → List Byte
  | 0, _, _ => []
  | n + 1, x, [] => 0#8 :: spanBytes n (x + 1) []
  | n + 1, x, (a, b) :: r => if a = x then b :: spanBytes n (x + 1) r else 0#8 :: spanBytes n (x + 1) ((a, b) :: r)

/-- A block of memory. -/
def readBlock (m : Mem) (x : Nat) : List Byte :=
  spanBytes 4096 x (m.base.filter fun e => decide (x ≤ e.1) && decide (e.1 < x + 4096))

/-- Cells of bytes from x on, without those that read as an unlisted one. -/
def cellsFrom : (x : Nat) → List Byte → List Host.Cell
  | _, [] => []
  | x, b :: r => if b = 0#8 then cellsFrom (x + 1) r else (x, b) :: cellsFrom (x + 1) r

/-- Replace the cells of a range of n bytes. -/
def replaceRange (x n : Nat) (cs l : List Host.Cell) : List Host.Cell :=
  (l.filter fun e => decide (e.1 < x)) ++ cs ++ l.filter fun e => decide (x + n ≤ e.1)

/-- A block is written whole: its bytes are replaced and its poison is cleared (R282). -/
def writeBlock (m : Mem) (x : Nat) (bs : List Byte) : Mem :=
  { m with
    base := replaceRange x bs.length (cellsFrom x bs) m.base
    poison := m.poison.filter fun u => !coversUnit x bs.length u }

/-- First granule number of a context's banks (R30). -/
def bankGranule (c : Ctx) : Nat := 1 + c.nops + 2 * c.nacc

/-- Block `b` of granule number `g` of a context's range: the trap frame, a slot or a front, zeros for a back half, or a bank as memory holds it (R30, R361). -/
def granuleBlock (m : Mem) (rank : Nat) (c : Ctx) (g b : Nat) : List Byte :=
  let part (fill : Nat → Byte) : List Byte := (List.range 4096).map fun o => fill (4096 * b + o)
  if g = 0 then
    let l := (c.frameImg.drop (4096 * b - 4096)).take (if b = 0 then 0 else 4096)
    l ++ List.replicate (4096 - l.length) 0#8
  else if g ≤ c.nops then part fun o => Config.granuleByte g o c
  else if g < bankGranule c then
    if (g - 1 - c.nops) % 2 = 1 then List.replicate 4096 0#8 else part fun o => Config.granuleByte g o c
  else readBlock m (locSram rank c.coreIdx (c.gbase + g) (4096 * b))

/-- Block i of the archive of a context as the save writes it, without its header and MAC table; `img` is its image, block 9, the record page, is in memory already (R350, R361). -/
def plainBlock (m : Mem) (rank : Nat) (c : Ctx) (img : List Byte) (addr i : Nat) : List Byte :=
  if i < 5 then (img.drop (4096 * (i - 1))).take 4096
  else if i < 9 then (List.range 4096).map fun o => Config.archiveByte (4096 * i + o) c
  else if i = 9 then readBlock m (locPa rank (addr + 0x9000))
  else if i < 16 then List.replicate 4096 0#8
  else granuleBlock m rank c ((i - 16) / 16) ((i - 16) % 16)

/-- The MAC of a block: over its bytes, its offset and SEQ (R363). -/
def blockMac (boot seq i : Nat) (bs : List Byte) : List Byte :=
  leBytes 16 (Config.bootMac boot (bs ++ leBytes 8 (4096 * i) ++ leBytes 8 seq)).toNat

/-- Does a block belong to the MAC table? -/
def inTable (i : Nat) : Bool := decide (10 ≤ i) && decide (i < 14)

/-- A block as its MAC covers it: the entries of the table's own blocks count as zeros (log 12). -/
def macCover (i : Nat) (bs : List Byte) : List Byte :=
  if i = 10 then bs.take 160 ++ List.replicate 64 0#8 ++ bs.drop 224 else bs

/-- Block `k` of a table of entries, 256 a block. -/
def tableBlock (entries : List (List Byte)) (k : Nat) : List Byte :=
  let l := ((entries.drop (256 * k)).take 256).flatten
  l ++ List.replicate (4096 - l.length) 0#8

/-- The MAC table's entries: none for block 0, whose MAC stands in it (R361, R363). -/
def tableEntries (boot seq : Nat) (blocks : List (List Byte)) : List (List Byte) :=
  let t0 := blocks.zipIdx.map fun (bs, i) => if i = 0 || inTable i then List.replicate 16 0#8 else blockMac boot seq i bs
  t0.zipIdx.map fun (e, i) => if inTable i then blockMac boot seq i (tableBlock t0 (i - 10)) else e

/-- The blocks of an archive in order (R361 to R363). -/
def archiveImage (m : Mem) (rank boot : Nat) (c : Ctx) (addr seq stop : Nat) : List (List Byte) :=
  let img := ctxImage c
  let head := headerBlock c seq stop
  let bs := (head ++ blockMac boot seq 0 head) :: (List.range (archiveBlocks c.gcount - 1)).map fun k => plainBlock m rank c img addr (k + 1)
  let t := tableEntries boot seq bs
  bs.zipIdx.map fun (b, i) => if inTable i then tableBlock t (i - 10) else b

/-- Copy the cells of n bytes at x to y; the poison there travels with them (R282). -/
def copyPoison (x y n : Nat) (m : Mem) : Mem :=
  { m with poison := m.poison ++ (m.poison.filter fun u => decide (x / 8 ≤ u) && decide (u < (x + n) / 8)).map fun u => u - x / 8 + y / 8 }

/-- Write an archive; the record page stays as it is (R350, R361), and the poison of the banks travels with their bytes (R282). -/
def writeArchive (m : Mem) (rank : Nat) (c : Ctx) (addr : Nat) (blocks : List (List Byte)) : Mem :=
  let g := bankGranule c
  copyPoison (locSram rank c.coreIdx (c.gbase + g) 0) (locPa rank (addr + 0x10000 + 65536 * g)) (65536 * (c.gcount - g))
    (blocks.zipIdx.foldl (fun (n : Mem) (b, i) => if i = 9 then n else writeBlock n (locPa rank (addr + 4096 * i)) b) m)

/-- The banks of an archived context come back, into the granules of a range that starts at granule `gb` of a core (R361). -/
def readArchive (m : Mem) (rank : Nat) (c : Ctx) (addr core gb : Nat) : Mem :=
  let a := locPa rank (addr + 0x10000)
  let x := locSram rank core gb 0
  let n := 65536 * c.gcount
  let cs := (m.base.filter fun e => decide (a + 65536 * bankGranule c ≤ e.1) && decide (e.1 < a + n)).map fun e => (e.1 - a + x, e.2)
  { m with base := replaceRange x n cs m.base, poison := m.poison.filter fun u => !coversUnit x n u }

/-- The blocks of an archive in memory that do not verify: an uncorrectable error, a MAC that does not match, or, in the header, a SEQ other than the one recorded (R364). -/
def badBlocks (m : Mem) (rank boot addr seq n : Nat) : List Nat :=
  let x := locPa rank addr
  (List.range n).filter fun i =>
    let bs := readBlock m (x + 4096 * i)
    poisonedRange m (x + 4096 * i) 4096 ||
    (if i = 0 then decide (leNat ((bs.drop 52).take 8) ≠ seq) || bs.drop 4080 != blockMac boot seq 0 (bs.take 4080)
     else readBases m (x + 0xA000 + 16 * i) 16 != blockMac boot seq i (macCover i bs))

end Sys2Proof.Machine
end

