-- ==== Sys2Proof/Machine/Patch.lean ====
section
/-!
DEFINITION. Patch slots of the errata fabric: their fields, matching and the winner (R373 to R377).
-/
namespace Sys2Proof.Config

/-- FREE VALUE (log 10): the registers a micro-routine leaves, given an image's micro-routine area, the routine's offset and the issuing stream; only the registers of that stream are taken from it (R376). -/
opaque emulateRegs : (area : List Byte) → (entry : Nat) → StreamId → Machine.Ctx → Machine.Ctx
/-- FREE VALUE (log 10): the class of the precise trap that routine raises, if it raises one (R376). -/
opaque emulateTrap : (area : List Byte) → (entry : Nat) → StreamId → Machine.Ctx → Option Nat
/-- FREE VALUE (log 10): how many entries that routine pops from a queue (R85, R376). -/
opaque emulatePops : (area : List Byte) → (entry : Nat) → StreamId → Machine.Ctx → QNo → Nat
/-- FREE VALUE (log 10): what that routine pushes to a queue (R85, R376). -/
opaque emulatePushes : (area : List Byte) → (entry : Nat) → StreamId → Machine.Ctx → QNo → List W64

end Sys2Proof.Config

namespace Sys2Proof.Machine

/-- A field of a 32-byte slot descriptor (R373). -/
def slotField (d : List Byte) (hi lo : Nat) : Nat := natBits (leNat d) hi lo

def slotAction (d : List Byte) : Nat := slotField d 59 57
def slotAdmit (d : List Byte) : Bool := slotField d 56 56 == 1
def slotPrio (d : List Byte) : Nat := slotField d 55 53
def slotKind (d : List Byte) : Nat := slotField d 52 52
def slotLen (d : List Byte) : Nat := slotField d 51 51 + 1
def slotNsub (d : List Byte) : Nat := slotField d 50 49 + 1
def slotRdest (d : List Byte) : Nat := slotField d 48 48
def slotTclass (d : List Byte) : Nat := slotField d 47 42
def slotCyc (d : List Byte) : Nat := slotField d 41 34
def slotVoff (d : List Byte) : Nat := slotField d 33 24
def slotUentry (d : List Byte) : Nat := slotField d 23 0
def slotMval (d : List Byte) : Nat := slotField d 127 96
def slotMmask (d : List Byte) : Nat := slotField d 95 64
def slotSmask (d : List Byte) (x : StreamId) : Bool := slotField d (60 + x.num) (60 + x.num) == 1
/-- Substitute word k (R373). -/
def slotSub (d : List Byte) (k : Nat) : Nat := slotField d (159 + 32 * k) (128 + 32 * k)

/-- Does an encoding slot match a word of a stream (R374). -/
def slotMatches (x : StreamId) (w : Nat) (d : List Byte) : Bool :=
  slotKind d == 0 && slotAction d != 0 && slotSmask d x && (w &&& slotMmask d) == slotMval d

/-- Does a trap-class slot match (R377). -/
def slotTrapMatches (x : StreamId) (cls : Nat) (d : List Byte) : Bool :=
  slotKind d == 1 && slotAction d == 5 && slotTclass d == cls && slotSmask d x

/-- The matching slot of the highest PRIO, the lowest-numbered among equals (R374). -/
def winOf (f : List Byte → Bool) (slots : List (List Byte)) : Option (List Byte) :=
  slots.foldl (fun best d =>
    if f d then match best with
      | none => some d
      | some b => if slotPrio b < slotPrio d then some d else some b
    else best) none

/-- The patch set of a context's epoch (R380, R381). -/
def State.patchSet (s : State) (epoch : Nat) : PatchSet :=
  (s.patches.find? (·.epoch == epoch)).getD ⟨epoch, [], []⟩

def win (s : State) (c : Ctx) (x : StreamId) (w : Nat) : Option (List Byte) :=
  winOf (slotMatches x w) (s.patchSet c.patchEpoch.toNat).slots

def winTrap (s : State) (c : Ctx) (x : StreamId) (cls : Nat) : Option (List Byte) :=
  winOf (slotTrapMatches x cls) (s.patchSet c.patchEpoch.toNat).slots

end Sys2Proof.Machine
end

