-- ==== Sys2Proof/Machine/Payload.lean ====
section
/-!
DEFINITION. The payloads of collectives on the links: exponent compression of FP32 data (R393). The bits of each part go highest first (log 87).
-/
namespace Sys2Proof.Machine

/-! ## Bits, from bit 7 of the first byte on -/

/-- The n bits of a number, highest first. -/
def msbBits (n x : Nat) : List Bool := (List.range n).map fun i => x.testBit (n - 1 - i)

/-- The number some bits are, highest first. -/
def msbNat (l : List Bool) : Nat := l.foldl (fun a b => 2 * a + b.toNat) 0

/-- The bits of some bytes, from bit 7 of the first on. -/
def bytesBits (bs : List Byte) : List Bool := bs.flatMap fun b => msbBits 8 b.toNat

/-- Bytes that hold some bits; what the last one has left is zero. -/
def bitsBytes (l : List Bool) : List Byte :=
  (List.range ((l.length + 7) / 8)).map fun i => BitVec.ofNat 8 (msbNat ((List.range 8).map fun k => l.getD (8 * i + k) false))

/-! ## A group (R393) -/

/-- The exponent field of an element. -/
def expField (w : W32) : Nat := natBits w.toNat 30 23

/-- The largest exponent field of a group. -/
def groupEmax (ws : List W32) : Nat := ws.foldl (fun m w => max m (expField w)) 0

/-- The least width that holds the largest delta. -/
def groupWidth (ws : List W32) : Nat :=
  let d := ws.foldl (fun m w => max m (groupEmax ws - expField w)) 0
  if d = 0 then 0 else d.log2 + 1

/-- Is the group sent unchanged? -/
def groupRaw (ws : List W32) : Bool := decide (1 + 32 * ws.length ≤ 13 + ws.length * (24 + groupWidth ws))

/-- The bits of a group. -/
def groupBits (ws : List W32) : List Bool :=
  if groupRaw ws then true :: ws.flatMap fun w => msbBits 32 w.toNat
  else
    let e := groupEmax ws
    let n := groupWidth ws
    false :: msbBits 8 e ++ msbBits 4 n ++
      ws.flatMap fun w => msbBits 1 (w.toNat / 2 ^ 31) ++ msbBits n (e - expField w) ++ msbBits 23 (w.toNat % 2 ^ 23)

/-- One element of a compressed group, from its 1 + n + 23 bits. -/
def rebuild (e n : Nat) (l : List Bool) : W32 :=
  BitVec.ofNat 32 (msbNat (l.take 1) * 2 ^ 31 + (e - msbNat ((l.drop 1).take n)) * 2 ^ 23 + msbNat ((l.drop (1 + n)).take 23))

/-- The elements of a group of k at the start of some bytes, and how many bytes it takes. -/
def readGroup (k : Nat) (bs : List Byte) : List W32 × Nat :=
  let l := bytesBits (bs.take 129)
  if l.headD true then ((List.range k).map fun i => BitVec.ofNat 32 (msbNat ((l.drop (1 + 32 * i)).take 32)), (8 + 32 * k) / 8)
  else
    let e := msbNat ((l.drop 1).take 8)
    let n := msbNat ((l.drop 9).take 4)
    ((List.range k).map fun i => rebuild e n ((l.drop (13 + (24 + n) * i)).take (24 + n)), (20 + k * (24 + n)) / 8)

/-! ## A payload (R393) -/

/-- The bytes FP32 elements are sent as, in groups of 32; `fuel` bounds the groups. -/
def packFp32 : (fuel : Nat) → List W32 → List Byte
  | 0, _ => []
  | n + 1, ws => if ws.isEmpty then [] else bitsBytes (groupBits (ws.take 32)) ++ packFp32 n (ws.drop 32)

/-- The FP32 elements some bytes rebuild. -/
def unpackFp32 : (fuel k : Nat) → List Byte → List W32
  | 0, _, _ => []
  | n + 1, k, bs =>
    if k = 0 then []
    else let r := readGroup (min k 32) bs; r.1 ++ unpackFp32 n (k - 32) (bs.drop r.2)

/-- Elements of e bytes of a buffer. -/
def wordsOf (e : Nat) (bs : List Byte) (n : Nat) : List W32 :=
  (List.range n).map fun j => BitVec.ofNat 32 (leNat ((bs.drop (j * e)).take e))

/-- The payload a buffer is sent as: FP32 under exponent compression, the rest unchanged. -/
def packPayload (f : Fmt) (e : Nat) (ws : List W32) : List Byte :=
  if f = .fp32 then packFp32 ws.length ws else ws.flatMap fun w => leBytes e w.toNat

/-- The elements a payload of n of them rebuilds. -/
def unpackPayload (f : Fmt) (e n : Nat) (bs : List Byte) : List W32 := if f = .fp32 then unpackFp32 n n bs else wordsOf e bs n

end Sys2Proof.Machine
end

