-- ==== Sys2Proof/Machine/Diff.lean ====
section
/-!
DEFINITION. Writes of the streams to memory, the tape and the adjoint cells (spec 15, R307 to R317; R121, R173, R176, R257).
-/
namespace Sys2Proof.Machine

/-- The stream a source belongs to. -/
def PrivSrc.stream : PrivSrc → StreamId
  | .cs => .c
  | .cmd _ _ => .a
  | .row _ => .s

/-- A private entry of the issuing context for bytes at a location: what a write of a stream or of a command adds (R257). -/
def mkPriv (s : State) (src : PrivSrc) (kind : PrivKind) (cells : List PCell) (seen : List Nat) (ptr : W64) : Priv :=
  { src := src, kind := kind, cells := cells, seen := seen, waited := none, waitedAt := s.now, parked := none,
    ptr := ptr, addr := (s.me.strm src.stream).pc, pos := s.me.strC.acc + 1,
    ipos := (match src with
      | .cs | .row _ => s.seqs
      | .cmd id _ => id)
    diff := (match kind with
      | .acc _ => true
      | .plain | .atom _ _ _ => false)
    tape := none }

/-- Cut a byte list at a location into its 512-byte blocks (R264): (location, bytes). -/
def cutBlocks : (fuel : Nat) → (x : Nat) → List Byte → List (Nat × List Byte)
  | 0, _, _ => []
  | fuel + 1, x, bs =>
    if bs.isEmpty then []
    else
      let n := 512 - x % 512
      (x, bs.take n) :: cutBlocks fuel (x + n) (bs.drop n)

/-- Put bytes a command writes that lie in a row of the context's own open shadow there, but those a later-issued command has written there (R165, R241); answer the bytes that stay plain (R176). -/
def toShadow (c : Ctx) (ipos : Nat) (cells : List PCell) : Ctx × List PCell :=
  let inRow (h : Shadow) (x : PCell) : Bool := extHit h.ext x.loc 1
  ({ c with shadows := c.shadows.map fun h =>
      let mine := cells.filter fun x => inRow h x && !h.wrote.any fun w => w.1 == x.loc && decide (ipos < w.2)
      { h with
        cells := h.cells.filter (fun y => !mine.any (·.loc == y.loc)) ++ mine
        wrote := h.wrote.filter (fun w => !mine.any (·.loc == w.1)) ++ mine.map fun x => (x.loc, ipos) } },
   cells.filter fun x => !c.shadows.any fun h => inRow h x)

/-- Bits of byte i of the record page that a store replaces: SSTATUS, REPLAY, the SPC fields and the scratch bytes; a write to the read-only and reserved fields is ignored (R7, R8, R350, R351). -/
def recMask (i : Nat) : Byte := if i = 8 then 7#8 else if (96 ≤ i ∧ i < 128) ∨ 256 ≤ i then 0xFF#8 else 0#8

/-- A store into the own record page, at its home (R350). -/
def recStore (s : State) (x : Nat) (bs : List Byte) : State :=
  let base := locPa s.rank s.me.recPage
  { s with mem := (bs.zipIdx x).foldl (fun m (b, y) =>
      let k := recMask (y - base)
      writeBases m y [(readBase m y &&& ~~~k) ||| (b &&& k)]) s.mem }

/-- A placed write of a command: the bytes that lie in a row of the context's own open shadow go there (R176). -/
def settleShadow (p : Priv) (s : State) : State :=
  if p.src = .cs ∨ p.kind ≠ .plain then s
  else
    let c := { s.me with priv := s.me.priv.filter (· != p) }
    let r := toShadow c p.ipos p.cells
    s.withMe (if r.2.length = p.cells.length then s.me else if r.2.isEmpty then r.1 else addPriv { p with cells := r.2 } r.1)

/-- Settle the entry that a write has just left, if it has been placed (R176). -/
def settleLast (p : Priv) (s : State) : State :=
  match s.me.priv.getLast? with
  | none => s
  | some q => if q.parked.isNone && q.src == p.src && q.ipos == p.ipos && q.cells.all p.cells.contains then settleShadow q s else s

/-- A write of a private entry that settles in a shadow when it is placed at once (R176, R266, R267). -/
def placeWrite (comp : Bool) (p : Priv) (s : State) : State := settleLast p (placePriv comp p s)

/-! ## Bank bytes (R165, R236, R249) -/

/-- Bytes written into a bank: its context's own streams meet them at once (R166, R191, R236); other contexts see them once a boundary publishes them (R128, R240). -/
def bankPut (src : PrivSrc) (seen : List Nat) (ptr : W64) (x : Nat) (bs : List Byte) (s : State) : State :=
  { s with
    mem := writeBases s.mem x bs
    me := addPriv (mkPriv s src .plain (newCells s s.me (locSeen x) bs) seen ptr) s.me }

/-- Bytes the packet engine writes into a bank (R185, R250): no write of a context, they stand there for every reader. -/
def bankLand (x : Nat) (bs : List Byte) (s : State) : State :=
  { s with mem := writeBases (writeBases s.mem x bs) (locSeen x) bs }

/-- The granules of a range take a new context: what other contexts see of them is what they hold (R238). -/
def settleSeen (x0 n : Nat) (s : State) : State :=
  let inR (y : Nat) : Bool := isSeen y && decide (x0 ≤ bankOf y) && decide (bankOf y < x0 + n)
  let held := s.mem.base.filter fun c => decide (x0 ≤ c.1) && decide (c.1 < x0 + n)
  let clean (c : Ctx) : Ctx := { c with
    view := c.view.filter fun e => !inR e.cell.loc
    priv := (c.priv.map fun p => { p with cells := p.cells.filter fun x => !inR x.loc }).filter fun p => !p.cells.isEmpty }
  { s.mapCtxs clean with mem := { s.mem with
      base := held.foldl (fun l c => putCell (locSeen c.1) c.2 l) (s.mem.base.foldl (fun l c => if inR c.1 then putCell c.1 0#8 l else l) s.mem.base)
      poison := (s.mem.poison.filter fun u => !inR (8 * u)) ++
        (s.mem.poison.filter fun u => decide (x0 ≤ 8 * u) && decide (8 * u < x0 + n)).map fun u => locSeen (8 * u) / 8
      vers := s.mem.vers.map fun v => { v with cells := v.cells.filter fun x => !inR x.loc }
      baseVer := s.mem.baseVer.filter fun e => !inR e.1
      atoms := s.mem.atoms.filter fun e => !inR e.1 } }

def State.cmd? (s : State) (id : Nat) : Option Cmd := s.me.cmds.find? (·.id == id)

/-- Is a byte left to a later-issued command that wrote it first (R165)? -/
def skips (c : Cmd) (x : Nat) : Bool := c.skip.any fun r => decide (r.1 ≤ x) && decide (x < r.1 + r.2)

/-- A command writes bank bytes: those a later-issued command wrote first keep their value, and earlier-issued commands leave these (R165). -/
def cmdPut (c : Cmd) (x : Nat) (bs : List Byte) (s : State) : State :=
  let put := bankPut (.cmd c.id c.tag) c.seen c.ptr
  let s1 := if c.skip.isEmpty then put x bs s
    else (bs.zipIdx x).foldl (fun s (b, y) => if skips c y then s else put y [b] s) s
  s1.mapMe fun m => { m with cmds := m.cmds.map fun d => if d.id < c.id then { d with skip := (x, bs.length) :: d.skip } else d }

/-- Write bank bytes for a source: a command leaves those of later-issued commands (R165). -/
def bankWrite (src : PrivSrc) (seen : List Nat) (ptr : W64) (x : Nat) (bs : List Byte) (s : State) : State :=
  match src with
  | .cmd id _ => match s.cmd? id with
    | some c => cmdPut c x bs s
    | none => bankPut src seen ptr x bs s
  | .cs | .row _ => bankPut src seen ptr x bs s

/-- Is a place one of the context's own banks, which its streams reach directly (R236)? -/
def ownBank (s : State) (c : Ctx) (x : Nat) : Bool :=
  isSram x && decide (bankLoc s.rank c 0 0 ≤ x) && decide (x < bankLoc s.rank c c.nbank 0)

/-- Write bytes to one place for a stream (R120, R166, R176, R236): a bank takes them, the own record page at its home, memory as a private entry, a command's block by block, which park one by one (R269); `seen` is what the writer knows. -/
def writeAt (src : PrivSrc) (seen : List Nat) (ptr : W64) (t : Trans) (bs : List Byte) (s : State) : State :=
  if isSram t.loc then bankWrite src seen ptr t.loc bs s
  else if inRecPage s s.me t.loc then recStore s t.loc bs
  else
    (if src = .cs then [(t.loc, bs)] else cutBlocks (bs.length + 1) t.loc bs).foldl (fun s (x, part) =>
      placeWrite t.comp (mkPriv s src .plain (newCells s s.me x part) seen ptr) s) s

/-- Write bytes over the pieces of an access. -/
def writeSegs (src : PrivSrc) (seen : List Nat) (ptr : W64) : List Seg → List Byte → State → State
  | [], _, s => s
  | g :: gs, bs, s => writeSegs src seen ptr gs (bs.drop g.len) (writeAt src seen ptr g.tr (bs.take g.len) s)

/-- Bytes at a place: own banks and the own record page directly, another context's bank and memory through the view (R236, R239, R350). -/
def readPlace (s : State) (vis : List Priv) (x n : Nat) : List PCell :=
  if ownBank s s.me x || inRecPage s s.me x then (List.range n).map fun i => baseCell s.mem (x + i)
  else (readRange s s.me vis (locSeen x) n).map fun y => { y with loc := bankOf y.loc }

/-- Read the pieces of an access. -/
def readSegs (s : State) (vis : List Priv) (ss : List Seg) : List PCell := ss.flatMap fun g => readPlace s vis g.tr.loc g.len

/-- The blocks of compressible pages with their last access now (R268). -/
def touchBlocks (s : State) (ss : List Seg) : List Block :=
  ((ss.filter (·.tr.comp)).flatMap fun g => (List.range ((g.tr.loc + g.len + 511) / 512 - g.tr.loc / 512)).map (g.tr.loc / 512 + ·)).foldl
    (fun bs b => ({ s.blockOf b with lastUse := s.cycle } : Block) :: bs.filter (·.loc != b)) s.blocks

/-- A read reaches its blocks (R268). -/
def State.touch (s : State) (ss : List Seg) : State := { s with blocks := touchBlocks s ss }

/-- A read of n bytes at a pointer reaches its blocks (R268). -/
def touchAt (p : W64) (n : Nat) (s : State) : State :=
  match s.access s.me .read p n with
  | .error _ => s
  | .ok ss => s.touch ss

/-! ## Bank words ordered before a read (R128, R166, R191) -/

/-- Is a word access of the C stream ordered before an instruction that knows `o` and issues in a cycle (R128)? -/
def WordReq.before (timed : Bool) (now : Nat) (o : Ord) (w : WordReq) : Bool := if timed then decide (w.made < now) else decide (w.pos ≤ o.c)

/-- Memory with a word access performed. -/
def landWord (s : State) (m : Mem) (w : WordReq) : Mem :=
  match w.op with
  | .ld _ _ _ _ => m
  | .st bs => writeBases m w.loc bs
  | .rmw _ r => (performAtomic r { s with mem := m }).2.2.2.mem

/-- What a read meets that sees every word access ordered before it (R191), though the bank performs some of them later. -/
def State.withWords (s : State) (now : Nat) (o : Ord) : State :=
  { s with mem := (s.me.words.filter (·.before s.me.timed now o)).foldl (landWord s) s.mem }

/-- The same for the next instruction of a stream (R191, R224). -/
def State.orderedFor (s : State) (x : StreamId) : State := s.withWords s.now (s.me.strm x).ord

/-- The same for a command that reads its banks after its issue (R166). -/
def State.orderedCmd (s : State) (c : Cmd) : State := s.withWords c.issued c.ord

def cellsNat (cs : List PCell) : Nat := leNat (cs.map (·.byte))
def cellsPoison (cs : List PCell) : Bool := cs.any (·.poison)
/-- The first poisoned byte of a read. -/
def firstPoison (cs : List PCell) : Nat := ((cs.find? (·.poison)).map (·.loc)).getD 0

/-! ## Adjoint cells (R307, R314) -/

/-- The ADJ pointer of a GLB pointer: the same bits 59:0 (R307). -/
def adjPtr (p : W64) : W64 := (p &&& 0x0FFFFFFFFFFFFFFF#64) ||| 0x2000000000000000#64

/-- Add an accumulate of one FP32 value to a cell (R314); on a compressible page it reserves the sectors of its block, or parks (R266, R273). -/
def accumulate (src : PrivSrc) (seen : List Nat) (ptr : W64) (comp : Bool) (loc : Nat) (v : W32) (s : State) : State :=
  placePriv comp (mkPriv s src (.acc v) [⟨loc, 0#8, false⟩] seen ptr) s

/-- The value of a cell as a reverse store reads it: every earlier accumulate and clear of the context counts (R313). -/
def cellValue (s : State) (loc : Nat) : W32 := BitVec.ofNat 32 (leNat ((readRange s s.me (visAll s.me) loc 4).map (·.byte)))

/-- Is a cell poisoned as a reverse access reads it (R282)? -/
def cellPoison (s : State) (loc : Nat) : Bool := cellsPoison (readRange s s.me (visAll s.me) loc 4)

/-- Change the entries a source has just written at a pointer, those of position `from0` on. -/
def markPriv (src : PrivSrc) (ptr : W64) (from0 : Nat) (f : Priv → Priv) (s : State) : State :=
  s.mapMe fun c => { c with priv := c.priv.map fun p => if p.src = src ∧ p.ptr = ptr ∧ from0 ≤ p.ipos then f p else p }

/-- Clear a cell: a plain write of +0, which discards the context's earlier accumulates to it (R313, R314). -/
def clearCell (src : PrivSrc) (seen : List Nat) (ptr : W64) (t : Trans) (s : State) : State :=
  markPriv src ptr 0 (fun p => { p with diff := true }) (writeAt src seen ptr t (leBytes 4 0) s)

/-! ## The tape (R309 to R317) -/

/-- Size of a record with n data bytes (R310). -/
def recSize (n : Nat) : Nat := 32 * ((40 + n + 31) / 32)

/-- A record's header bytes (R310). -/
def recHeader (kind st dlen seq : Nat) (lay ptr : W64) : List Byte :=
  leBytes 8 (kind * 2 ^ 60 + st * 2 ^ 58) ++ leBytes 4 dlen ++ leBytes 4 seq ++ le64 lay ++ le64 ptr

/-- A whole record (R310): header, data, zeros, link. -/
def recBytes (kind dlen seq : Nat) (lay ptr : W64) (data : List Byte) : List Byte :=
  let z := recSize dlen
  recHeader kind 0 dlen seq lay ptr ++ padTo (z - 40) data ++ leBytes 8 z

/-- The tape registers satisfy R309. -/
def tapeRegsOk (c : Ctx) : Bool :=
  spaceOf c.tapeBase == .glb && c.tapeBase.toNat % 32 == 0 && c.tapeHead.toNat % 32 == 0 && c.tapeLimit.toNat % 32 == 0 &&
  decide (c.tapeBase.toNat ≤ c.tapeHead.toNat) && decide (c.tapeHead.toNat ≤ c.tapeLimit.toNat) &&
  decide (c.tapeLimit.toNat - c.tapeBase.toNat ≤ 2 ^ 32)

def tapeEmpty (c : Ctx) : Bool := c.tapeHead == c.tapeBase

/-- The cells of the tape at a pointer as the context's own accesses see them (R311); no record page is a tape (R350). -/
def tapeRead (s : State) (p : W64) (n : Nat) : Except PErr (List PCell) :=
  match s.access s.me .read p n with
  | .error e => .error e
  | .ok ss => if recPageHit s true ss then .error (.acc 1) else .ok (readSegs s (visAll s.me) ss)

/-- The top record as its link and header give it (R310, R311). -/
structure TapeTop where
  size : Nat
  header : List Byte
  deriving DecidableEq, Repr

def TapeTop.word (t : TapeTop) (i n : Nat) : Nat := leNat ((t.header.drop i).take n)
def TapeTop.kind (t : TapeTop) : Nat := t.word 0 8 / 2 ^ 60
def TapeTop.state (t : TapeTop) : Nat := t.word 0 8 / 2 ^ 58 % 4
def TapeTop.dlen (t : TapeTop) : Nat := t.word 8 4
def TapeTop.seqNo (t : TapeTop) : Nat := t.word 12 4
def TapeTop.layout (t : TapeTop) : Nat := t.word 16 8
def TapeTop.ptr (t : TapeTop) : Nat := t.word 24 8

/-- The INFO of a tape trap (R352 class 4). -/
def tapeInfo (s : State) (x : StreamId) (hdr : List Byte) : List Byte :=
  padTo 64 (le64 (s.me.strm x).pc ++ le64 s.me.tapeHead ++ padTo 32 hdr)

def exTape (s : State) (x : StreamId) (qual : Nat) (hdr : List Byte) : Exc := ⟨4, qual, tapeInfo s x hdr⟩

/-- Read and check the top record (R311, R316): a malformed link, and for a pop a DLEN that does not fit, is a tape-order trap with qualifier 2. A poisoned link or header is an uncorrectable error of the instruction (R282; log 111). -/
def tapeTop (s : State) (x : StreamId) (pop : Bool) : Except Exc TapeTop :=
  match tapeRead s (s.me.tapeHead - 8#64) 8 with
  | .error e => .error (exPtr s x (s.me.tapeHead - 8#64) .read .instr e)
  | .ok bs =>
    let z := cellsNat bs
    if cellsPoison bs then .error (exPoison s x (firstPoison bs) (s.me.tapeHead - 8#64) 0xFF)
    else if z % 32 ≠ 0 ∨ z < 64 ∨ s.me.tapeHead.toNat - s.me.tapeBase.toNat < z then .error (exTape s x 2 [])
    else match tapeRead s (s.me.tapeHead - BitVec.ofNat 64 z) 32 with
      | .error e => .error (exPtr s x (s.me.tapeHead - BitVec.ofNat 64 z) .read .instr e)
      | .ok hc =>
        let h := hc.map (·.byte)
        if cellsPoison hc then .error (exPoison s x (firstPoison hc) (s.me.tapeHead - BitVec.ofNat 64 z) 0xFF)
        else if pop ∧ recSize (leNat ((h.drop 8).take 4)) ≠ z then .error (exTape s x 2 h) else .ok ⟨z, h⟩

/-- Bytes written into the tape belong to an append or pop (R311); where the data they were copied from is poisoned they are too (R282). -/
def tapeBytes (src : PrivSrc) (at_ : W64) (from0 : Nat) (bad : List Nat) (s : State) : State :=
  markPriv src at_ from0 (fun p => { p with
    tape := some (s.me.strA.acc + 1), cells := p.cells.map fun x => { x with poison := x.poison || bad.contains (unitOf x.loc) } }) s

/-- The 8-byte units of the tape that hold poisoned data of a record written over some pieces (R282, R310). -/
def tapeBad (ss : List Seg) (data : List PCell) : List Nat :=
  ((segLocs ss).drop 32).zip data |>.filterMap fun (x, y) => if y.poison then some (unitOf x) else none

/-- May a timed context not reach n bytes of the tape: a page the stream has not locked, or memory outside the tiers (R122, R167, R299)? -/
def tapeOut (s : State) (x : StreamId) (p : W64) (n : Nat) : Bool :=
  s.me.timed && (timedOut s (if x = .a then s.me.lockedA else s.me.locked) p n || (match s.access s.me .read p n with
    | .error _ => false
    | .ok ss => ss.any fun g => (tierOf s s.me g.tr.loc).isNone))

/-- Append a record (R311, R317): checks of R309, of the top link, then of overflow; then the record's bytes as plain writes of the stream. -/
def tapeAppend (x : StreamId) (src : PrivSrc) (seen : List Nat) (kind dlen : Nat) (lay ptr : W64) (data : List PCell) (s : State) :
    Except Exc State :=
  let c := s.me
  let z := recSize dlen
  if !tapeRegsOk c then .error (exAcc s x 6 c.tapeHead .write 0xFF)
  else if tapeOut s x c.tapeHead z || (!tapeEmpty c && tapeOut s x (c.tapeHead - 8#64) 8) then .error (exIllegal s x)
  else
    let seq : Except Exc Nat :=
      if tapeEmpty c then .ok 0
      else match tapeTop s x false with
        | .error e => .error e
        | .ok t => .ok ((t.seqNo + 1) % 2 ^ 32)
    match seq with
    | .error e => .error e
    | .ok q =>
      if c.tapeLimit.toNat < c.tapeHead.toNat + z then
        .error ⟨3, 0, padTo 64 (le64 (c.strm x).pc ++ le64 c.tapeHead ++ leBytes 8 z)⟩
      else match s.access c .write c.tapeHead z with
        | .error e => .error (exPtr s x c.tapeHead .write .instr e)
        | .ok ss =>
          if recPageHit s true ss then .error (exAcc s x 1 c.tapeHead .write 0xFF)
          else if sealedHit s.mem ss || shadowHit s true ss then .error (exAcc s x 4 c.tapeHead .write 0xFF)
          else if segsDiff ss then .error (exAcc s x 5 c.tapeHead .write 0xFF)
          else
            let s0 := if tapeEmpty c then { s with seqs := s.seqs + 1 } else touchAt (c.tapeHead - 8#64) 8 { s with seqs := s.seqs + 1 }
            let s1 := tapeBytes src c.tapeHead (match src with
              | .cmd _ _ => 0
              | .cs | .row _ => s0.seqs) (tapeBad ss data) (writeSegs src seen c.tapeHead ss (recBytes kind dlen q lay ptr (data.map (·.byte))) s0)
            .ok (s1.mapMe fun c => { c with tapeHead := c.tapeHead + BitVec.ofNat 64 z })

/-- Pop the top record for an access (R311, R316): the record's data, `dlen` bytes (log 108), and the state after the pop. -/
def tapePop (x : StreamId) (kind : Nat) (lay ptr : W64) (dlen : Nat) (s : State) : Except Exc (List PCell × TapeTop × State) :=
  let c := s.me
  if !tapeRegsOk c then .error (exAcc s x 6 c.tapeHead .read 0xFF)
  else if tapeEmpty c then .error (exTape s x 0 [])
  else match tapeTop s x true with
    | .error e => .error e
    | .ok t =>
      let layBad := kind = 2 ∧ t.layout ≠ lay.toNat
      if t.state = 2 ∧ (kind ≠ 2 ∨ t.ptr ≠ ptr.toNat ∨ layBad) then .error (exTape s x 3 t.header)
      else if t.kind ≠ kind ∨ t.ptr ≠ ptr.toNat ∨ layBad then .error (exTape s x 1 t.header)
      else match tapeRead s (c.tapeHead - BitVec.ofNat 64 t.size + 32#64) dlen with
        | .error e => .error (exPtr s x c.tapeHead .read .instr e)
        | .ok d => .ok (d, t, (touchAt (c.tapeHead - BitVec.ofNat 64 t.size) t.size s).mapMe fun c => { c with tapeHead := c.tapeHead - BitVec.ofNat 64 t.size })

/-- Set the STATE of the record whose first byte is at a pointer (R318): a plain write of its first 8 bytes by the stream. -/
def tapeMark (src : PrivSrc) (seen : List Nat) (at_ : W64) (kind st : Nat) (s : State) : State :=
  match s.access s.me .write at_ 8 with
  | .error _ => s
  | .ok ss =>
    let s0 := { s with seqs := s.seqs + 1 }
    tapeBytes src at_ (match src with
      | .cmd _ _ => 0
      | .cs | .row _ => s0.seqs) [] (writeSegs src seen at_ ss (leBytes 8 (kind * 2 ^ 60 + st * 2 ^ 58)) s0)

end Sys2Proof.Machine
end

