-- ==== Sys2Proof/Machine/Seal.lean ====
section
/-!
DEFINITION. Sealed buffers: CRC-32C, the colophon, block headers, and the decoding of a block (R275 to R280).
-/
namespace Sys2Proof.Machine

/-- One bit of the reflected CRC-32C (R275). -/
def crcBit (c : Nat) : Nat := if c % 2 = 1 then c / 2 ^^^ 0x82F63B78 else c / 2

def crcByte (c : Nat) (b : Byte) : Nat := (List.range 8).foldl (fun x _ => crcBit x) (c ^^^ b.toNat)

/-- CRC-32C of a byte list (R275). -/
def crc32c (bs : List Byte) : Nat := bs.foldl crcByte 0xFFFFFFFF ^^^ 0xFFFFFFFF

/-- The colophon as a number: bit n of the structure is bit n mod 8 of byte n div 8 (R275). -/
def colField (bs : List Byte) (hi lo : Nat) : Nat := natBits (leNat bs) hi lo

def colCodec (bs : List Byte) : Nat := colField bs 479 476
def colXpt (bs : List Byte) : Nat := colField bs 475 474
def colBsize (bs : List Byte) : Nat := colField bs 473 469
def colSealed (bs : List Byte) : Bool := colField bs 468 468 == 1
def colDfmt (bs : List Byte) : Nat := colField bs 467 464
def colCksum (bs : List Byte) : Nat := colField bs 463 462
def colCount (bs : List Byte) : Nat := colField bs 431 400
def colLength (bs : List Byte) : Nat := colField bs 399 336

/-- Bytes 4 to 63 with SEALED taken as 0: SEALED is bit 468, bit 4 of byte 58. -/
def colClear (bs : List Byte) : List Byte :=
  (List.range 60).map fun i => if i + 4 = 58 then (bs.getD 58 0#8) &&& 0xEF#8 else bs.getD (i + 4) 0#8

/-- A valid colophon (R276). -/
def colValid (bs : List Byte) : Bool :=
  colField bs 511 480 == 0x4B434C50 && decide (colCksum bs ≤ 1) && decide (9 ≤ colBsize bs) && decide (colBsize bs ≤ 20) &&
  decide (colDfmt bs ≤ 10) && decide (1 ≤ colCount bs) && decide (64 + 16 * colCount bs ≤ colLength bs) &&
  colLength bs % 64 == 0 && colField bs 461 432 == 0 && colField bs 335 32 == 0 && colField bs 31 0 == crc32c (colClear bs)

/-- A block header (R277). -/
structure BlkHdr where
  crc : Nat
  off : Nat
  clen : Nat
  dlen : Nat
  defer : Bool
  reserved : Nat
  deriving DecidableEq, Repr

def blkHdr (bs : List Byte) : BlkHdr :=
  ⟨colField bs 127 96, colField bs 95 64, colField bs 63 40, colField bs 39 16, colField bs 0 0 == 1, colField bs 15 1⟩

/-- The placement conditions of a block: OFFSET and CLEN against LENGTH, DLEN against the block size (R171, R277). -/
def blkPlaced (col : List Byte) (j : Nat) (h : BlkHdr) : Bool :=
  decide (64 + 16 * colCount col ≤ h.off) && decide (h.off + h.clen ≤ colLength col) && h.off % 16 == 0 &&
  (if j + 1 = colCount col then decide (1 ≤ h.dlen) && decide (h.dlen ≤ 2 ^ colBsize col) else h.dlen == 2 ^ colBsize col)

/-- A pair of the prefix code: symbol and length (R278). -/
structure PPair where
  sym : Nat
  len : Nat
  deriving DecidableEq, Repr

def pairsOf : (n : Nat) → List Byte → List PPair
  | 0, _ => []
  | n + 1, bs => ⟨(bs.getD 0 0#8).toNat, (bs.getD 1 0#8).toNat⟩ :: pairsOf n (bs.drop 2)

def rising : List PPair → Bool
  | a :: b :: r => decide (a.sym < b.sym) && rising (b :: r)
  | _ => true

def insertPair (p : PPair) : List PPair → List PPair
  | [] => [p]
  | q :: r => if p.len < q.len ∨ (p.len = q.len ∧ p.sym < q.sym) then p :: q :: r else q :: insertPair p r

/-- Codes in the order of (length, symbol) (R278): symbol, length, code. -/
def assignCodes : List PPair → (code len : Nat) → List (Nat × Nat × Nat)
  | [], _, _ => []
  | p :: r, code, len =>
    let c := code * 2 ^ (p.len - len)
    (p.sym, p.len, c) :: assignCodes r (c + 1) p.len

/-- Bits of a byte list, bit 7 of each byte first (R278). -/
def bitsOf (bs : List Byte) : List Bool := bs.flatMap fun b => (List.range 8).map fun i => b.getLsbD (7 - i)

/-- Read one symbol: lengthen the bit string up to 12 bits until a code matches (R278). -/
def readSym (codes : List (Nat × Nat × Nat)) : (fuel : Nat) → (val len : Nat) → List Bool → Option (Nat × List Bool)
  | 0, _, _, _ => none
  | _ + 1, _, _, [] => none
  | fuel + 1, val, len, b :: bs =>
    let v := val * 2 + b.toNat
    match codes.find? fun c => c.2.1 == len + 1 && c.2.2 == v with
    | some c => some (c.1, bs)
    | none => readSym codes fuel v (len + 1) bs

def readSyms (codes : List (Nat × Nat × Nat)) : (n : Nat) → List Bool → Option (List Byte × List Bool)
  | 0, bs => some ([], bs)
  | n + 1, bs =>
    match readSym codes 12 0 0 bs with
    | none => none
    | some (x, r) => match readSyms codes n r with
      | none => none
      | some (xs, r') => some (BitVec.ofNat 8 x :: xs, r')

/-- Codec 1 (R278): the decoded bytes of a payload, none when it is invalid. -/
def decodePrefix (payload : List Byte) (dlen : Nat) : Option (List Byte) :=
  let p := leNat (payload.take 2)
  let pairs := pairsOf p (payload.drop 2)
  if p < 1 ∨ 256 < p ∨ payload.length < 2 + 2 * p then none
  else if !rising pairs || pairs.any (fun q => decide (q.len < 1) || decide (12 < q.len)) then none
  else if 4096 < (pairs.map fun q => 2 ^ (12 - q.len)).sum then none
  else
    let order := pairs.foldl (fun l q => insertPair q l) []
    let codes := assignCodes order 0 ((order.head?.map (·.len)).getD 1)
    match readSyms codes dlen (bitsOf (payload.drop (2 + 2 * p))) with
    | none => none
    | some (out, rest) => if rest.any id || decide (8 ≤ rest.length) then none else some out

/-- The qualifier of a block whose codec or header is refused (R277). -/
def hdrBad (col : List Byte) (j : Nat) (h : BlkHdr) : Option Nat :=
  if colCount col ≤ j then some 3
  else if 2 ≤ colCodec col then some 2
  else if h.reserved ≠ 0 ∨ !blkPlaced col j h ∨ (colCodec col = 0 ∧ h.clen ≠ h.dlen) ∨ (colXpt col = 3 ∧ h.defer) then some 1
  else none

/-- What an expander finds in a block: its bytes, or the qualifier of a class 9 fault (R277, R280). -/
def decodeBlock (col : List Byte) (j : Nat) (h : BlkHdr) (payload : List Byte) : Except Nat (List Byte) :=
  match hdrBad col j h with
  | some q => .error q
  | none =>
    match (if colCodec col = 0 then some payload else decodePrefix payload h.dlen) with
    | none => .error 1
    | some out => if colCksum col = 1 ∧ crc32c out ≠ h.crc then .error 0 else .ok out

/-- Expansion point of a block (R275, R277): there is none after 3. -/
def blkPoint (col : List Byte) (h : BlkHdr) : Nat := min 3 (colXpt col + h.defer.toNat)

/-! ## The expander of a command (R279) -/

/-- Cycles an expander works on a block of n decoded bytes (R279). -/
def expWork (codec n : Nat) : Nat := (n + (if codec = 1 then 31 else 63)) / (if codec = 1 then 32 else 64)

/-- A block's way through the 4-block FIFO of its expander: the cycles it enters in and is passed on in. -/
structure Pass where
  enters : Nat
  leaves : Nat
  deriving DecidableEq, Repr

/-- The next block, that arrives in a cycle and is worked on for w cycles, after those before it, latest first: it enters when its arrival has come and an entry is free, and is worked on when the one before it has been passed on (R279). -/
def nextPass (before : List Pass) (arrives w : Nat) : Pass :=
  let enters := max arrives ((before[3]?).map (·.leaves) |>.getD 0)
  ⟨enters, max enters ((before.head?).map (·.leaves) |>.getD 0) + w⟩

/-- The blocks of a command, latest first, by the cycles between their arrivals and their work. -/
def passes : List (Nat × Nat) → List Pass
  | [] => []
  | (gap, w) :: r =>
    let ps := passes r
    nextPass ps (((ps.head?).map (·.enters) |>.getD 0) + gap) w :: ps

/-- Cycles in which the FIFO is full with the latest block as its fourth (R171, R279). -/
def fullCycles (ps : List Pass) : Nat :=
  match ps.head?, ps[3]? with
  | some p, some q => q.leaves - p.enters
  | _, _ => 0

end Sys2Proof.Machine
end

