-- ==== Sys2Proof/Machine/Flits.lean ====
section
/-!
DEFINITION. The flits of the Krytwin links: their fields, what a port sends and what it keeps for a replay (R389, R390).
-/
namespace Sys2Proof.Machine

/-- A request of another device on VC 0 (R392): a load of n bytes, a store, an atomic, at a location of this one. -/
inductive Request where
  | load (loc n : Nat)
  | store (loc : Nat) (bytes : List Byte)
  | atomic (r : AtomReq)
  deriving DecidableEq, Repr, Inhabited

end Sys2Proof.Machine

namespace Sys2Proof.Config

/-- FREE VALUE (log 93): the request the payload of a flit on VC 0 carries, whose layout the spec does not give (R389, R392). -/
opaque requestOf : List Byte → Option Machine.Request
/-- FREE VALUE (log 93): the payload that answers a request with some bytes (R392). -/
opaque replyOf : (request answer : List Byte) → List Byte

end Sys2Proof.Config

namespace Sys2Proof.Machine

/-! ## Fields (R389) -/

def flitNat (b : List Byte) (o n : Nat) : Nat := leNat ((b.drop o).take n)

/-- Is the flit whole and its CRC right? -/
def flitGood (b : List Byte) : Bool := b.length == 256 && flitNat b 252 4 == crc32c (b.take 252)

/-- The payload of a flit. -/
def flitPayload (b : List Byte) : List Byte := (b.drop 12).take 240

/-- A flit that only acknowledges or returns credits: VC 1 with a payload of zeros (log 87). -/
def flitBare (b : List Byte) : Bool := flitNat b 2 1 == 1 && (flitPayload b).all (· == 0#8)

/-- The next flit of a port: it acknowledges what came in order, or asks for a replay, and returns the credits owed. -/
def flitOf (l : Link) (vc : Nat) (pay : List Byte) : List Byte :=
  let b := leBytes 2 l.txSeq ++ [BitVec.ofNat 8 vc, if l.nak then 2#8 else 1#8] ++ leBytes 2 (if l.nak then l.rxSeq else (l.rxSeq + 4095) % 4096) ++
    ((List.range 3).flatMap fun i => leBytes 2 (l.owed.getD i 0)) ++ padTo 240 pay
  b ++ leBytes 4 (crc32c b)

/-! ## Sending (R390) -/

def State.link? (s : State) (port : Nat) : Option Link := s.links.find? (·.port == port)

def State.setLink (s : State) (l : Link) : State := { s with links := s.links.map fun x => if x.port = l.port then l else x }

/-- One count of three moves. -/
def bump (l : List Nat) (vc : Nat) (f : Nat → Nat) : List Nat := (List.range 3).map fun i => if i = vc then f (l.getD i 0) else l.getD i 0

/-- The first waiting payload of a VC the port holds a credit for. -/
def Link.next? (l : Link) : Option (Nat × List Byte) := l.sendQ.find? fun x => decide (0 < l.credits.getD x.1 0)

/-- The port sends what it may: each flit takes a credit of its VC and a place among the 128 of the replay buffer; `fuel` bounds them. -/
def pump (port : Nat) : (fuel : Nat) → State → State
  | 0, s => s
  | n + 1, s =>
    match s.link? port with
    | none => s
    | some l => match l.next? with
      | none => s
      | some x =>
        if l.lost || decide (128 ≤ l.replay.length) then s
        else
          let b := flitOf l x.1 x.2
          pump port n ((s.setLink { l with
            txSeq := (l.txSeq + 1) % 4096, credits := bump l.credits x.1 (· - 1), owed := [0, 0, 0], nak := false
            sendQ := l.sendQ.erase x, replay := l.replay ++ [(l.txSeq, b)] }).emit (.flit port b))

/-- Bytes cut into payloads of 240. -/
def chunks : (fuel : Nat) → List Byte → List (List Byte)
  | 0, _ => []
  | n + 1, bs => if bs.isEmpty then [] else bs.take 240 :: chunks n (bs.drop 240)

/-- Send bytes on a VC of a port. -/
def sendOn (port vc : Nat) (bs : List Byte) (s : State) : State :=
  match s.link? port with
  | none => s
  | some l =>
    let q := (if bs.isEmpty then [[]] else chunks bs.length bs).map fun x => (vc, x)
    pump port 256 (s.setLink { l with sendQ := l.sendQ ++ q })

/-- Send bytes to another device, on the port the route table names (R392). -/
def sendTo (rank vc : Nat) (bs : List Byte) (s : State) : State :=
  match s.routes[rank]? with
  | none => s
  | some port => sendOn port vc bs s

/-- Acknowledge, or ask for a replay, where nothing else is to be sent (log 87). -/
def sendBare (port : Nat) (s : State) : State := sendOn port 1 [] s

/-- The collective engine takes what stands in the buffers of VC 2: they are free (R390, R393). -/
def takeVc2 (s : State) : State :=
  s.links.foldl (fun t l =>
    let n := (l.received.filter (·.1 == 2)).length
    if n = 0 then t else sendBare l.port (t.setLink { l with received := l.received.filter (·.1 != 2), owed := bump l.owed 2 (· + n) })) s

end Sys2Proof.Machine
end

