-- ==== Sys2Proof/Machine/Array.lean ====
section
/-!
DEFINITION. Folios, generated matrices, products and folds of the array (spec 07, R187 to R206).
-/
namespace Sys2Proof.Machine

/-- Elements of a folio line (R187). -/
def folioWidth (f : Fmt) : Nat := if f = .fp32 then 128 else 256

/-- Bytes of n elements from the start of a row; block-scaled rows in units of 80 bytes (R55, R187). -/
def rowBytes (f : Fmt) (n : Nat) : Nat := if fmtScaled f then n / 64 * 80 else n * elemBytes f

/-- Exact value of element k of a row's bytes (R55, R187, R223). -/
def rowElt (f : Fmt) (row : List Byte) (k : Nat) : Ex :=
  if fmtScaled f then
    decodeScaled f ((row.getD (k / 64 * 80 + k % 64) 0#8).toNat) ((row.getD (k / 64 * 80 + 64 + k % 64 / 4) 0#8).toNat)
  else decodeFmt f (leNat ((row.drop (k * elemBytes f)).take (elemBytes f)))

/-- The nibble of group g in a metadata row: positions p0 and p1 (R192). -/
def nibble (mrow : List Byte) (g : Nat) : Nat × Nat :=
  let n := (mrow.getD (g / 2) 0#8).toNat / 2 ^ (4 * (g % 2)) % 16
  (n % 4, n / 4)

/-- Is a metadata row well formed for w elements: p0 < p1 in every group (R192). -/
def metaOk (mrow : List Byte) (w : Nat) : Bool :=
  (List.range (w / 4)).all fun g => decide ((nibble mrow g).1 < (nibble mrow g).2)

/-- Folio element F(line, k): none at a position pruned by 2:4 sparsity (R187, R192). -/
def folioElt (f : Folio) (line k : Nat) : Option Ex :=
  match f.meta24 with
  | none => some (rowElt f.fmt (f.lines.getD line []) k)
  | some ms =>
    let p := nibble (ms.getD line []) (k / 4)
    if k % 4 = p.1 then some (rowElt f.fmt (f.lines.getD line []) (2 * (k / 4)))
    else if k % 4 = p.2 then some (rowElt f.fmt (f.lines.getD line []) (2 * (k / 4) + 1))
    else none

/-- Element k of delivered line n under a direction (R188). -/
def folioDir (f : Folio) (d : Dir) (n k : Nat) : Option Ex :=
  match d with
  | .r => folioElt f n k
  | .c => folioElt f (k % 128) (128 * (k / 128) + n)
  | .w => folioElt f (k % 128) (128 * (k / 128) + (n + k) % 128)

/-- The exact value 1 (R196). -/
def exOne : Ex := .fin false 1 0

/-- G(r, c) of a pattern register (R193); none is a generated zero. -/
def genElt (p : Pat) (r c : Nat) : Option Ex :=
  match p with
  | .none => none
  | .ones => some exOne
  | .ltri => if c ≤ r then some exOne else none
  | .utri => if r ≤ c then some exOne else none
  | .sltri => if c < r then some exOne else none
  | .ident o => if (c : Int) - r = o then some exOne else none
  | .perm idx =>
    let x := idx.getD r (-1)
    if r < 128 ∧ 0 ≤ x ∧ x ≤ 255 ∧ (c : Int) = x then some exOne else none
  | .onehot codes n base _ =>
    let g := codes.getD r 0
    if r < 128 ∧ g < n ∧ base ≤ g ∧ c = g - base then some exOne else none
  | .band first coeffs =>
    let t := (c : Int) - r - first
    if 0 ≤ t ∧ t < coeffs.length then some (bf16L.decode (coeffs.getD t.toNat 0#16).toNat) else none

/-- Is line r of a generated matrix out of range (R198). -/
def lineOut (p : Pat) (r : Nat) : Bool :=
  match p with
  | .perm idx => decide (r < 128) && (decide (idx.getD r 0 < 0) || decide (255 < idx.getD r 0))
  | .onehot codes n _ _ => decide (r < 128) && decide (n ≤ codes.getD r 0)
  | _ => false

/-- The first out-of-range line of a register with trap-on-range set (R198, R352). -/
def trapLine (p : Pat) : Option Nat :=
  match p with
  | .onehot _ _ _ true => (List.range 128).find? (lineOut p)
  | _ => none

/-- An operand as an array command reads it at issue (R188, R196). -/
inductive Opnd where
  | folio (f : Folio) (d : Dir)
  | pat (p : Pat) (d : Dir)
  deriving DecidableEq, Repr

/-- Element k of delivered line n: A(n, k) or B(k, n) (R188, R196). -/
def opndElt (o : Opnd) (n k : Nat) : Option Ex :=
  match o with
  | .folio f d => folioDir f d n k
  | .pat p .c => genElt p k n
  | .pat p _ => genElt p n k

/-- Does the operand put CR on the output line n, given the positions the command reads (R198). -/
def opndCr (o : Opnd) (n w lim : Nat) : Bool :=
  match o with
  | .folio _ _ => false
  | .pat p .c => (List.range (min w lim)).any (lineOut p)
  | .pat p _ => lineOut p n

/-- Format pairs of R98, for two folios: data type INT32 or not. -/
def pairOk (a b : Fmt) : Option Bool :=
  match a, b with
  | .bf16, .bf16 => some false
  | .fp16, .fp16 => some false
  | .e4m3, .e4m3 | .e4m3, .e5m2 | .e5m2, .e4m3 | .e5m2, .e5m2 => some false
  | .e4m3s, .e4m3s | .e4m3s, .e5m2s | .e5m2s, .e4m3s | .e5m2s, .e5m2s => some false
  | .dsh8, .e4m3 | .e4m3, .dsh8 | .dsh8, .int8 | .int8, .dsh8 => some false
  | .int8, .int8 => some true
  | .fp32, .fp32 => some false
  | _, _ => none

/-- Does a format have a pair beside a pattern of its own format (R98): a DSH8 folio has none. -/
def patPairOk (a : Fmt) : Option Bool := pairOk a a

/-- Array cycles of a pair (R201). -/
def arrayCycles (a b : Fmt) : Nat :=
  if a = .fp32 then 256
  else if a = .dsh8 ∨ b = .dsh8 then 32
  else if a = .bf16 ∨ a = .fp16 then 128
  else 64

/-- An exact integer value as an Int (R72). -/
def exInt : Ex → Int
  | .fin neg m e => let v : Int := ((m * 2 ^ e.toNat : Nat) : Int); if neg then -v else v
  | _ => 0

/-- The product at position k of the command for one output element; none for a structural zero (R200). -/
def termAt (a b : Opnd) (i j k : Nat) : Option (Ex × Ex) :=
  match opndElt a i k, opndElt b j k with
  | some x, some y => some (x, y)
  | _, _ => none

/-- The positions of one group of a command that lie below the depth (R200): group g of half h. -/
def groupPos (w h g depth : Nat) : List Nat :=
  ((List.range 16).map (16 * g + ·)).filter fun k => decide (k < w) && decide (w * h + k < depth)

/-- A command's own arithmetic for one element (R200): the running value in, the running value out with raised flags. -/
def elemSum (int : Bool) (a b : Opnd) (w h depth i j : Nat) (run : Option Res) : Option Res :=
  (List.range (w / 16)).foldl (fun r g =>
    let ts := (groupPos w h g depth).filterMap (termAt a b i j)
    if int then
      some (intRun (ts.map fun p => exInt p.1 * exInt p.2) (r.getD ⟨0, 0#6⟩))
    else groupSum (ts.map fun p => product p.1 p.2) r) run

/-- One element of a product (R200, R202). -/
def prodElt (nf int complete : Bool) (a b : Opnd) (w h depth i j : Nat) (old : AccElt) : AccElt :=
  let r := elemSum int a b w h depth i j (if old.present then some ⟨old.bits.toNat, 0#6⟩ else none)
  let cr := opndCr a i w (depth - w * h) || opndCr b j w (depth - w * h)
  let raised := (match r with
    | some x => x.flags
    | none => 0#6) ||| flagIf cr flCR
  let flags := old.flags ||| (if nf then 0#6 else raised)
  match r with
  | some x => ⟨true, BitVec.ofNat 32 x.bits, flags⟩
  | none => ⟨complete, 0#32, flags⟩

/-- Element (i, j) of a tile. -/
def tileElt (t : Tile) (i j : Nat) : AccElt := (t.getD i []).getD j ⟨false, 0#32, 0#6⟩

def buildTile (f : Nat → Nat → AccElt) : Tile :=
  (List.range 128).map fun i => (List.range 128).map fun j => f i j

/-- The tile of a product (R200). -/
def prodTile (nf int complete : Bool) (a b : Opnd) (w h depth : Nat) (old : Tile) : Tile :=
  buildTile fun i j => prodElt nf int complete a b w h depth i j (tileElt old i j)

/-- One element of a FOLD (R202, R206). -/
def foldElt (int : Bool) (x y : AccElt) : AccElt :=
  let r := if int then addInt32 ⟨x.bits.toNat, 0#6⟩ (BitVec.toInt y.bits) else fp32Add x.bits y.bits
  ⟨true, BitVec.ofNat 32 r.bits, x.flags ||| y.flags ||| r.flags⟩

def foldTile (int : Bool) (a b : Tile) : Tile := buildTile fun i j => foldElt int (tileElt a i j) (tileElt b i j)

/-- The tile ACC.LD reads: 128 rows of 128 elements of 4 bytes, no flags (R202, R207). -/
def seedTile (rows : List (List Byte)) : Tile :=
  buildTile fun i j => ⟨true, BitVec.ofNat 32 (leNat (((rows.getD i []).drop (4 * j)).take 4)), 0#6⟩

/-- Front of a pair (R38); one never written is an empty tile. -/
def Ctx.front (c : Ctx) (pair : Nat) : Front := (c.fronts.find? (·.pair == pair)).getD ⟨pair, false, false, []⟩

def Ctx.setFront (c : Ctx) (f : Front) : Ctx := { c with fronts := f :: c.fronts.filter (·.pair != f.pair) }

/-- Bytes of a bank row of the context (R249): row 0 to 127, from byte 0; a poisoned unit reads 0 (R282). -/
def bankRowBytes (s : State) (b row n : Nat) : List Byte :=
  let x := bankLoc s.rank s.me b (512 * (row % 128))
  (List.range n).map fun i => if s.mem.poison.contains (unitOf (x + i)) then 0#8 else readBase s.mem (x + i)

/-- Is any byte of a bank row poisoned (R282). -/
def bankRowPoison (s : State) (b row n : Nat) : Bool :=
  poisonedRange s.mem (bankLoc s.rank s.me b (512 * (row % 128))) n

/-- The folio an LDS reads from a bank (R187, R191). R187 names no bytes for a line of an INT32 bank: it reads on into what follows its row (DESIGN CHOICE, log 131). -/
def readFolio (s : State) (b row : Nat) (sp : Option Nat) : Folio :=
  let f := s.me.bankFmt b
  let w := folioWidth f
  { fmt := f
    lines := (List.range 128).map fun n => bankRowBytes s b (row + n) (rowBytes f (if sp.isSome then w / 2 else w))
    meta24 := sp.map fun m => (List.range 128).map fun n => bankRowBytes s m (row + n) (w / 8) }

end Sys2Proof.Machine
end

