-- ==== Sys2Proof/Machine/Rows.lean ====
section
/-!
DEFINITION. Row arithmetic of the retire unit, bank rows, narrowing and the histogram (spec 08, R215 to R234).
-/
namespace Sys2Proof.Machine

/-- 1 ÷ √a rounded once: the exact value cut with a sticky last bit (R218). -/
def rsqEx (x : Ex) : Ex × Flags :=
  match x with
  | .nan => (.nan, 0#6)
  | .inf true => (.nan, flNV)
  | .inf false => (.fin false 0 0, 0#6)
  | .fin neg m e =>
    if m = 0 then (.inf neg, flDZ)
    else if neg then (.nan, flNV)
    else
      let odd := e % 2 != 0
      let m2 := if odd then m * 2 else m
      let e2 := if odd then e - 1 else e
      let r := isqrt (2 ^ 160 / m2)
      (.fin false (2 * r + (if r * r * m2 = 2 ^ 160 then 0 else 1)) (-(e2 / 2) - 81), 0#6)

def rsqFp32 (mode : Nat) (a : W32) : Res := finish32 mode (rsqEx (decodeFp32 a))

/-- VCMP (R218). -/
def condHolds (cc : VCond) (a b : W32) : Bool :=
  match cc with
  | .eq => eqFp32 a b
  | .lt => ltFp32 a b
  | .le => leFp32 a b
  | .un => isNan32 a || isNan32 b

def one32 : W32 := 0x3F800000#32

/-- VFLD (R220): the exact FP32 of the code; +0 and NV when the offset is no integer from 0 to 31. -/
def fieldOf (a b : W32) (w : Nat) : Res :=
  match decodeFp32 b with
  | .fin neg m e =>
    let k := roundAt 1 false m e 0
    if k.inexact ∨ 31 < k.q ∨ (neg ∧ k.q ≠ 0) then ⟨0, flNV⟩
    else ⟨(roundFp32 0 (.fin false (a.toNat / 2 ^ k.q % 2 ^ w) 0)).bits, 0#6⟩
  | _ => ⟨0, flNV⟩

/-- VCVT (R221). -/
def vcvtLane (f : Fmt) (sat : Bool) (a : W32) : Res :=
  let y := convert f (decodeFp32 a) sat
  let r := roundFp32 0 (decodeFmt f y.bits)
  ⟨r.bits, y.flags ||| r.flags⟩

/-- Apply a lane function to all 128 lanes: the row and the raised flags. -/
def mapLanes (f : Nat → Res) : Row × List Flags :=
  let rs := (List.range 128).map f
  (rs.map fun r => BitVec.ofNat 32 r.bits, rs.map (·.flags))

/-- The histogram counter of a value (R232). -/
def histIdx (x : Ex) : Nat :=
  match x with
  | .fin _ m e => if m = 0 then 32 else (max 0 (min 31 ((exponentOf m e + 64) / 4))).toNat
  | _ => 33

/-- Count one value with saturation (R27). -/
def histBump (h : Vector W32 34) (i : Nat) : Vector W32 34 :=
  if hi : i < 34 then (if h[i] = 0xFFFFFFFF#32 then h else h.set i (h[i] + 1#32)) else h

def histCount (h : Vector W32 34) (is : List Nat) : Vector W32 34 := is.foldl histBump h

/-! ## Bank rows (R223 to R225) -/

/-- First byte of the 128 elements of half H in a bank row (R223). -/
def halfOff (f : Fmt) (half : Nat) : Nat := rowBytes f (128 * half)

/-- VLD of lane j (R224): the FP32 and its flags. -/
def vldLane (f : Fmt) (row : List Byte) (k : Nat) : Res :=
  match f with
  | .fp32 => ⟨leNat ((row.drop (4 * k)).take 4), 0#6⟩
  | _ => roundFp32 0 (rowElt f row k)

/-- What store_lane takes for a lane (R225): an FP32 encoding or an exact INT32 value. -/
inductive LaneIn where
  | fp (bits : W32)
  | int (v : Int)
  deriving DecidableEq, Repr

def LaneIn.ex : LaneIn → Ex
  | .fp b => decodeFp32 b
  | .int v => exOfInt v 0

/-- The scaled value of a lane and the flags of scaling it (R225). -/
def scaledLane (scl : Bool) (rcp : W32) (x : LaneIn) : Ex × Flags :=
  if scl then exMul x.ex (decodeFp32 rcp) else (x.ex, 0#6)

/-- store_lane for a destination without block scales (R225). -/
def storeLane (f : Fmt) (aux : StAux) (rcp : W32) (x : LaneIn) : Res :=
  match f, aux.scl, x with
  | .fp32, false, .fp b => ⟨b.toNat, 0#6⟩
  | _, _, _ =>
    let y := scaledLane aux.scl rcp x
    let r := convert f y.1 aux.sat
    ⟨r.bits, r.flags ||| y.2⟩

/-- Four lanes to a block: scale code, bytes and flags (R60, R225). -/
def storeBlock (f : Fmt) (aux : StAux) (rcp : W32) (xs : List LaneIn) : Block4 :=
  let ys := xs.map (scaledLane aux.scl rcp)
  let b := convertBlock f (ys.map (·.1))
  { b with flags := (b.flags.zip (ys.map (·.2))).map fun p => p.1 ||| p.2 }

/-- The writes of one stored row (R223, R225): offsets from the row's start with their bytes, and the lane flags. -/
structure RowOut where
  writes : List (Nat × List Byte)
  flags : List Flags
  deriving DecidableEq, Repr

def storeRow (f : Fmt) (half : Nat) (aux : StAux) (rcp : W32) (xs : List LaneIn) : RowOut :=
  if fmtScaled f then
    let bs := (List.range 32).map fun b => storeBlock f aux rcp ((xs.drop (4 * b)).take 4)
    { writes := (bs.zipIdx).flatMap fun (b, i) =>
        let u := 2 * half + i / 16
        [(u * 80 + 4 * (i % 16), b.bytes.map (BitVec.ofNat 8)), (u * 80 + 64 + i % 16, [BitVec.ofNat 8 b.code])]
      flags := bs.flatMap (·.flags) }
  else
    let rs := xs.map (storeLane f aux rcp)
    { writes := [(halfOff f half, rs.flatMap fun r => leBytes (elemBytes f) r.bits)]
      flags := rs.map (·.flags) }

/-- Lanes of a row register as store_lane takes them. -/
def rowLanes (r : Row) : List LaneIn := (List.range 128).map fun j => .fp (lane r j)

/-- Row n of a tile as store_lane takes it: integers when the tile is INT32 (R229). -/
def tileLanes (int : Bool) (t : Tile) (n : Nat) : List LaneIn :=
  (List.range 128).map fun j => let e := tileElt t n j; if int then .int (BitVec.toInt e.bits) else .fp e.bits

/-- Carried flags of a tile row (R202). -/
def tileFlags (t : Tile) (n : Nat) : List Flags := (List.range 128).map fun j => (tileElt t n j).flags

/-- RT.ROW of one element (R228). -/
def rtLane (mode : Nat) (int : Bool) (e : AccElt) : Res :=
  if int then
    let r := roundFp32 mode (exOfInt (BitVec.toInt e.bits) 0)
    ⟨r.bits, e.flags ||| r.flags⟩
  else ⟨e.bits.toNat, e.flags⟩

/-- FLG.RD of lane flags (R234). -/
def flagRow (lf : List Flags) : Row :=
  (List.range 128).map fun j => BitVec.ofNat 32 (roundFp32 0 (.fin false (lf.getD j 0#6).toNat 0)).bits

end Sys2Proof.Machine
end

