-- ==== Sys2Proof/Machine/Copy.lean ====
section
/-!
DEFINITION. What a copy, gather, scatter, fill, expansion or collective command does when it moves its elements (R159 to R182, R264 to R280, R312 to R318). All elements of a command move at its completion (log 14).
-/
namespace Sys2Proof.Machine

/-! ## Rows and conversion (R57, R158, R163) -/

/-- The format whose element size both sides move in: a RAW side takes the other side's (R57). -/
def sideFmt (own other : Fmt) : Fmt := if own = .raw then other else own

/-- Do the bytes move unchanged (R163). -/
def movesRaw (a b : Fmt) : Bool := a == b || a == .raw || b == .raw

/-- Encode the elements of a row in a format (R55, R60, R163). -/
def packRow (f : Fmt) (xs : List Ex) : List Byte :=
  if fmtScaled f then
    (List.range (xs.length / 64)).flatMap fun u =>
      let bs := (List.range 16).map fun b => convertBlock f ((xs.drop (64 * u + 4 * b)).take 4)
      (bs.flatMap fun b => b.bytes.map (BitVec.ofNat 8)) ++ bs.map fun b => BitVec.ofNat 8 b.code
  else xs.flatMap fun x => leBytes (elemBytes f) (convert f x (implicitSat f)).bits

/-- A row of n elements moved from one format to another (R163). -/
def convRow (src dst : Fmt) (n : Nat) (bs : List Byte) : List Byte :=
  if movesRaw src dst then bs else packRow dst ((List.range n).map (rowElt src bs))

/-- Bytes of one bank-side row of a command. -/
def cmdRowLen (c : Cmd) (other : Fmt) : Nat := rowBytes (sideFmt c.fmt other) (layCols c.lay)

/-- Memory-side runs of bank row i as (offset, length), in element order (R159); `skip` replaces i × STRIDE for a gathered row. -/
def memRuns (lay : W64) (f : Fmt) (i : Nat) : List (Nat × Nat) :=
  if layZ lay || layT lay then
    (List.range (layCols lay)).map fun j => (tileOff lay (elemBytes f) i j, elemBytes f)
  else [(i * layStride lay, rowBytes f (layCols lay))]

/-- First bank row of a command (R161). -/
def Cmd.row0 (c : Cmd) : Nat := c.w1 / 2 ^ 25

/-- The memory-side format of a command: MFMT, or the addressed bank's FMT for CP.BB (R162). -/
def Cmd.other (c : Cmd) : Fmt := if c.kind = .cpBb ∨ c.kind = .cpFill then c.xfmt else (layFmt c.lay).getD .raw

/-- What a command does to the memory it names (R302). -/
def Cmd.accKind (c : Cmd) : AccKind :=
  match c.kind with
  | .cpIn | .cpGth => .read
  | .cpOut | .cpSct | .cpBb | .cpFill => .write
  | .colRed | .colRs | .colAg | .colBc => .rmw

/-! ## Moving -/

/-- How a move ends: done, at a deferred fault (R168), or waiting for the memory processor at an element, with what it has moved so far. -/
inductive Mv where
  | ok (s : State)
  | fault (s : State) (f : CmdFault)
  | page (s : State) (dev : Nat) (report : List Byte)

def cmdFault (cls qual : Nat) (ptr : W64) : CmdFault := ⟨cls, qual, 0, 0, ptr⟩

/-- An uncorrectable error in data read (R168, R282, R352): its physical address, or for data of a bank the pointer it was read through (R370), and the stage in `point`. -/
def poisonFault (m : Mem) (x : Nat) (ptr : W64) : CmdFault := ⟨14, 0, 0, stageOf m x, if isSram x then ptr else BitVec.ofNat 64 (locOff x)⟩

/-- The same for data of a bank the command names by number: an SCR pointer of the byte stands for it (log 111). -/
def spoiledBank (s : State) (x : Nat) : CmdFault := poisonFault s.mem x (ownPtr s x)

/-- The first byte of a range that lies in a poisoned unit. -/
def poisonAt (m : Mem) (x n : Nat) : Nat := x + ((List.range n).find? fun i => m.poison.contains (unitOf (x + i))).getD 0

/-- A pointer that fails after the command started (R168). -/
def mvErr (s : State) (c : Cmd) (k : AccKind) (p : W64) (e : PErr) : Mv :=
  match e with
  | .acc q => .fault s (cmdFault 5 q p)
  | .tr f =>
    if toMemProc f then .page s f.dev (faultReport s.me .a p k (.copy c.tag) f)
    else .fault s (cmdFault 5 1 p)

/-- Run a step over a list of rows until one does not end in `ok`. -/
def mvAll (f : Nat → State → Mv) : List Nat → State → Mv
  | [], s => .ok s
  | i :: is, s => match f i s with
    | .ok s' => mvAll f is s'
    | r => r

/-- Read runs of memory for a command; all of one row. -/
def readRuns (s : State) (c : Cmd) (base : W64) : List (Nat × Nat) → Except (W64 × PErr) (List PCell)
  | [] => .ok []
  | (o, n) :: r =>
    let p := base + BitVec.ofNat 64 o
    match s.access s.me .read p n with
    | .error e => .error (p, e)
    | .ok ss => if recPageHit s true ss then .error (p, .acc 1) else match readRuns s c base r with
      | .error e => .error e
      | .ok cs => .ok (readSegs s (visCmd s.me c.acc c.ord) ss ++ cs)

/-- The reads of a command reach the blocks of some runs (R268). -/
def touchRuns (base : W64) (runs : List (Nat × Nat)) (s : State) : State :=
  runs.foldl (fun s r => match s.access s.me .read (base + BitVec.ofNat 64 r.1) r.2 with
    | .error _ => s
    | .ok ss => s.touch ss) s

/-- Write runs of memory for a command (R166, R176, R264). -/
def writeRuns (c : Cmd) (base : W64) : List (Nat × Nat) → List Byte → State → Except (W64 × PErr) State
  | [], _, s => .ok s
  | (o, n) :: r, bs, s =>
    let p := base + BitVec.ofNat 64 o
    match s.access s.me .write p n with
    | .error e => .error (p, e)
    | .ok ss =>
      if sealedHit s.mem ss || shadowHit s false ss then .error (p, .acc 4)
      else if recPageHit s true ss then .error (p, .acc 1)
      else writeRuns c base r (bs.drop n) (writeSegs (.cmd c.id c.tag) c.seen p ss (bs.take n) s)

/-- Location of byte 0 of bank row r of the command's bank. -/
def cmdBankRow (s : State) (c : Cmd) (r : Nat) : Nat := bankLoc s.rank s.me c.bank (512 * (r % 128))

/-- The bytes of bank-side row i, or none when one is poisoned (R282). -/
def cmdSrcRow (s : State) (c : Cmd) (other : Fmt) (i : Nat) : Option (List Byte) :=
  let x := cmdBankRow s c (c.row0 + i)
  let n := cmdRowLen c other
  let m := (s.orderedCmd c).mem
  if poisonedRange m x n then none else some (readBases m x n)

/-- One row of memory into the bank. -/
def inRow (c : Cmd) (base : W64) (runs : List (Nat × Nat)) (i : Nat) (s : State) : Mv :=
  match readRuns s c base runs with
  | .error (p, e) => mvErr s c .read p e
  | .ok cs =>
    if cellsPoison cs then .fault s (poisonFault s.mem (firstPoison cs) base)
    else .ok (cmdPut c (cmdBankRow s c (c.row0 + i)) (convRow c.other c.fmt (layCols c.lay) (cs.map (·.byte))) (touchRuns base runs s))

/-- One row of the bank to memory. -/
def outRow (c : Cmd) (base : W64) (runs : List (Nat × Nat)) (i : Nat) (s : State) : Mv :=
  match cmdSrcRow s c c.other i with
  | none => .fault s (spoiledBank s (poisonAt s.mem (cmdBankRow s c (c.row0 + i)) (cmdRowLen c c.other)))
  | some bs =>
    match writeRuns c base runs (convRow c.fmt c.other (layCols c.lay) bs) s with
    | .error (p, e) => mvErr s c .write p e
    | .ok s' => .ok s'

def cmdMemFmt (c : Cmd) : Fmt := sideFmt c.other c.fmt

/-- The index words of a gather or scatter: the first ROWS + 1 elements of the index bank from row xrow on (R164). -/
def indexLoc (s : State) (c : Cmd) (k : Nat) : Nat := bankLoc s.rank s.me (natBits c.w1 24 19) (512 * (natBits c.w1 18 12) + 4 * k)

def cmdIndex (s : State) (c : Cmd) (k : Nat) : Option Int :=
  let x := indexLoc s c k
  let m := (s.orderedCmd c).mem
  if poisonedRange m x 4 then none else some (BitVec.ofNat 32 (leNat (readBases m x 4))).toInt

/-- Base pointer of gathered row x (R164). -/
def gatherPtr (c : Cmd) (x : Int) : W64 := c.ptr + BitVec.ofInt 64 (x * layStride c.lay)

def gatherRuns (c : Cmd) : List (Nat × Nat) := [(0, rowBytes (cmdMemFmt c) (layCols c.lay))]

/-- Does a row reached through an index leave the bank of an SCR pointer (R48, R162, R168)? -/
def gatherOver (c : Cmd) (x : Int) : Bool :=
  spaceOf c.ptr == .scr && (decide (ptrByte c.ptr + x * layStride c.lay < 0) ||
    decide (65536 < ptrByte c.ptr + x * layStride c.lay + rowBytes (cmdMemFmt c) (layCols c.lay)))

/-- The qualifier of a row that leaves its bank: 7 when its pointer names no bank of the context (R168, R352). -/
def overQual (c : Cmd) (x : Int) (s : State) : Nat :=
  match s.place s.me c.accKind (gatherPtr c x) 1 with
  | .error (.acc 7) => 7
  | _ => 0

/-- Does a row reached through an index touch a differentiable page while DMODE is not OFF (R173; log 29)? -/
def gatherDiff (c : Cmd) (k : AccKind) (x : Int) (s : State) : Bool :=
  c.dmode != .off && match s.access s.me k (gatherPtr c x) (rowBytes (cmdMemFmt c) (layCols c.lay)) with
    | .ok ss => segsDiff ss
    | .error _ => false

/-- Row i of a gather or scatter, when its index leads to a place a command may touch (R164, R168). -/
def mvIndexed (c : Cmd) (k : AccKind) (row : W64 → State → Mv) (i : Nat) (s : State) : Mv :=
  match cmdIndex s c i with
  | none => .fault s (spoiledBank s (indexLoc s c i))
  | some x =>
    if gatherOver c x then .fault s (cmdFault 5 (overQual c x s) (gatherPtr c x))
    else if gatherDiff c k x s then .fault s (cmdFault 5 5 (gatherPtr c x))
    else row (gatherPtr c x) s

def mvGather (c : Cmd) (i : Nat) (s : State) : Mv := mvIndexed c .read (fun p => inRow c p (gatherRuns c) i) i s

def mvScatter (c : Cmd) (i : Nat) (s : State) : Mv := mvIndexed c .write (fun p => outRow c p (gatherRuns c) i) i s

/-- The row a fill writes (R163): FP32 bits converted, into an FP32 bank too, where a NaN becomes the canonical one (log 101); a signed integer for INT32 and INT8, four bytes repeated for RAW. -/
def fillRow (f : Fmt) (n : Nat) (v : W32) : List Byte :=
  match f with
  | .raw => (List.range n).map fun i => (leBytes 4 v.toNat).getD (i % 4) 0#8
  | .int32 => (List.range n).flatMap fun _ => leBytes 4 v.toNat
  | .int8 => (List.range n).map fun _ => BitVec.ofInt 8 (max (-128) (min 127 v.toInt))
  | _ => packRow f ((List.range n).map fun _ => decodeFp32 v)

/-- Destination runs of bank row i of a CP.BB: rows 512 bytes apart, transposed when T is 1 (R159, R162). -/
def bankRuns (c : Cmd) (i : Nat) : List (Nat × Nat) :=
  if layT c.lay then (List.range (layCols c.lay)).map fun j => (512 * j + i * elemBytes (sideFmt c.xfmt c.fmt), elemBytes (sideFmt c.xfmt c.fmt))
  else [(512 * i, rowBytes (sideFmt c.xfmt c.fmt) (layCols c.lay))]

/-- Put bytes along runs of a bank. -/
def putRuns (c : Cmd) (base : Nat) : List (Nat × Nat) → List Byte → State → State
  | [], _, s => s
  | (o, n) :: r, bs, s => putRuns c base r (bs.drop n) (cmdPut c (base + o) (bs.take n) s)

/-- CP.BB of one row into the addressed bank (R162). -/
def mvBank (c : Cmd) (i : Nat) (s : State) : Mv :=
  match cmdSrcRow s c c.xfmt i, s.scrLoc s.me c.ptr 1 with
  | none, _ => .fault s (spoiledBank s (poisonAt s.mem (cmdBankRow s c (c.row0 + i)) (cmdRowLen c c.xfmt)))
  | _, .error e => mvErr s c .write c.ptr e
  | some bs, .ok t => .ok (putRuns c t.loc (bankRuns c i) (convRow c.fmt c.xfmt (layCols c.lay) bs) s)

/-! ## Expansion (R171, R277, R279, R280) -/

/-- Bytes of the tile an expanding command fills: memory-format rows one after another; RAW takes the bank's element size (R57). -/
def expRowLen (c : Cmd) : Nat := rowBytes (cmdMemFmt c) (layCols c.lay)

/-- Whole elements in n bytes of a row: of a block-scaled row those of its whole units of 80 bytes (R55; log 109). -/
def wholeElts (f : Fmt) (n : Nat) : Nat := if fmtScaled f then n / 80 * 64 else n / elemBytes f

/-- The colophon an expanding command reads (R171). -/
def readColophon (s : State) (vis : List Priv) (p : W64) : Except PErr (List PCell) :=
  match s.access s.me .read p 64 with
  | .error e => .error e
  | .ok ss => if recPageHit s true ss then .error (.acc 1) else .ok (readSegs s vis ss)

/-- Blocks an expanding command needs (R171). -/
def expBlocks (c : Cmd) (col : List Byte) : Nat :=
  (layRows c.lay * expRowLen c + 2 ^ colBsize col - 1) / 2 ^ colBsize col

/-- Read bytes at an offset from the colophon. -/
def expRead (s : State) (c : Cmd) (off n : Nat) : Except (W64 × PErr) (List PCell) :=
  let p := c.ptr + BitVec.ofNat 64 off
  match s.access s.me .read p n with
  | .error e => .error (p, e)
  | .ok ss => if recPageHit s true ss then .error (p, .acc 1) else .ok (readSegs s (visCmd s.me c.acc c.ord) ss)

/-- The block of a command that passes next. -/
def Cmd.nextIdx (c : Cmd) : Nat := c.w1 % 2 ^ 25 + c.nextBlock

/-- The qualifier of a block that is refused before its payload is read: its codec, then its header (R277); of a block that is moved whole, only its placement (R171). -/
def hdrQual (c : Cmd) (col : List Byte) (j : Nat) (h : BlkHdr) : Option Nat :=
  if layExp c.lay = 2 then (if blkPlaced col j h then none else some 1) else hdrBad col j h

/-- Expand or move the command's next block (R171, R277, R279): its bytes, or the deferred fault at that block. -/
def expandNext (s : State) (c : Cmd) (col : List Byte) : Except CmdFault (List Byte) :=
  let j := c.nextIdx
  let flt (q pt : Nat) : CmdFault := ⟨9, q, j, pt, c.ptr⟩
  if colCount col ≤ j then .error (flt 3 (colXpt col))
  else match expRead s c (64 + 16 * j) 16 with
    | .error (p, _) => .error (cmdFault 5 1 p)
    | .ok hc =>
      let h := blkHdr (hc.map (·.byte))
      let pt := blkPoint col h
      if cellsPoison hc then .error (poisonFault s.mem (firstPoison hc) c.ptr)
      else match hdrQual c col j h with
        | some q => .error (flt q pt)
        | none => match expRead s c h.off h.clen with
          | .error (p, _) => .error (cmdFault 5 1 p)
          | .ok pc =>
            if cellsPoison pc then .error (poisonFault s.mem (firstPoison pc) c.ptr)
            else if layExp c.lay = 2 then .ok (pc.map (·.byte))
            else match decodeBlock col j h (pc.map (·.byte)) with
              | .error q => .error (flt q pt)
              | .ok out => .ok out

/-- Write the rows an expansion supplies: with a fault only whole rows, else also the bytes of the last, partial row (R168, R171, R280). -/
def expRows (c : Cmd) (whole : Bool) (bytes : List Byte) (s : State) : State :=
  let n := expRowLen c
  (List.range (layRows c.lay)).foldl (fun s i =>
    let part := (bytes.drop (i * n)).take n
    if part.isEmpty ∨ (whole ∧ part.length < n) then s
    else cmdPut c (cmdBankRow s c (c.row0 + i)) (convRow c.other c.fmt (wholeElts c.other part.length) part) s) s

def mvExpand (c : Cmd) (s : State) : Mv :=
  let bytes := c.blocks.flatMap (·.2)
  match c.fault with
  | some f => .fault (expRows c true bytes s) f
  | none => .ok (expRows c false bytes s)

/-! ## Differentiable copies (R173, R312, R313, R318) -/

/-- Byte offset of memory element (i, j) of an FP32 tile (R159). -/
def diffPtr (c : Cmd) (i j : Nat) : W64 := c.ptr + BitVec.ofNat 64 (tileOff c.lay 4 i j)

/-- Location of the adjoint cell of a pointer (R307). -/
def cellPlace (s : State) (k : AccKind) (p : W64) : Except PErr Trans := s.adjLoc s.me k (adjPtr p)

/-- Run a step over all elements of the tile in bank-side row order. -/
def mvElts (c : Cmd) (f : Nat → Nat → State → Mv) (s : State) : Mv :=
  mvAll (fun n s => f (n / layCols c.lay) (n % layCols c.lay) s) (List.range (layRows c.lay * layCols c.lay)) s

def bankElt (s : State) (c : Cmd) (i j : Nat) : Nat := cmdBankRow s c (c.row0 + i) + 4 * j

/-- The whole cell of a translated ADJ byte. -/
def cellLoc (t : Trans) : Nat := t.loc / 4 * 4

/-- REV CP.IN: each bank element is accumulated into its cell; a poisoned one is a deferred fault (R168, R282). -/
def mvAccum (c : Cmd) (i j : Nat) (s : State) : Mv :=
  let x := bankElt s c i j
  match cellPlace s .rmw (diffPtr c i j) with
  | .error e => mvErr s c .rmw (adjPtr (diffPtr c i j)) e
  | .ok t =>
    let m := (s.orderedCmd c).mem
    if poisonedRange m x 4 then .fault s (spoiledBank s (poisonAt m x 4))
    else .ok (accumulate (.cmd c.id c.tag) c.seen (adjPtr (diffPtr c i j)) t.comp (cellLoc t) (BitVec.ofNat 32 (leNat (readBases m x 4))) s)

/-- REV CP.OUT step 2: a cell into the bank; a poisoned one is a deferred fault (R168, R282). -/
def mvCell (c : Cmd) (i j : Nat) (s : State) : Mv :=
  match cellPlace s .read (diffPtr c i j) with
  | .error e => mvErr s c .read (adjPtr (diffPtr c i j)) e
  | .ok t =>
    if cellPoison s (cellLoc t) then .fault s (poisonFault s.mem (cellLoc t) (adjPtr (diffPtr c i j)))
    else .ok (cmdPut c (bankElt s c i j) (leBytes 4 (cellValue s (cellLoc t)).toNat) s)

/-- REV CP.OUT step 3: clear a cell and restore its memory element from the record. -/
def mvRestore (c : Cmd) (i j : Nat) (s : State) : Mv :=
  match cellPlace s .write (diffPtr c i j) with
  | .error e => mvErr s c .write (adjPtr (diffPtr c i j)) e
  | .ok t =>
    let s1 := clearCell (.cmd c.id c.tag) c.seen (adjPtr (diffPtr c i j)) { t with loc := cellLoc t } s
    let data := (c.blocks.flatMap (·.2)).drop (4 * (i * layCols c.lay + j))
    match writeRuns c (diffPtr c i j) [(0, 4)] (data.take 4) s1 with
    | .error (p, e) => mvErr s1 c .write p e
    | .ok s2 => .ok s2

def State.mapCmd (s : State) (id : Nat) (f : Cmd → Cmd) : State :=
  s.mapMe fun c => { c with cmds := c.cmds.map fun x => if x.id = id then f x else x }

/-- The cells go to the bank, but on a retry (R318); then the cells are cleared and memory is restored, unless the record's data is poisoned (R282, R313). `nextBlock` tells where a REV CP.OUT stands: 0 before its step 3, 1 a retry before it, 2 and 3 the same in it. -/
def mvRevOut (c : Cmd) (s : State) : Mv :=
  match (if c.nextBlock % 2 = 1 then Mv.ok s else mvElts c (mvCell c) s) with
  | .ok s1 =>
    match c.fault with
    | some f => .fault s1 f
    | none => mvElts c (mvRestore c) (s1.mapCmd c.id fun x => { x with nextBlock := 2 + c.nextBlock % 2 })
  | r => r

/-! ## Collectives (R181, R182) -/

/-- One level of the canonical tree over leaves; a lone left child passes up (R71). -/
def treeLevel (f : W32 → W32 → W32) : List W32 → List W32
  | a :: b :: r => f a b :: treeLevel f r
  | l => l

def treeFold (f : W32 → W32 → W32) : (fuel : Nat) → List W32 → W32
  | 0, l => l.headD 0#32
  | n + 1, l => if l.length ≤ 1 then l.headD 0#32 else treeFold f n (treeLevel f l)

/-- max and min of a collective: −0 below +0, any NaN gives the canonical NaN (R181). -/
def redMax (a b : W32) : W32 := if isNan32 a || isNan32 b then qnan32 else maxFp32 a b
def redMin (a b : W32) : W32 := if isNan32 a || isNan32 b then qnan32 else minFp32 a b

/-- The combining function on leaves held as 32 bits: FP32 encodings, or integers for INT32 (R181). -/
def redFn (f : Fmt) (red : Nat) : W32 → W32 → W32 :=
  match red with
  | 0 => if f = .int32 then (· + ·) else fun a b => BitVec.ofNat 32 (fp32Add a b).bits
  | 1 => redMax
  | _ => redMin

/-- A buffer element as a leaf, and a result as an element (R181). -/
def leafOf (f : Fmt) (x : W32) : W32 := if f = .bf16 then x <<< 16 else x
def eltOf (f : Fmt) (x : W32) : W32 := if f = .bf16 then BitVec.ofNat 32 (convert .bf16 (decodeFp32 x) false).bits else x

/-- Reduction of element j over the ranks' buffers (R181): a NaN of max or min is the canonical one, of one rank too. With one rank no add is made; its NaN leaf of a sum keeps its payload (DESIGN CHOICE, log 126). -/
def reduceAt (f : Fmt) (red : Nat) (bufs : List (List W32)) (j : Nat) : W32 :=
  let leaves := bufs.map fun b => leafOf f (b.getD j 0#32)
  let r := treeFold (redFn f red) bufs.length leaves
  eltOf f (if red != 0 && isNan32 r then qnan32 else r)

/-- The value of element j afterwards in the buffer of rank p of m (R181); none leaves it. -/
def colResult (k : CmdKind) (f : Fmt) (red root p m count : Nat) (bufs : List (List W32)) (j : Nat) : Option W32 :=
  let share := count / m
  match k with
  | .colRed => some (reduceAt f red bufs j)
  | .colRs => if p * share ≤ j ∧ j < p * share + share then some (reduceAt f red bufs j) else none
  | .colAg => some ((bufs.getD (j / share) []).getD j 0#32)
  | _ => some ((bufs.getD root []).getD j 0#32)

/-- Is an element an infinity or NaN (R182). -/
def eltNonFinite (f : Fmt) (x : W32) : Bool :=
  if f = .int32 then false else match decodeFmt f x.toNat with
    | .fin _ _ _ => false
    | _ => true

def Cmd.count (c : Cmd) : Nat := layRows c.lay * layCols c.lay
def Cmd.red (c : Cmd) : Nat := natBits c.w1 26 24
def Cmd.root (c : Cmd) : Nat := natBits c.w1 23 11

/-- The tree node a rank p > 0 of m forms: rank p holds node (l, p ÷ 2^l) of the canonical tree, with 2^l the lowest bit of p, and hands it to rank p − 2^l (R394; log 87). -/
def treeSpan (p : Nat) : Nat := ((List.range 12).find? fun l => p.testBit l).elim 1 (2 ^ ·)

/-- What rank p of m sends the others for a collective: the rank, the bytes of an element and the elements (R394; log 87). Partial results go up the canonical tree over the ranks, a reduction's results come down from rank 0, a gather's shares and a broadcast go out from where they stand. -/
def colSends (k : CmdKind) (f : Fmt) (red root p m count e : Nat) (bufs : List (List W32)) : List (Nat × Nat × List W32) :=
  let share := count / m
  let others := (List.range m).filter (· != p)
  let own := bufs.getD p []
  match k with
  | .colRed | .colRs =>
    if p ≠ 0 then
      let n := treeSpan p
      [(p - n, 4, (List.range count).map fun j => treeFold (redFn f red) n (((bufs.drop p).take n).map fun b => leafOf f (b.getD j 0#32)))]
    else
      let r := (List.range count).map (reduceAt f red bufs)
      others.map fun q => (q, e, if k = .colRed then r else (r.drop (q * share)).take share)
  | .colAg => others.map fun q => (q, e, (own.drop (p * share)).take share)
  | _ => if p = root then others.map fun q => (q, e, own) else []

/-- The payloads of a collective leave on VC 2 (R393, R394). -/
def sendCol (ranks : List Nat) (f : Fmt) (l : List (Nat × Nat × List W32)) (s : State) : State :=
  l.foldl (fun t x => sendTo (ranks.getD x.1 t.rank) 2 (packPayload f x.2.1 x.2.2) t) s

/-- The ranks of a communicator (R180). -/
def State.comm (s : State) (die e : Nat) : List Nat :=
  ((s.comms.find? fun x => x.1 == die && x.2.1 == e).map (·.2.2)).getD []

/-- The own buffer of a collective: as read at the firing of its bucket, else now (R180, R246). -/
def colOwn (s : State) (c : Cmd) : Except (W64 × PErr) (List PCell) :=
  match c.blocks with
  | (_, bs) :: _ => .ok (bs.zipIdx.map fun (b, i) => ⟨i, b, false⟩)
  | [] =>
    let n := c.count * elemBytes c.other
    match s.access s.me .read c.ptr n with
    | .error e => .error (c.ptr, e)
    | .ok ss => .ok (readSegs s (visCmd s.me c.acc c.ord) ss)

/-- Perform a collective with the other ranks' buffers in rank order (R181): the end and the non-finite bit. -/
def mvCollective (c : Cmd) (peers : PeerData) (s : State) : Mv × Bool :=
  let f := c.other
  let e := elemBytes f
  let ranks := s.comm s.me.die c.bank
  if peers.mismatch then (.fault s (cmdFault 13 0 c.ptr), false)
  else match c.fault, colOwn s c with
    | some g, _ => (.fault s g, false)
    | none, .error (p, x) => (mvErr s c .read p x, false)
    | none, .ok cs =>
      if cellsPoison cs then (.fault s (poisonFault s.mem (firstPoison cs) c.ptr), false)
      else
        let own := wordsOf e (cs.map (·.byte)) c.count
        let p := ranks.idxOf s.rank
        let others := peers.bufs.map (unpackPayload f e c.count)
        let bufs := others.take p ++ own :: others.drop p
        let res := (List.range c.count).map fun j => colResult c.kind f c.red c.root p ranks.length c.count bufs j
        let nonFin := res.any fun x => match x with
          | some v => eltNonFinite f v
          | none => false
        let out := (res.zip own).flatMap fun (x, o) => leBytes e ((x.getD o).toNat)
        let runs := (res.zipIdx).filterMap fun (x, j) => if x.isSome then some (j * e, e) else none
        let data := (res.zipIdx).flatMap fun (x, j) => if x.isSome then (out.drop (j * e)).take e else []
        match writeRuns c c.ptr runs data s with
        | .error (q, x) => (mvErr s c .write q x, nonFin)
        | .ok s' => (.ok (sendCol ranks f (colSends c.kind f c.red c.root p ranks.length c.count e bufs) s'), nonFin)

/-! ## Completion -/

/-- Move all elements of a copy command (R161 to R173). -/
def mvCopy (c : Cmd) (s : State) : Mv :=
  let rows := List.range (layRows c.lay)
  match c.kind, c.dmode with
  | .cpOut, .fwd => match c.fault with
    | some g => .fault s g
    | none => mvAll (fun i => outRow c c.ptr (memRuns c.lay (cmdMemFmt c) i) i) rows s
  | .cpIn, .rev => mvElts c (mvAccum c) s
  | .cpOut, .rev => mvRevOut c s
  | .cpIn, _ =>
    if layExp c.lay = 0 then mvAll (fun i => inRow c c.ptr (memRuns c.lay (cmdMemFmt c) i) i) rows s else mvExpand c s
  | .cpOut, _ => mvAll (fun i => outRow c c.ptr (memRuns c.lay (cmdMemFmt c) i) i) rows s
  | .cpBb, _ => mvAll (mvBank c) rows s
  | .cpGth, _ => mvAll (mvGather c) rows s
  | .cpSct, _ => mvAll (mvScatter c) rows s
  | .cpFill, _ =>
    mvAll (fun i s => .ok (cmdPut c (cmdBankRow s c (c.row0 + i)) (fillRow c.fmt (layCols c.lay) (c.ptr.setWidth 32)) s)) rows s
  | _, _ => .ok s

def State.dropCmd (s : State) (id : Nat) : State :=
  s.mapMe fun c => { c with cmds := c.cmds.filter (·.id != id) }

/-- Does a parked write of the command remain (R166, R267). -/
def cmdParked (s : State) (id : Nat) : Bool :=
  s.me.priv.any fun p => p.parked.isSome && (match p.src with
    | .cmd i _ => i == id
    | .cs | .row _ => false)

/-- A command leaves without fault: its tag counts it (R165, R169, R182), and a retried REV CP.OUT pops its record (R318). -/
def doneCmd (c : Cmd) (nonFin : Bool) (s : State) : State :=
  (s.dropCmd c.id).mapMe fun x =>
    let t := x.tag c.tag
    let y := x.setTag c.tag { t with done := t.done + 1, nonFinite := t.nonFinite || nonFin }
    match c.tape, c.dmode with
    | some p, .rev => if c.nextBlock % 2 = 1 then { y with tapeHead := p } else y
    | _, _ => y

/-- The kind of access a command makes to memory (R352): 0 read, 1 write, 2 read-modify-write. -/
def Cmd.accNum (c : Cmd) : Nat :=
  match c.kind with
  | .cpIn | .cpGth => 0
  | .cpOut | .cpSct | .cpBb | .cpFill => 1
  | .colRed | .colRs | .colAg | .colBc => 2

/-- Commands SHD.PUB waits for (R177): every CP.OUT, CP.SCT and collective. -/
def Cmd.writesMemory (c : Cmd) : Bool :=
  match c.kind with
  | .cpOut | .cpSct | .colRed | .colRs | .colAg | .colBc => true
  | .cpIn | .cpGth | .cpBb | .cpFill => false

/-- A command leaves with a deferred fault recorded under its tag (R168); its parked writes are withdrawn (R269), and a differentiable command keeps its record (R318): a REV CP.OUT that faults before its step 3 leaves it complete, for a retry of every step (log 110). -/
def faultCmd (c : Cmd) (f : CmdFault) (s : State) : State :=
  let g : TagFault := ⟨f, c.addr, f.ptr, c.bank, c.accNum, c.report, c.writesMemory⟩
  let s1 := (s.dropCmd c.id).mapMe fun x =>
    let t := x.tag c.tag
    let x1 := x.setTag c.tag { t with fault := t.fault.or (some g), writer := t.writer.or (if c.writesMemory then some g else none) }
    { x1 with priv := x1.priv.filter fun p => !(p.parked.isSome && (match p.src with
        | .cmd i _ => i == c.id
        | .cs | .row _ => false)) }
  match c.tape, c.dmode with
  | some p, .fwd => tapeMark (.cmd c.id c.tag) c.seen p 2 1 s1
  | some p, .rev =>
    let s2 := if c.nextBlock < 2 then s1 else tapeMark (.cmd c.id c.tag) c.seen p 2 2 s1
    s2.mapMe fun x => { x with tapeHead := p + BitVec.ofNat 64 (recSize (4 * c.count)) }
  | _, _ => s1

/-- End a move: the command leaves, stays parked, or records its fault; one that waits for the memory processor moves its elements when the answer has come, from the state `s0` it was in (log 14). -/
def endMove (c : Cmd) (nonFin : Bool) (s0 : State) : Mv → State
  | .ok s => if cmdParked s c.id then s.mapCmd c.id fun x => { x with st := .parked, nonFin := nonFin } else doneCmd c nonFin s
  | .fault s f => faultCmd ((s.cmd? c.id).getD c) f s
  | .page _ dev rep =>
    (s0.mapCmd c.id fun x => { x with st := .pageWait, report := rep }).emit (.memprocFault dev s0.me.launch rep)

/-- The memory processor declines the page a command waits for: the elements before it have moved, and the fault stands (R168, R304, R352). -/
def declineCmd (c : Cmd) (f : CmdFault) (m : Mv) (s : State) : State :=
  let t := match m with
    | .page u _ _ => u
    | .ok _ | .fault _ _ => s
  faultCmd ((t.cmd? c.id).getD c) f t

/-- COPY_COMPLETE of a command (R165, R168). -/
def completeCopy (c : Cmd) (s : State) : State := endMove c false s (mvCopy c s)

/-- COLLECTIVE_COMPLETE of a command (R181, R182). -/
def completeCollective (c : Cmd) (peers : PeerData) (s : State) : State :=
  let s1 := touchRuns c.ptr [(0, c.count * elemBytes c.other)] s
  let r := mvCollective c peers s1
  endMove c r.2 s1 r.1

def Cmd.isCol (c : Cmd) : Bool :=
  match c.kind with
  | .colRed | .colRs | .colAg | .colBc => true
  | _ => false

/-- Does a command reach memory rows by index (R164)? -/
def Cmd.isIndexed (c : Cmd) : Bool := c.kind == .cpGth || c.kind == .cpSct

/-- Does a command expand or move blocks (R171). -/
def Cmd.isExp (c : Cmd) : Bool := c.kind == .cpIn && layExp c.lay != 0

/-- The colophon of a command that expands, when it can still be read and is not poisoned. -/
def colOf (s : State) (c : Cmd) : Except CmdFault (List Byte) :=
  match readColophon s (visCmd s.me c.acc c.ord) c.ptr with
  | .error _ => .error (cmdFault 5 1 c.ptr)
  | .ok cs => if cellsPoison cs then .error (poisonFault s.mem (firstPoison cs) c.ptr) else .ok (cs.map (·.byte))

/-- Blocks the command still has to pass through its expanders (R171); one whose colophon fails has that to find out. -/
def expLeft (s : State) (c : Cmd) : Nat :=
  if !c.isExp || c.fault.isSome then 0
  else match colOf s c with
    | .error _ => 1
    | .ok col => expBlocks c col - c.nextBlock

/-- The way of a command's blocks through its expander, latest first, by their decoded bytes: the cycles between arrivals are free (R279, R285; log 19). -/
def cmdPasses (c : Cmd) (col : List Byte) (lens : List Nat) : List Pass :=
  passes (lens.zipIdx.map fun (k, i) => (Config.blockArrival c.id (lens.length - 1 - i), expWork (colCodec col) k))

/-- Decoded bytes of the blocks a command has passed, latest first. -/
def Cmd.lens (c : Cmd) : List Nat := c.blocks.reverse.map (·.2.length)

/-- Has the block before been passed on, so that the next one is worked on (R279)? -/
def blockDue (s : State) (c : Cmd) : Bool :=
  match colOf s c with
  | .error _ => true
  | .ok col => layExp c.lay == 2 || decide (c.issued + (((cmdPasses c col c.lens).head?).map (·.leaves)).getD 0 ≤ s.now)

/-- The next block passes its expander: its FIFO counts (R171, R279), and the command is done no earlier than its last block. The FIFOs of earlier points, and those other contexts share, may be full in more of the cycles since the block before (log 19). -/
def passBlock (c : Cmd) (col bs : List Byte) (s : State) : State :=
  let ps := cmdPasses c col (bs.length :: c.lens)
  let now := ((ps.head?).map (·.leaves)).getD 0
  let span := now - ((ps[1]?).map (·.leaves)).getD 0
  let full := fullCycles ps
  { s with fresh := s.fresh + 1, me := { s.me with
      expStall := s.me.expStall + BitVec.ofNat 64 (full + Config.sharedFull s.fresh % (1 + (span - full)))
      cmds := s.me.cmds.map fun x => if x.id = c.id then { x with due := max x.due (c.issued + now) } else x } }

/-- The reads of a command's next block reach their blocks (R268). -/
def touchNext (c : Cmd) (s : State) : State :=
  touchRuns c.ptr (match expRead s c (64 + 16 * c.nextIdx) 16 with
    | .error _ => [(0, 64)]
    | .ok cs => let h := blkHdr (cs.map (·.byte)); [(0, 64), (64 + 16 * c.nextIdx, 16), (h.off, h.clen)]) s

/-- EXPANDER_BLOCK_DECODE: the command's next block (R279). A block that is moved whole fills no FIFO (R171). -/
def decodeNext (c : Cmd) (s : State) : State :=
  let fail (f : CmdFault) : State := s.mapCmd c.id fun x => { x with fault := some f }
  match colOf s c with
  | .error f => fail f
  | .ok col => match expandNext s c col with
    | .error f => fail f
    | .ok bs => (if layExp c.lay = 2 then touchNext c s else passBlock c col bs (touchNext c s)).mapCmd c.id fun x =>
        { x with blocks := x.blocks ++ [(c.nextBlock, bs)], nextBlock := x.nextBlock + 1 }

/-- All blocks that remain, one after another. -/
def decodeAll : (fuel : Nat) → (id : Nat) → State → State
  | 0, _, s => s
  | n + 1, id, s => match s.cmd? id with
    | none => s
    | some c => if expLeft s c = 0 then s else decodeAll n id (decodeNext c s)

end Sys2Proof.Machine
end

