-- ==== Sys2Proof/Machine/Words.lean ====
section
/-!
DEFINITION. Word accesses of the C streams to banks, performed through the grants of their granules at the end of each cycle (R250 to R253), and what the ones of timed contexts leave in their latches (R357, R358).
-/
namespace Sys2Proof.Machine

/-! ## Queues of word accesses -/

/-- The core index of an SRAM location (R10). -/
def sramCore (x : Nat) : Nat := locOff x / 0x300000
/-- The granule of an SRAM location. -/
def sramGran (x : Nat) : Nat := x / 65536
def WordReq.core (w : WordReq) : Nat := sramCore w.loc

/-- Cycles from the issue of a word access to the first its grant may serve it in (R252, R253); a bank outside the bay has no bound (R254; log 4). -/
def wordTravel (s : State) (x : Nat) : Nat :=
  if sramCore x = s.me.coreIdx then 1 else if sramCore x / 4 = s.me.coreIdx / 4 then 8 else s.trip

/-- Put a word access of the C stream on its way; it reaches its core no earlier than one sent there before it (R253). -/
def sendWord (op : WordOp) (x : Nat) (ptr : W64) (s : State) : State :=
  let prior := (s.me.words.filter fun w => w.core == sramCore x).foldl (fun m w => max m w.from0) 0
  let w : WordReq := ⟨s.seqs, max prior (s.cycle + wordTravel s x), x, op, false, ptr, (s.me.strm .c).pc, s.me.sup, s.me.strC.acc + 1, s.now⟩
  { s with me := { s.me with words := s.me.words ++ [w] }, seqs := s.seqs + 1 }

/-- Fill the latch of a timed access with its result, in the context and in its frame (R104, R357). -/
def fillPend (id : Nat) (what : Land) (l : List Pend) : List Pend :=
  l.map fun p => match p.what with
    | .await _ j => if j = id then { p with what := what } else p
    | _ => p

/-- The latch of an access, if it is still empty. -/
def latchOf (id : Nat) (l : List Pend) : Option Pend := l.find? fun p => match p.what with
  | .await _ j => j == id
  | _ => false

/-- Fill a latch and add the flags that land with it. -/
def fillLatches (id : Nat) (what : Land) (f : Flags) (l : List Pend) : List Pend :=
  match latchOf id l with
  | none => l
  | some p =>
    let l1 := fillPend id what l
    if f = 0#6 then l1 else insertPend ⟨p.due, p.seq, .fflags f⟩ l1

/-- A result arrives for an access: into the latches of a timed context (R357), else to land when the reply has come back (R252, R253). -/
def arrive (timed : Bool) (id : Nat) (what : Land) (f : Flags) (due : Nat) (s : State) : State :=
  if timed then
    s.mapMe fun c => { c with pend := fillLatches id what f c.pend, frame := c.frame.map fun g => { g with latches := fillLatches id what f g.latches } }
  else
    let s1 := pendAt due what s
    if f = 0#6 then s1 else pendAt due (.fflags f) s1

/-- The cycle in which the reply to an access performed in this cycle is there (R252, R253). -/
def replyAt (s : State) (x : Nat) : Nat :=
  if sramCore x = s.me.coreIdx then s.cycle + 1 else if sramCore x / 4 = s.me.coreIdx / 4 then s.cycle + 8 else s.cycle + s.trip

/-- Drop a word access, or keep what it has left. -/
def keepWord (w : WordReq) (left : Option WordReq) (s : State) : State :=
  s.mapMe fun c => { c with words := c.words.filterMap fun u => if u.id = w.id then left else some u }

/-- An access to another core of a queued context stays in flight until its reply is there (R253). -/
def markReply (w : WordReq) (s : State) : State :=
  if s.me.timed || w.core == s.me.coreIdx then s else pendAt (replyAt s w.loc) (.remote w.core) s

/-- Serve one 8-byte unit of a word access of the context: reads of an own bank meet it as it stood before the cycle, `pre` (R250, R251); those of another context's bank were settled by the view at issue (R239). What a store writes for other contexts stands among the private entries since its issue (R120, R257). -/
def serveWord (pre : State) (w : WordReq) (s : State) : State :=
  match w.op with
  | .ld d got bad n =>
    let k := min n (8 - w.loc % 8)
    let cs := if ownBank s s.me w.loc then readPlace { pre with me := s.me } [] w.loc k else []
    let bs := got ++ cs.map (·.byte)
    let b := bad || cellsPoison cs
    if k < n then keepWord w (some { w with loc := w.loc + k, op := .ld d bs b (n - k), begun := true }) s
    else
      let res : Land := if b then .faulted d w.loc w.ptr w.addr else .s d ((BitVec.ofNat (8 * bs.length) (leNat bs)).signExtend 64)
      markReply w (arrive s.me.timed w.id res 0#6 (replyAt s w.loc) (keepWord w none s))
  | .st bs =>
    let k := min bs.length (8 - w.loc % 8)
    let s1 := { s with mem := writeBases s.mem w.loc (bs.take k) }
    if k < bs.length then keepWord w (some { w with loc := w.loc + k, op := .st (bs.drop k), begun := true }) s1
    else markReply w (keepWord w none s1)
  | .rmw d r =>
    let q := performAtomic r { s with mem := pre.mem }
    let res : Land := if q.2.2.1 then .faulted d r.loc w.ptr w.addr else .s d q.1
    let s1 := if q.2.2.1 then s else homeWrite r.loc (readBases q.2.2.2.mem r.loc (if r.w32 then 4 else 8)) s
    markReply w (arrive s.me.timed w.id res q.2.1 (replyAt s w.loc) (keepWord w none s1))

/-! ## The grants of one cycle (R250, R251, R253) -/

/-- The word accesses of a context that stand first for their granule and have reached its core. -/
def readyWords (cyc : Nat) (c : Ctx) : List WordReq :=
  c.words.filter fun w => decide (w.from0 ≤ cyc) && ((c.words.find? fun u => sramGran u.loc == sramGran w.loc).map (·.id)) == some w.id

/-- A word access with the launch and the core of its context. -/
structure Claim where
  launch : Nat
  core : Nat
  word : WordReq
  deriving DecidableEq, Repr

def claims (s : State) : List Claim :=
  s.ctxs.flatMap fun c => if c.life = .vacant then [] else (readyWords s.cycle c).map fun w => ⟨c.launch, c.coreIdx, w⟩

/-- Rotation by core within the bay: how far a source stands after the one served last. -/
def turnsFrom (last core : Nat) : Nat := (core + 4 - last % 4 - 1) % 4

/-- The claim a word-bay grant serves: one begun in the cycle before, else the next source core in rotation, the earliest of it first (R250, R253). -/
def pickBay (last : Nat) : List Claim → Option Claim
  | [] => none
  | x :: r => match pickBay last r with
    | none => some x
    | some y =>
      if x.word.begun then some x else if y.word.begun then some y
      else if turnsFrom last x.core < turnsFrom last y.core then some x
      else if turnsFrom last y.core < turnsFrom last x.core then some y
      else if x.word.id < y.word.id then some x else some y

/-- Is a claim one of the word-bay grant of its granule? -/
def Claim.isBay (x : Claim) : Bool := x.word.core != x.core && x.word.core / 4 == x.core / 4

/-- Is a claim one of a core of another bay, which no grant of R250 names? -/
def Claim.isFar (x : Claim) : Bool := x.word.core / 4 != x.core / 4

/-- The claims the word grants serve in this cycle: of each granule's word-bay grant one, then the local ones (R250, R251). -/
def servedNow (s : State) : List Claim :=
  let cs := claims s
  let bay := cs.filter (·.isBay)
  let grans := (bay.map fun x => sramGran x.word.loc).eraseDups
  let last (g : Nat) : Nat := ((s.bayServed.find? (·.1 == g)).map (·.2)).getD 3
  (grans.filterMap fun g => pickBay (last g) (bay.filter fun x => sramGran x.word.loc == g)) ++
    cs.filter fun x => x.word.core == x.core

/-- Serve a claim in its own context. -/
def serveClaim (pre : State) (s : State) (x : Claim) : State :=
  let s1 := s.onLaunch x.launch (serveWord pre x.word)
  if x.isBay then
    let g := sramGran x.word.loc
    { s1 with bayServed := (g, x.core) :: s1.bayServed.filter (·.1 != g) }
  else s1

/-- The rows of the S stream that the context writes in this cycle (R225, R229); a frozen bay halts them (R356). -/
def rowsNow (s : State) (c : Ctx) : List Pend :=
  if c.life = .vacant || (c.timed && (s.bay c.die c.bay).frozen) then []
  else c.pend.filter fun p => p.what.inBank && decide (p.due ≤ s.nowOf c)

/-- A row of the S stream is written: it is covered from its retirement on, when that has come at accession `cov` (R128, R225, R229, R236). -/
def putRow (x : Nat) (bs : List Byte) (ret : Nat) (cov : Option Nat) (s : State) : State :=
  let s1 := bankPut (.row ret) (s.me.knownBy .s s.now) 0#64 x bs s
  match cov with
  | none => s1
  | some n => s1.mapMe fun c => { c with priv := c.priv.map fun p => if p.src = .row ret then { p with waited := some n, waitedAt := s.now } else p }

/-- Write one row of the S stream that is due (R225, R236). -/
def writeRow (p : Pend) (s : State) : State :=
  match p.what with
  | .bankRow x bs ret cov =>
    (putRow x bs ret cov s).mapMe fun c => { c with pend := c.pend.filter (· != p) }
  | _ => s

/-- The rows of one context. -/
def writeRows (s : State) (c : Ctx) : State := (rowsNow s c).foldl (fun s p => s.onLaunch c.launch (writeRow p)) s

/-- The bank accesses of a cycle: every read of a grant meets the banks as they stood before it; then the row writes, the words of the bay and the local words (R251). Words from other bays follow one after another, each meeting what the ones before it left, so that atomics keep their order (R125, R254; log 40). -/
def bankCycle (s : State) : State :=
  ((claims s).filter (·.isFar)).foldl (fun t x => serveClaim t t x) ((servedNow s).foldl (serveClaim s) (s.ctxs.foldl writeRows s))

/-! ## What a drain, or a landing that comes first, performs at once -/

/-- Perform the context's word accesses in order, up to number `id`; `fuel` bounds their units. -/
def serveUpTo (id : Nat) : (fuel : Nat) → State → State
  | 0, s => s
  | n + 1, s => match s.me.words with
    | [] => s
    | w :: _ => if w.id ≤ id then serveUpTo id n (serveWord s w s) else s

/-- Perform the word accesses of the context (R353 step 2). -/
def serveAll (s : State) : State := serveUpTo s.seqs (2 * s.me.words.length) s

end Sys2Proof.Machine
end

