-- ==== Sys2Proof/Machine/Ops.lean ====
section
/-!
DEFINITION. The shared operations of every meaning: retiring, jumping, waiting, giving tokens, landing results, completing array work, draining, taking a trap and returning from one, ending a context.
-/
namespace Sys2Proof.Machine

/-- What a meaning answers. -/
abbrev Ans := Host.Outcome State Fault Refusal

/-! ## Retiring (R18, R77, R116, R117) -/

/-- The loop stack after the instruction that ends at `last` retires without a transfer (R117): the new stack and the next fetch address. -/
def loopEnd (last : W64) (nxt : W64) : List LoopEnt → List LoopEnt × W64
  | [] => ([], nxt)
  | e :: r =>
    if e.stop = last then
      if e.cnt - 1#64 = 0#64 then loopEnd last nxt r
      else ({ e with cnt := e.cnt - 1#64 } :: r, e.start)
    else (e :: r, nxt)

/-- The PC of a stream. -/
def pcOf (s : State) (x : StreamId) : W64 := (s.me.strm x).pc

/-- Is an address inside a loop body (R116). -/
def inBody (e : LoopEnt) (a : W64) : Bool := decide (e.start ≤ a) && decide (a ≤ e.stop)

/-- The loop stack after a transfer to an address (R117). -/
def loopJump (a : W64) : List LoopEnt → List LoopEnt
  | [] => []
  | e :: r => if inBody e a then e :: r else loopJump a r

/-- Count a retired instruction (R351). -/
def countRetired (t : Strm) : Strm := { t with acc := (t.acc + 1) % 2 ^ 48 }

/-- Move past an instruction of n words (R78, R117): the next fetch, and the cycle the next issue delay counts from (R77). -/
def stepPast (n : Nat) (now : Nat) (t : Strm) : Strm :=
  let r := loopEnd (t.pc + BitVec.ofNat 64 (4 * (n - 1))) (t.pc + BitVec.ofNat 64 (4 * n)) t.loops
  { t with pc := r.2, loops := r.1, ref := now + 1 }

/-- The instruction of n words retires and transfers no control. -/
def retire (x : StreamId) (n : Nat) (s : State) : State :=
  { s.mapMe (fun c => c.mapStrm x fun t => countRetired (stepPast n s.now t)) with last := .retired }

/-- The instruction issued and its stream goes on; it retires later (R229). -/
def issuePast (x : StreamId) (n : Nat) (s : State) : State :=
  { s.mapMe (fun c => c.mapStrm x (stepPast n s.now)) with last := .issued }

/-- The instruction retires and transfers control to an address (R117). -/
def jump (x : StreamId) (a : W64) (s : State) : State :=
  { s.mapMe (fun c => c.mapStrm x fun t =>
      countRetired { t with pc := a, loops := loopJump a t.loops, ref := s.now + 1 }) with last := .retired }

/-- The instruction waits at issue; nothing changes, and it is tried again next cycle (R18, R77, R127). -/
def waitAt (s : State) : State := { s with last := .waiting }

/-- Knowledge of a stream, its own retired instructions included (R128). -/
def Ctx.know (c : Ctx) (x : StreamId) : Ord := (c.strm x).know x

/-- Can the gives of a header be made in this cycle (R18). A header that gives to two FIFOs of which one is full makes neither give until both have room (DESIGN CHOICE, log 128). -/
def giveRoom (c : Ctx) (x : StreamId) (h : BitVec 4) (cyc : Nat) : Bool :=
  (!h.getLsbD 1 || (c.fifo x false).room cyc) && (!h.getLsbD 0 || (c.fifo x true).room cyc)

/-- Make the gives of a header (R75): bit 1 to the stream before, bit 0 to the stream after. -/
def giveNow (c : Ctx) (x : StreamId) (h : BitVec 4) (cyc : Nat) : Ctx :=
  let o := c.know x
  let c1 := if h.getLsbD 1 then c.setFifo x false ((c.fifo x false).give cyc o) else c
  if h.getLsbD 0 then c1.setFifo x true ((c1.fifo x true).give cyc o) else c1

/-- Give the tokens of a header at retirement, or hold the stream until room appears (R18). -/
def giveOrHold (x : StreamId) (h : BitVec 4) (s : State) : State :=
  s.mapMe fun c =>
    if h.getLsbD 1 || h.getLsbD 0 then
      if (c.strm x).held.isEmpty && giveRoom c x h s.cycle then giveNow c x h s.cycle
      else c.mapStrm x fun t => { t with held := t.held ++ [h] }
    else c

/-! ## The header (R18, R75 to R77) -/

/-- Does a stream's header hold tokens: in a queued context, outside supervisor mode (R19, R75, R353). -/
def usesTokens (c : Ctx) : Bool := !c.timed && !c.sup

/-- Are the waits of a header met (R18). -/
def waitsReady (c : Ctx) (x : StreamId) (h : BitVec 4) (cyc : Nat) : Bool :=
  (!h.getLsbD 3 || (c.fifo x.prev true).ready cyc) && (!h.getLsbD 2 || (c.fifo x.next false).ready cyc)

/-- What the token at the head of a FIFO orders. -/
def headOrd (q : Fifo) : Ord :=
  match q.toks with
  | [] => Ord.zero
  | t :: _ => t.ord

/-- The knowledge the tokens of a header bring (R128). -/
def learn (x : StreamId) (h : BitVec 4) (c : Ctx) : Ctx :=
  let o1 := if h.getLsbD 3 then headOrd (c.fifo x.prev true) else Ord.zero
  let o2 := if h.getLsbD 2 then headOrd (c.fifo x.next false) else Ord.zero
  c.mapStrm x fun t => { t with ord := Ord.max t.ord (Ord.max o1 o2) }

/-- Take the tokens a header waits on (R18). -/
def takeWaits (x : StreamId) (h : BitVec 4) (cyc : Nat) (c : Ctx) : Ctx :=
  let c1 := if h.getLsbD 3 then c.setFifo x.prev true ((c.fifo x.prev true).take cyc) else c
  if h.getLsbD 2 then c1.setFifo x.next false ((c1.fifo x.next false).take cyc) else c1

/-- Set the gives the retirement issued last owes (R18, R229). -/
def oweGive (h : BitVec 4) (counts : Bool) (c : Ctx) : Ctx :=
  { c with rets := match c.rets.reverse with
    | [] => []
    | r :: rs => (({ r with give := h, counts := counts } : Retiring) :: rs).reverse }

/-- End an issue: waits taken and gives made when the instruction issued; nothing of them when it waits or traps (R18, R76). -/
def finish (launch : Nat) (x : StreamId) (waits gives : BitVec 4) (counts : Bool) (old : Ord) (s : State) : State :=
  if s.me.launch ≠ launch then s
  else match s.last with
    | .retired => giveOrHold x gives (s.mapMe (takeWaits x waits s.cycle))
    | .issued => s.mapMe fun c => oweGive gives counts (takeWaits x waits s.cycle c)
    | _ => s.mapMe fun c => c.mapStrm x fun t => { t with ord := old }

/-! ## CSRs (R42, R44, R152) -/

/-- A CSR as CSRR reads it, zero-extended (R152). -/
def readCsr (c : Ctx) (r : Csr) : W64 :=
  match r with
  | .ctxclass => if c.timed then 1#64 else 0#64
  | .status => c.status.setWidth 64
  | .vrank => c.vrank.setWidth 64
  | .vcount => c.vcount.setWidth 64
  | .part => c.part
  | .frnd => c.frnd.setWidth 64
  | .fflags => c.fflags.setWidth 64
  | .scaleRcp => c.scaleRcp.setWidth 64
  | .dmode => match c.dmode with
    | .off => 0#64
    | .fwd => 1#64
    | .rev => 2#64
  | .tapeBase => c.tapeBase
  | .tapeLimit => c.tapeLimit
  | .tapeHead => c.tapeHead
  | .adjRoot => c.adjRoot
  | .patchEpoch => c.patchEpoch.setWidth 64
  | .yieldDl => c.yieldDl
  | .expStall => c.expStall
  | .trapVec => c.trapVec
  | .trapCause => c.trapCause

/-- Put a value into a CSR a program may write; the others are never written by one (R42, R309). -/
def putCsr (c : Ctx) (r : Csr) (v : W64) : Ctx :=
  match r with
  | .status => { c with status := v.setWidth 2 }
  | .frnd => { c with frnd := v.setWidth 4 }
  | .fflags => { c with fflags := v.setWidth 5 }
  | .scaleRcp => { c with scaleRcp := v.setWidth 32 }
  | .tapeBase => { c with tapeBase := v, tapeHead := v }
  | .tapeLimit => { c with tapeLimit := v }
  | .tapeHead => { c with tapeHead := v }
  | .adjRoot => { c with adjRoot := v }
  | .expStall => { c with expStall := v }
  | .trapVec => { c with trapVec := v }
  | .ctxclass | .vrank | .vcount | .part | .dmode | .patchEpoch | .yieldDl | .trapCause => c

/-! ## Mailboxes (R140 to R142, R337) -/

def State.mbx (s : State) (die num : Nat) : Mbx :=
  (s.mailboxes.find? fun m => m.die == die && m.num == num).getD ⟨die, num, 0#64, []⟩

def State.setMbx (s : State) (m : Mbx) : State :=
  { s with mailboxes := m :: s.mailboxes.filter fun x => !(x.die == m.die && x.num == m.num) }

/-- Take the oldest message: what the receiver gets, and the mailbox after it (R142). -/
def takeMsg (m : Mbx) : Option (W64 × Mbx) :=
  match m.msgs with
  | [] => none
  | v :: r => some (v, { m with msgs := r })

/-! ## Landing of pending results (R104, R105, R251, R357, R358) -/

/-- Set one bank format (R31, R160). -/
def setBf (c : Ctx) (b : Nat) (f : Fmt) : Ctx := if h : b < 48 then { c with bf := c.bf.set b f } else c

/-- Is an entry covered by a timed PHASE with a given accession and issue cycle (R128, R130)? -/
def phaseCovers (acc issued : Nat) (p : Prov) : Bool :=
  match p.src with
  | .cs => decide (p.pos ≤ acc)
  | .cmd _ t => if p.waited.isSome then decide (p.waitedAt < issued) else t == swapTag
  | .row _ => p.waited.isSome && decide (p.waitedAt < issued)

/-- Spills the publish a landing refresh makes would add beyond the version areas' room (R260). -/
def landShort (s : State) (p : Pend) : Nat :=
  match p.what with
  | .refresh x acc at0 => spaceShort x .c (phaseCovers acc at0) s
  | _ => 0

/-- Does the landing refresh of a timed PHASE find a covered write still parked, or no room for what it publishes (R130, R260), or the landing of an atomic the atomic itself (R267)? -/
def landHeld (s : State) (p : Pend) : Bool :=
  match p.what with
  | .refresh _ acc at0 => decide (0 < landShort s p) || s.me.priv.any fun q => q.parked.isSome && phaseCovers acc at0 q.prov
  | .await _ id => s.me.priv.any fun q => match q.kind with
    | .atom _ _ j => j == id
    | .plain | .acc _ => false
  | _ => false

/-- A CSR write lands. A handler's write that sets STATUS bit 1 with an interrupt pending lets it in (R153, R347). -/
def landCsr (r : Csr) (v : W64) (c : Ctx) : Ctx :=
  let d := putCsr c r v
  { d with irqNow := d.status.getLsbD 1 && (c.irqNow || (!c.status.getLsbD 1 && c.irq != 0#7)) }

/-- Hold an asynchronous trap (R348). -/
def holdAsync (cls : Nat) (info : List Byte) (s : State) : State :=
  s.mapMe fun c => { c with held := c.held ++ [⟨cls, info⟩], heldAt := if c.held.isEmpty then s.cycle else c.heldAt }

/-- One result lands. A poisoned word lands as 0: in a queued context its uncorrectable error is held as an asynchronous trap (R282, R348, R358). -/
def landOne (p : Pend) (s : State) : State :=
  match p.what with
  | .s d v | .far d v _ _ _ => s.withMe (putS s.me d v)
  | .f d v => s.withMe (putF s.me d v)
  | .g d v => s.withMe (putG s.me d v)
  | .lay d v => s.withMe (putL s.me d v)
  | .v d r => s.withMe (putV s.me d r)
  | .fflags f => s.withMe (orFflags s.me f)
  | .lf fs => s.mapMe fun c => { orLf c fs with
      lfNow := (p.due, if c.lfNow.1 = p.due then (List.range 128).map fun j => c.lfNow.2.getD j 0#6 ||| fs.getD j 0#6 else fs) }
  | .hist is => s.mapMe fun c => { c with hist := histCount c.hist is }
  | .csr r v => s.withMe (landCsr r v s.me)
  | .bf b f => s.withMe (setBf s.me b f)
  | .bankRow x bs ret cov => putRow x bs ret cov s
  | .await _ _ => s
  | .give y h => giveOrHold y h s
  | .tag n t => s.mapMe (·.setTag n t)
  | .barSet bs => s.mapMe fun c => { c with bars := bs }
  | .mregs ms ks ps cix => s.mapMe fun c => { c with ms := ms, ks := ks, ps := ps, cix := cix }
  | .lfHist lf hist => s.mapMe fun c => { c with lf := lf, hist := hist }
  | .refresh x acc at0 => refresh x (publishSel x .c (phaseCovers acc at0) s)
  | .mbxTry d b =>
    match takeMsg (s.mbx (b / 256) (b % 256)) with
    | none => s.withMe (putS s.me d 0x8000000000000000#64)
    | some (v, m) => let s1 := s.setMbx m; refresh .dev (s1.withMe (putS s1.me d v))
  | .faulted d x ptr addr =>
    let s1 := s.withMe (putS s.me d 0#64)
    if s.me.timed || s.me.sup then s1 else holdAsync 14 (poisonInfo s.mem addr x ptr 0xFF) s1
  | .remote _ => s

/-- Is an asynchronous trap a candidate, from the cycle after it was found (R348)? -/
def asyncStands (s : State) : Bool :=
  s.me.life == .active && !s.me.held.isEmpty && decide (s.me.heldAt < s.cycle) && !s.me.sup && s.me.trapWait.isNone

/-- Does the landing stand still: a refresh or the result of an atomic behind a parked write (R130, R267), or a faulted word of a timed context behind an asynchronous trap (R346)? -/
def landStays (s : State) (p : Pend) : Bool :=
  landHeld s p || (match p.what with
    | .faulted _ _ _ _ => s.me.timed && asyncStands s
    | _ => false)

/-- Is a result due in a cycle? Rows of banks are written at its end (R251). -/
def dueIn (now : Nat) (p : Pend) : Bool := !p.what.inBank && decide (p.due ≤ now)

/-- Does a landing trap at once: a faulted word of a timed context (R358), or one of the handler's own loads (R348)? -/
def landTraps (s : State) (p : Pend) : Option (Nat × W64 × W64) :=
  match p.what with
  | .faulted _ x q a => if s.me.timed || s.me.sup then some (x, q, a) else none
  | _ => none

/-- A latch whose access has not been performed by its landing cycle: it is performed now, with those before it (log 95). -/
def fillNow (p : Pend) (s : State) : State :=
  match p.what with
  | .await _ id => serveUpTo id (2 * s.me.words.length) s
  | _ => s

/-- Land the results due by a cycle, in order; `fuel` bounds their number. Answers location, pointer and instruction address of a faulted one, which ends the landing. -/
def landDue (upto : Nat) : (fuel : Nat) → State → State × Option (Nat × W64 × W64)
  | 0, s => (s, none)
  | n + 1, s0 =>
    match s0.me.pend with
    | [] => (s0, none)
    | q :: _ =>
      if !dueIn upto q || landStays s0 q then (s0, none)
      else
        let s := fillNow q s0
        match s.me.pend with
        | [] => (s, none)
        | p :: r =>
          if landStays s p then (s, none)
          else
            let s1 := landOne p (s.mapMe fun c => { c with pend := r })
            match landTraps s p with
            | some x => (s1, some x)
            | none => landDue upto n s1

/-- Land everything pending, with the word accesses on their way and the rows still to be written (R353 step 2). -/
def landAll (s : State) : State :=
  let s1 := serveAll s
  s1.me.pend.foldl (fun s p => landOne p s) (s1.mapMe fun c => { c with pend := [] })

/-! ## Array work (R35, R38, R208, R209, R213) -/

/-- Is a retirement of the pair in progress in a cycle (R209). -/
def pairRetiring (c : Ctx) (pair now : Nat) : Bool := c.rets.any fun r => r.pair == pair && decide (now < r.start + 128)

/-- The command completes: its back becomes the front (R38, R209). An earlier command on the pair that is still in flight no longer changes it. -/
def completeACmd (a : ACmd) (s : State) : State :=
  s.mapMe fun c => { (c.setFront ⟨a.pair, a.int, a.opens, a.result⟩) with
    acmds := (c.acmds.filter (·.id != a.id)).map fun b =>
      if b.pair = a.pair ∧ b.id < a.id then { b with result := a.result, int := a.int, opens := a.opens } else b }

/-- Does any work in flight still use a pair (R208). -/
def pairBusy (c : Ctx) (pair now : Nat) : Bool :=
  c.acmds.any (fun a => a.pair == pair || a.reads.contains pair) || pairRetiring c pair now

/-- Does any array command in flight still read a slot granule (R35). -/
def granBusy (c : Ctx) (g now : Nat) : Bool :=
  c.acmds.any fun a => a.slots.contains g && !(a.started && decide (a.start + a.occ ≤ now))

def insertNat (x : Nat) : List Nat → List Nat
  | [] => [x]
  | y :: r => if x < y then x :: y :: r else if x = y then y :: r else y :: insertNat x r

/-- A released pair returns to the free list (R36, R208). -/
def returnPair (p : Nat) (c : Ctx) : Ctx :=
  { c with freePairs := insertNat p c.freePairs, backPairs := c.backPairs.filter (· != p) }

/-- A released granule returns to the free slots (R35). -/
def returnSlot (g : Nat) (c : Ctx) : Ctx :=
  { c with freeSlots := insertNat g c.freeSlots, backSlots := c.backSlots.filter (· != g) }

/-- The array commands and loads of the context complete in order, with their exchanges (R353 step 2). -/
def completeAllA (s : State) : State :=
  let s1 := s.me.acmds.foldl (fun s a => completeACmd a s) s
  s1.mapMe fun c => { c with loads := [] }

/-- The rows a retirement still has to write in its last cycle know the accession it came at (R128, R236). -/
def coverRow (id acc : Nat) (p : Pend) : Pend :=
  match p.what with
  | .bankRow x bs ret _ => if ret = id then { p with what := .bankRow x bs ret (some acc) } else p
  | _ => p

/-- A retirement retires (R229): its instruction counts, its rows are covered, and its header's gives are made. -/
def finishRet (r : Retiring) (s : State) : State :=
  let s1 := s.mapMe fun c =>
    let t := if r.counts then countRetired c.strS else c.strS
    { c with rets := c.rets.filter (·.id != r.id), strS := t, pend := c.pend.map (coverRow r.id t.acc),
             priv := c.priv.map fun p => if p.src = .row r.id then { p with waited := some t.acc, waitedAt := s.now } else p }
  giveOrHold .s r.give s1

def finishRets (s : State) : State := s.me.rets.foldl (fun s r => finishRet r s) s

/-! ## Draining (R353 step 2) -/

/-- A parked write is placed: it proceeds as an ordinary write, which replaces what it covers and discards the accumulates before it (R267, R314). -/
def unpark (p : Priv) (s : State) : State :=
  let q := { p with parked := none }
  settleLast q (s.mapMe fun c => addPriv q { c with priv := c.priv.filter (· != p) })

/-- The bytes an entry puts into its block: those of an atomic as its home value makes them now (R266). -/
def placedCells (s : State) (p : Priv) : Priv :=
  match p.kind with
  | .atom r _ _ => { p with cells := atomCells s r }
  | .plain | .acc _ => p

/-- Does a block lie on a compressible page of DRAM (R264, R272)? -/
def compBlock (s : State) (b : Nat) : Bool := (s.part? s.me.vmid).isNone || (compPart s (b * 512)).isSome

/-- Reserve every block of a parked write of the context, or nothing (R266, R267). A block whose page lies on the stacks by now needs no sector (R272). -/
def reserveAll (p : Priv) (s : State) : State × Bool :=
  let s0 := s.mapMe fun c => { c with priv := c.priv.map fun x => if x = p then { placedCells s p with parked := none } else x }
  let r := ((blocksOf p.cells).filter (compBlock s)).foldl (fun (acc : State × Bool) b => if acc.2 then reserveBlock s.me.vmid b acc.1 else acc) (s0, true)
  if r.2 then ({ r.1 with me := { r.1.me with priv := s.me.priv } }, true) else (s, false)

/-- Is an entry a write of a command? -/
def isCmdPriv (id : Nat) (p : Prov) : Bool :=
  match p.src with
  | .cmd i _ => i == id
  | .cs | .row _ => false

/-- A copy completes or records its fault during a drain (R353; log 13); one that waits for sectors or for the memory processor stays in flight. -/
def drainCmd (id : Nat) (s : State) : State :=
  match s.cmd? id with
  | none => s
  | some c =>
    if c.isCol || c.st == .parked || c.st == .pageWait then s
    else
      let s1 := if c.isExp then decodeAll (2 ^ 20) id s else s
      match s1.cmd? id with
      | none => s1
      | some c1 => completeCopy c1 s1

/-- The copies of the context in issue order. -/
def drainCmds (s : State) : State := (s.me.cmds.map (·.id)).foldl (fun s i => drainCmd i s) s

/-- Drain the work in flight of a queued context: retirements, array work, C-stream results, copies; collectives are left (R353). -/
def drain (s : State) : State :=
  drainCmds (landAll (completeAllA (landAll (finishRets s))))

/-- Does a command in flight hold the drain: any but a collective armed on a bucket (R353)? -/
def workLeft (c : Ctx) : Bool := c.cmds.any fun x => x.st != .armed

/-! ## Active contexts and leases (R13, R15, R210 to R212, R354, R418) -/

/-- End a context's term and withdraw its request (R15, R211). -/
def endLease (launch : Nat) (s : State) : State :=
  { s with bays := s.bays.map fun b =>
      { b with
        term := (match b.term with
          | some t => if t.launch = launch then none else some t
          | none => none)
        ended := (match b.term with
          | some t => if t.launch = launch then s.cycle else b.ended
          | none => b.ended)
        reqs := b.reqs.filter (·.launch != launch) } }

/-- The resident context of the other bank of a core, if it can run (R13, R354). -/
def otherBank (s : State) (c : Ctx) : Option Ctx :=
  s.ctxs.find? fun x => x.life == .resident && x.die == c.die && x.bay == c.bay && x.core == c.core && x.bank != c.bank

/-- Make the other bank's context active (R13). -/
def wakeOther (s : State) (c : Ctx) : State :=
  match otherBank s c with
  | none => s
  | some o => s.mapLaunch o.launch fun x => { x with life := .active, turnAt := s.cycle + 1 }

/-- Take a context away: its bank is vacant again (R146, R329). -/
def vacate (launch : Nat) (s : State) : State :=
  let s1 := endLease launch s
  { s1 with
    me := (if s1.me.launch = launch then { Ctx.fresh with die := s1.me.die, bay := s1.me.bay, core := s1.me.core, bank := s1.me.bank } else s1.me)
    ring := s1.ring.filter (·.launch != launch)
    bays := s1.bays.map fun b => { b with trapped := b.trapped.filter (· != launch) } }

def State.node? (s : State) (die idx : Nat) : Option Node := s.nodes.find? fun n => n.die == die && n.idx == idx

def State.setNode (s : State) (n : Node) : State :=
  { s with nodes := s.nodes.map fun m => if m.die = n.die ∧ m.idx = n.idx then n else m }

/-- The dispatcher of a die has something to judge (R330). -/
def wakeDie (die : Nat) (s : State) : State :=
  if s.dispatchDue.contains die then s else { s with dispatchDue := s.dispatchDue ++ [die] }

/-- Capacity is freed: every die with a node in READY judges again, since an entry may take places on other dies (R330). -/
def wakeReady (s : State) : State :=
  (List.range 4).foldl (fun t d => if t.nodes.any fun n => n.die == d && n.st == .ready then wakeDie d t else t) s

/-- A gang ends with a failing status: every instance is discarded, and the node finishes (R329). -/
def endGang (die idx status xrank : Nat) (s : State) : State :=
  let ls := (s.ctxs.filter fun c => c.life != .vacant && c.nodeDie == die && c.nodeIdx == idx)
  let s1 := wakeReady (ls.foldl (fun s c => wakeDie c.die (wakeOther (vacate c.launch s) c)) s)
  match s1.node? die idx with
  | none => s1
  | some n => s1.setNode { n with st := .finishing, status := status, xrank := xrank, live := [] }

/-! ## The error log (R284, R366) -/

/-- The memory processor logs an event at a place of a unit. -/
def logError (loc unit : Nat) (s : State) : State :=
  { s with errors := s.errors ++ [⟨s.ptp, loc, unit, false, Config.syndrome s.fresh, none⟩], fresh := s.fresh + 1 }

/-- The unit an error is logged for (R10, R284). -/
def errUnit (x : Nat) : Nat := if isSram x then locOff x / 0x300000 else paDie x

/-- Where the data of a class 14 trap lies: the place of the pointer, for data of a bank, else the physical address its INFO names (R352, R370). -/
def poisonLoc (s : State) (t : TrapReq) : Nat :=
  let a := leNat ((t.info.drop 8).take 8)
  if leNat ((t.info.drop 17).take 1) = 3 then match s.scrLoc s.me (BitVec.ofNat 64 a) 1 with
    | .ok p => p.loc
    | .error _ => locPa s.rank a
  else locPa s.rank a

/-- Traps of classes 14 and 15 are logged (R284, R352, R366): a link by its port, data by its place. An error found in the same 512 bytes stands in the log already (R367; log 18). -/
def logTrap (t : TrapReq) (s : State) : State :=
  let x := poisonLoc s t
  if t.cls = 15 then logError 0 (leNat (t.info.take 1)) s
  else if t.cls = 14 && !(s.errors.any fun e => !e.corrected && e.loc / 512 == x / 512) then logError x (errUnit x) s
  else s

/-! ## Taking a trap (R345 to R357) -/

/-- STREAM of a trap: 0 by definition for classes 15 and 16 (R349). -/
def trapStream (t : TrapReq) : StreamId := if t.cls = 15 ∨ t.cls = 16 then .c else t.stream

/-- TRAP.CAUSE (R349). -/
def causeOf (t : TrapReq) (recVa : W64) : W64 :=
  BitVec.ofNat 64 (t.cls * 2 ^ 58 + (trapStream t).num * 2 ^ 56 + t.qual * 2 ^ 52 + natBits recVa.toNat 46 8 * 2 ^ 8)

/-- The record's bytes (R351). -/
def recordBytes (c : Ctx) (cause : W64) (info report : List Byte) : List Byte :=
  le64 cause ++ leBytes 8 c.status.toNat ++ padTo 80 [] ++
  le64 c.strC.pc ++ le64 c.strA.pc ++ le64 c.strM.pc ++ le64 c.strS.pc ++
  leBytes 8 c.irq.toNat ++
  leBytes 6 c.strC.acc ++ leBytes 6 c.strA.acc ++ leBytes 6 c.strM.acc ++ leBytes 6 c.strS.acc ++
  padTo 64 info ++ padTo 32 report

/-- Write the trap record into the record page at its home (R350). -/
def writeRecord (cause : W64) (info report : List Byte) (s : State) : State :=
  if s.me.recPage = 0 then s
  else { s with mem := writeBases s.mem (locPa s.rank s.me.recPage) (recordBytes s.me cause info report) }

/-- The frame of an entry (R353 step 3, R357). -/
def mkFrame (c : Ctx) : Frame :=
  { loops := c.strC.loops, subst := c.subst, latches := if c.timed then c.pend else [],
    refs := [c.strC.ref, c.strA.ref, c.strM.ref, c.strS.ref],
    spcs := [c.strC.pc, c.strA.pc, c.strM.pc, c.strS.pc], replay := none, bar := if c.timed then c.barWait else none }

/-- A timed context that traps freezes its bay (R356). -/
def freezeBay (s : State) : State :=
  if s.me.timed then
    let b := s.myBay
    s.setBay { b with frozen := true, trapped := s.me.launch :: b.trapped }
  else s

/-- A freeze that runs no handler: the bay of the context stands still until its condition clears (R360). -/
def holdBay (s : State) : State :=
  let b := s.myBay
  s.setBay { b with frozen := true, hold := true }

/-- Spills the publish of a boundary of stream x would add beyond the version areas' room (R260). -/
def shortOf (scope : Scope) (x : StreamId) (s : State) : Nat := spaceShort scope x (covers s.me x s.now) s

/-- Does a boundary of stream x wait: for a parked write it covers, or for version space (R129, R260)? -/
def boundaryBarred (scope : Scope) (x : StreamId) (s : State) : Bool := coverParked s.me x s.now || decide (0 < shortOf scope x s)

/-- A boundary that a parked write or the lack of version space holds: the instruction waits; a paced context freezes its bay (R129, R130, R260, R360). -/
def boundaryHold (short : Nat) (s : State) : Ans :=
  .next (waitAt ((if s.me.paced then holdBay s else s).mapMe fun c => { c with roomWait := short }))

/-- The partition's default vector (R326). -/
def defVecOf (s : State) (vmid : Nat) : W64 := ((s.part? vmid).map (·.defVec)).getD 0#64

/-- Continue the C stream in supervisor mode at an address (R353 step 4); reaching the default vector ends the node with status 7 (R326). -/
def enterHandler (vec : W64) (s : State) : State :=
  if vec ≠ 0#64 ∧ vec = defVecOf s s.me.vmid then
    endGang s.me.nodeDie s.me.nodeIdx 7 s.me.vrank.toNat s
  else
    s.mapMe fun c => { c with
      status := 1#2
      strC := { c.strC with pc := vec, loops := [], ref := s.cycle }
      subst := []
      pend := if c.timed then [] else c.pend }

/-- The handler offset a TRAP slot gives the class 1 trap of the word it matches (R376). -/
def trapSlotOff (t : TrapReq) (s : State) : Nat :=
  if t.cls = 1 then match win s s.me t.stream (s.wordsAt t.stream).1 with
    | some d => if slotAction d = 1 then slotVoff d else 0
    | none => 0
  else 0

/-- Land what was due before this cycle (R368). -/
def landEarlier (s : State) : State := if s.clock = 0 then s else (landDue (s.clock - 1) (4 * s.me.pend.length + 8) s).1

/-- The device whose memory processor gets a trap: the one named after the fault report, else this one (R295). -/
def trapDev (s : State) (t : TrapReq) : Nat :=
  match t.info.drop 96 with
  | [] => s.rank
  | bs => leNat bs

/-- The entry itself, once the context is drained (R353, R354, R377): frame, record, then the handler or the memory processor. -/
def enterTrap (t : TrapReq) (s0 : State) : State :=
  let s := if s0.me.timed then landEarlier s0 else s0
  let slot := winTrap s s.me (trapStream t) t.cls
  let toMp : Bool := match slot with
    | some d => slotRdest d == 1
    | none => t.cls == 7
  let voff := match slot with
    | some d => if slotRdest d = 0 then slotVoff d else 0
    | none => trapSlotOff t s
  let cause := causeOf t s.me.recVa
  let rep := (t.info.drop 64).take 32
  let s1 := writeRecord cause (t.info.take 64) (if t.cls = 5 ∧ t.qual = 3 then rep else []) (logTrap t s)
  let s2 := freezeBay (s1.mapMe fun c => { c with
    trapCause := cause, frame := some { mkFrame c with replay := if t.cls = 8 then c.withdrawn.head? else none }, frameImg := ctxImage c,
    withdrawn := if t.cls = 8 then c.withdrawn.tail else c.withdrawn, trapWait := none, barWait := none, diffWait := false,
    irq := if t.cls = 16 then 0#7 else c.irq, irqNow := false })
  if toMp then
    let s3 := (s2.mapMe fun c => { c with life := .awaiting, report := rep }).emit (.memprocFault (trapDev s t) s.me.launch rep)
    wakeOther (endLease s.me.launch s3) s.me
  else enterHandler (s2.me.trapVec + BitVec.ofNat 64 (64 * voff)) s2

/-- A double trap ends the node with status 5 and is reported (R150, R348). -/
def doubleTrap (t : TrapReq) (s : State) : State :=
  let s1 := (writeRecord (causeOf t s.me.recVa) (t.info.take 64) [] (logError 0 s.me.coreIdx s)).emit (.doubleTrap s.me.launch)
  endGang s.me.nodeDie s.me.nodeIdx 5 s.me.vrank.toNat s1

/-- The first load of a handler that lands as poisoned data when the context drains: where it failed, its pointer, its instruction (R348, R358). -/
def handlerFault (s : State) : Option (Nat × W64 × W64) := if s.me.sup then (serveAll (finishRets s)).me.pend.findSome? (landTraps s) else none

/-- A context drains; a handler's own load that meets poisoned data meanwhile is a double trap (R348, R353). -/
def drainOut (s : State) : State :=
  match handlerFault s with
  | some (x, q, a) => doubleTrap ⟨14, .c, 0, poisonInfo s.mem a x q 0xFF⟩ s
  | none => drain s

/-- Take a trap (R345, R348, R353, R356): in supervisor mode a double trap, but for an interrupt the handler has let in (R347); else the context drains (or its bay freezes) and enters. A collective, or a copy that waits for sectors or for the memory processor, holds the entry until it leaves. -/
def takeTrap (t : TrapReq) (s : State) : State :=
  if s.judging then { s.mapMe fun c => { c with trapWait := some t } with last := .trapped }
  else if s.me.sup && t.cls != 16 then { doubleTrap t s with last := .trapped }
  else
    let s1 := if s.me.timed then s else drainOut s
    if s1.me.life = .vacant then { s1 with last := .trapped }
    else if !s.me.timed && workLeft s1.me then
      { s1.mapMe fun c => { c with trapWait := some t } with last := .trapped }
    else { enterTrap t s1 with last := .trapped }

/-- An instruction of a stream traps at issue: no effect but the trap (R97). -/
def trapOn (x : StreamId) (e : Exc) (s : State) : Ans := .next (takeTrap (e.on x) s)

/-- An illegal dynamic combination of a stream's instruction (R97). -/
def illegal (x : StreamId) (s : State) : Ans := trapOn x (exIllegal s x) s

/-- A stream consumes poisoned data (R282): the asynchronous trap of class 14; in the handler itself a double trap (R348). -/
def consumePoison (x : StreamId) (loc : Nat) (ptr : W64) (s : State) : State :=
  let info := poisonInfo s.mem (s.me.strm x).pc loc ptr 0xFF
  if s.me.sup then { doubleTrap ⟨14, .c, 0, info⟩ s with last := .trapped } else holdAsync 14 info s

/-! ## Returning (R355, R359) -/

/-- A field of the record page as ERET reads it at its issue (R350, R351). -/
def recField (s : State) (off n : Nat) : Nat :=
  if s.me.recPage = 0 then 0 else leNat (readBases s.mem (locPa s.rank s.me.recPage + off) n)

/-- The word of a frame that gives a stream's PC back (R351). -/
def recSpc (s : State) (x : StreamId) : W64 := BitVec.ofNat 64 (recField s (96 + 8 * x.num) 8)

/-- Restore a context from its frame and record (R355). -/
def restoreFrame (f : Frame) (s : State) : State :=
  s.mapMe fun c => { c with
    status := BitVec.ofNat 2 (recField s 8 8)
    strC := { c.strC with pc := recSpc s .c, loops := f.loops, ref := if c.timed then f.refs.getD 0 0 else c.strC.ref }
    strA := { c.strA with pc := recSpc s .a, ref := if c.timed then f.refs.getD 1 0 else c.strA.ref }
    strM := { c.strM with pc := recSpc s .m, ref := if c.timed then f.refs.getD 2 0 else c.strM.ref }
    strS := { c.strS with pc := recSpc s .s, ref := if c.timed then f.refs.getD 3 0 else c.strS.ref }
    subst := f.subst.filter fun (x, _) => recSpc s x == f.spcs.getD x.num 0#64
    pend := if c.timed then f.latches else c.pend
    barWait := f.bar
    irqNow := (BitVec.ofNat 2 (recField s 8 8)).getLsbD 1 && c.irq != 0#7
    frame := none }

/-- The last handler of a frozen bay has returned: the context leaves the list, and TIMED_RESTART starts the counter in the next cycle (R359). A return into a handler leaves none. -/
def leaveFreeze (s : State) : State :=
  if s.me.timed && !s.me.sup then
    let b := s.myBay
    s.setBay { b with trapped := b.trapped.filter (· != s.me.launch) }
  else s

/-- The C-stream write ERET makes again (R269, R355): the one withdrawn, when the record's REPLAY bit is 1. -/
def eretReplay (f : Frame) (s : State) : Option Priv := if recField s 8 1 / 4 % 2 = 1 then f.replay else none

/-! ## Deferred faults at a wait (R168, R169, R352) -/

/-- The precise trap of a recorded fault under a tag (R352). -/
def tagExc (tag : Nat) (f : TagFault) : Exc :=
  let t := BitVec.ofNat 8 tag
  match f.fault.cls with
  | 8 => ⟨8, 0, padTo 64 (le64 f.addr ++ le64 f.ptr ++ [0#8, t])⟩
  | 9 => ⟨9, f.fault.qual, padTo 64 (le64 f.addr ++ le64 f.ptr ++ leBytes 4 f.fault.block ++ [BitVec.ofNat 8 f.fault.point, t])⟩
  | 13 => ⟨13, 0, padTo 64 (le64 f.addr ++ [BitVec.ofNat 8 f.comm, t])⟩
  | 14 => ⟨14, 0, padTo 64 (le64 f.addr ++ le64 f.ptr ++ [t, BitVec.ofNat 8 f.fault.point])⟩
  | 15 => ⟨15, 0, padTo 64 (leBytes 8 f.fault.block ++ le64 f.ptr)⟩
  | n => ⟨n, f.fault.qual, padTo 64 (le64 f.addr ++ le64 f.ptr ++ [BitVec.ofNat 8 f.kind, t]) ++ f.report⟩

/-- Take the recorded fault of a tag on a stream: the tag is IDLE again and the command abandoned (R146, R169). -/
def takeTagFault (x : StreamId) (tag : Nat) (f : TagFault) (s : State) : Ans :=
  trapOn x (tagExc tag f) (s.mapMe fun c => c.setTag tag { c.tag tag with fault := none, writer := none })

end Sys2Proof.Machine
end

