-- ==== Sys2Proof/Machine/CBranch.lean ====
section
/-!
DEFINITION. Branches, jumps and loops of the four streams' shared forms, and the C stream's (R81, R114 to R117).
-/
namespace Sys2Proof.Machine

/-- Transfer to the target when the condition holds, else fall through (R114). -/
def branchIf (x : StreamId) (c : Bool) (target : W64) (s : State) : Ans :=
  .next (if c then jump x target s else retire x 1 s)

/-- Push a loop entry: the body starts after the loop instruction (R116). One that stands at the end word of the enclosing body enters its own body and leaves the outer count, which the end of the inner body does not reach (R117; log 104). -/
def openLoop (x : StreamId) (stop cnt : W64) (s : State) : State :=
  { s.mapMe (fun c => c.mapStrm x fun t => countRetired { t with
      pc := t.pc + 4#64, loops := ⟨t.pc + 4#64, stop, cnt⟩ :: t.loops, ref := s.now + 1 }) with last := .retired }

/-- A loop with count 0 goes on after the body; it transfers no control (R116, R117; log 23). -/
def skipLoop (x : StreamId) (stop : W64) (s : State) : State :=
  { s.mapMe (fun c => c.mapStrm x fun t =>
      let r := loopEnd t.pc (stop + 4#64) t.loops
      countRetired { t with pc := r.2, loops := r.1, ref := s.now + 1 }) with last := .retired }

/-- A loop instruction with its count (R116): one issued when four entries are present is an illegal dynamic combination, whatever its count (log 103). -/
def loopWith (x : StreamId) (cnt : W64) (off : BitVec 12) (s : State) : Ans :=
  let stop := target12 (pcOf s x) off
  if 4 ≤ (s.me.strm x).loops.length then illegal x s
  else if cnt = 0#64 then .next (skipLoop x stop s)
  else .next (openLoop x stop cnt s)

/-- BEQ (R114). -/
def execBeq (a b : SReg) (off : BitVec 12) (s : State) : Ans :=
  branchIf .c (rdS s.me a == rdS s.me b) (target12 (pcOf s .c) off) s

/-- BNE (R114). -/
def execBne (a b : SReg) (off : BitVec 12) (s : State) : Ans :=
  branchIf .c (rdS s.me a != rdS s.me b) (target12 (pcOf s .c) off) s

/-- BLT (R114). -/
def execBlt (a b : SReg) (off : BitVec 12) (s : State) : Ans :=
  branchIf .c ((rdS s.me a).slt (rdS s.me b)) (target12 (pcOf s .c) off) s

/-- BGE (R114). -/
def execBge (a b : SReg) (off : BitVec 12) (s : State) : Ans :=
  branchIf .c (!(rdS s.me a).slt (rdS s.me b)) (target12 (pcOf s .c) off) s

/-- BLTU (R114). -/
def execBltu (a b : SReg) (off : BitVec 12) (s : State) : Ans :=
  branchIf .c (decide (rdS s.me a < rdS s.me b)) (target12 (pcOf s .c) off) s

/-- BGEU (R114). -/
def execBgeu (a b : SReg) (off : BitVec 12) (s : State) : Ans :=
  branchIf .c (decide (rdS s.me b ≤ rdS s.me a)) (target12 (pcOf s .c) off) s

/-- JMP (R115). -/
def execJmp (off : BitVec 22) (s : State) : Ans := .next (jump .c (target22 (pcOf s .c) off) s)

/-- JAL: the link in s31 with L = 1 (R115). -/
def execJal (off : BitVec 22) (s : State) : Ans :=
  .next (jump .c (target22 (pcOf s .c) off) (wrS 31 (pcOf s .c + 4#64) 1 s))

/-- JR: a bad target faults at its fetch (R115). -/
def execJr (a : SReg) (s : State) : Ans := .next (jump .c (rdS s.me a) s)

/-- LOOP (R116). -/
def execLoop (a : SReg) (off : BitVec 12) (s : State) : Ans := loopWith .c (rdS s.me a) off s

end Sys2Proof.Machine
end

