-- ==== Sys2Proof/Machine/Queues.lean ====
section
/-!
DEFINITION. Queue registers (R20, R21, R126): the shared push and pop, and the C stream's instructions.
-/
namespace Sys2Proof.Machine

/-- A queue that cannot be used now blocks its stream in a queued context and traps in a timed one (R21, R126). -/
def queueBlocked (x : StreamId) (s : State) : Ans := if s.me.timed then illegal x s else .next (waitAt s)

/-- Append a value and retire (R21). -/
def pushTo (x : StreamId) (q : QNo) (v : W64) (s : State) : Ans :=
  if (s.me.queue q).full s.cycle then queueBlocked x s
  else .next (retire x 1 (s.withMe (s.me.setQueue q ((s.me.queue q).push v s.cycle))))

/-- Remove the oldest entry. -/
def popQ (q : QNo) (s : State) : State := s.withMe (s.me.setQueue q ((s.me.queue q).pop 1 s.cycle))

/-- Go on with the oldest entry of a queue, when it can be popped (R21). -/
def withFront (x : StreamId) (q : QNo) (f : W64 → State → Ans) (s : State) : Ans :=
  match (s.me.queue q).front? s.cycle with
  | none => queueBlocked x s
  | some v => f v (popQ q s)

/-- QPUSH (R126). -/
def execQpush (q : QNo) (a : SReg) (s : State) : Ans := pushTo .c q (rdS s.me a) s

/-- QPOP (R126). -/
def execQpop (d : SReg) (q : QNo) (s : State) : Ans := withFront .c q (fun v t => .next (retire .c 1 (wrS d v 1 t))) s

/-- QCNT: the entries held in the issue cycle; never blocks (R126). -/
def execQcnt (d : SReg) (q : QNo) (s : State) : Ans :=
  .next (retire .c 1 (wrS d (BitVec.ofNat 64 ((s.me.queue q).held s.cycle)) 1 s))

end Sys2Proof.Machine
end

