-- ==== Sys2Proof/Machine/AScalar.lean ====
section
/-!
DEFINITION. A stream: address arithmetic, queues, branches, layout words and bank formats (R154 to R160).
-/
namespace Sys2Proof.Machine

/-- An A-stream instruction of one word with a 64-bit result of exposed latency `lat` (R154). -/
def gRes (d : GReg) (v : W64) (lat : Nat) (s : State) : Ans := .next (retire .a 1 (wrG d v lat s))

/-- GADD (R154). -/
def execGadd (d a b : GReg) (s : State) : Ans := gRes d (rdG s.me a + rdG s.me b) 1 s
/-- GSUB (R154). -/
def execGsub (d a b : GReg) (s : State) : Ans := gRes d (rdG s.me a - rdG s.me b) 1 s
/-- GMUL (R154). -/
def execGmul (d a b : GReg) (s : State) : Ans := gRes d (rdG s.me a * rdG s.me b) 3 s
/-- GSHL: the amount is b[5:0] (R154). -/
def execGshl (d a b : GReg) (s : State) : Ans := gRes d (rdG s.me a <<< ((rdG s.me b).toNat % 64)) 1 s
/-- GSHR (R154). -/
def execGshr (d a b : GReg) (s : State) : Ans := gRes d (rdG s.me a >>> ((rdG s.me b).toNat % 64)) 1 s
/-- GAND (R154). -/
def execGand (d a b : GReg) (s : State) : Ans := gRes d (rdG s.me a &&& rdG s.me b) 1 s
/-- GOR (R154). -/
def execGor (d a b : GReg) (s : State) : Ans := gRes d (rdG s.me a ||| rdG s.me b) 1 s
/-- GMIN, signed (R154). -/
def execGmin (d a b : GReg) (s : State) : Ans :=
  gRes d (if (rdG s.me a).slt (rdG s.me b) then rdG s.me a else rdG s.me b) 1 s
/-- GADDI (R154). -/
def execGaddi (d a : GReg) (imm : BitVec 12) (s : State) : Ans := gRes d (rdG s.me a + sx12 imm) 1 s

/-- GLI, two words (R81, R154). -/
def execGli (d : GReg) (imm : BitVec 17) (ext : W32) (s : State) : Ans := .next (retire .a 2 (wrG d (li49 imm ext) 1 s))

/-- GPOP (R21, R154). -/
def execGpop (d : GReg) (q : QNo) (s : State) : Ans := withFront .a q (fun v t => .next (retire .a 1 (wrG d v 1 t))) s

/-- GPUSH (R21, R154). -/
def execGpush (q : QNo) (a : GReg) (s : State) : Ans := pushTo .a q (rdG s.me a) s

/-- GB.EQ (R155). -/
def execGbEq (a b : GReg) (off : BitVec 12) (s : State) : Ans :=
  branchIf .a (rdG s.me a == rdG s.me b) (target12 (pcOf s .a) off) s
/-- GB.NE (R155). -/
def execGbNe (a b : GReg) (off : BitVec 12) (s : State) : Ans :=
  branchIf .a (rdG s.me a != rdG s.me b) (target12 (pcOf s .a) off) s
/-- GB.LT, signed (R155). -/
def execGbLt (a b : GReg) (off : BitVec 12) (s : State) : Ans :=
  branchIf .a ((rdG s.me a).slt (rdG s.me b)) (target12 (pcOf s .a) off) s
/-- GB.GE, signed (R155). -/
def execGbGe (a b : GReg) (off : BitVec 12) (s : State) : Ans :=
  branchIf .a (!(rdG s.me a).slt (rdG s.me b)) (target12 (pcOf s .a) off) s

/-- GJMP (R155). -/
def execGjmp (off : BitVec 22) (s : State) : Ans := .next (jump .a (target22 (pcOf s .a) off) s)

/-- GLOOP: the count is read from ga (R155). -/
def execGloop (a : GReg) (off : BitVec 12) (s : State) : Ans := loopWith .a (rdG s.me a) off s

/-- LAY.SET: nothing is checked (R156). -/
def execLaySet (l : LReg) (a : GReg) (s : State) : Ans := .next (retire .a 1 (wrL l (rdG s.me a) s))

/-- The access fault of a bank number at or above NBANK (R30, R352). -/
def bankFault (x : StreamId) (k : AccKind) (s : State) : Ans := trapOn x (exAcc s x 7 0#64 k 0xFF) s

/-- BF.SET: in force for every stream from the next cycle (R160). -/
def execBfSet (b : BankNo) (f : Fmt) (s : State) : Ans :=
  if s.me.nbank ≤ b.val then bankFault .a .read s
  else if s.me.isArmed b.val then illegal .a s
  else .next (retire .a 1 (pendAt (s.now + 1) (.bf b.val f) s))

end Sys2Proof.Machine
end

