-- ==== Sys2Proof/Machine/ACopy.lean ====
section
/-!
DEFINITION. A stream: the six copies, their start, completion and deferred faults, expansion, CP.WAIT (R161 to R173, R279, R311 to R318).
-/
namespace Sys2Proof.Machine

/-! ## The command an FC word stands for -/

/-- Format of the bank an SCR pointer addresses (R162); RAW when the pointer is bad, which traps later. -/
def scrFmt (s : State) (p : W64) : Fmt :=
  match s.scrCtx s.me p with
  | .ok x => x.bankFmt (ptrBank p)
  | .error _ => .raw

/-- A command as read at issue (R32, R161, R166). -/
def newCmd (k : CmdKind) (g : GReg) (b : BankNo) (l : LReg) (t : TagNo) (ser : Bool) (w1 : Nat) (s : State) : Cmd :=
  { id := s.seqs, kind := k, tag := t, ser := ser, bank := b, fmt := s.me.bankFmt b,
    xfmt := (if k = .cpBb then scrFmt s (rdG s.me g) else s.me.bankFmt b), ptr := rdG s.me g, lay := rdL s.me l, w1 := w1,
    addr := s.me.strA.pc, st := .running, issued := s.now, due := 0, moved := 0, acc := s.me.strA.acc + 1,
    ord := s.me.know .a, seen := s.me.knownBy .a s.now, dmode := (if k = .cpGth ∨ k = .cpSct then s.me.dmode else .off),
    tape := none, blocks := [], nextBlock := 0, fault := none, colSeq := 0, report := [], skip := [], nonFin := false }

/-- Index bank of a gather or scatter (R161). -/
def Cmd.xbank (c : Cmd) : Nat := natBits c.w1 24 19

/-! ## Legality at issue (R157, R158, R161 to R164, R184) -/

/-- A layout word refused at use (R157). -/
def layBad (l : W64) : Bool :=
  (layFmt l).isNone || layReserved l != 0 || layExp l == 3 || decide (12 < layAlign l)

/-- A zero field of word 1 that is not zero (R161). -/
def w1Bad (c : Cmd) : Bool :=
  match c.kind with
  | .cpIn => layExp c.lay == 0 && c.w1 % 2 ^ 25 != 0
  | .cpGth | .cpSct => c.w1 % 2 ^ 12 != 0
  | _ => c.w1 % 2 ^ 25 != 0

/-- The shape fits a bank (R158). -/
def shapeBad (c : Cmd) : Bool :=
  let f := sideFmt c.fmt c.other
  decide (128 < c.row0 + layRows c.lay) || decide (512 < rowBytes f (layCols c.lay)) ||
  ((fmtScaled c.fmt || fmtScaled c.other) && layCols c.lay % 64 != 0)

/-- The memory arrangement (R158). -/
def arrangeBad (c : Cmd) : Bool :=
  let f := cmdMemFmt c
  let scaled := fmtScaled c.fmt || fmtScaled c.other
  (if layZ c.lay then !isPow2From4 (layRows c.lay) || !isPow2From4 (layCols c.lay) || scaled
   else layStride c.lay % (if fmtScaled f then 16 else elemBytes f) != 0) ||
  (layT c.lay && scaled) || (layExp c.lay != 0 && c.kind != .cpIn)

/-- What each kind asks of its layout word (R162, R164, R171). -/
def kindBad (s : State) (c : Cmd) : Bool :=
  match c.kind with
  | .cpFill => layFmt c.lay != some .raw || layStride c.lay != 0 || layZ c.lay || layT c.lay
  | .cpBb => layStride c.lay != 0 || layZ c.lay
  | .cpGth | .cpSct => layZ c.lay || layT c.lay || s.me.bankFmt c.xbank != .int32
  | .cpIn => layExp c.lay == 2 && (layFmt c.lay != some .raw || c.fmt != .raw)
  | _ => false

/-- Is a bank the command writes armed for a frame (R184): its own bank, or the one its SCR pointer names? -/
def armedBad (s : State) (c : Cmd) : Bool :=
  match c.kind with
  | .cpIn | .cpGth | .cpFill => s.me.isArmed c.bank
  | .cpBb | .cpOut | .cpSct => spaceOf c.ptr == .scr && (match s.scrCtx s.me c.ptr with
    | .ok x => x.isArmed (ptrBank c.ptr)
    | .error _ => false)
  | _ => false

/-- An illegal dynamic combination (R157, R158, R161 to R164, R167, R184). -/
def cmdIllegal (s : State) (c : Cmd) : Bool :=
  layBad c.lay || w1Bad c || shapeBad c || arrangeBad c || kindBad s c || armedBad s c ||
  (s.me.timed && (c.isIndexed || layExp c.lay != 0))

/-- Does a command of this kind take a pointer of the space (R162)? -/
def spaceOk (c : Cmd) : Bool :=
  match c.kind, spaceOf c.ptr with
  | .cpFill, _ => true
  | .cpBb, .scr => true
  | .cpBb, _ => false
  | _, .glb | _, .adj | _, .scr | _, .host => true
  | _, _ => false

/-! ## Pages at issue (R162, R167, R171) -/

/-- The memory-side runs of a command whose places are known at issue. -/
def cmdRuns (c : Cmd) : List (Nat × Nat) :=
  match c.kind with
  | .cpFill | .cpGth | .cpSct => []
  | .cpBb => (List.range (layRows c.lay)).flatMap (bankRuns c)
  | _ => (List.range (layRows c.lay)).flatMap (memRuns c.lay (cmdMemFmt c))

/-- Headers and payloads an expanding command reads (R171, R277). -/
def expRuns (s : State) (c : Cmd) (col : List Byte) : List (Nat × Nat) :=
  (List.range (expBlocks c col)).flatMap fun i =>
    let j := c.w1 % 2 ^ 25 + i
    if colCount col ≤ j then []
    else (64 + 16 * j, 16) :: (match expRead s c (64 + 16 * j) 16 with
      | .error _ => []
      | .ok hc => let h := blkHdr (hc.map (·.byte)); if h.off + h.clen ≤ colLength col then [(h.off, h.clen)] else [])

/-- The pieces of runs from a base pointer, or the first pointer that fails. -/
def runsSegs (s : State) (k : AccKind) (base : W64) : List (Nat × Nat) → Except (W64 × PErr) (List Seg)
  | [] => .ok []
  | (o, n) :: r =>
    match s.access s.me k (base + BitVec.ofNat 64 o) n with
    | .error e => .error (base + BitVec.ofNat 64 o, e)
    | .ok ss => match runsSegs s k base r with
      | .error e => .error e
      | .ok ts => .ok (ss ++ ts)

/-- Does a tile reached through an SCR pointer run past its bank (R48, R162)? -/
def scrOver (c : Cmd) (runs : List (Nat × Nat)) : Bool :=
  spaceOf c.ptr == .scr && c.kind != .cpFill && runs.any fun r => decide (65536 < ptrByte c.ptr + r.1 + r.2)

/-- The colophon check of an expanding CP.IN (R171): its runs, or the trap. A poisoned colophon is a deferred fault (R168, R282), which the command finds when it expands. -/
def expCheck (s : State) (c : Cmd) : Except Exc (List (Nat × Nat)) :=
  if c.ptr.toNat % 64 ≠ 0 then .error (exAcc s .a 2 c.ptr .read c.tag)
  else match readColophon s (visCmd s.me c.acc c.ord) c.ptr with
    | .error e => .error (exPtr s .a c.ptr .read (.copy c.tag) e)
    | .ok cs =>
      let col := cs.map (·.byte)
      if cellsPoison cs then .ok [(0, 64)]
      else if !colValid col || !colSealed col then .error (exAcc s .a 8 c.ptr .read c.tag)
      else if layExp c.lay = 1 ∧ (fmtOf (colDfmt col) ≠ some c.other ∨ layT c.lay = true ∨ layZ c.lay = true) then .error (exIllegal s .a)
      else .ok ((0, 64) :: expRuns s c col)

/-- The pieces of memory a command touches as far as they are known at issue, with its checks (R48, R167, R171, R350). -/
def cmdSegs (s : State) (c : Cmd) : Except Exc (List Seg) :=
  let runs : Except Exc (List (Nat × Nat)) := if c.isExp then expCheck s c else .ok (cmdRuns c)
  match runs with
  | .error e => .error e
  | .ok rs =>
    if scrOver c rs then .error (exAcc s .a 0 c.ptr c.accKind c.tag)
    else match runsSegs s c.accKind c.ptr rs with
      | .error (p, e) => .error (exPtr s .a p c.accKind (.copy c.tag) e)
      | .ok ss =>
        if recPageHit s true ss then .error (exAcc s .a 1 c.ptr c.accKind c.tag)
        else if c.kind = .cpOut ∧ (sealedHit s.mem ss || shadowHit s false ss) = true then .error (exAcc s .a 4 c.ptr c.accKind c.tag)
        else .ok ss

/-- R48 for a pointer whose pages are not known at issue (R162, R164): space, fields, rank and bank. -/
def ptrForm (s : State) (c : Cmd) : Except Exc Unit :=
  match s.place s.me c.accKind c.ptr 1 with
  | .error (.acc q) => .error (exAcc s .a q c.ptr c.accKind c.tag)
  | _ => .ok ()

/-- The base page of a gather or scatter is differentiable while DMODE is not OFF (R173; log 29). -/
def indexedDiff (s : State) (c : Cmd) : Bool :=
  c.isIndexed && s.me.dmode != .off && match s.place s.me c.accKind c.ptr 1 with
    | .ok t => t.diff
    | .error _ => false

/-- Does a command of a timed context name a page that is not locked, or memory it may not reach (R122, R167)? -/
def cmdTimedOut (s : State) (c : Cmd) : Bool :=
  c.kind != .cpFill && (cmdRuns c).any fun r => timedOut s s.me.lockedA (c.ptr + BitVec.ofNat 64 r.1) r.2

/-- Every check before issue (R157 to R173): the pieces of memory, or the trap. Bank numbers come first, then the words, the pointer, the pages (log 30). -/
def cmdChecks (s : State) (c : Cmd) : Except Exc (List Seg) :=
  if s.me.nbank ≤ c.bank ∨ (c.isIndexed = true ∧ s.me.nbank ≤ c.xbank) then .error (exAcc s .a 7 0#64 c.accKind c.tag)
  else if cmdIllegal s c then .error (exIllegal s .a)
  else if !spaceOk c then .error (exAcc s .a 0 c.ptr c.accKind c.tag)
  else if c.kind ≠ .cpFill ∧ c.ptr.toNat % 2 ^ layAlign c.lay ≠ 0 then .error (exAcc s .a 2 c.ptr c.accKind c.tag)
  else if cmdTimedOut s c then .error (exIllegal s .a)
  else if indexedDiff s c then .error (exAcc s .a 5 c.ptr c.accKind c.tag)
  else match (if c.isIndexed then ptrForm s c else .ok ()) with
    | .error e => .error e
    | .ok _ => cmdSegs s c

/-! ## Timed commands (R122, R167, R170) -/

/-- Bytes of a command: the larger side (R170). -/
def cmdBytes (c : Cmd) : Nat :=
  layRows c.lay * max (rowBytes (sideFmt c.fmt c.other) (layCols c.lay)) (rowBytes (cmdMemFmt c) (layCols c.lay))

/-- Tier latency of a timed command; none where it may not go (R122, R167). Of a tile on two tiers the longer counts (R170; log 105); a fill, which reads no memory, has 4 cycles (DESIGN CHOICE, log 130). -/
def cmdTier (s : State) (c : Cmd) (ss : List Seg) : Option Nat :=
  if c.kind = .cpFill then some 4
  else ss.foldl (fun l g => match l, tierOf s s.me g.tr.loc with
    | some a, some b => some (max a b)
    | _, _ => none) (some 4)

/-- e(n) of R170. -/
def cmdMoved (s : State) (c : Cmd) : Nat :=
  let prev := s.me.cmds.foldl (fun m d => max m d.moved) 0
  let wait := if c.ser then s.me.cmds.foldl (fun m d => if d.tag = c.tag then max m d.due else m) 0 else 0
  max s.now (max prev wait) + (cmdBytes c + 63) / 64

/-! ## Issue (R165) -/

/-- A command joins those in flight. -/
def pushCmd (c : Cmd) (s : State) : State :=
  { s with me := { s.me with cmds := s.me.cmds ++ [c] }, seqs := s.seqs + 1 }

/-- A queued command: it starts now, or after the earlier ones of its tag when serialised (R161; log 4). -/
def pushQueued (c : Cmd) (s : State) : State :=
  if c.ser && s.me.tagBusy c.tag then pushCmd { c with st := .waiting } s
  else pushCmd { c with due := s.now + 1 + Config.queuedLatency s.fresh } s.bumpFresh

/-- Issue a checked command (R165, R170). -/
def issueCmd (c : Cmd) (ss : List Seg) (s : State) : Ans :=
  if s.me.timed then
    match cmdTier s c ss with
    | none => illegal .a s
    | some t => .next (retire .a 2 (pushCmd { c with moved := cmdMoved s c, due := cmdMoved s c + t } s))
  else .next (retire .a 2 (pushQueued c s))

/-! ## Differentiable copies (R173, R307, R311 to R318) -/

/-- The first adjoint cell of the tile that cannot be reached (R307). -/
def cellErr (s : State) (c : Cmd) : Option (W64 × PErr) :=
  (List.range c.count).findSome? fun n =>
    let p := diffPtr c (n / layCols c.lay) (n % layCols c.lay)
    match cellPlace s .rmw p with
    | .error e => some (adjPtr p, e)
    | .ok _ => none

/-- The old tile of a FWD CP.OUT in bank-side row order (R310). -/
def oldTile (s : State) (c : Cmd) : List PCell :=
  match readRuns s c c.ptr (cmdRuns c) with
  | .ok cs => cs
  | .error _ => []

/-- The deferred fault of a command whose data read at issue is poisoned (R168, R282). -/
def readFault (s : State) (ptr : W64) (cs : List PCell) : Option CmdFault := if cellsPoison cs then some (poisonFault s.mem (firstPoison cs) ptr) else none

/-- Does the top record stand for an incomplete forward write of the same tile (R318)? -/
def retriesFwd (s : State) (c : Cmd) : Option W64 :=
  if !tapeRegsOk s.me || tapeEmpty s.me then none
  else match tapeTop s .a true with
    | .error _ => none
    | .ok t =>
      if t.kind = 2 ∧ t.state = 1 ∧ t.ptr = c.ptr.toNat ∧ t.layout = c.lay.toNat then some (s.me.tapeHead - BitVec.ofNat 64 t.size) else none

/-- FWD CP.OUT to a D page (R173, R313, R318). -/
def issueFwdOut (c : Cmd) (ss : List Seg) (s : State) : Ans :=
  match runsSegs s .rmw c.ptr (cmdRuns c) with
  | .error (p, e) => trapOn .a (exPtr s .a p .rmw (.copy c.tag) e) s
  | .ok _ => match retriesFwd s c with
    | some p => issueCmd { c with tape := some p } ss (tapeMark (.cmd c.id c.tag) c.seen p 2 0 s)
    | none =>
      match tapeAppend .a (.cmd c.id c.tag) c.seen 2 (4 * c.count) c.lay c.ptr (oldTile s c) s with
      | .error e => trapOn .a e s
      | .ok s1 => issueCmd { c with tape := some s.me.tapeHead, fault := readFault s c.ptr (oldTile s c) } ss s1

/-- REV CP.OUT to a D page (R173, R313, R316, R318): a record it left incomplete is popped only after its step 3. -/
def issueRevOut (c : Cmd) (ss : List Seg) (s : State) : Ans :=
  match tapePop .a 2 c.lay c.ptr (4 * c.count) s with
  | .error e => trapOn .a e s
  | .ok (d, t, s1) =>
    let again := t.state == 2
    issueCmd { c with tape := some s1.me.tapeHead, blocks := [(0, d.map (·.byte))], fault := readFault s c.ptr d, nextBlock := if again then 1 else 0 } ss
      (if again then s else s1)

/-- A CP.IN or CP.OUT on a D page under FWD or REV (R173). -/
def issueDiff (c : Cmd) (ss : List Seg) (s : State) : Ans :=
  if c.fmt ≠ .fp32 ∨ c.other ≠ .fp32 then illegal .a s
  else match s.me.dmode, c.kind with
    | .fwd, .cpOut => issueFwdOut { c with dmode := .fwd } ss s
    | .rev, k => match cellErr s c with
      | some (p, e) => trapOn .a (exPtr s .a p .rmw (.copy c.tag) e) s
      | none => if k = .cpOut then issueRevOut { c with dmode := .rev } ss s else issueCmd { c with dmode := .rev } ss s
    | m, _ => issueCmd { c with dmode := m } ss s

/-- Does a command wait for a DIFF.MODE that has issued (R151)? A gather or scatter waits before its pages are looked at. -/
def diffHolds (s : State) (ss : List Seg) : Bool := s.me.diffWait && segsDiff ss

/-- A copy command: the limit of 128 in flight, its checks, then its issue (R161 to R173). -/
def copyCmd (c : Cmd) (s : State) : Ans :=
  if 128 ≤ s.me.cmds.length then (if s.me.timed then illegal .a s else .next (waitAt s))
  else if s.me.diffWait && c.isIndexed then .next (waitAt s)
  else match cmdChecks s c with
    | .error e => trapOn .a e s
    | .ok ss =>
      if diffHolds s ss then .next (waitAt s)
      else if segsDiff ss && s.me.dmode != .off && (c.kind == .cpIn || c.kind == .cpOut) then issueDiff c ss s
      else issueCmd c ss s

/-- CP.IN (R161 to R173). -/
def execCpIn (g : GReg) (b : BankNo) (l : LReg) (t : TagNo) (ser : Bool) (w1 : W32) (s : State) : Ans :=
  copyCmd (newCmd .cpIn g b l t ser w1.toNat s) s
/-- CP.OUT (R161 to R173). -/
def execCpOut (g : GReg) (b : BankNo) (l : LReg) (t : TagNo) (ser : Bool) (w1 : W32) (s : State) : Ans :=
  copyCmd (newCmd .cpOut g b l t ser w1.toNat s) s
/-- CP.BB (R162). -/
def execCpBb (g : GReg) (b : BankNo) (l : LReg) (t : TagNo) (ser : Bool) (w1 : W32) (s : State) : Ans :=
  copyCmd (newCmd .cpBb g b l t ser w1.toNat s) s
/-- CP.GTH (R164). -/
def execCpGth (g : GReg) (b : BankNo) (l : LReg) (t : TagNo) (ser : Bool) (w1 : W32) (s : State) : Ans :=
  copyCmd (newCmd .cpGth g b l t ser w1.toNat s) s
/-- CP.SCT (R164). -/
def execCpSct (g : GReg) (b : BankNo) (l : LReg) (t : TagNo) (ser : Bool) (w1 : W32) (s : State) : Ans :=
  copyCmd (newCmd .cpSct g b l t ser w1.toNat s) s
/-- CP.FILL: the value is read at issue (R162, R163). -/
def execCpFill (g : GReg) (b : BankNo) (l : LReg) (t : TagNo) (ser : Bool) (w1 : W32) (s : State) : Ans :=
  copyCmd (newCmd .cpFill g b l t ser w1.toNat s) s

/-! ## The engine's steps (R161, R165, R168, R279) -/

/-- The context with a command in flight. -/
def ownerOf (s : State) (id : Nat) : Option Ctx := s.ctxs.find? fun c => c.cmds.any (·.id == id)

/-- Act on a command as its context, when it is in flight. -/
def onCmd (id : Nat) (f : Cmd → State → State) (s : State) : State :=
  match ownerOf s id with
  | none => { s with last := .event }
  | some c => { s.onLaunch c.launch (fun t => match t.cmd? id with
      | none => t
      | some x => f x t) with last := .event }

/-- A serialised command may start: every earlier one of its tag has completed (R161). -/
def startReady (c : Ctx) (x : Cmd) : Bool := x.st == .waiting && !c.cmds.any fun d => d.tag == x.tag && decide (d.id < x.id)

/-- COPY_COMMAND_START (R161). -/
def execCopyCommandStart (id : Nat) (s : State) : Ans :=
  .next (onCmd id (fun x t =>
    if startReady t.me x then t.bumpFresh.mapCmd id fun y => { y with st := .running, due := t.now + 1 + Config.queuedLatency t.fresh } else t) s)

/-- REV commands move in issue order (R312). -/
def revFirst (c : Ctx) (x : Cmd) : Bool := x.dmode != .rev || !c.cmds.any fun d => d.dmode == .rev && decide (d.id < x.id)

/-- A copy may complete: its time has come and its blocks are through (R165, R171, R279, R312). -/
def moveReady (s : State) (x : Cmd) : Bool :=
  x.st == .running && !x.isCol && decide (x.due ≤ s.now) && expLeft s x == 0 && revFirst s.me x

/-- Every parked write of a command has been placed (R165, R166). -/
def unparked (s : State) (x : Cmd) : Bool := x.st == .parked && !cmdParked s x.id

/-- COPY_COMPLETE (R165, R166, R170): the elements move, and the tag counts the command when none of its writes is parked. A timed CP.OUT left with a parked write freezes its bay. -/
def execCopyComplete (id : Nat) (s : State) : Ans :=
  .next (onCmd id (fun x t =>
    if moveReady t x then
      let u := completeCopy x t
      if u.me.timed && cmdParked u id then holdBay u else u
    else if unparked t x then doneCmd x x.nonFin t
    else t) s)

/-- DEFERRED_COPY_FAULT: an engine found a fault after the command started (R168). -/
def execDeferredCopyFault (id : Nat) (f : CmdFault) (s : State) : Ans := .next (onCmd id (fun x t => faultCmd x f t) s)

/-- EXPANDER_BLOCK_DECODE (R171, R277 to R280). -/
def execExpanderBlockDecode (id : Nat) (s : State) : Ans :=
  .next (onCmd id (fun x t => if x.st == .running && expLeft t x != 0 then decodeNext x t else t) s)

/-! ## CP.WAIT (R128, R169) -/

/-- A write of a command under a tag stands before later boundaries once the tag is returned at accession n (R128). -/
def waitProv (tag n now : Nat) (p : Prov) : Prov :=
  match p.src, p.waited with
  | .cmd _ t, none => if t = tag then { p with waited := some n, waitedAt := now } else p
  | _, _ => p

/-- The writes of the commands under a tag stand before later boundaries of the stream (R128, R239), those that DIFF.MODE has published at core scope too (R319). -/
def markWaited (tag : Nat) (s : State) : State :=
  let f := waitProv tag (s.me.strA.acc + 1) s.now
  { s.mapMe (fun c => { c with priv := c.priv.map fun p => { p with waited := (f p.prov).waited, waitedAt := (f p.prov).waitedAt } }) with
    mem := { s.mem with vers := s.mem.vers.map fun v => if v.launch = s.me.launch then { v with prov := f v.prov } else v } }

/-- A wait on a tag: BUSY waits, FAULTED traps, IDLE answers (R169, R182). -/
def tagWait (tag : Nat) (f : State → State) (s : State) : Ans :=
  if s.me.tagBusy tag then .next (waitAt s)
  else match (s.me.tag tag).fault with
    | some e => takeTagFault .a tag e s
    | none => .next (retire .a 1 (f (markWaited tag s)))

/-- CP.WAIT: commands completed under the tag since the last one (R169). -/
def execCpWait (d : GReg) (tag : TagNo) (s : State) : Ans :=
  tagWait tag (fun t =>
    let x := t.me.tag tag
    wrG d (BitVec.ofNat 64 (min 128 x.done)) 1 (t.mapMe fun c => c.setTag tag { x with done := 0 })) s

end Sys2Proof.Machine
end

