-- ==== Sys2Proof/Machine/CMem.lean ====
section
/-!
DEFINITION. C stream: scalar loads and stores, and the atomics (R118 to R125, R252, R253, R313).
-/
namespace Sys2Proof.Machine

def sizeBytes : MemSize → Nat
  | .b => 1
  | .h => 2
  | .w => 4
  | .d => 8

/-- The effective pointer of LD and ST (R118). -/
def effPtr (s : State) (a : SReg) (off : BitVec 10) (z : MemSize) : W64 :=
  rdS s.me a + off.signExtend 64 * BitVec.ofNat 64 (sizeBytes z)

/-- Does the addition carry into the space code (R118)? -/
def carries (base p : W64) : Bool := base.toNat / 2 ^ 60 != p.toNat / 2 ^ 60

/-- The tier latency of an access in a timed context; none where it may not go (R122). Of an access on pages of two tiers the longer counts (DEDUCED, log 105). -/
def timedLat (s : State) (ss : List Seg) : Option Nat :=
  ss.foldl (fun l g => match l, tierOf s s.me g.tr.loc with
    | some a, some b => some (max a b)
    | _, _ => none) (some 1)

/-- Word accesses in flight to another core (R253): those of a queued context that have not reached it, and those whose reply has not come back. -/
def remoteInFlight (c : Ctx) (core : Nat) : Nat :=
  (c.pend.filter fun p => match p.what with
    | .remote k => k == core
    | _ => false).length + if c.timed then 0 else (c.words.filter fun w => w.core == core).length

/-- Would the access be the third in flight to another core (R253)? -/
def remoteFull (c : Ctx) (ss : List Seg) : Bool :=
  ss.any fun g => isSram g.tr.loc && sramCore g.tr.loc != c.coreIdx && decide (2 ≤ remoteInFlight c (sramCore g.tr.loc))

/-- A checked scalar access: its pieces and, in a timed context, its latency. -/
structure Access where
  ss : List Seg
  lat : Nat
  deriving DecidableEq, Repr

/-- The checks every scalar access makes at issue (R48, R119, R122, R294, R299, R350); `own` says whether the own record page is closed to it too. -/
def checkAccess (s : State) (own : Bool) (k : AccKind) (p : W64) (n : Nat) : Except Exc Access :=
  if timedOut s s.me.locked p n then .error (exIllegal s .c)
  else match s.access s.me k p n with
  | .error e => .error (exPtr s .c p k .instr e)
  | .ok ss =>
    if recPageHit s own ss then .error (exAcc s .c 1 p k 0xFF)
    else if s.me.timed then
      match timedLat s ss with
      | none => .error (exIllegal s .c)
      | some l => if remoteFull s.me ss then .error (exIllegal s .c) else .ok ⟨ss, l⟩
    else .ok ⟨ss, 1⟩

/-- The checks of a write's target (R120, R172, R176): sealed, or an open shadow of any context. -/
def checkWrite (s : State) (k : AccKind) (p : W64) (a : Access) : Except Exc Access :=
  if sealedHit s.mem a.ss || shadowHit s true a.ss then .error (exAcc s .c 4 p k 0xFF) else .ok a

/-- Does a third access to one core wait in a queued context (R253)? -/
def remoteWaits (s : State) (a : Access) : Bool := !s.me.timed && remoteFull s.me a.ss

/-- Count a timed access to another core's bank as in flight until it lands (R253). -/
def markRemote (x : Nat) (s : State) : State :=
  if s.me.timed && sramCore x != s.me.coreIdx then pendAt (s.clock + 24) (.remote (sramCore x)) s else s

/-- A timed access that returns a value has its latch from its issue on (R122, R357). -/
def openLatch (d : SReg) (lat id : Nat) (s : State) : State := if s.me.timed then pendAt (s.clock + lat) (.await d id) s else s

/-- The latency of a queued access that a tier bounds: any up to the bound (R261; log 4). -/
def latWithin (s : State) (bound : Option Nat) : Nat :=
  match bound with
  | some l => 1 + Config.queuedLatency s.seqs % l
  | none => s.trip

/-- The latency of a queued access to the home of a location. -/
def tripAt (s : State) (x : Nat) : Nat := latWithin s (tierOf s s.me x)

/-- The exposed latency of an access to memory, or that of a queued context, which the tier bounds (R122, R261; log 4). -/
def memLat (s : State) (a : Access) : Nat := if s.me.timed then a.lat else latWithin s (timedLat s a.ss)

/-- A value from memory comes back for an s register; one from another device is outstanding over a link until then (R366). -/
def wrMem (d : SReg) (v : W64) (lat x : Nat) (ptr : W64) (s : State) : State :=
  if locRank x = s.rank && !isHostBus x then wrS d v lat s else pendAt (s.clock + lat) (.far d v x ptr (pcOf s .c)) s

/-! ## LD -/

/-- Is an earlier REV command in flight that acts on the cell? A later access of the cell waits for it (R312). -/
def revHolds (s : State) (cell : Nat) : Bool :=
  s.me.cmds.any fun c => c.dmode == .rev && !c.isIndexed && (List.range c.count).any fun n =>
    match cellPlace s .rmw (diffPtr c (n / layCols c.lay) (n % layCols c.lay)) with
    | .error _ => false
    | .ok t => cellLoc t == cell

/-- REV LD.w on a differentiable page: sd is added to the cell and keeps its value (R121, R313). -/
def ldRev (d : SReg) (p : W64) (s : State) : Ans :=
  match s.adjLoc s.me .rmw (adjPtr p) with
  | .error e => trapOn .c (exPtr s .c (adjPtr p) .rmw .instr e) s
  | .ok t =>
    if revHolds s (cellLoc t) then .next (waitAt s)
    else .next (retire .c 1 (accumulate .cs s.me.knownC (adjPtr p) t.comp (cellLoc t) ((rdS s.me d).setWidth 32) s))

/-- The value of a load of n bytes, sign-extended (R118). -/
def ldValue (n : Nat) (cs : List PCell) : W64 := (BitVec.ofNat (8 * n) (cellsNat cs)).signExtend 64

/-- LD from a bank: its word access is on its way (R250, R252, R253). Another context's bank is read through the view, at its issue (R120, R239). -/
def ldBank (d : SReg) (n : Nat) (p : W64) (a : Access) (s : State) : State :=
  let x := (segLocs a.ss).headD 0
  let cs := if ownBank s s.me x then [] else readPlace s (visC s.me) x n
  markRemote x (openLatch d a.lat s.seqs (sendWord (.ld d (cs.map (·.byte)) (cellsPoison cs) n) x p s))

/-- LD from memory, through the view at its issue (R120, R122, R239): a poisoned value is a fault at its landing (R282, R358). -/
def ldMem (d : SReg) (n : Nat) (p : W64) (a : Access) (s : State) : State :=
  let cs := readSegs s (visC s.me) a.ss
  if cellsPoison cs then pendAt (s.clock + memLat s a) (.faulted d (firstPoison cs) p (pcOf s .c)) s
  else wrMem d (ldValue n cs) (memLat s a) ((segLocs a.ss).headD 0) p s

/-- LD that is no REV access of a D page. -/
def ldPlain (d : SReg) (n : Nat) (p : W64) (a : Access) (s : State) : Ans :=
  if remoteWaits s a then .next (waitAt s)
  else .next (retire .c 1 (if isSram ((segLocs a.ss).headD 0) then ldBank d n p a s else ldMem d n p a (s.touch a.ss)))

/-- LD (R118 to R122). -/
def execLd (z : MemSize) (d a : SReg) (off : BitVec 10) (s : State) : Ans :=
  let p := effPtr s a off z
  let n := sizeBytes z
  if carries (rdS s.me a) p then trapOn .c (exAcc s .c 0 p .read 0xFF) s
  else match checkAccess s false .read p n with
    | .error e => trapOn .c e s
    | .ok acc =>
      let inD := segsDiff acc.ss && s.me.dmode != .off
      if inD && z != .w then trapOn .c (exAcc s .c 5 p .read 0xFF) s
      else if inD && s.me.dmode == .rev then ldRev d p s
      else ldPlain d n p acc s

/-! ## ST -/

/-- The low bytes of sd (R118). -/
def stBytes (s : State) (d : SReg) (n : Nat) : List Byte := leBytes n (rdS s.me d).toNat

/-- ST to a bank: the context's own later reads and boundaries count it from its issue on (R120, R128); the bank takes it when its word access is performed (R252). -/
def stBank (n : Nat) (p : W64) (x : Nat) (bs : List Byte) (s : State) : State :=
  let s1 := s.mapMe (addPriv (mkPriv s .cs .plain (newCells s s.me (locSeen x) (bs.take n)) s.me.knownC p))
  markRemote x (sendWord (.st bs) x p s1)

/-- A plain store (R120, R252). -/
def stPlain (d : SReg) (n : Nat) (p : W64) (a : Access) (s : State) : State :=
  let bs := stBytes s d n
  let x := (segLocs a.ss).headD 0
  if isSram x then stBank n p x bs s else writeSegs .cs s.me.knownC p a.ss bs s

/-- FWD ST.w: the old word goes to the tape, its poison with it (R282), then the store is made (R313). -/
def stFwd (d : SReg) (p : W64) (a : Access) (s : State) : Ans :=
  let old := readSegs s (visC s.me) a.ss
  match tapeAppend .c .cs s.me.knownC 1 4 0#64 p old s with
  | .error e => trapOn .c e s
  | .ok s1 => .next (retire .c 1 (writeSegs .cs s1.me.knownC p a.ss (stBytes s1 d 4) s1))

/-- The cell of a REV ST.w goes to sd; one whose value is poisoned is a fault at its landing, as of a load (R282; log 111). -/
def revCell (d : SReg) (cell : Nat) (p : W64) (s : State) : State :=
  if cellPoison s cell then pendAt (s.clock + tripAt s cell) (.faulted d cell p (pcOf s .c)) s
  else wrMem d ((cellValue s cell).setWidth 64) (tripAt s cell) cell p s

/-- Restored bytes are poisoned where the record's data is (R282). -/
def spoilPriv (p : W64) (from0 : Nat) (bad : Bool) (s : State) : State :=
  if bad then markPriv .cs p from0 (fun q => { q with cells := q.cells.map fun x => { x with poison := true } }) s else s

/-- REV ST.w: pop, cell into sd, cell cleared, memory restored (R313). -/
def stRev (d : SReg) (p : W64) (a : Access) (s : State) : Ans :=
  match s.adjLoc s.me .rmw (adjPtr p) with
  | .error e => trapOn .c (exPtr s .c (adjPtr p) .rmw .instr e) s
  | .ok t =>
    let ct := { t with loc := cellLoc t }
    if revHolds s ct.loc then .next (waitAt s)
    else match tapePop .c 1 0#64 p 4 s with
    | .error e => trapOn .c e s
    | .ok (old, _, s1) =>
      let s2 := clearCell .cs s1.me.knownC (adjPtr p) ct (revCell d ct.loc (adjPtr p) s1)
      .next (retire .c 1 (spoilPriv p s2.seqs (cellsPoison old) (writeSegs .cs s2.me.knownC p a.ss (old.map (·.byte)) s2)))

/-- ST (R118 to R122). -/
def execSt (z : MemSize) (d a : SReg) (off : BitVec 10) (s : State) : Ans :=
  let p := effPtr s a off z
  let n := sizeBytes z
  if carries (rdS s.me a) p then trapOn .c (exAcc s .c 0 p .write 0xFF) s
  else match (checkAccess s false .write p n).bind (checkWrite s .write p) with
    | .error e => trapOn .c e s
    | .ok acc =>
      let inD := segsDiff acc.ss && s.me.dmode != .off
      if inD && z != .w then trapOn .c (exAcc s .c 5 p .write 0xFF) s
      else if !inD then (if remoteWaits s acc then .next (waitAt s) else .next (retire .c 1 (stPlain d n p acc s)))
      else if s.me.dmode == .rev then stRev d p acc s
      else match s.access s.me .rmw p n with
        | .error e => trapOn .c (exPtr s .c p .rmw .instr e) s
        | .ok _ => stFwd d p acc s

/-! ## Atomics (R123 to R125) -/

/-- Is the cell in the issuing context's unit at the declared scope (R124)? -/
def scopeOk (s : State) (scope : Scope) (x : Nat) : Bool := scopeLe (narrowest s s.me x) scope

/-- Reserve the sectors of an atomic on a compressible page with its new bytes applied (R266): the state and whether they were found. -/
def reserveAtom (p : Priv) (s : State) : State × Bool :=
  let s1 := s.mapMe (addPriv p)
  let r := (blocksOf p.cells).foldl (fun (acc : State × Bool) b =>
    if acc.2 && !blockParked acc.1 b then reserveBlock s.me.vmid b acc.1 else (acc.1, false)) (s1, true)
  ({ r.1 with me := { r.1.me with priv := s.me.priv } }, r.2)

/-- The entry an atomic parks as when its block has no free sector (R266, R267). -/
def atomPriv (s : State) (r : AtomReq) (d : SReg) (ptr : W64) : Priv :=
  mkPriv s .cs (.atom r d.val s.seqs) (atomCells s r) s.me.knownC ptr

/-- An atomic on a bank: its word access is on its way (R250, R252, R253). -/
def atomBank (r : AtomReq) (d : SReg) (ptr : W64) (lat : Nat) (s : State) : State :=
  markRemote r.loc (openLatch d lat s.seqs (sendWord (.rmw d r) r.loc ptr s))

/-- An atomic performed at its home slice (R125), in the turn in which it issues (DESIGN CHOICE, log 129): sd receives the old value and FFLAGS its flags when they land; a poisoned cell is a fault at the landing (R123, R358). -/
def atomMem (r : AtomReq) (d : SReg) (ptr : W64) (lat : Nat) (s : State) : State :=
  let q := performAtomic r s
  if q.2.2.1 then pendAt (s.clock + lat) (.faulted d r.loc ptr (pcOf s .c)) s
  else raiseC false q.2.1 lat (wrMem d q.1 lat r.loc ptr q.2.2.2)

/-- An atomic parks for sectors: its result is pending until it has been performed (R104, R266, R267). -/
def atomPark (p : Priv) (d : SReg) (lat : Nat) (s : State) : State :=
  openLatch d lat s.seqs { s with me := addPriv { p with parked := some (s.seqs, s.cycle) } s.me, seqs := s.seqs + 1 }

/-- An atomic on a checked cell: performed, or parked for sectors (R266, R267; log 25). -/
def atomOn (r : AtomReq) (d : SReg) (ptr : W64) (a : Access) (s : State) : Ans :=
  let p := atomPriv s r d ptr
  let t := if segsComp a.ss && !atomBad s.mem r then reserveAtom p s else (s, true)
  if remoteWaits s a then .next (waitAt s)
  else if !t.2 then .next (retire .c 1 (atomPark p d (memLat s a) s))
  else if isSram r.loc then .next (retire .c 1 (atomBank r d ptr a.lat s))
  else .next (retire .c 1 (atomMem r d ptr (memLat s a) t.1))

/-- An atomic (R123, R124): its checks at issue, then its step at the home. R123 gives its faults no order among them: space, alignment, pages, sealed target, D page, scope (DEDUCED, log 30). -/
def atomic (op : AtOp) (w32 : Bool) (scope : Scope) (d a b : SReg) (s : State) : Ans :=
  let p := rdS s.me a
  let n := if w32 then 4 else 8
  if spaceOf p ≠ .glb ∧ spaceOf p ≠ .scr then trapOn .c (exAcc s .c 0 p .rmw 0xFF) s
  else if p.toNat % n ≠ 0 then trapOn .c (exAcc s .c 2 p .rmw 0xFF) s
  else match (checkAccess s true .rmw p n).bind (checkWrite s .rmw p) with
    | .error e => trapOn .c e s
    | .ok acc =>
      let x := (segLocs acc.ss).headD 0
      if segsDiff acc.ss && s.me.dmode != .off then trapOn .c (exAcc s .c 5 p .rmw 0xFF) s
      else if !scopeOk s scope x then illegal .c s
      else atomOn ⟨op, w32, x, rdS s.me b, rdS s.me d⟩ d p acc s

/-- AT.ADD (R123). -/
def execAtAdd (d a b : SReg) (scope : Scope) (w32 : Bool) (s : State) : Ans := atomic .add w32 scope d a b s
/-- AT.BINC (R123). -/
def execAtBinc (d a b : SReg) (scope : Scope) (w32 : Bool) (s : State) : Ans := atomic .binc w32 scope d a b s
/-- AT.CAS: the expected value is sd at issue (R123). -/
def execAtCas (d a b : SReg) (scope : Scope) (w32 : Bool) (s : State) : Ans := atomic .cas w32 scope d a b s
/-- AT.SWP (R123). -/
def execAtSwp (d a b : SReg) (scope : Scope) (w32 : Bool) (s : State) : Ans := atomic .swp w32 scope d a b s
/-- AT.MAX (R123). -/
def execAtMax (d a b : SReg) (scope : Scope) (w32 : Bool) (s : State) : Ans := atomic .max w32 scope d a b s
/-- AT.FADD, `.w` only (R123). -/
def execAtFadd (d a b : SReg) (scope : Scope) (s : State) : Ans := atomic .fadd true scope d a b s

/-- Reserve the sectors for an atomic of another party, its new bytes over the block's content (R266, R273): the state and whether they were found. -/
def reserveForeign (r : AtomReq) (s : State) : State × Bool :=
  match compPart s r.loc with
  | none => (s, true)
  | some p =>
    let n := if r.w32 then 4 else 8
    let old := BitVec.ofNat 64 (leNat (homeRead s r.loc n))
    let new := (leBytes n (atomicNew r.op r.w32 old r.b r.expect).1.toNat).zipIdx.map fun (b, i) => (⟨r.loc + i, b, false⟩ : PCell)
    reserveFor p.vmid (r.loc / 512) (overlay (r.loc / 512) new (blockContent s (r.loc / 512))) s

/-- An atomic of another party reaches its home: it is performed in the cell's order (R125); one that finds no sectors, or a parked write of its block, waits in the queue of parked writes (R266, R267; log 123). -/
def performForeign (r : AtomReq) (s : State) : State :=
  let t := if blockParked s (r.loc / 512) then (s, false) else reserveForeign r s
  if t.2 then (performAtomic r t.1).2.2.2 else { s with foreign := s.foreign ++ [(s.seqs, r)], seqs := s.seqs + 1 }

/-- ATOMIC_PERFORM: a request sent by a party this model does not step reaches its home here (R125, R392). -/
def execAtomicPerform (r : AtomReq) (s : State) : Ans := .next { performForeign r s with last := .event }

end Sys2Proof.Machine
end

