-- ==== Sys2Proof/Machine/AShadow.lean ====
section
/-!
DEFINITION. A stream: sealing, shadows, buckets (R172, R174 to R179, R246).
-/
namespace Sys2Proof.Machine

/-! ## What the A stream reads for itself -/

/-- Read n bytes of a structure for an A-stream instruction with its pointer checks (R48, R122, R172, R174, R184); poisoned ones are an uncorrectable error of the instruction (R282; log 111). -/
def readForA (s : State) (vis : List Priv) (p : W64) (n : Nat) : Except Exc (List Byte) :=
  if timedOut s s.me.lockedA p n then .error (exIllegal s .a)
  else match s.access s.me .read p n with
  | .error e => .error (exPtr s .a p .read .instr e)
  | .ok ss =>
    let cs := readSegs s vis ss
    if recPageHit s true ss then .error (exAcc s .a 1 p .read 0xFF)
    else if cellsPoison cs then .error (exPoison s .a (firstPoison cs) p 0xFF)
    else .ok (cs.map (·.byte))

/-! ## SEAL (R172, R276) -/

/-- Whole pages of pieces: first location and size. -/
def pagesOf (ss : List Seg) : List (Nat × Nat) := ss.map fun g => (g.tr.loc - (g.tr.size - g.tr.left), g.tr.size)

/-- The pieces of the whole buffer of a valid colophon (R276). -/
def bufferSegs (s : State) (p : W64) (col : List Byte) : Except Exc (List Seg) :=
  match s.access s.me .read p (colLength col) with
  | .error e => .error (exPtr s .a p .read .instr e)
  | .ok ss => .ok ss

/-- Set the SEALED flag, byte 58 bit 4 of the colophon, as one publish at device scope, and close the buffer's pages to stores (R172, R275). -/
def sealNow (p : W64) (col : List Byte) (ss : List Seg) (s : State) : State :=
  let id := s.seqs
  let s1 := { s with seqs := s.seqs + 1 }
  let flag := (col.getD 58 0#8) ||| 0x10#8
  let s2 := match (segLocs ss)[58]? with
    | none => s1
    | some x => s1.mapMe (addPriv { mkPriv s1 (.cmd id swapTag) .plain [⟨x, flag, false⟩] (s1.me.knownBy .a s1.now) p with ipos := id })
  let s3 := publishSel .dev .a (isCmdPriv id) s2
  { s3 with mem := { s3.mem with sealedR := s3.mem.sealedR ++ (pagesOf ss).filter fun r => !s3.mem.sealedR.contains r } }

/-- SEAL (R172): pointer, colophon, publish, flag, pages. -/
def execSeal (a : GReg) (s : State) : Ans :=
  let p := rdG s.me a
  let vis := s.me.priv.filter fun q => covers s.me .a s.now q.prov
  if spaceOf p ≠ .glb then trapOn .a (exAcc s .a 0 p .write 0xFF) s
  else if p.toNat % 64 ≠ 0 then trapOn .a (exAcc s .a 2 p .write 0xFF) s
  else match readForA s vis p 64 with
    | .error e => trapOn .a e s
    | .ok col =>
      if !colValid col then trapOn .a (exAcc s .a 8 p .write 0xFF) s
      else match bufferSegs s p col with
        | .error e => trapOn .a e s
        | .ok ss =>
          if boundaryBarred .dev .a s then boundaryHold (shortOf .dev .a s) s
          else
            let s1 := publish .dev .a (touchAt p 64 s)
            .next (retire .a 1 (if colSealed col then s1 else sealNow p col ss s1))

/-! ## Shadows (R174 to R177, R246) -/

/-- The fields of a shadow descriptor (R174). -/
structure ShdDesc where
  base : W64
  rowBytes : Nat
  nrows : Nat
  stride : Nat
  deriving DecidableEq, Repr

def shdDesc (b : List Byte) : ShdDesc :=
  ⟨BitVec.ofNat 64 (colField b 63 0), colField b 95 64, colField b 127 96, colField b 191 128⟩

/-- A descriptor that breaks R174. -/
def shdBad (b : List Byte) : Bool :=
  let d := shdDesc b
  colField b 511 192 != 0 || spaceOf d.base != .glb || d.base.toNat % 4096 != 0 || d.rowBytes == 0 || d.nrows == 0 ||
  d.stride % 4096 != 0 || decide (d.stride < d.rowBytes)

/-- Read a descriptor (R174): one that is not 64-byte aligned GLB memory, or breaks its fields, is an illegal dynamic combination (R176). -/
def readShd (s : State) (p : W64) : Except Exc (List Byte) :=
  if spaceOf p ≠ .glb ∨ p.toNat % 64 ≠ 0 then .error (exIllegal s .a)
  else match readForA s (visA s.me) p 64 with
    | .error e => .error e
    | .ok b => if shdBad b then .error (exIllegal s .a) else .ok b

/-- The pieces of every row (R176). -/
def rowSegs (s : State) (d : ShdDesc) : (n : Nat) → (r : Nat) → Except (W64 × PErr) (List (Nat × List Seg))
  | 0, _ => .ok []
  | n + 1, r =>
    let p := d.base + BitVec.ofNat 64 (r * d.stride)
    match s.access s.me .write p d.rowBytes with
    | .error e => .error (p, e)
    | .ok ss => match rowSegs s d n (r + 1) with
      | .error e => .error e
      | .ok t => .ok ((r, ss) :: t)

/-- The shadow of a buffer: its rows' extents and a copy of the visible rows (R176). -/
def openShadow (p : W64) (d : ShdDesc) (rows : List (Nat × List Seg)) (s : State) : Shadow :=
  { ext := rows.flatMap fun (r, ss) => ss.map fun g => (r, g.tr.loc, g.len)
    desc := p, base := d.base, rowBytes := d.rowBytes, nrows := d.nrows, stride := d.stride
    cells := rows.flatMap fun (_, ss) => readSegs s [] ss, wrote := [] }

/-- Is the shadow the one a descriptor names? -/
def isShadow (d : ShdDesc) (h : Shadow) : Bool :=
  h.base == d.base && h.rowBytes == d.rowBytes && h.nrows == d.nrows && h.stride == d.stride

/-- SHD.OPEN (R175, R176). -/
def execShdOpen (a : GReg) (s : State) : Ans :=
  let p := rdG s.me a
  match readShd s p with
  | .error e => trapOn .a e s
  | .ok b =>
    let d := shdDesc b
    if 8 ≤ s.me.shadows.length then illegal .a s
    else match rowSegs s d d.nrows 0 with
      | .error (q, e) => trapOn .a (exPtr s .a q .write .instr e) s
      | .ok rows =>
        let all := rows.flatMap (·.2)
        if segsDiff all then illegal .a s
        else if sealedHit s.mem all then trapOn .a (exAcc s .a 4 p .write 0xFF) s
        else if recPageHit s true all then trapOn .a (exAcc s .a 1 p .write 0xFF) s
        else if shadowHit s true all then illegal .a s
        else .next (retire .a 1 ((touchAt p 64 (s.touch all)).mapMe fun c => { c with shadows := c.shadows ++ [openShadow p d rows s] }))

/-- The first tag with a recorded fault of a command SHD.PUB waits for (R177). -/
def writerFault (c : Ctx) : Option (Nat × TagFault) := (List.range 128).findSome? fun t => (c.tag t).writer.map fun f => (t, f)

/-- Does an earlier memory-writing command remain, other than a collective armed on a bucket (R177)? -/
def writersLeft (c : Ctx) : Bool := c.cmds.any fun x => x.writesMemory && x.st != .armed

/-- The cells of rows below n of a shadow. -/
def rowCells (h : Shadow) (n : Nat) : List PCell :=
  h.cells.filter fun x => h.ext.any fun e => decide (e.1 < n) && decide (e.2.1 ≤ x.loc) && decide (x.loc < e.2.1 + e.2.2)

def dropShadow (h : Shadow) (c : Ctx) : Ctx := { c with shadows := c.shadows.filter (· != h) }

/-- The rows below n of a shadow as a write of the context whose turn it is, the rest discarded (R177). -/
def swapWrite (h : Shadow) (n : Nat) (s : State) : State :=
  let id := s.seqs
  let s1 := { s with seqs := s.seqs + 1 }.mapMe (dropShadow h)
  if n = 0 then s1
  else s1.mapMe (addPriv { mkPriv s1 (.cmd id swapTag) .plain (rowCells h n) (s1.me.knownBy .a s1.now) h.base with ipos := id })

/-- The swap: rows below n visible as one publish event (R177, R246). -/
def swapShadow (scope : Scope) (h : Shadow) (n : Nat) (s : State) : State :=
  if n = 0 then swapWrite h n s else publishSel scope .a (isCmdPriv s.seqs) (swapWrite h n s)

/-- Spills the swap's publish would add beyond the version areas' room (R260). -/
def swapShort (scope : Scope) (h : Shadow) (n : Nat) (s : State) : Nat := spaceShort scope .a (isCmdPriv s.seqs) (swapWrite h n s)

/-- SHD.PUB and SHD.PUBN with the number of rows, none for all (R175 to R177). They wait in a timed context too (log 102), and for the other commands of a tag that is to become FAULTED (R168). -/
def pubShadow (a : GReg) (rows : Option Nat) (scope : Scope) (s : State) : Ans :=
  match readShd s (rdG s.me a) with
  | .error e => trapOn .a e s
  | .ok b =>
    match s.me.shadows.find? (isShadow (shdDesc b)) with
    | none => illegal .a s
    | some h =>
      let n := rows.getD h.nrows
      if h.nrows < n then illegal .a s
      else if writersLeft s.me then .next (waitAt s)
      else match writerFault s.me with
        | some (t, f) => if s.me.tagBusy t then .next (waitAt s) else takeTagFault .a t f s
        | none =>
          if 0 < swapShort scope h n s then boundaryHold (swapShort scope h n s) s else .next (retire .a 1 (swapShadow scope h n (touchAt (rdG s.me a) 64 s)))

/-- SHD.PUB (R177). -/
def execShdPub (a : GReg) (scope : Scope) (s : State) : Ans := pubShadow a none scope s
/-- SHD.PUBN (R177). -/
def execShdPubn (a b : GReg) (scope : Scope) (s : State) : Ans := pubShadow a (some (rdG s.me b).toNat) scope s

/-- SHD.DROP (R175). -/
def execShdDrop (a : GReg) (s : State) : Ans :=
  match readShd s (rdG s.me a) with
  | .error e => trapOn .a e s
  | .ok b =>
    match s.me.shadows.find? (isShadow (shdDesc b)) with
    | none => illegal .a s
    | some h => .next (retire .a 1 ((touchAt (rdG s.me a) 64 s).mapMe (dropShadow h)))

/-! ## Buckets (R178, R179, R246) -/

/-- Extents by location of a range. -/
def segExt (ss : List Seg) : List (Nat × Nat) := ss.map fun g => (g.tr.loc, g.len)

/-- BKT.SET (R178): a bucket on a range that has one is re-armed and keeps its collective. -/
def execBktSet (a b : GReg) (scope : Scope) (s : State) : Ans :=
  let p := rdG s.me a
  let n := (rdG s.me b).toNat
  if spaceOf p ≠ .glb ∨ n = 0 ∨ 2 ^ 32 ≤ n then illegal .a s
  else
    let old := s.me.buckets.find? (·.base == p)
    if old.isNone ∧ 16 ≤ s.me.buckets.length then illegal .a s
    else match s.access s.me .read p n with
      | .error e => trapOn .a (exPtr s .a p .read .instr e) s
      | .ok ss =>
        let k : Bucket := ⟨segExt ss, p, n, scope, 0, match old with
          | some o => o.armed
          | none => none⟩
        .next (retire .a 1 (s.mapMe fun c => { c with buckets := c.buckets.filter (·.base != p) ++ [k] }))

/-- The cells of a bucket as a refresh at its scope sees them now (R246). -/
def bucketCells (s : State) (k : Bucket) : List PCell :=
  let c := refreshCtx s k.scope s.me
  k.ext.flatMap fun (x, n) => readRange (s.withMe c) c [] x n

/-- Is the bucket full with a collective armed on it (R179)? -/
def fires (k : Bucket) : Bool := k.armed.isSome && decide (k.total ≤ k.count)

/-- A bucket fires: its collective starts with the bytes it reads now, and the bucket is disarmed (R179, R246; log 4). A serialised one still waits for the earlier commands of its tag (R161); poisoned bytes are its deferred fault (R168). -/
def fireBucket (k : Bucket) (id : Nat) (s : State) : State :=
  let cs := bucketCells s k
  let held (x : Cmd) : Bool := x.ser && s.me.cmds.any fun d => d.tag == x.tag && decide (d.id < x.id)
  (s.bumpFresh.mapCmd id fun x => { x with
    st := if held x then .waiting else .running, blocks := [(0, cs.map (·.byte))], fault := readFault s k.base cs,
    due := s.now + 1 + Config.queuedLatency s.fresh }).mapMe fun c => { c with buckets := c.buckets.filter (·.base != k.base) }

/-- BUCKET_FIRE of the context's bucket at a pointer (R179). -/
def execBucketFire (base : W64) (s : State) : Ans :=
  match s.me.buckets.find? (·.base == base) with
  | none => .next { s with last := .event }
  | some k => match k.armed with
    | none => .next { s with last := .event }
    | some id => .next { (if fires k then fireBucket k id s else s) with last := .event }

end Sys2Proof.Machine
end

