-- ==== Sys2Proof/Machine/Catalogue.lean ====
section
/-!
DEFINITION. The catalogue of a die: reading and judging a call slip, acceptance, the states of a slip, and the finish of a node with its record and edges (R324, R327 to R329, R385, R387).
-/
namespace Sys2Proof.Machine

/-! ## The slip (R324, R327) -/

/-- Bits hi:lo of a slip. -/
def slipField (b : List Byte) (hi lo : Nat) : Nat := natBits (leNat b) hi lo

/-- Declaration j of a slip (R324). -/
def slipTod (b : List Byte) (j : Nat) : Tod :=
  let o := 1024 + 128 * j
  ⟨slipField b (o + 105) (o + 104), slipField b (o + 103) (o + 64), BitVec.ofNat 64 (slipField b (o + 63) o)⟩

/-- Listed successors as (die, index) (R324). -/
def slipSuccs (b : List Byte) : List (Nat × Nat) :=
  (List.range (slipField b 439 436)).map fun j => (slipField b (207 + 16 * j) (206 + 16 * j), slipField b (205 + 16 * j) (192 + 16 * j))

/-- Largest V by kind and span, none where the span is not allowed (R327). -/
def largestV (devs kind span : Nat) : Option Nat :=
  match kind, span with
  | 0, 0 => some 1
  | 0, 1 => some 4
  | 0, 2 => some 96
  | 0, 3 => some 384
  | 0, 4 => some (384 * devs)
  | 1, 2 => some 8
  | 2, 2 | 3, 2 => some 1
  | _, _ => none

/-- A declaration that R327 refuses. -/
def todBad (b : List Byte) (j : Nat) : Bool :=
  let o := 1024 + 128 * j
  let t := slipTod b j
  slipField b (o + 127) (o + 106) != 0 || (t.intent == 0 && (t.len != 0 || t.ptr != 0#64))

/-- Is V outside its limit (R327)? -/
def vBad (devs kind span v : Nat) : Bool :=
  match largestV devs kind span with
  | none => true
  | some m => v == 0 || decide (m < v)

/-- A slip is malformed (R327). -/
def slipBad (devs : Nat) (b : List Byte) : Bool :=
  let code := BitVec.ofNat 64 (slipField b 63 0)
  let comp := BitVec.ofNat 64 (slipField b 127 64)
  let csize := slipField b 435 432
  let cset := slipField b 431 416
  let kind := slipField b 444 443
  let range := slipField b 175 128
  slipField b 1023 466 != 0 || (List.range 8).any (todBad b) ||
  code.toNat % 64 != 0 || spaceOf code != .glb ||
  comp.toNat % 64 != 0 || !(spaceOf comp == .glb || spaceOf comp == .host) ||
  decide (8 < slipField b 439 436) ||
  (if cset = 0 then csize != 0 else decide (csize < 2) || decide (8 < csize)) ||
  (slipField b 448 448 == 1 && decide (slipField b 447 446 < 3)) ||
  (slipField b 445 445 == 1 && (kind != 0 || range != 0)) ||
  (range != 0 && slipField b 191 176 == 0) ||
  vBad devs kind (slipField b 442 440) (slipField b 351 320)

/-- The node an accepted slip becomes (R324, R328). -/
def nodeOf (b : List Byte) (die idx asid vmid fn : Nat) (port : Option Nat) : Node :=
  { die := die, idx := idx, st := .waiting, tods := (List.range 8).map (slipTod b),
    nbank := slipField b 465 460, nacc := slipField b 459 455, nops := slipField b 454 449,
    urgent := slipField b 448 448 == 1, prio := slipField b 447 446, timed := slipField b 445 445 == 1,
    kind := slipField b 444 443, span := slipField b 442 440, csize := slipField b 435 432, cset := slipField b 431 416,
    rdepth := slipField b 415 400, preds := slipField b 399 384, ydl := slipField b 383 352, v := slipField b 351 320,
    succs := slipSuccs b, rmin := slipField b 191 176, range := slipField b 175 128,
    comp := BitVec.ofNat 64 (slipField b 127 64), code := BitVec.ofNat 64 (slipField b 63 0),
    asid := asid, vmid := vmid, readySeq := 0, readyAt := 0, aged := 0, status := 0, xrank := 0, npre := 0, novr := 0,
    drop := false, tlaunch := 0#64, launched := false, launchSeq := 0, live := [], ended := 0, requests := [],
    savedOne := false, hbIn := [], fn := fn, port := port, decl := [], tdone := none, after := 0#64 }

/-! ## States (R328) -/

/-- The members of a node's co-schedule set on its die; the node itself when it has none (R328, R330; log 28). -/
def setOf (s : State) (n : Node) : List Node :=
  if n.cset = 0 then [n] else s.nodes.filter fun m => m.die == n.die && m.cset == n.cset && m.vmid == n.vmid

/-- May a waiting node enter READY: PREDS 0, and every member of its set waiting with PREDS 0 (R328)? -/
def mayReady (s : State) (n : Node) : Bool :=
  n.st == .waiting && n.preds == 0 &&
  (n.cset == 0 || ((setOf s n).all (fun m => m.st == .waiting && m.preds == 0) && (setOf s n).length == n.csize))

/-- Enter READY with a new ready sequence number (R328, R330). -/
def makeReady (n : Node) (s : State) : State :=
  wakeDie n.die ({ s with seqs := s.seqs + 1 }.setNode { n with st := .ready, readySeq := s.seqs, readyAt := s.cycle, aged := 0 })

/-- Every waiting node that may enters READY (R328). -/
def promote (s : State) : State :=
  (s.nodes.filter (mayReady s)).foldl (fun t n => makeReady n t) s

/-! ## Acceptance (R145, R327, R385) -/

/-- The lowest free index of a die (R327). -/
def lowestFree (used : List Nat) : (fuel : Nat) → (i : Nat) → Option Nat
  | 0, _ => none
  | f + 1, i => if used.contains i then lowestFree used f (i + 1) else some i

/-- The catalogues are open (R403). -/
def catalogueOpen (s : State) : Bool := natBits s.bootstat.toNat 31 24 == 8

/-- The catalogue of a die reads a slip (R145, R327, R385, R403): the state, and the index, −1 when it is full or closed, −2 when the slip is malformed. -/
def acceptSlip (die asid vmid fn : Nat) (port : Option Nat) (b : List Byte) (s : State) : State × Int :=
  if !catalogueOpen s then (s, -1)
  else if slipBad s.devCount b then (s, -2)
  else match lowestFree ((s.nodes.filter (·.die == die)).map (·.idx)) 16384 0 with
    | none => (s, -1)
    | some i => (promote { s with nodes := s.nodes ++ [nodeOf b die i asid vmid fn port] }, i)

/-! ## Firmware at work for a node -/

/-- A context in which a unit of the device acts for a process: no view and no register of its own. -/
def procCtx (s : State) (die vmid asid nd ni : Nat) : Ctx :=
  let c := { Ctx.fresh with
    life := .resident, die := die, bay := 99, core := 9, nodeDie := nd, nodeIdx := ni, asid := asid, vmid := vmid }
  match s.spaces.find? fun a => a.asid == asid && a.vmid == vmid with
  | none => c
  | some a => { c with s1Root := a.s1Root, uRoot := a.uRoot, adjRoot := BitVec.ofNat 64 a.adjRoot, s2Root := ((s.part? vmid).map (·.s2Root)).getD 0 }

/-- The context the device's own units act in for a node. -/
def nodeCtx (s : State) (n : Node) : Ctx := procCtx s n.die n.vmid n.asid n.die n.idx

/-- Act as a unit of the device beside all contexts. -/
def asUnit (c : Ctx) (f : State → State) (s : State) : State :=
  let t := f { s with me := c, ring := s.me :: s.ring }
  match t.ring with
  | m :: r => { t with me := m, ring := r }
  | [] => t

/-- A piece of n bytes at a place of the device, as its tables map it. -/
def homeSeg (s : State) (x n : Nat) : Seg := ⟨⟨x, false, (compPart s x).isSome, n, n⟩, n⟩

/-- The sectors what a unit writes needs on compressible pages (R264, R266): the state with them reserved, and whether they were found. -/
def unitReserve (cells : List PCell) (s : State) : State × Bool :=
  (blocksOf cells).foldl (fun (acc : State × Bool) b => match compPart acc.1 (b * 512) with
    | none => acc
    | some p =>
      if acc.2 && !blockParked acc.1 b then reserveFor p.vmid b (overlay b cells (blockContent acc.1 b)) acc.1 else (acc.1, false)) (s, true)

/-- The bytes of a unit's write at their places. -/
def cellsOf (ss : List Seg) (bs : List Byte) : List PCell := ((segLocs ss).zip bs).map fun (x, b) => ⟨x, b, false⟩

/-- A unit of the device writes some pieces: the sectors they need are taken at once, or, where there are none, wait with what calls for the write (R260, R266). -/
def unitWrite (known : List Nat) (p : W64) (ss : List Seg) (bs : List Byte) (s : State) : State :=
  let r := unitReserve (cellsOf ss bs) s
  writeSegs .cs known p (ss.map fun g => { g with tr := { g.tr with comp := false } }) bs (if r.2 then r.1 else s)

/-- May a unit write the pieces: no sealed buffer, no record page (R172, R350)? -/
def unitMay (s : State) (ss : List Seg) : Bool := !sealedHit s.mem ss && !recPageHit s true ss

/-- Do the writes of a unit find the sectors they need (R266)? -/
def unitFits (c : Ctx) (ws : List (W64 × List Byte)) (s : State) : Bool :=
  (ws.foldl (fun (acc : State × Bool) w => match acc.1.access c .write w.1 w.2.length with
    | .error _ => acc
    | .ok ss => let r := unitReserve (cellsOf ss w.2) acc.1; (r.1, acc.2 && (r.2 || !unitMay acc.1 ss))) (s, true)).2

/-- Write bytes for a process as one publish at device scope; a piece that has no place, or lies in a sealed buffer or a record page, is dropped. -/
def unitWrites (c : Ctx) (known : List Nat) (ws : List (W64 × List Byte)) (s : State) : State :=
  asUnit { c with acq := [⟨0, 0, known⟩] } (fun t =>
    publishSel .dev .c (fun _ => true) (ws.foldl (fun u w => match u.access u.me .write w.1 w.2.length with
      | .error _ => u
      | .ok ss => if unitMay u ss then unitWrite known w.1 ss w.2 u else u) t)) s

/-- Read bytes for a node as its predecessors and its adder published them (R145, R242). -/
def nodeRead (s : State) (n : Node) (p : W64) (k : Nat) : Option (List Byte) :=
  let c := refreshCtx s .dev { nodeCtx s n with acq := [⟨0, 0, n.hbIn⟩] }
  match s.access c .read p k with
  | .error _ => none
  | .ok ss => if recPageHit s true ss then none else some ((readSegs { s with me := c } [] ss).map (·.byte))

/-- Write bytes for a node as one publish at device scope, known to all it had seen (R329): the state and whether the place exists. -/
def nodeWrite (n : Node) (p : W64) (bs : List Byte) (s : State) : State × Bool :=
  match s.access (nodeCtx s n) .write p bs.length with
  | .error _ => (s, false)
  | .ok ss => if recPageHit s true ss then (s, false) else (unitWrites (nodeCtx s n) n.hbIn [(p, bs)] s, true)

/-! ## The end of a node (R328, R329) -/

/-- A context's instance has ended: it leaves its bank; its place wakes the other context (R146, R418). -/
def releaseCtx (launch : Nat) (s : State) : State :=
  match s.ctxOf launch with
  | none => s
  | some c => wakeReady (wakeDie c.die (wakeOther (vacate launch s) c))

/-- The later of two times. -/
def laterOf (a b : W64) : W64 := if a ≤ b then b else a

/-- TDONE (R340): the time of the publish of the declared writes, or the time an engine was done; never before TLAUNCH, though the clock may have been set back between (R399). -/
def tdoneOf (n : Node) (now : W64) : W64 := laterOf n.tlaunch (n.tdone.getD now)

/-- Deliver one edge (R328): the successor's PREDS, or the drop; a successor's TLAUNCH is not before this node's TDONE (R340). A failing node fails a waiting successor. -/
def deliverEdge (n : Node) (known : List Nat) (s : State) (e : Nat × Nat) : State :=
  match s.node? e.1 e.2 with
  | none => s.setNode { (s.node? n.die n.idx).getD n with drop := true }
  | some m =>
    if m.st == .waiting && m.preds != 0 then
      if n.status != 0 then s.setNode { m with st := .finishing, status := 6 }
      else s.setNode { m with preds := m.preds - 1, hbIn := (m.hbIn ++ known).eraseDups, after := laterOf m.after (tdoneOf n s.ptp) }
    else s.setNode { (s.node? n.die n.idx).getD n with drop := true }

/-- The record (R329). -/
def recordOf (n : Node) (tdone : W64) : List Byte :=
  leBytes 64 (n.tlaunch.toNat * 2 ^ 448 + tdone.toNat * 2 ^ 384 +
    (if n.status = 4 ∨ n.status = 5 ∨ n.status = 7 then n.xrank else 0) * 2 ^ 352 + min n.npre 65535 * 2 ^ 336 +
    min n.novr 65535 * 2 ^ 320 + n.die * 2 ^ 318 + n.idx * 2 ^ 304 + n.status * 2 ^ 300 + n.drop.toNat * 2 ^ 299)

def State.fnOf (s : State) (f : Nat) : Fn := (s.fns.find? (·.fn == f)).getD ⟨f, [], 0#6, 0#64⟩

def State.setFn (s : State) (f : Fn) : State := { s with fns := f :: s.fns.filter (·.fn != f.fn) }

def State.subPort (s : State) (f p : Nat) : SubPort :=
  (s.subPorts.find? fun x => x.fn == f && x.port == p).getD ⟨f, p, [], 0#64, 0#6⟩

def State.setSubPort (s : State) (x : SubPort) : State :=
  { s with subPorts := x :: s.subPorts.filter fun y => !(y.fn == x.fn && y.port == x.port) }

/-- The MSI-X vector that announces a record in host memory (R387). -/
def recordVec (s : State) (n : Node) : Nat :=
  match n.port with
  | some p => (s.subPort n.fn p).compvec.toNat
  | none => (s.fnOf n.fn).defVec.toNat

/-- Does the record of a node lie in host memory, not in device memory of a unified page (R296, R385)? -/
def toHost (s : State) (n : Node) : Bool :=
  match s.hostLoc (nodeCtx s n) .write n.comp with
  | .ok t => isHostBus t.loc
  | .error _ => false

/-- Write the completion record, and announce one in host memory (R329, R385, R387). -/
def writeCompletion (n : Node) (s : State) : State :=
  if n.comp = 0#64 then s
  else
    let r := nodeWrite n n.comp (recordOf n (tdoneOf n s.ptp)) s
    if r.2 ∧ spaceOf n.comp = .host then
      let f := r.1.fnOf n.fn
      let t := if toHost s n then r.1.setFn { f with evCount := f.evCount + 1#64 } else r.1
      t.emit (.msix n.fn (recordVec s n))
    else r.1

/-- Unbind the mailboxes of a node with their messages (R337), and drop its range units and the barriers of a group that has no node left. -/
def dropBindings (n : Node) (s : State) : State :=
  let gone (m : Mbx) : Bool := natBits m.binding.toNat 63 62 == 1 && m.die == n.die && natBits m.binding.toNat 61 48 == n.idx
  let grp := 2 * (n.die * 16384 + n.idx)
  let set := 2 * (n.die * 65536 + n.cset) + 1
  let lastOfSet := n.cset != 0 && (setOf s n).length ≤ 1
  { s with
    mailboxes := s.mailboxes.filter fun m => !gone m
    ranges := s.ranges.filter fun r => !(r.nodeDie == n.die && r.nodeIdx == n.idx)
    bars := s.bars.filter fun h => !(h.group == grp || (lastOfSet && h.group == set))
    archives := if n.status = 0 then s.archives.filter fun a => !(a.ctx.nodeDie == n.die && a.ctx.nodeIdx == n.idx) else s.archives
    gpCores := s.gpCores.filter fun g => !(g.nd == n.die && g.ni == n.idx) }

/-- The index is free again; a dispatcher whose engine or cores it used looks again (R328, R330). -/
def freeNode (n : Node) (s : State) : State :=
  wakeReady (wakeDie n.die { s with nodes := s.nodes.filter fun m => !(m.die == n.die && m.idx == n.idx) })

/-- Does a declaration with INTENT 2 or 3 hold the byte of a pointer (R324)? One in HOST space counts too (R387). -/
def declares (s : State) (p : W64) (t : Tod) : Bool :=
  let key (q : W64) : Nat := if spaceOf p = .host then q.toNat else s.lockKey q
  decide (2 ≤ t.intent) && (spaceOf p == .glb || spaceOf p == .host) && spaceOf t.ptr == spaceOf p && decide (key t.ptr ≤ key p) && decide (key p < key t.ptr + t.len)

/-- The stores of a general node's instances to its declared writes (R324). -/
def declared (s : State) (n : Node) : List (W64 × List Byte) :=
  (n.decl.filter fun x => n.tods.any (declares s x.1)).map fun x => (x.1, [x.2])

/-- The publish of the declared writes at device scope, by the device, as of all its instances (R146, R324, R329): those of a matrix node its instances have published, those of a general node are its cores' stores. -/
def publishDeclared (n : Node) (s : State) : State :=
  if !(declared s n).isEmpty then unitWrites (nodeCtx s n) n.hbIn (declared s n) s
  else { s with stamp := s.stamp + 1, mem := { s.mem with
      pubs := s.mem.pubs ++ [⟨s.stamp + 1, .dev, n.die, 99, 9, s.rank, (s.stamp + 1) :: n.hbIn⟩] } }

/-- FINISHING: declared writes published, edges delivered in list order, the record written, the index free (R328, R329). -/
def finishNode (n : Node) (s : State) : State :=
  let s1 := publishDeclared n s
  let known := (s.stamp + 1) :: n.hbIn
  let s2 := n.succs.foldl (deliverEdge n known) s1
  let m := { (s2.node? n.die n.idx).getD n with hbIn := known }
  promote (freeNode m (dropBindings m (writeCompletion m s2)))

/-- Can a finishing node finish: do its declared writes and its record find sectors, and their versions room (R260, R266)? -/
def canFinish (s : State) (n : Node) : Bool :=
  n.st == .finishing && unitFits (nodeCtx s n) (declared s n ++ [(n.comp, recordOf n 0#64)]) s && !overSpilled s (finishNode n s)

/-- NODE_FINISH (R328, R329). -/
def execNodeFinish (die idx : Nat) (s : State) : Ans :=
  match s.node? die idx with
  | some n => if canFinish s n then .next { finishNode n s with last := .event } else .next { s with last := .event }
  | none => .next { s with last := .event }

/-- Every instance of a node that has not ended is in its archive (R328). -/
def allSaved (s : State) (n : Node) : Bool :=
  !n.live.isEmpty && n.live.all fun l => s.archives.any fun a => a.ctx.launch == l

/-- The last archive is written: SAVED, and READY again with a new ready sequence number (R328, R336). -/
def savedNode (die idx : Nat) (s : State) : State :=
  match s.node? die idx with
  | none => s
  | some n => if n.savedOne && allSaved s n then makeReady { n with requests := [], savedOne := false, npre := n.npre + 1 } s else s

/-- One instance of a node has ended with all it had seen; the node completes with its last (R146). -/
def instanceEnded (die idx : Nat) (launch : Option Nat) (known : List Nat) (s : State) : State :=
  match s.node? die idx with
  | none => s
  | some n =>
    let live := match launch with
      | some l => n.live.filter (· != l)
      | none => n.live
    let left := live.length + (if n.kind = 1 then (s.gpCores.filter fun g => g.nd == die && g.ni == idx).length else 0)
    let m := { n with live := live, ended := n.ended + 1, hbIn := (n.hbIn ++ known).eraseDups,
                      tdone := if 2 ≤ n.kind then some s.ptp else n.tdone }
    savedNode die idx (s.setNode (if left = 0 then { m with st := .finishing, requests := [] } else m))

/-- The stores of an instance of a general node wait for the node to complete (R146, R324). -/
def keepStores (die idx : Nat) (stores : List (W64 × Byte)) (s : State) : State :=
  match s.node? die idx with
  | none => s
  | some n => s.setNode { n with decl := n.decl ++ stores }

/-- GENERAL_INSTANCE_END: an instance of a general node ended on its core, with the stores it made since its core's last SEND (R324, R331). -/
def execGeneralInstanceEnd (node : NodeAt) (stores : List (W64 × Byte)) (s : State) : Ans :=
  let mine (g : GpCore) : Bool := g.nd == node.die && g.ni == node.idx
  if s.gpCores.any mine then
    let s1 := keepStores node.die node.idx stores { s with gpCores := s.gpCores.eraseP mine }
    .next { wakeReady (wakeDie node.die (instanceEnded node.die node.idx none [] s1)) with last := .event }
  else .next { s with last := .event }

end Sys2Proof.Machine
end

