-- ==== Sys2Proof/Machine/Sync.lean ====
section
/-!
DEFINITION. C stream: PHASE, named barriers, mailboxes (R127 to R143, R337).
-/
namespace Sys2Proof.Machine

/-! ## PHASE (R129, R130) -/

/-- Exposed latency of a timed PHASE by scope (R130). -/
def phaseLat : Scope → Nat
  | .core => 4
  | .bay => 96
  | .die => 1280
  | .dev => 4096
  | .dom => 0

/-- A timed PHASE stops nothing: it publishes what it covers, and refreshes L cycles later. With no room for its versions the publish is left to the landing, which waits for it (R129, R130, R260). -/
def phaseTimed (scope : Scope) (s : State) : State :=
  let short := shortOf scope .c s
  pendAt (s.clock + phaseLat scope) (.refresh scope (s.me.strC.acc + 1) s.now)
    (if short = 0 then publish scope .c s else s.mapMe fun c => { c with roomWait := short })

/-- PHASE: publish what it covers, then refresh (R129, R130). -/
def execPhase (scope : Scope) (s : State) : Ans :=
  if s.me.timed && scope == .dom then illegal .c s
  else if s.me.timed then .next (retire .c 1 (phaseTimed scope s))
  else if boundaryBarred scope .c s then boundaryHold (shortOf scope .c s) s
  else .next (retire .c 1 (refresh scope (publish scope .c s)))

/-! ## Named barriers (R131 to R138) -/

/-- The unit of a context at a scope (R237). -/
def unitAt (s : State) (c : Ctx) : Scope → Nat
  | .core => s.rank * 384 + c.coreIdx
  | .bay => s.rank * 96 + c.coreIdx / 4
  | .die => s.rank * 4 + c.die
  | .dev => s.rank
  | .dom => 0

/-- What a barrier's participants share: their co-schedule set, or their node. -/
def groupOf (s : State) (c : Ctx) : Nat :=
  let own := 2 * (c.nodeDie * 16384 + c.nodeIdx)
  match s.node? c.nodeDie c.nodeIdx with
  | none => own
  | some n => if n.cset = 0 then own else 2 * (n.die * 65536 + n.cset) + 1

/-- The home of a barrier for a context: same group and number, and the context inside its unit (R133). -/
def homeIs (s : State) (c : Ctx) (b : Nat) (h : BarHome) : Bool :=
  h.group == groupOf s c && h.num == b && h.unit == unitAt s c h.scope

/-- The open or complete generation record of a home. -/
def BarHome.gen? (h : BarHome) (g : Nat) : Option BarGen := h.gens.find? (·.gen == g)

/-- An open generation: its count has not reached the expected count. -/
def openGen (h : BarHome) (g : BarGen) : Bool := g.doneAt.isNone && decide (g.count < h.expected)

/-- BAR.INIT (R132). -/
def execBarInit (b : BarNo) (a : SReg) (scope : Scope) (s : State) : Ans :=
  let c := (rdS s.me a).toNat
  if c = 0 ∨ 16777215 < c ∨ (s.me.bar? b).isSome then illegal .c s
  else .next (retire .c 1 (s.withMe (s.me.setBar b ⟨scope, c, false, 0, 0#64, false⟩)))

/-- Does an arrival differ from the first arrival of its generation (R133)? -/
def arrivalDiffers (s : State) (b : Nat) (x : BarSt) : Bool :=
  s.bars.any fun h => homeIs s s.me b h && (match h.gen? x.gen with
    | some g => decide (0 < g.count) && (h.scope != x.scope || h.expected != x.expected)
    | none => false)

/-- Is the generation two before still open (R138)? -/
def windowFull (s : State) (b : Nat) (x : BarSt) : Bool :=
  s.bars.any fun h => homeIs s s.me b h && (match h.gen? ((x.gen + 2 ^ 32 - 2) % 2 ^ 32) with
    | some g => openGen h g
    | none => false)

/-- Count one arrival in a generation; the last four records are kept (R133, R138). -/
def countIn (g : Nat) (gens : List BarGen) : List BarGen :=
  if gens.any (·.gen == g) then gens.map fun r => if r.gen = g then { r with count := r.count + 1 } else r
  else (⟨g, 1, none, 0#64⟩ :: gens).take 4

/-- Count the arrival at the home (R133). -/
def arriveAt (b : Nat) (x : BarSt) (s : State) : State :=
  let mine (h : BarHome) : Bool := homeIs s s.me b h && h.scope == x.scope
  if s.bars.any mine then
    { s with bars := s.bars.map fun h => if mine h then { h with expected := x.expected, gens := countIn x.gen h.gens } else h }
  else { s with bars := s.bars ++ [⟨unitAt s s.me x.scope, groupOf s s.me, b, x.scope, x.expected, [⟨x.gen, 1, none, 0#64⟩]⟩] }

/-- BAR.ARR: the publication and the count are one event (R133, R138). -/
def execBarArr (b : BarNo) (s : State) : Ans :=
  match s.me.bar? b with
  | none => illegal .c s
  | some x =>
    if x.arrived then illegal .c s
    else if arrivalDiffers s b x then illegal .c s
    else if windowFull s b x then (if s.me.timed then illegal .c s else .next (waitAt s))
    else if boundaryBarred x.scope .c s then boundaryHold (shortOf x.scope .c s) s
    else
      let s1 := arriveAt b x (publish x.scope .c s)
      .next (retire .c 1 (s1.withMe (s1.me.setBar b { x with arrived := true })))

/-- The context's generation at the barrier's home. -/
def genOf (s : State) (b : Nat) (x : BarSt) : Option BarGen :=
  match s.bars.find? fun h => homeIs s s.me b h && h.scope == x.scope with
  | none => none
  | some h => h.gen? x.gen

/-- The cycle the context's generation became complete in, if it is (R134). -/
def doneAt (s : State) (b : Nat) (x : BarSt) : Option Nat :=
  match genOf s b x with
  | none => none
  | some g => g.doneAt

/-- Has some cycle a PTP time at or above a deadline, of those whose greatest PTP time is `top` (R135)? 0 is no deadline (R136). -/
def pastDeadline (dl top : W64) : Bool := dl != 0#64 && decide (dl ≤ top)

/-- Did the context's generation become complete in a cycle after the deadline cycle (R134, R135)? -/
def doneLate (s : State) (b : Nat) (x : BarSt) : Bool :=
  match genOf s b x with
  | none => false
  | some g => g.doneAt.isSome && pastDeadline x.deadline g.top

def setEvent (bit : Nat) (c : Ctx) : Ctx := { c with events := c.events ||| BitVec.ofNat 5 (2 ^ bit) }

/-- The wait of a BAR.WT ends (R134, R135): LATE when it is late, then refresh, and the next generation. -/
def leaveBar (b : Nat) (x : BarSt) (late : Bool) (s : State) : State :=
  let s1 := refresh x.scope s
  s1.mapMe fun c =>
    let c1 := (if late then setEvent 3 c else c).setBar b { x with arrived := false, gen := (x.gen + 1) % 2 ^ 32 }
    { c1 with barWait := none }

/-- BAR.WT (R134, R135). Under STALL a completion after the deadline cycle sets LATE. Under PROCEED an incomplete generation ends the wait once the deadline cycle has passed, as does a generation completed after it for a context that was waiting in it and stood frozen (R357). -/
def execBarWt (b : BarNo) (s : State) : Ans :=
  match s.me.bar? b with
  | none => illegal .c s
  | some x =>
    if !x.arrived then illegal .c s
    else match doneAt s b x with
      | some _ => .next (retire .c 1 (leaveBar b x ((!x.proceed || s.me.barWait == some b.val) && doneLate s b x) s))
      | none =>
        if x.proceed && pastDeadline x.deadline s.ptpTop then .next (retire .c 1 (leaveBar b x true s))
        else .next (waitAt (s.mapMe fun c => { c with barWait := some b.val }))

/-- BAR.DL (R136): 0 means no deadline. -/
def execBarDl (b : BarNo) (a : SReg) (proceed : Bool) (s : State) : Ans :=
  match s.me.bar? b with
  | none => illegal .c s
  | some x => .next (retire .c 1 (s.withMe (s.me.setBar b { x with deadline := rdS s.me a, proceed := proceed })))

/-- A generation of a home whose count has reached the expected count and is not yet complete (R134). -/
def reached (h : BarHome) (g : BarGen) : Bool := g.doneAt.isNone && decide (h.expected ≤ g.count)

/-- BARRIER_COMPLETION of home number n: generations that reached their count are complete from this cycle (R134). -/
def execBarrierCompletion (n : Nat) (s : State) : Ans :=
  .next { s with last := .event, bars := s.bars.mapIdx fun i h =>
    if i = n then { h with gens := h.gens.map fun g => if reached h g then { g with doneAt := some s.cycle, top := s.ptpTop } else g } else h }

/-- Does a wait stand still: a frozen bay's, which ends in the first cycle after the restart (R356, R357)? -/
def waitStands (s : State) : Bool := s.me.timed && (s.myBay.frozen || s.myBay.restarted == s.cycle + 1)

/-- Does the context's BAR.WT on b end by its deadline (R135): waiting, PROCEED, the deadline cycle over and the generation not complete in it? -/
def deadlineEnds (s : State) (b : Nat) : Bool :=
  s.me.barWait == some b && !waitStands s && (match s.me.bar? b with
    | none => false
    | some x => x.arrived && x.proceed && pastDeadline x.deadline s.ptpTop && ((doneAt s b x).isNone || doneLate s b x))

/-- The BAR.WT of the context whose turn it is ends as at the end of the last cycle. -/
def endWait (b : Nat) (s : State) : State :=
  match s.me.bar? b with
  | none => s
  | some x =>
    let h := if usesTokens s.me then headerOf (s.wordsAt .c).1 else 0#4
    let s1 := retire .c 1 (leaveBar b x true (s.mapMe (learn .c h)))
    let s2 := finish s.me.launch .c h h true s.me.strC.ord s1
    s2.mapMe fun c => { c with strC := { c.strC with ref := s.now } }

/-- BARRIER_DEADLINE: the wait of a PROCEED BAR.WT ended in the deadline cycle, after every arrival counted in it (R135); the first context whose wait on b ends so. -/
def execBarrierDeadline (b : BarNo) (s : State) : Ans :=
  match s.ctxs.find? fun c => deadlineEnds (s.seenBy c.launch) b with
  | none => .next { s with last := .event }
  | some c => .next { s.onLaunch c.launch (endWait b) with last := .event }

/-! ## Mailboxes (R140 to R143, R337) -/

def mbxKind (m : Mbx) : Nat := natBits m.binding.toNat 63 62
def mbxIndex (m : Mbx) : Nat := natBits m.binding.toNat 61 48
def mbxRank (m : Mbx) : Nat := natBits m.binding.toNat 47 16
def mbxVmid (m : Mbx) : Nat := natBits m.binding.toNat 15 8
def mbxSkind (m : Mbx) : Nat := natBits m.binding.toNat 7 6

/-- Is the mailbox the balloon mailbox of the context's partition (R270)? -/
def isBalloonBox (s : State) (c : Ctx) (m : Mbx) : Bool :=
  match s.part? c.vmid with
  | none => false
  | some p => p.bmbx == m.die * 256 + m.num

/-- May a context send to the mailbox (R140, R270, R337)? -/
def maySend (s : State) (c : Ctx) (m : Mbx) : Bool :=
  (mbxKind m != 0 && mbxVmid m == c.vmid && (mbxSkind m == 0 || mbxSkind m == 2)) || (c.sup && isBalloonBox s c m)

/-- Is a context the receiver (R140, R337)? The node's catalogue is the mailbox's die. -/
def isReceiver (c : Ctx) (m : Mbx) : Bool :=
  mbxKind m == 1 && m.die == c.nodeDie && mbxIndex m == c.nodeIdx && mbxRank m == c.vrank.toNat && mbxVmid m == c.vmid

/-- Latch an interrupt source; the cycle counts from which a latch stands (R347). -/
def setIrq (bit : BitVec 7) (cyc : Nat) (c : Ctx) : Ctx :=
  { c with irq := c.irq ||| bit, irqAt := if c.irq = 0#7 then cyc else c.irqAt }

/-- Latch an interrupt source in the resident and the saved contexts of some kind (R347, R385). -/
def latchIrq (sel : Ctx → Bool) (bit : BitVec 7) (s : State) : State :=
  let f (c : Ctx) : Ctx := if c.life != .vacant && sel c then setIrq bit s.cycle c else c
  { s.mapCtxs f with archives := s.archives.map fun a => { a with ctx := f a.ctx } }

/-- Append a message; a bound context's MAIL interrupt source is latched (R141, R337, R347). -/
def sendMsg (m : Mbx) (v : W64) (s : State) : State :=
  let s1 := s.setMbx { m with msgs := m.msgs ++ [v &&& 0x7FFFFFFFFFFFFFFF#64] }
  latchIrq (fun c => isReceiver c m) 1#7 s1

/-- The mailbox a register names; none when bits 63:10 are not zero (R140). -/
def boxOf (s : State) (v : W64) : Option Mbx :=
  if v.toNat < 1024 then some (s.mbx (v.toNat / 256) (v.toNat % 256)) else none

/-- MBX.SEND (R141). -/
def execMbxSend (a b : SReg) (s : State) : Ans :=
  let v := rdS s.me a
  match boxOf s v with
  | none => trapOn .c (exAcc s .c 7 v .write 0xFF) s
  | some m =>
    if !maySend s s.me m then trapOn .c (exAcc s .c 7 v .write 0xFF) s
    else if 16 ≤ m.msgs.length then (if s.me.timed then illegal .c s else .next (waitAt s))
    else if boundaryBarred .dev .c s then boundaryHold (shortOf .dev .c s) s
    else .next (retire .c 1 (sendMsg m (rdS s.me b) (publish .dev .c s)))

/-- Deliver a taken message: it leaves the mailbox, sd receives it, device-scope refresh (R142). -/
def receive (d : SReg) (v : W64) (lat : Nat) (m : Mbx) (s : State) : State :=
  refresh .dev (wrS d v lat (s.setMbx m))

/-- MBX.RECV (R142, R143). -/
def execMbxRecv (d a : SReg) (s : State) : Ans :=
  let v := rdS s.me a
  match boxOf s v with
  | none => trapOn .c (exAcc s .c 7 v .read 0xFF) s
  | some m =>
    if !isReceiver s.me m then trapOn .c (exAcc s .c 7 v .read 0xFF) s
    else match takeMsg m with
      | none => .next (waitAt s)
      | some (w, m1) => .next (retire .c 1 (receive d w 1 m1 s))

/-- MBX.TRY (R142, R143): a timed one samples in its landing cycle, a queued one in its issue cycle, of all points of its round trip (DESIGN CHOICE, log 96). -/
def execMbxTry (d a : SReg) (s : State) : Ans :=
  let v := rdS s.me a
  match boxOf s v with
  | none => trapOn .c (exAcc s .c 7 v .read 0xFF) s
  | some m =>
    if !isReceiver s.me m then trapOn .c (exAcc s .c 7 v .read 0xFF) s
    else if s.me.timed then
      .next (retire .c 1 (pendAt (s.clock + (if m.die = s.me.die then 96 else 4096)) (.mbxTry d v.toNat) s))
    else match takeMsg m with
      | none => .next (retire .c 1 (wrS d 0x8000000000000000#64 s.trip s))
      | some (w, m1) => .next (retire .c 1 (receive d w s.trip m1 s))

end Sys2Proof.Machine
end

