-- ==== Sys2Proof/Machine/CSystem.lean ====
section
/-!
DEFINITION. C stream: work ranges, nodes, yielding, time, events, traps, return, bank switch, DIFF.MODE, CSRs (R144 to R153, R355).
-/
namespace Sys2Proof.Machine

/-! ## RNG.NEXT (R144) -/

def ceilDiv (a b : Nat) : Nat := (a + b - 1) / b

/-- Range units of a node in ascending die number. -/
def insertUnit (u : RangeU) : List RangeU → List RangeU
  | [] => [u]
  | v :: r => if u.die < v.die then u :: v :: r else v :: insertUnit u r

def unitsOf (s : State) (die idx : Nat) : List RangeU :=
  (s.ranges.filter fun r => r.nodeDie == die && r.nodeIdx == idx).foldl (fun l u => insertUnit u l) []

/-- Steal until the unit at position p holds work or D − 1 victims were tried (R144). -/
def stealLoop (p : Nat) : (tries : Nat) → List RangeU → List RangeU
  | 0, us => us
  | n + 1, us =>
    match us[p]? with
    | none => us
    | some u =>
      if u.remaining ≠ 0 then us
      else
        let u1 := { u with steals := u.steals + 1 }
        let vp := (p + u1.steals) % us.length
        let v := if vp = p then u1 else us.getD vp u1
        let h := ceilDiv v.remaining 2
        let us1 := us.set p u1
        if h = 0 then stealLoop p n us1
        else stealLoop p n ((us1.set vp { v with remaining := v.remaining - h }).set p { u1 with start := v.start + v.remaining - h, remaining := h })

/-- Serve a request to the unit at position p (R144): start, length, and the units after it. -/
def serveRange (total p : Nat) (us : List RangeU) : Nat × Nat × List RangeU :=
  let us1 := stealLoop p (us.length - 1) us
  match us1[p]? with
  | none => (total, 0, us1)
  | some u =>
    if u.remaining = 0 then (total, 0, us1)
    else
      let len := min u.remaining (max u.minimum (ceilDiv u.remaining (2 * u.instances)))
      (u.start, len, us1.set p { u with start := u.start + len, remaining := u.remaining - len })

/-- Store range units. -/
def State.setRanges (s : State) (us : List RangeU) : State :=
  { s with ranges := s.ranges.map fun r =>
      (us.find? fun u => u.die == r.die && u.nodeDie == r.nodeDie && u.nodeIdx == r.nodeIdx).getD r }

/-- RNG.NEXT (R144): a node that declares no range receives start 0 and length 0. -/
def execRngNext (d : SReg) (s : State) : Ans :=
  if s.me.timed then illegal .c s
  else
    let us := unitsOf s s.me.nodeDie s.me.nodeIdx
    let total := ((s.node? s.me.nodeDie s.me.nodeIdx).map (·.range)).getD 0
    let r := serveRange total (us.findIdx fun u => u.die == s.me.die) us
    .next (retire .c 1 (wrS (d + 1) (BitVec.ofNat 64 r.2.1) s.trip (wrS d (BitVec.ofNat 64 r.1) s.trip (s.setRanges r.2.2))))

/-! ## NODE.ADD, NODE.DONE, YIELD (R145, R146) -/

/-- The function of a partition on the link of a die (R383, R384, R387): functions are numbered 8 × link + VMID. -/
def fnOfDie (die vmid : Nat) : Nat := 8 * (die / 2) + vmid

/-- What a slip's adder had published stands before the node (R145, R242). -/
def nodeKnows (die : Nat) (idx : Int) (known : List Nat) (s : State) : State :=
  match s.node? die idx.toNat with
  | some n => if 0 ≤ idx then s.setNode { n with hbIn := (n.hbIn ++ known).eraseDups } else s
  | none => s

/-- NODE.ADD's effect: publish, then the catalogue reads the slip (R145). -/
def addNode (d : SReg) (ss : List Seg) (s : State) : State :=
  let s1 := publish .dev .c s
  let bs := (readSegs (s1.withMe (refreshCtx s1 .dev s1.me)) [] ss).map (·.byte)
  let r := acceptSlip s1.me.die s1.me.asid s1.me.vmid (fnOfDie s1.me.die s1.me.vmid) none bs s1
  wrS d (BitVec.ofInt 64 r.2) s.trip (nodeKnows s1.me.die r.2 s1.me.knownC r.1)

/-- NODE.ADD (R145). -/
def execNodeAdd (d a : SReg) (s : State) : Ans :=
  let p := rdS s.me a
  if s.me.timed then illegal .c s
  else if spaceOf p ≠ .glb then trapOn .c (exAcc s .c 0 p .read 0xFF) s
  else if p.toNat % 256 ≠ 0 then trapOn .c (exAcc s .c 2 p .read 0xFF) s
  else match checkAccess s true .read p 256 with
    | .error e => trapOn .c e s
    | .ok acc => if boundaryBarred .dev .c s then boundaryHold (shortOf .dev .c s) s else .next (retire .c 1 (addNode d acc.ss s))

/-- The recorded fault of the lowest faulted tag with no command in flight (R41, R146). -/
def firstFault (c : Ctx) : Option (Nat × TagFault) :=
  (List.range 128).findSome? fun t => if c.tagBusy t then none else ((c.tag t).fault).map fun f => (t, f)

/-- Is all work of the context done (R146 step 2)? -/
def allDrained (c : Ctx) : Bool := c.cmds.isEmpty && c.acmds.isEmpty && c.loads.isEmpty && c.rets.isEmpty && c.pend.isEmpty && c.words.isEmpty

/-- The A, M and S streams stop at their entry boundaries (R146 step 1). -/
def stopStreams (s : State) : State :=
  s.mapMe fun c => { c with
    strA := { c.strA with stopped := true }, strM := { c.strM with stopped := true }, strS := { c.strS with stopped := true } }

/-- Publish every write of the context at a scope (R146 step 3, R361). -/
def publishAll (scope : Scope) (s : State) : State := publishSel scope .c (fun _ => true) s

/-- The instance ends: writes published, lease, slots, accumulators and partition released (R146, R418). -/
def endInstance (s : State) : State :=
  let s1 := publishAll .dev s
  let c := s1.me
  let s2 := releaseCtx c.launch s1
  { instanceEnded c.nodeDie c.nodeIdx (some c.launch) c.knownC s2 with last := .retired }

/-- NODE.DONE (R146). -/
def execNodeDone (s : State) : Ans :=
  let s1 := stopStreams s
  match firstFault s1.me with
  | some (t, f) => takeTagFault .c t f s1
  | none =>
    let short := spaceShort .dev .c (fun _ => true) s1
    if !allDrained s1.me || s1.me.priv.any (·.parked.isSome) then .next (waitAt s1)
    else if 0 < short then boundaryHold short s1
    else .next (endInstance s1)

/-- A standing pre-emption request for the context's node (R333). -/
def requested (s : State) (c : Ctx) : Bool :=
  match s.node? c.nodeDie c.nodeIdx with
  | none => false
  | some n => !n.requests.isEmpty

/-- A pre-emption of a running node takes effect (R328). -/
def nodeStops (die idx : Nat) (s : State) : State :=
  match s.node? die idx with
  | none => s
  | some n => if n.st = .running then s.setNode { n with st := .stopping } else s

/-- The context stops for a save (R334): its node is STOPPING, its lease term ends (R15) and the other context of its core becomes active (R418). -/
def stopForSave (k : StopKind) (s : State) : State :=
  let s1 := nodeStops s.me.nodeDie s.me.nodeIdx (endLease s.me.launch (s.mapMe fun c => { c with life := .stopped, saving := some k, barWait := none }))
  wakeOther s1 s1.me

/-- YIELD (R146): a cooperative stop when a request stands or the yield deadline has come, which drains as any save does (R361); else nothing. -/
def execYield (s : State) : Ans :=
  let s1 := retire .c 1 s
  if !s.me.timed && (requested s s.me || decide (s.me.yieldDl ≤ s.ptp)) then .next (drainOut (stopForSave .cooperative s1)) else .next s1

/-! ## Time and events (R147, R148) -/

/-- TSC (R147). -/
def execTsc (d : SReg) (s : State) : Ans :=
  let v := if s.ptp < s.me.lastTsc then s.me.lastTsc else s.ptp
  .next (retire .c 1 (wrS d v 1 (s.mapMe fun c => { c with lastTsc := v })))

/-- Does a mailbox bound to the context hold a message (R148 MAIL)? -/
def mailPending (s : State) (c : Ctx) : Bool := s.mailboxes.any fun m => isReceiver c m && !m.msgs.isEmpty

/-- The pending events (R148). -/
def pendingEv (s : State) : BitVec 5 := (s.me.events &&& 0x1E#5) ||| (if mailPending s s.me then 1#5 else 0#5)

/-- WAIT.EV (R148). -/
def execWaitEv (d a : SReg) (s : State) : Ans :=
  let m := rdS s.me a
  let mask := m.setWidth 5
  if natBits m.toNat 62 5 ≠ 0 ∨ mask = 0#5 then illegal .c s
  else
    let got := pendingEv s &&& mask
    if got = 0#5 ∧ m.getLsbD 63 = false then .next (waitAt s)
    else .next (retire .c 1 (wrS d (got.setWidth 64) 1 (s.mapMe fun c => { c with events := c.events &&& ~~~(got &&& 0x1E#5) })))

/-! ## Traps, return, switching (R149, R150, R355) -/

/-- TRAP and BRK count as issued and as retired (R368). -/
def countTrap (s : State) : State := s.mapMe fun c => { c with strC := countRetired { c.strC with ref := s.now + 1 } }

/-- TRAP (R149): the saved PC is the word after it. -/
def execTrap (a : SReg) (s : State) : Ans :=
  let pc := s.me.strC.pc
  trapOn .c ⟨11, 0, padTo 64 (leBytes 4 (rdS s.me a).toNat ++ leBytes 4 0 ++ le64 pc)⟩
    (countTrap (s.mapMe fun c => { c with strC := { c.strC with pc := pc + 4#64 } }))

/-- BRK (R149): the saved PC is the BRK word. -/
def execBrk (s : State) : Ans := trapOn .c ⟨12, 0, padTo 64 (le64 s.me.strC.pc)⟩ (countTrap s)

/-- Has a handler results still pending (R355, R368)? All that is pending in supervisor mode is the handler's own. -/
def handlerPending (c : Ctx) : Bool := !c.pend.isEmpty || c.words.any (·.own)

/-- A parked atomic meets poisoned data: in a timed context its word lands faulted; in a queued one sd receives 0, and the trap is an asynchronous one, held in a handler until ERET (R123, R282, R348, R358). -/
def atomPoisoned (p : Priv) (r : AtomReq) (d id : Nat) (s : State) : State :=
  if s.me.timed then arrive true id (.faulted (Fin.ofNat 32 d) r.loc p.ptr p.addr) 0#6 0 s
  else holdAsync 14 (poisonInfo s.mem p.addr r.loc p.ptr 0xFF) (arrive false id (.s (Fin.ofNat 32 d) 0#64) 0#6 (s.clock + tripAt s r.loc) s)

/-- A parked atomic is performed at its home: its result arrives as any other's (R123, R267). -/
def atomArrives (p : Priv) (r : AtomReq) (d id : Nat) (s : State) : State :=
  let q := performAtomic r s
  if q.2.2.1 then atomPoisoned p r d id s
  else arrive s.me.timed id (.s (Fin.ofNat 32 d) q.1) q.2.1 (s.clock + tripAt s r.loc) q.2.2.2

/-- Does an entry meet a compressible page (R264, R272)? -/
def onComp (s : State) (p : Priv) : Bool := (blocksOf p.cells).any (compBlock s)

/-- Make a withdrawn C-stream write or atomic again (R269, R355): it is placed or parks as at its first issue. -/
def replayWrite (p : Priv) (s : State) : State :=
  match p.kind with
  | .atom r d id =>
    let t := if onComp s p && !atomBad s.mem r then reserveAtom { placedCells s p with parked := none } s else (s, true)
    if t.2 then atomArrives p r d id t.1
    else { s with me := addPriv { p with parked := some (s.seqs, s.cycle) } s.me, seqs := s.seqs + 1 }
  | .plain | .acc _ => placePriv (onComp s p) { p with parked := none } s

/-- ERET's effect, in the order of R355: the status, the write made again, the rest of the frame (R355, R359). -/
def eretNow (f : Frame) (s : State) : State :=
  let s1 := leaveFreeze (restoreFrame f s)
  let s2 := match eretReplay f s with
    | some p => replayWrite p s1
    | none => s1
  { s2.mapMe (fun c => { c with strC := countRetired c.strC }) with last := .retired }

/-- ERET (R355): in user mode illegal; in supervisor mode with no valid frame a double trap (R150). -/
def execEret (s : State) : Ans :=
  if !s.me.sup then illegal .c s
  else match s.me.frame with
    | none => illegal .c s
    | some f => if handlerPending s.me then .next (waitAt s) else .next (eretNow f s)

/-- CTX.SW (R13, R149, R150, R418): with no resumable context in the other bank a double trap. -/
def execCtxSw (s : State) : Ans :=
  if !s.me.sup || s.me.timed || (otherBank s s.me).isNone then illegal .c s
  else
    let s1 := retire .c 1 s
    .next (wakeOther (endLease s1.me.launch (s1.mapMe fun c => { c with life := .resident })) s1.me)

/-! ## DIFF.MODE (R151) -/

/-- Is a differentiable access of the context in flight (R151, R153, R319)? -/
def diffInFlight (c : Ctx) : Bool := c.cmds.any fun x => x.dmode != .off

/-- Is an accumulate, a clear or an append of the context still parked, so that it is not held at its home (R153, R319)? -/
def diffParked (c : Ctx) : Bool := c.priv.any fun p => (p.diff || p.tape.isSome) && p.parked.isSome

/-- What DIFF.MODE publishes: what any boundary would, and every accumulate and clear of the context (R151, R319). -/
def diffCovers (s : State) (p : Prov) : Bool := covers s.me .c s.now p || p.diff

/-- DIFF.MODE (R151). -/
def execDiffMode (mode : DMode) (s : State) : Ans :=
  if s.me.timed then illegal .c s
  else if diffInFlight s.me || diffParked s.me || coverParked s.me .c s.now || decide (0 < spaceShort .core .c (diffCovers s) s) then
    .next (waitAt (s.mapMe fun c => { c with diffWait := true, roomWait := spaceShort .core .c (diffCovers s) s }))
  else
    let s1 := (publishSel .core .c (diffCovers s) s).mapMe fun c => { c with dmode := mode, diffWait := false }
    .next (retire .c 1 (refresh .core s1))

/-! ## CSRs (R42 to R44, R152, R153) -/

/-- May the CSR be read in a mode (R42, R43)? -/
def csrReadable (sup : Bool) (r : Csr) : Bool :=
  match r with
  | .adjRoot | .trapVec | .trapCause => sup
  | _ => true

/-- May the CSR be written in a mode (R42, R43)? -/
def csrWritable (sup : Bool) (r : Csr) : Bool :=
  match r with
  | .frnd | .fflags | .scaleRcp | .tapeBase | .tapeLimit => true
  | .status | .tapeHead | .adjRoot | .expStall | .trapVec => sup
  | .ctxclass | .vrank | .vcount | .part | .dmode | .patchEpoch | .yieldDl | .trapCause => false

/-- Writes that wait for differentiable accesses (R153). -/
def csrWaits (r : Csr) : Bool :=
  match r with
  | .tapeBase | .tapeLimit | .tapeHead | .adjRoot => true
  | _ => false

/-- A CSR write: in force from the next cycle (R44). -/
def writeCsr (r : Csr) (v : W64) (s : State) : State := pendAt (s.clock + 1) (.csr r v) s

/-- CSRR (R152). -/
def execCsrr (d : SReg) (r : Csr) (s : State) : Ans :=
  if csrReadable s.me.sup r then .next (retire .c 1 (wrS d (readCsr s.me r) 1 s)) else illegal .c s

/-- CSRW (R152, R153). -/
def execCsrw (r : Csr) (a : SReg) (s : State) : Ans :=
  if !csrWritable s.me.sup r then illegal .c s
  else if csrWaits r && (diffInFlight s.me || diffParked s.me) then .next (waitAt s)
  else .next (retire .c 1 (writeCsr r (rdS s.me a) s))

/-- CSRX (R152): one that cannot write reads nothing. -/
def execCsrx (d : SReg) (r : Csr) (a : SReg) (s : State) : Ans :=
  if !csrWritable s.me.sup r then illegal .c s
  else if csrWaits r && (diffInFlight s.me || diffParked s.me) then .next (waitAt s)
  else .next (retire .c 1 (wrS d (readCsr s.me r) 1 (writeCsr r (rdS s.me a) s)))

end Sys2Proof.Machine
end

