-- ==== Sys2Proof/Machine/ACol.lean ====
section
/-!
DEFINITION. A stream: collectives, COL.WAIT, COL.ARB, and packet landing (R179 to R186).
-/
namespace Sys2Proof.Machine

/-! ## Collectives (R180 to R182) -/

/-- A collective as read at issue (R180): the communicator stands in the bank field. -/
def newCol (k : CmdKind) (g : GReg) (comm : BankNo) (l : LReg) (t : TagNo) (ser : Bool) (w1 : Nat) (s : State) : Cmd :=
  { newCmd k g comm l t ser w1 s with fmt := .raw, xfmt := .raw, dmode := .off }

def Cmd.bkt (c : Cmd) : Bool := eBit c.w1 27

/-- RED and ROOT rules of a kind (R180); `m` ranks. -/
def colFieldsBad (c : Cmd) (m : Nat) : Bool :=
  match c.kind with
  | .colRed | .colRs => decide (2 < c.red) || c.root != 0
  | .colBc => c.red != 0 || decide (m ≤ c.root)
  | _ => c.red != 0 || c.root != 0

/-- The data formats and operations (R180). -/
def colFmtBad (c : Cmd) : Bool :=
  match layFmt c.lay with
  | some .fp32 | some .bf16 => false
  | some .int32 => c.red != 0
  | _ => true

/-- An illegal dynamic combination of a collective (R157, R180). -/
def colIllegal (s : State) (c : Cmd) : Bool :=
  let ranks := s.comm s.me.die c.bank
  s.me.timed || layBad c.lay || colFmtBad c || ranks.isEmpty || !ranks.contains s.rank || colFieldsBad c ranks.length ||
  layStride c.lay != 0 || layZ c.lay || layT c.lay || layExp c.lay != 0 ||
  ((c.kind == .colRs || c.kind == .colAg) && c.count % ranks.length != 0)

/-- Bytes of the buffer. -/
def colBytes (c : Cmd) : Nat := c.count * elemBytes c.other

/-- The pages of the buffer, read and written in place, with their checks (R167, R172, R173, R176, R180). -/
def colSegs (s : State) (c : Cmd) : Except Exc (List Seg) :=
  if spaceOf c.ptr ≠ .glb ∧ spaceOf c.ptr ≠ .adj then .error (exAcc s .a 0 c.ptr .rmw c.tag)
  else if c.ptr.toNat % 2 ^ layAlign c.lay ≠ 0 then .error (exAcc s .a 2 c.ptr .rmw c.tag)
  else match s.access s.me .rmw c.ptr (colBytes c) with
    | .error e => .error (exPtr s .a c.ptr .rmw (.collective c.tag) e)
    | .ok ss =>
      if recPageHit s true ss then .error (exAcc s .a 1 c.ptr .rmw c.tag)
      else if sealedHit s.mem ss || shadowHit s false ss then .error (exAcc s .a 4 c.ptr .rmw c.tag)
      else if segsDiff ss && s.me.dmode != .off && !s.me.diffWait then .error (exAcc s .a 5 c.ptr .rmw c.tag)
      else .ok ss

/-- The next issue sequence number of a communicator (R181). -/
def takeColSeq (die comm : Nat) (s : State) : Nat × State :=
  let n := ((s.colSeqs.find? fun x => x.1 == die && x.2.1 == comm).map (·.2.2)).getD 0
  (n, { s with colSeqs := (die, comm, n + 1) :: s.colSeqs.filter fun x => !(x.1 == die && x.2.1 == comm) })

/-- Arm a collective on its bucket, or start it at once when the bucket is full (R179). -/
def armCol (c : Cmd) (k : Bucket) (s : State) : State :=
  let s1 := pushCmd { c with st := .armed } s
  let k1 := { k with armed := some c.id }
  let s2 := s1.mapMe fun x => { x with buckets := x.buckets.map fun b => if b.base = k.base then k1 else b }
  if k.total ≤ k.count then fireBucket k1 c.id s2 else s2

/-- A checked collective issues (R179, R180). -/
def issueCol (c : Cmd) (s : State) : Ans :=
  let r := takeColSeq s.me.die c.bank s
  let d := { c with colSeq := r.1 }
  if !c.bkt then .next (retire .a 2 (pushQueued d r.2))
  else match s.me.buckets.find? (·.base == c.ptr) with
    | none => illegal .a s
    | some k =>
      if k.armed.isSome ∨ k.total ≠ colBytes c then illegal .a s
      else .next (retire .a 2 (armCol d k r.2))

/-- A collective command (R165, R179, R180). -/
def colCmd (c : Cmd) (s : State) : Ans :=
  if colIllegal s c then illegal .a s
  else if 128 ≤ s.me.cmds.length then .next (waitAt s)
  else match colSegs s c with
    | .error e => trapOn .a e s
    | .ok ss => if diffHolds s ss then .next (waitAt s) else issueCol c s

/-- COL.RED (R180, R181). -/
def execColRed (g : GReg) (comm : BankNo) (l : LReg) (t : TagNo) (ser : Bool) (w1 : BitVec 28) (s : State) : Ans :=
  colCmd (newCol .colRed g comm l t ser w1.toNat s) s
/-- COL.RS (R180, R181). -/
def execColRs (g : GReg) (comm : BankNo) (l : LReg) (t : TagNo) (ser : Bool) (w1 : BitVec 28) (s : State) : Ans :=
  colCmd (newCol .colRs g comm l t ser w1.toNat s) s
/-- COL.AG (R180, R181). -/
def execColAg (g : GReg) (comm : BankNo) (l : LReg) (t : TagNo) (ser : Bool) (w1 : BitVec 28) (s : State) : Ans :=
  colCmd (newCol .colAg g comm l t ser w1.toNat s) s
/-- COL.BC (R180, R181). -/
def execColBc (g : GReg) (comm : BankNo) (l : LReg) (t : TagNo) (ser : Bool) (w1 : BitVec 28) (s : State) : Ans :=
  colCmd (newCol .colBc g comm l t ser w1.toNat s) s

/-- A collective node ends with its command (R325, R331): its writes published; a recorded fault ends it as an unhandled trap (log 31). -/
def endEngineNode (s : State) : State :=
  let c := s.me
  if c.core ≠ 9 ∨ !c.cmds.isEmpty then s
  else if (firstFault c).isSome then endGang c.nodeDie c.nodeIdx 7 0 s
  else endInstance s

/-- COLLECTIVE_COMPLETE with the other ranks' contributions (R181, R182, R394). -/
def execCollectiveComplete (id : Nat) (peers : PeerData) (s : State) : Ans :=
  .next (onCmd id (fun x t =>
    if x.isCol ∧ x.st = .running then endEngineNode (completeCollective x peers t)
    else if x.isCol ∧ unparked t x then endEngineNode (doneCmd x x.nonFin t)
    else t) (if peers.bufs.isEmpty then s else takeVc2 s))

/-- COL.WAIT: bit 0 is the reduced non-finite flag (R182). -/
def execColWait (d : GReg) (tag : TagNo) (s : State) : Ans :=
  tagWait tag (fun t =>
    let x := t.me.tag tag
    wrG d (if x.nonFinite then 1#64 else 0#64) 1 (t.mapMe fun c => c.setTag tag { x with nonFinite := false })) s

/-- COL.ARB (R183). -/
def execColArb (a : GReg) (s : State) : Ans :=
  let v := (rdG s.me a).toNat
  if 2 ^ 16 ≤ v ∨ v % 256 = 0 ∨ v / 256 = 0 then illegal .a s
  else .next (retire .a 1 (s.mapMe fun c => { c with weights := BitVec.ofNat 16 v }))

/-! ## Packet landing (R184, R186) -/

/-- An arming descriptor that breaks the map (R184). -/
def armBad (b : List Byte) : Bool :=
  colField b 255 64 != 0 || colField b 31 20 != 0 || colField b 15 6 != 0 || colField b 19 16 == 0

def armOf (b : List Byte) (order : Nat) : Armed := ⟨colField b 5 0, colField b 63 48, colField b 47 32, colField b 19 16, order⟩

/-- Does a command of a context have a bank of another among its places (R184)? -/
def namesBank (s : State) (o : Ctx) (c : Cmd) (launch b : Nat) : Bool :=
  c.kind != .cpFill && spaceOf c.ptr == .scr && ptrBank c.ptr == b && (match s.scrCtx o c.ptr with
    | .ok x => x.launch == launch
    | .error _ => false)

/-- Has the bank a command in flight, of the context or through an SCR pointer of another (R184)? -/
def bankBusy (s : State) (b : Nat) : Bool :=
  (s.me.cmds.any fun c => !c.isCol && (c.bank == b || (c.isIndexed && c.xbank == b))) ||
  s.ctxs.any fun o => o.life != .vacant && o.cmds.any fun c => namesBank s o c s.me.launch b

/-- PKT.ARM (R184). -/
def execPktArm (a : GReg) (s : State) : Ans :=
  let p := rdG s.me a
  if spaceOf p ≠ .glb ∧ spaceOf p ≠ .scr then trapOn .a (exAcc s .a 0 p .read 0xFF) s
  else if p.toNat % 32 ≠ 0 then trapOn .a (exAcc s .a 2 p .read 0xFF) s
  else match readForA s (visA s.me) p 32 with
    | .error e => trapOn .a e s
    | .ok d =>
      let k := armOf d s.seqs
      if armBad d then illegal .a s
      else if s.me.nbank ≤ k.bank then bankFault .a .read s
      else if s.me.bankFmt k.bank ≠ .raw ∨ s.me.isArmed k.bank = true ∨ bankBusy s k.bank = true then illegal .a s
      else .next (retire .a 1 { (touchAt p 32 s).mapMe (fun c => { c with arm := c.arm ++ [k] }) with seqs := s.seqs + 1 })

/-- PKT.WAIT (R186): the oldest landing that has not been returned. -/
def execPktWait (d : GReg) (s : State) : Ans :=
  match s.me.landed with
  | b :: r => .next (retire .a 1 (wrG d (BitVec.ofNat 64 b) 1 (s.mapMe fun c => { c with landed := r })))
  | [] => if s.me.arm.isEmpty then illegal .a s else .next (waitAt s)

end Sys2Proof.Machine
end

