-- ==== Sys2Proof/Machine/CInt.lean ====
section
/-!
DEFINITION. C stream: integer arithmetic, immediates and constants (R104 to R109).
-/
namespace Sys2Proof.Machine

/-- A C-stream instruction of one word with an integer result of exposed latency `lat` (R104). -/
def intRes (d : SReg) (v : W64) (lat : Nat) (s : State) : Ans := .next (retire .c 1 (wrS d v lat s))

/-- Signed quotient rounded toward zero, with the boundary results of R107. -/
def divS (a b : W64) : W64 := if b = 0#64 then 0xFFFFFFFFFFFFFFFF#64 else BitVec.ofInt 64 (a.toInt.tdiv b.toInt)
/-- Unsigned quotient (R106, R107). -/
def divU (a b : W64) : W64 := if b = 0#64 then 0xFFFFFFFFFFFFFFFF#64 else BitVec.ofNat 64 (a.toNat / b.toNat)
/-- Signed remainder with the dividend's sign (R106, R107). -/
def remS (a b : W64) : W64 := if b = 0#64 then a else BitVec.ofInt 64 (a.toInt.tmod b.toInt)
/-- Unsigned remainder (R106, R107). -/
def remU (a b : W64) : W64 := if b = 0#64 then a else BitVec.ofNat 64 (a.toNat % b.toNat)

/-- Bits 127:64 of the signed product (R106). -/
def mulHigh (a b : W64) : W64 := BitVec.ofInt 64 (a.toInt * b.toInt / 2 ^ 64)

/-- Shift amount b[5:0] (R106). -/
def shAmt (b : W64) : Nat := b.toNat % 64

/-- Zero bits from the top, or from the bottom, until the first one bit; n when there is none (R106). -/
def ctzFrom : (n : Nat) → (x : Nat) → Nat
  | 0, _ => 0
  | n + 1, x => if x % 2 = 1 then 0 else ctzFrom n (x / 2) + 1

def ctz64 (a : W64) : Nat := ctzFrom 64 a.toNat
def clz64 (a : W64) : Nat := if a = 0#64 then 64 else 63 - a.toNat.log2

/-- One bits of a number, of its lowest n bits (R106). -/
def popCount : (n : Nat) → (x : Nat) → Nat
  | 0, _ => 0
  | n + 1, x => x % 2 + popCount n (x / 2)

/-- BEXT (R106): offset b[5:0], width min(b[14:8], 64). -/
def bitExtract (a b : W64) : W64 := BitVec.ofNat 64 (a.toNat / 2 ^ shAmt b % 2 ^ min (natBits b.toNat 14 8) 64)

def boolW (c : Bool) : W64 := if c then 1#64 else 0#64

/-- ADD (R106). -/
def execAdd (d a b : SReg) (s : State) : Ans := intRes d (rdS s.me a + rdS s.me b) 1 s

/-- SUB (R106). -/
def execSub (d a b : SReg) (s : State) : Ans := intRes d (rdS s.me a - rdS s.me b) 1 s

/-- MUL (R106). -/
def execMul (d a b : SReg) (s : State) : Ans := intRes d (rdS s.me a * rdS s.me b) 3 s

/-- MULH (R106). -/
def execMulh (d a b : SReg) (s : State) : Ans := intRes d (mulHigh (rdS s.me a) (rdS s.me b)) 3 s

/-- DIV (R106). -/
def execDiv (d a b : SReg) (s : State) : Ans := intRes d (divS (rdS s.me a) (rdS s.me b)) 20 s

/-- DIVU (R106). -/
def execDivu (d a b : SReg) (s : State) : Ans := intRes d (divU (rdS s.me a) (rdS s.me b)) 20 s

/-- REM (R106). -/
def execRem (d a b : SReg) (s : State) : Ans := intRes d (remS (rdS s.me a) (rdS s.me b)) 20 s

/-- REMU (R106). -/
def execRemu (d a b : SReg) (s : State) : Ans := intRes d (remU (rdS s.me a) (rdS s.me b)) 20 s

/-- AND (R106). -/
def execAnd (d a b : SReg) (s : State) : Ans := intRes d (rdS s.me a &&& rdS s.me b) 1 s

/-- OR (R106). -/
def execOr (d a b : SReg) (s : State) : Ans := intRes d (rdS s.me a ||| rdS s.me b) 1 s

/-- XOR (R106). -/
def execXor (d a b : SReg) (s : State) : Ans := intRes d (rdS s.me a ^^^ rdS s.me b) 1 s

/-- SHL (R106). -/
def execShl (d a b : SReg) (s : State) : Ans := intRes d (rdS s.me a <<< shAmt (rdS s.me b)) 1 s

/-- SHR (R106). -/
def execShr (d a b : SReg) (s : State) : Ans := intRes d (rdS s.me a >>> shAmt (rdS s.me b)) 1 s

/-- SRA (R106). -/
def execSra (d a b : SReg) (s : State) : Ans := intRes d ((rdS s.me a).sshiftRight (shAmt (rdS s.me b))) 1 s

/-- MIN (R106). -/
def execMin (d a b : SReg) (s : State) : Ans := intRes d (if (rdS s.me b).slt (rdS s.me a) then rdS s.me b else rdS s.me a) 1 s

/-- MAX (R106). -/
def execMax (d a b : SReg) (s : State) : Ans := intRes d (if (rdS s.me a).slt (rdS s.me b) then rdS s.me b else rdS s.me a) 1 s

/-- MINU (R106). -/
def execMinu (d a b : SReg) (s : State) : Ans := intRes d (if rdS s.me b < rdS s.me a then rdS s.me b else rdS s.me a) 1 s

/-- MAXU (R106). -/
def execMaxu (d a b : SReg) (s : State) : Ans := intRes d (if rdS s.me a < rdS s.me b then rdS s.me b else rdS s.me a) 1 s

/-- SLT (R106). -/
def execSlt (d a b : SReg) (s : State) : Ans := intRes d (boolW ((rdS s.me a).slt (rdS s.me b))) 1 s

/-- SLTU (R106). -/
def execSltu (d a b : SReg) (s : State) : Ans := intRes d (boolW (decide (rdS s.me a < rdS s.me b))) 1 s

/-- CLZ: 64 for a zero operand (R106). -/
def execClz (d a : SReg) (s : State) : Ans := intRes d (BitVec.ofNat 64 (clz64 (rdS s.me a))) 1 s

/-- CTZ: 64 for a zero operand (R106). -/
def execCtz (d a : SReg) (s : State) : Ans := intRes d (BitVec.ofNat 64 (ctz64 (rdS s.me a))) 1 s

/-- POPC (R106). -/
def execPopc (d a : SReg) (s : State) : Ans := intRes d (BitVec.ofNat 64 (popCount 64 (rdS s.me a).toNat)) 1 s

/-- BEXT (R106). -/
def execBext (d a b : SReg) (s : State) : Ans := intRes d (bitExtract (rdS s.me a) (rdS s.me b)) 1 s

/-- ADDI (R108). -/
def execAddi (d a : SReg) (imm : BitVec 12) (s : State) : Ans := intRes d (rdS s.me a + sx12 imm) 1 s

/-- ANDI (R108). -/
def execAndi (d a : SReg) (imm : BitVec 12) (s : State) : Ans := intRes d (rdS s.me a &&& sx12 imm) 1 s

/-- ORI (R108). -/
def execOri (d a : SReg) (imm : BitVec 12) (s : State) : Ans := intRes d (rdS s.me a ||| sx12 imm) 1 s

/-- XORI (R108). -/
def execXori (d a : SReg) (imm : BitVec 12) (s : State) : Ans := intRes d (rdS s.me a ^^^ sx12 imm) 1 s

/-- SLTI (R108). -/
def execSlti (d a : SReg) (imm : BitVec 12) (s : State) : Ans := intRes d (boolW ((rdS s.me a).slt (sx12 imm))) 1 s

/-- SHLI (R108). -/
def execShli (d a : SReg) (sh : BitVec 6) (s : State) : Ans := intRes d (rdS s.me a <<< sh.toNat) 1 s

/-- SHRI (R108). -/
def execShri (d a : SReg) (sh : BitVec 6) (s : State) : Ans := intRes d (rdS s.me a >>> sh.toNat) 1 s

/-- SRAI (R108). -/
def execSrai (d a : SReg) (sh : BitVec 6) (s : State) : Ans := intRes d ((rdS s.me a).sshiftRight sh.toNat) 1 s

/-- LUI (R109): the sign-extended immediate times 2^12. -/
def execLui (d : SReg) (imm : BitVec 17) (s : State) : Ans := intRes d (imm.signExtend 64 <<< 12) 1 s

/-- LI (R81, R109), two words. -/
def execLi (d : SReg) (imm : BitVec 17) (ext : W32) (s : State) : Ans := .next (retire .c 2 (wrS d (li49 imm ext) 1 s))

end Sys2Proof.Machine
end

