-- ==== Sys2Proof/Machine/CFp.lean ====
section
/-!
DEFINITION. C stream: FP32 arithmetic (R110 to R113).
-/
namespace Sys2Proof.Machine

/-- An FP32 result with its flags, both landing together (R105, R110). -/
def fpRes (nf : Bool) (d : FReg) (r : Res) (lat : Nat) (s : State) : Ans :=
  .next (retire .c 1 (raiseC nf r.flags lat (wrF d (BitVec.ofNat 32 r.bits) lat s)))

/-- An FP32 result that raises nothing (R111, R113). -/
def fpMove (d : FReg) (v : W32) (s : State) : Ans := .next (retire .c 1 (wrF d v 1 s))

/-- FADD (R110). -/
def execFadd (nf : Bool) (d a b : FReg) (s : State) : Ans :=
  fpRes nf d (addFp32 s.me.rmC (rdF s.me a) (rdF s.me b)) 4 s

/-- FSUB (R110). -/
def execFsub (nf : Bool) (d a b : FReg) (s : State) : Ans :=
  fpRes nf d (subFp32 s.me.rmC (rdF s.me a) (rdF s.me b)) 4 s

/-- FMUL (R110). -/
def execFmul (nf : Bool) (d a b : FReg) (s : State) : Ans :=
  fpRes nf d (mulFp32 s.me.rmC (rdF s.me a) (rdF s.me b)) 4 s

/-- FFMA: fd is read as the addend at issue; one rounding (R110). -/
def execFfma (nf : Bool) (d a b : FReg) (s : State) : Ans :=
  fpRes nf d (fmaFp32 s.me.rmC (rdF s.me a) (rdF s.me b) (rdF s.me d)) 4 s

/-- FDIV (R110). -/
def execFdiv (nf : Bool) (d a b : FReg) (s : State) : Ans :=
  fpRes nf d (divFp32 s.me.rmC (rdF s.me a) (rdF s.me b)) 12 s

/-- FSQRT (R110). -/
def execFsqrt (nf : Bool) (d a : FReg) (s : State) : Ans := fpRes nf d (sqrtFp32 s.me.rmC (rdF s.me a)) 12 s

/-- FMIN: no flags, so nf changes nothing (R110, R111). -/
def execFmin (_nf : Bool) (d a b : FReg) (s : State) : Ans := fpMove d (minFp32 (rdF s.me a) (rdF s.me b)) s

/-- FMAX: no flags, so nf changes nothing (R110, R111). -/
def execFmax (_nf : Bool) (d a b : FReg) (s : State) : Ans := fpMove d (maxFp32 (rdF s.me a) (rdF s.me b)) s

/-- FCMP.eq: no flags (R111). -/
def execFcmpEq (_nf : Bool) (d : SReg) (a b : FReg) (s : State) : Ans := intRes d (boolW (eqFp32 (rdF s.me a) (rdF s.me b))) 1 s

/-- FCMP.lt: no flags (R111). -/
def execFcmpLt (_nf : Bool) (d : SReg) (a b : FReg) (s : State) : Ans := intRes d (boolW (ltFp32 (rdF s.me a) (rdF s.me b))) 1 s

/-- FCMP.le: no flags (R111). -/
def execFcmpLe (_nf : Bool) (d : SReg) (a b : FReg) (s : State) : Ans := intRes d (boolW (leFp32 (rdF s.me a) (rdF s.me b))) 1 s

/-- FCVT.W: the INT32 sign-extended (R112). -/
def execFcvtW (nf : Bool) (d : SReg) (a : FReg) (s : State) : Ans :=
  let r := cvtW s.me.rmC (rdF s.me a)
  .next (retire .c 1 (raiseC nf r.flags 4 (wrS d ((BitVec.ofNat 32 r.bits).signExtend 64) 4 s)))

/-- FCVT.F (R112). -/
def execFcvtF (nf : Bool) (d : FReg) (a : SReg) (s : State) : Ans := fpRes nf d (cvtF s.me.rmC (rdS s.me a)) 4 s

/-- FCLASS: no flags (R113). -/
def execFclass (_nf : Bool) (d : SReg) (a : FReg) (s : State) : Ans := intRes d (BitVec.ofNat 64 (classFp32 (rdF s.me a))) 1 s

/-- FMV (R113). -/
def execFmv (_nf : Bool) (d a : FReg) (s : State) : Ans := fpMove d (rdF s.me a) s

/-- FSGNJ (R113). -/
def execFsgnj (_nf : Bool) (d a b : FReg) (s : State) : Ans := fpMove d (sgnj (rdF s.me a) (rdF s.me b)) s

end Sys2Proof.Machine
end

