-- ==== Sys2Proof/Machine/CoreSteps.lean ====
section
/-!
DEFINITION. Steps of a core that no word encodes: a held give, and results that land (R18, R104, R130, R358).
-/
namespace Sys2Proof.Machine

/-- The step was one that no word encodes. -/
def eventDone (s : State) : Ans := .next { s with last := .event }

/-- RETIREMENT_TOKEN_GIVE: the instruction that stays at retirement gives its tokens when there is room (R18). -/
def execRetirementTokenGive (x : StreamId) (s : State) : Ans :=
  match (s.me.strm x).held with
  | [] => eventDone s
  | h :: r =>
    if giveRoom s.me x h s.cycle then
      eventDone (s.mapMe fun c => (giveNow c x h s.cycle).mapStrm x fun t => { t with held := r })
    else eventDone s

/-- Does the context's bay stand still for its results (R356)? A handler's own land in real cycles (R368). -/
def latchesStand (s : State) : Bool := s.me.timed && !s.me.sup && s.myBay.frozen

/-- Is the first pending result due from an earlier cycle (R104)? -/
def landOld (s : State) : Bool :=
  match s.me.pend with
  | [] => false
  | p :: _ => !p.what.inBank && decide (p.due < s.clock) && (!landStays s p || (landHeld s p && !s.myBay.frozen))

/-- Is the first pending result due in this cycle (R104)? In a frozen bay it stays a latch (R356, R368). -/
def landNew (s : State) : Bool :=
  match s.me.pend with
  | [] => false
  | p :: _ => dueIn s.clock p && !latchesStand s && (!landStays s p || (landHeld s p && !s.myBay.frozen))

/-- RESULT_LANDING: what is due lands in order; a refresh behind a parked write, or without room for its versions, freezes the bay (R130, R260, R360); a poisoned word traps the C stream (R358). -/
def execResultLanding (s : State) : Ans :=
  match s.me.pend with
  | [] => eventDone s
  | p :: _ =>
    if landOld s && !landHeld s p then eventDone (landEarlier s)
    else if decide (p.due ≤ s.clock) && landHeld s p then eventDone ((holdBay s).mapMe fun c => { c with roomWait := max c.roomWait (landShort s p) })
    else match landDue s.clock (4 * s.me.pend.length + 8) s with
      | (s1, none) => eventDone s1
      | (s1, some (x, q, a)) => eventDone (takeTrap ⟨14, .c, 0, poisonInfo s.mem a x q 0xFF⟩ s1)

end Sys2Proof.Machine
end

