-- ==== Sys2Proof/Machine/Tables.lean ====
section
/-!
DEFINITION. Changes of translation tables in force: what they reach, the shootdown they wait for, revocations, and the pages and sectors of a partition after them (R247, R264, R265, R271, R300, R301, R305).
-/
namespace Sys2Proof.Machine

/-! ## Pages and their sectors (R264, R265, R271, R272) -/

/-- Do two ranges meet? -/
def meets (x n y k : Nat) : Bool := decide (x < y + k) && decide (y < x + n)

/-- Blocks of a range. -/
def rangeBlocks (x n : Nat) : List Nat := (List.range (n / 512)).map (x / 512 + ·)

/-- Sectors of the die's DRAM a block holds now: none once it is demoted (R264, R273). -/
def heldBy (s : State) (blk : Nat) : Nat := let b := s.blockOf blk; if b.demoted then 0 else b.sectors

/-- A page outside a range of physical addresses: what is left of it before and after. -/
def Page.without (g : Page) (x n : Nat) : List Page :=
  if g.frame + g.size ≤ x ∨ x + n ≤ g.frame then [g]
  else (if g.frame < x then [{ g with size := x - g.frame }] else []) ++
    (if x + n < g.frame + g.size then [{ g with frame := x + n, size := g.frame + g.size - (x + n) }] else [])

/-- The part of a page inside a range. -/
def Page.within (g : Page) (x n : Nat) : Option Page :=
  let a := max g.frame x
  let b := min (g.frame + g.size) (x + n)
  if a < b then some { g with frame := a, size := b - a } else none

/-- Sectors a page takes on the die's DRAM (R264, R272): 8 a block, or what each block of a compressible page holds; none on the stacks. -/
def pageSectors (s : State) (g : Page) : Nat :=
  if !isDram (locPa s.rank g.frame) then 0
  else if g.comp then ((rangeBlocks (locPa s.rank g.frame) g.size).map (heldBy s)).sum
  else g.size / 512 * 8

/-- A range of a partition is mapped no more: its pages leave the nominal size (R265, R271). -/
def unmapRange (x n : Nat) (p : Part) : Part :=
  { p with
    pages := p.pages.flatMap fun g => g.without x n
    nominal := p.nominal - ((p.pages.filterMap fun g => g.within x n).map (·.size)).sum / 4096 }

/-- A range is mapped no more, and its sectors are free. -/
def freeRange (s : State) (x n : Nat) (p : Part) : Part :=
  { unmapRange x n p with used := p.used - ((p.pages.filterMap fun g => g.within x n).map (pageSectors s)).sum }

/-- A page is mapped: it counts for the nominal size, and its sectors are allocated (R264, R265). -/
def takePage (s : State) (g : Page) (p : Part) : Part :=
  let q := freeRange s g.frame g.size p
  { q with pages := g :: q.pages, nominal := q.nominal + g.size / 4096, used := q.used + pageSectors s g }

/-- The leaves of a stage-2 tree from a table of level `n - 1` down, as pages (R289 to R291). -/
def stage2Pages (m : Mem) (rank : Nat) : (n : Nat) → (t : Nat) → List Page
  | 0, _ => []
  | n + 1, t => (List.range 512).flatMap fun i =>
    let e := readEntry m rank (t + 8 * i)
    if !eV e || malformed .stage2 n e then []
    else if isTable e then stage2Pages m rank n (tblAddr e)
    else [⟨leafBase e, leafSize e, eC e, false⟩]

/-- Blocks that no reservation is kept for any more. -/
def dropBlocks (gs : List Page) (s : State) : State :=
  { s with blocks := s.blocks.filter fun b => !gs.any fun g => g.has s.rank (512 * b.loc) }

/-- Write table entries at their homes (R289). -/
def writePtes (ws : List PteWrite) (s : State) : State :=
  { s with mem := ws.foldl (fun m w => writeBases m w.loc (leBytes 8 w.entry.toNat)) s.mem }

/-- Entries are written, and the pages, nominal size and sectors of a partition follow its stage-2 tree: leaves that went are unmapped, leaves that came are mapped (R264, R265, R271). -/
def retable (vmid : Nat) (ws : List PteWrite) (s : State) : State :=
  let t := writePtes ws s
  match s.part? vmid with
  | none => t
  | some p =>
    let old := (stage2Pages s.mem s.rank 4 p.s2Root).eraseDups
    let new := (stage2Pages t.mem s.rank 4 p.s2Root).eraseDups
    let gone := old.filter fun g => !new.contains g
    let come := (new.filter fun g => !old.contains g).map fun g =>
      { g with diff := p.pages.any fun h => h.diff && meets h.frame h.size g.frame g.size }
    let u := dropBlocks (gone ++ come) t
    u.setPart (come.foldl (fun q g => takePage u g q) (gone.foldl (fun q g => freeRange s g.frame g.size q) p))

/-! ## What a change reaches (R300, R301) -/

/-- Contexts that may hold translations of a shootdown's range. -/
def shotBy (r : ShootReq) (c : Ctx) : Bool :=
  c.vmid == r.vmid && (match r.asid with
    | none => true
    | some a => c.asid == a)

/-- Does a write change an entry that is in force (R300)? -/
def overwrites (s : State) (ws : List PteWrite) : Bool :=
  ws.any fun w => let e := leNat (readBases s.mem w.loc 8); eV e && e != w.entry.toNat

/-- The virtual address a pointer is translated at; an SCR pointer is not translated (R46, R287). -/
def vaOf (c : Ctx) (p : W64) : Option Nat :=
  match spaceOf p with
  | .glb | .adj => some (ptrVa p)
  | .tape => (tapePtr c p).toOption.map ptrVa
  | .host => some (natBits p.toNat 56 0)
  | .scr | .bad => none

/-- The places a pointer leads to for one kind of access or another. -/
def placesOf (s : State) (c : Ctx) (p : W64) : List Trans :=
  [AccKind.read, .write, .exec].filterMap fun k => (s.place c k p 1).toOption

/-- What a pointer leads to for every kind of access, a fetch of each stream among them (R99, R302). -/
def leadsTo (s : State) (c : Ctx) (p : W64) : List (Except PErr Trans) :=
  ([AccKind.read, .write, .exec].map fun k => s.place c k p 1) ++
    [StreamId.c, .a, .m, .s].map fun x => if spaceOf p = .glb then s.glbLoc c .exec (some x.num) p else .error (.acc 0)

def sameLead (a b : Except PErr Trans) : Bool :=
  match a, b with
  | .ok x, .ok y => x == y
  | .error x, .error y => x == y
  | _, _ => false

/-- Offsets into n bytes that between them meet every 4 KiB of them. -/
def pageSteps (n : Nat) : List Nat := (List.range (n / 4096 + 1)).map (4096 * ·) ++ [n - 1]

/-- Do written entries lead some of n bytes at a pointer elsewhere, or change what may be done there (R300)? -/
def reroutes (s : State) (ws : List PteWrite) (c : Ctx) (p : W64) (n : Nat) : Bool :=
  let t := writePtes ws s
  (pageSteps n).any fun o =>
    let q := p + BitVec.ofNat 64 o
    decide (o < n) && ((leadsTo s c q).zip (leadsTo t c q)).any fun r => !sameLead r.1 r.2

/-- Do the places of a donation meet a range? -/
def Donation.meets (d : Donation) (x n : Nat) : Bool := d.pieces.any fun r => Machine.meets x n r.1 r.2

/-- Does a change reach n bytes at a pointer of a context, all of them in one page? -/
def Change.hits (ch : Change) (s : State) (c : Ctx) (p : W64) (n : Nat) : Bool :=
  match vaOf c p with
  | none => false
  | some va => match ch with
    | .shoot r => shotBy r c && meets va n r.va r.len
    | .move r => (placesOf s c p).any fun t => meets t.loc n (locPa s.rank r.oldFrame) r.size
    | .map r => c.vmid == r.part && reroutes s r.writes c p n
    | .answer _ ws => reroutes s ws c p n
    | .give v d => c.vmid == v && (placesOf s c p).any fun t => d.meets t.loc n

/-- May a change reach pages of a context at all? Its accesses wait at translation meanwhile (R301; log 75). -/
def Change.concerns (ch : Change) (s : State) (c : Ctx) : Bool :=
  match ch with
  | .shoot r => shotBy r c
  | .move r => match s.part? c.vmid with
    | none => true
    | some p => p.pages.any fun g => meets g.frame g.size r.oldFrame r.size
  | .map r => c.vmid == r.part
  | .answer l _ => (s.ctxOf l).any fun d => d.vmid == c.vmid
  | .give v _ => c.vmid == v

/-- An access cut where its pages end; from a byte that does not translate on it stays whole. `fuel` bounds the pages. -/
def pieces (s : State) (c : Ctx) : (fuel : Nat) → (p : W64) → (n : Nat) → List (W64 × Nat)
  | 0, _, _ => []
  | f + 1, p, n =>
    if n = 0 then []
    else match s.place c .read p n with
      | .error _ => [(p, n)]
      | .ok t =>
        let l := min n (max 1 t.left)
        (p, l) :: pieces s c f (p + BitVec.ofNat 64 l) (n - l)

/-- The blocks an expanding command reads, behind its colophon (R171). -/
def expPieces (s : State) (c : Cmd) : List (W64 × Nat) :=
  (c.ptr, 64) :: (List.range (expLeft s c)).flatMap fun i =>
    let o := 64 + 16 * (c.w1 % 2 ^ 25 + c.nextBlock + i)
    (c.ptr + BitVec.ofNat 64 o, 16) :: match expRead s c o 16 with
      | .error _ => []
      | .ok h => let b := blkHdr (h.map (·.byte)); [(c.ptr + BitVec.ofNat 64 b.off, b.clen)]

/-- The memory a command of the context whose turn it is still reads or writes, its tape record and adjoint cells with it. -/
def cmdPieces (s : State) (c : Cmd) : List (W64 × Nat) :=
  let rows := List.range (layRows c.lay)
  let at' (base : W64) (rs : List (Nat × Nat)) : List (W64 × Nat) := rs.map fun r => (base + BitVec.ofNat 64 r.1, r.2)
  let tile := rows.flatMap fun i => at' c.ptr (memRuns c.lay (cmdMemFmt c) i)
  let own := match c.kind with
    | .cpBb | .cpFill => []
    | .cpIn => if c.isExp then expPieces s c else tile
    | .cpOut => tile
    | .cpGth | .cpSct => rows.flatMap fun i => match cmdIndex s c i with
      | none => []
      | some x => at' (gatherPtr c x) (gatherRuns c)
    | .colRed | .colRs | .colAg | .colBc => [(c.ptr, c.count * elemBytes c.other)]
  let cells := if c.dmode = .off then [] else tile.map fun x => (adjPtr x.1, x.2)
  let tape := match c.tape with
    | none => []
    | some p => [(p, recSize (4 * c.count))]
  (own ++ cells ++ tape).flatMap fun x => pieces s s.me x.2 x.1 x.2

/-- Does a change reach the memory of a command of the context whose turn it is? -/
def Change.hitsCmd (ch : Change) (s : State) (c : Cmd) : Bool := (cmdPieces s c).any fun x => ch.hits s s.me x.1 x.2

/-- The pointer of a fault report (R304). -/
def reportPtr (rep : List Byte) : W64 := BitVec.ofNat 64 (leNat ((rep.drop 24).take 8))

/-! ## The shootdown (R300, R301, R305) -/

/-- Is a page the change reaches pinned for a running timed node, as itself or as the adjoint of one (R274, R299, R300)? -/
def Change.pinned (ch : Change) (s : State) : Bool :=
  s.ctxs.any fun c => c.life != .vacant && c.timed && c.locked.any fun g =>
    let p := BitVec.ofNat 64 g.1
    ch.hits s c p g.2 || ch.hits s c (adjPtr p) g.2

/-- Must a command be through before another one moves (R161, R312): the other is serialised under its tag, or both are REV commands? -/
def Cmd.after (y x : Cmd) : Bool := decide (x.id < y.id) && ((y.ser && y.tag == x.tag) || (y.dmode == .rev && x.dmode == .rev))

/-- The commands in flight, in issue order, that some ones need to be through: those themselves and the ones that go before them. -/
def neededBy (hit : Cmd → Bool) : List Cmd → List Cmd
  | [] => []
  | x :: r => let q := neededBy hit r; if hit x || q.any (·.after x) then x :: q else q

/-- Does a command that the device cannot complete at once still use an entry the change drops, or go before one that does (R301): a collective, armed or running, whose pages were translated at its issue (R167), or a copy that waits for the memory processor at a page the change does not reach? A parked write counts as performed, but holds the commands after it. -/
def Change.blocked (ch : Change) (s : State) : Bool :=
  s.ctxs.any fun c => c.life != .vacant && ch.concerns s c && let t := s.seenBy c.launch
    let ns := neededBy (ch.hitsCmd t) c.cmds
    ns.any fun x => x.isCol || (x.st == .pageWait && !ch.hits t c (reportPtr x.report) 1) || (x.st == .parked && ns.any (·.after x))

/-- A copy performs its accesses through the translations it has (R301). -/
def settleCmd (id : Nat) (s : State) : State :=
  match s.cmd? id with
  | none => s
  | some c =>
    if c.isCol || (c.st != .running && c.st != .waiting) then s
    else
      let s1 := if c.isExp then decodeAll (2 ^ 20) id s else s
      match s1.cmd? id with
      | none => s1
      | some d => completeCopy d s1

/-- Every copy that uses an entry the change drops performs its accesses, after those that go before it (R161, R301, R312); a timed context has none, its pages being pinned. -/
def Change.settle (ch : Change) (s : State) : State :=
  (s.ctxs.filter fun c => c.life != .vacant && !c.timed && ch.concerns s c).foldl (fun u c =>
    u.onLaunch c.launch fun t => ((neededBy (ch.hitsCmd t) t.me.cmds).map (·.id)).foldl (fun v i => settleCmd i v) t) s

/-- The VMID and the host link of a function (R384). -/
def fnVmid (f : Nat) : Nat := f % 8
def fnLink (f : Nat) : Nat := f / 8

/-- The HOST pointer of a unified address. -/
def hostPtr (va : W64) : W64 := BitVec.ofNat 64 (5 * 2 ^ 60 + va.toNat % 2 ^ 57)

/-- Answers given to the host agent that a change makes wrong (R305). -/
def Change.answered (ch : Change) (s : State) : List (Nat × Nat × W64) :=
  s.answers.filter fun a => ch.hits s (procCtx s 0 (fnVmid a.1) a.2.1 0 0) (hostPtr a.2.2) 1

/-- Revoke those answers: the change waits for the confirmation (R305). -/
def Change.revoke (ch : Change) (s : State) : State :=
  match ch.answered s with
  | [] => s
  | hit =>
    let n := s.seqs + 1
    { s.emit (.revoke n) with
      seqs := n, revoking := s.revoking ++ [n], answers := s.answers.filter fun a => !hit.contains a,
      shoots := s.shoots.map fun x => if x.1 = ch then (ch, x.2 ++ [n]) else x }

/-- May a change that waits for some confirmations complete (R300, R301, R305)? -/
def shootReady (s : State) (x : Change × List Nat) : Bool :=
  !x.1.pinned s && !x.1.blocked s && (x.1.answered s).isEmpty && x.2.all fun n => !s.revoking.contains n

/-- Has a pending change something to do: to complete, or to revoke an answer given since? -/
def shootDue (s : State) (x : Change × List Nat) : Bool := shootReady s x || !(x.1.answered s).isEmpty

/-- A change that waits no more. -/
def dropChange (ch : Change) (s : State) : State := { s with shoots := s.shoots.filter (·.1 != ch) }

/-- A change asks for its shootdown and stays pending until that completes; then what it does follows (R300, R301). -/
def Change.await (ch : Change) (done : State → State) (s : State) : State :=
  let s1 := ch.revoke (if s.shoots.any (·.1 == ch) then s else { s with shoots := s.shoots ++ [(ch, [])] })
  match s1.shoots.find? (·.1 == ch) with
  | none => s1
  | some x => if shootReady s1 x then dropChange ch (done (ch.settle s1)) else s1

end Sys2Proof.Machine
end

