-- ==== Sys2Proof/Machine/MemSteps.lean ====
section
/-!
DEFINITION. Steps of the memory system: parked writes, out-of-space faults, the ballooning engine, donations, folding, quotas, errors and self-tests, pins (spec 12, R257 to R284).
-/
namespace Sys2Proof.Machine

/-! ## Parked writes (R267, R269) -/

/-- The earlier of two entries of the queue of parked writes. -/
def earlier (a b : Nat × Priv) : Nat × Priv :=
  match a.2.parked, b.2.parked with
  | some x, some y => if y.1 < x.1 then b else a
  | _, _ => a

/-- Parked entries of a partition with their contexts' launch numbers. -/
def parkedIn (s : State) (part : Nat) : List (Nat × Priv) :=
  (s.ctxs.filter (·.vmid == part)).flatMap fun c => (c.priv.filter (·.parked.isSome)).map fun p => (c.launch, p)

/-- The head of a list of parked entries. -/
def headOf : List (Nat × Priv) → Option (Nat × Priv)
  | [] => none
  | x :: r => some (r.foldl earlier x)

/-- A parked atomic whose sectors are reserved is performed at its home (R125, R267). -/
def performParked (p : Priv) (r : AtomReq) (d id : Nat) (s : State) : State :=
  atomArrives p r d id (s.mapMe fun c => { c with priv := c.priv.filter (· != p) })

/-- Place a parked entry of the context whose turn it is, if its sectors can be reserved. -/
def placeNow (p : Priv) (s : State) : State :=
  let r := reserveAll p s
  if !r.2 then s
  else match p.kind with
    | .atom q d id => performParked p q d id r.1
    | .plain | .acc _ => unpark p r.1

/-- The oldest atomic of another party that waits for a partition's sectors. -/
def foreignHead (s : State) (part : Nat) : Option (Nat × AtomReq) := s.foreign.find? fun f => (compPart s f.2.loc).any fun p => p.vmid == part

/-- Does it stand at the head of the queue, before a parked entry (R267)? -/
def foreignFirst (f : Nat × AtomReq) (q : Option (Nat × Priv)) : Bool :=
  match q with
  | none => true
  | some x => (x.2.parked.map (·.1)).all fun n => decide (f.1 < n)

/-- An atomic of another party is performed once its sectors are reserved. -/
def placeForeign (f : Nat × AtomReq) (s : State) : State :=
  let t := reserveForeign f.2 s
  if t.2 then { (performAtomic f.2 t.1).2.2.2 with foreign := s.foreign.filter (· != f) } else s

/-- The packet node of the context whose turn it is ends once its frame has landed whole (R267, R325). -/
def endLanded (s : State) : State :=
  let c := s.me
  if c.core = 9 ∧ c.life = .resident ∧ c.arm.isEmpty ∧ c.cmds.isEmpty ∧ ¬ c.priv.any (·.parked.isSome) then endInstance s else s

/-- Place the head of a partition's queue, if it can be (R267). -/
def placeHead (part : Nat) (s : State) : State :=
  match foreignHead s part, headOf (parkedIn s part) with
  | none, none => s
  | none, some (l, p) => s.onLaunch l fun t => endLanded (placeNow p t)
  | some f, q => if foreignFirst f q then placeForeign f s else match q with
    | none => s
    | some (l, p) => s.onLaunch l fun t => endLanded (placeNow p t)

/-- Can the head of the queue be placed? -/
def headFits (s : State) (part : Nat) : Bool :=
  match foreignHead s part, headOf (parkedIn s part) with
  | none, none => false
  | none, some (l, p) => (reserveAll p (s.seenBy l)).2
  | some f, q => if foreignFirst f q then (reserveForeign f.2 s).2 else q.any fun x => (reserveAll x.2 (s.seenBy x.1)).2

/-- PARKED_WRITE_PLACE (R267). -/
def execParkedWritePlace (part : Nat) (s : State) : Ans := eventDone (placeHead part s)

/-- Has the entry been parked for 200 µs (R269)? -/
def isOverdue (s : State) (p : Priv) : Bool :=
  match p.parked with
  | none => false
  | some (_, at0) => decide (at0 + Config.parkCycles ≤ s.cycle)

/-- Can the entry's fault be earned now (R269, R353, R361): a command's always; a C-stream write's where its stream reaches an entry boundary outside a handler, or while a save waits for it. -/
def faultOpen (c : Ctx) (p : Priv) : Bool :=
  match p.src with
  | .cmd _ _ | .row _ => true
  | .cs => c.trapWait.isNone && (c.life == .stopped || (c.life == .active && !c.sup))

/-- The overdue entries of a partition whose faults can be taken. -/
def overdueIn (s : State) (part : Nat) : List (Nat × Priv) :=
  (parkedIn s part).filter fun x => isOverdue s x.2 && (match s.ctxOf x.1 with
    | none => false
    | some c => faultOpen c x.2)

/-- Do two entries come from one store: it has one on each page it crosses (R269)? -/
def oneStore (p q : Priv) : Bool := q.src == .cs && q.kind == .plain && q.pos == p.pos && q.ptr == p.ptr && q.diff == p.diff && q.tape == p.tape

/-- INFO of an out-of-space fault of a C-stream write: the size and the data of the whole store (R269, R352). -/
def oosInfo (c : Ctx) (p : Priv) : List Byte :=
  let bs := match p.kind with
    | .acc v => leBytes 4 v.toNat
    | .plain => (c.priv.filter (oneStore p)).flatMap fun q => q.cells.map (·.byte)
    | .atom _ _ _ => p.cells.map (·.byte)
  padTo 64 (le64 p.addr ++ le64 p.ptr ++ [BitVec.ofNat 8 bs.length, 0xFF#8] ++ padTo 6 [] ++ padTo 8 bs)

/-- The fault of an overdue entry of the context whose turn it is (R168, R269). One a save in a handler waits for is saved with the context, to be taken once the handler has returned (R361; log 70). -/
def oosFault (p : Priv) (s : State) : State :=
  match p.src with
  | .cmd id _ => match s.cmd? id with
    | none => s
    | some c => faultCmd c ⟨8, 0, 0, 0, p.ptr⟩ s
  | .row _ => s
  | .cs =>
    let gone (c : Ctx) : Ctx := { c with priv := c.priv.filter (· != p) }
    if s.me.sup then holdAsync 8 (oosInfo s.me p) (s.mapMe fun c => { gone c with withdrawn := c.withdrawn ++ [p] })
    else takeTrap ⟨8, .c, 0, oosInfo s.me p⟩ (s.mapMe fun c => { gone c with withdrawn := p :: c.withdrawn })

/-- OUT_OF_SPACE_EXPIRY (R269). -/
def execOutOfSpaceExpiry (part : Nat) (s : State) : Ans :=
  match headOf (overdueIn s part) with
  | none => eventDone s
  | some (l, p) =>
    let s1 := match s.part? part with
      | none => s
      | some q => s.setPart { q with oos := q.oos + 1 }
    eventDone (s1.onLaunch l (oosFault p))

/-! ## The ballooning engine (R268, R273) -/

/-- Is a write of a partition parked? -/
def hasParked (s : State) (part : Nat) : Bool := !(parkedIn s part).isEmpty || (foreignHead s part).isSome

/-- Does the engine still have work for a partition: below its high mark, or a write parked? -/
def needsRoom (s : State) (p : Part) : Bool := decide (p.free < p.high) || hasParked s p.vmid

/-- Does the engine act on a partition: below its low mark, or a write parked (R268)? -/
def actsOn (s : State) (p : Part) : Bool := decide (p.free < p.low) || hasParked s p.vmid

/-- Are the unallocated sectors of a die below its own low mark (R268)? -/
def dieBelow (s : State) (die : Nat) : Bool := decide (dieFree s die < (s.dieMarks.getD die (0, 0)).1)

/-- Does the engine of the partition's dies start (R268)? -/
def startsEngine (s : State) (p : Part) : Bool :=
  p.dies.any (dieBelow s) || s.parts.any fun q => q.dies.any p.dies.contains && actsOn s q

/-- Drop what memory holds in a block: it reads as zero (R268, R270). -/
def discardBlock (blk : Nat) (m : Mem) : Mem :=
  let inB (x : Nat) : Bool := x / 512 == blk
  { m with
    base := putCells m.base (blk * 512) (List.replicate 512 0#8)
    vers := m.vers.map fun v => { v with cells := v.cells.filter fun x => !inB x.loc }
    atoms := m.atoms.filter fun x => !inB x.1
    baseVer := m.baseVer.filter fun x => !inB x.1
    poison := m.poison.filter fun u => u / 64 != blk }

/-- A context forgets what it holds of a block: its view of it and its private writes (R268). -/
def clearBlock (blk : Nat) (c : Ctx) : Ctx :=
  { c with
    view := c.view.filter fun e => e.cell.loc / 512 != blk
    priv := (c.priv.map fun p => { p with cells := p.cells.filter fun x => x.loc / 512 != blk }).filter fun p => !p.cells.isEmpty }

/-- Claim the oldest donated block of a partition (R268 step 1). -/
def claimBlock (part : Nat) (s : State) : State :=
  match s.part? part with
  | none => s
  | some p => match p.balloon with
    | [] => s
    | b :: r =>
      let n := heldBy s b
      ({ s.mapCtxs (clearBlock b) with
          mem := discardBlock b s.mem, blocks := s.blocks.filter (·.loc != b) }).setPart
        { p with balloon := r, used := p.used - n, donated := p.donated - n }

/-- Is any byte of a block in a range. -/
def blockMeets (blk x n : Nat) : Bool := decide (x < blk * 512 + 512) && decide (blk * 512 < x + n)

/-- Is a block on a page pinned for the tile operands of a timed node that runs (R274)? -/
def pinnedTimed (s : State) (blk : Nat) : Bool :=
  s.ctxs.any fun c => c.life != .vacant && c.timed && c.lockedA.any fun g => match s.glbLoc c .read none (BitVec.ofNat 64 g.1) with
    | .ok t => blockMeets blk t.loc g.2
    | .error _ => false

/-- May the engine demote a block (R268, R274)? -/
def demotable (s : State) (p : Part) (b : Block) : Bool :=
  !b.demoted &&
  (p.pages.any fun g => g.comp && !g.diff && g.has s.rank (b.loc * 512)) &&
  !(p.balloon.contains b.loc) &&
  !pinnedTimed s b.loc &&
  !(s.foreign.any fun f => f.2.loc / 512 == b.loc) &&
  !(p.pins.any fun g => blockMeets b.loc (locPa s.rank g.1) g.2) &&
  !(s.mem.sealedR.any fun r => blockMeets b.loc r.1 r.2) &&
  !(s.ctxs.any fun c => (c.shadows.any fun h => h.ext.any fun e => blockMeets b.loc e.2.1 e.2.2) ||
      c.priv.any fun q => q.cells.any fun x => x.loc / 512 == b.loc)

/-- The blocks of the compressible pages of a partition. -/
def partBlocks (s : State) (p : Part) : List Block :=
  ((p.pages.filter (·.comp)).flatMap fun g => rangeBlocks (locPa s.rank g.frame) g.size).map s.blockOf

/-- The block accessed least recently of those that may be demoted, while the area has room (R268, R273). -/
def coldest (s : State) (p : Part) : Option Block :=
  if p.demArea ≤ demotedOf s p then none
  else ((partBlocks s p).filter (demotable s p)).foldl (fun best b => match best with
    | none => some b
    | some a => if b.lastUse < a.lastUse then some b else some a) none

/-- Demote one block (R268 step 2): its sectors are free. -/
def demoteBlock (part : Nat) (s : State) : State :=
  match s.part? part with
  | none => s
  | some p => match coldest s p with
    | none => s
    | some b => (s.setBlock { b with demoted := true }).setPart { p with used := p.used - b.sectors }

/-- Can the engine still give the partition sectors? -/
def canGive (s : State) (part : Nat) : Bool :=
  match s.part? part with
  | none => false
  | some p => needsRoom s p && (!p.balloon.isEmpty || (coldest s p).isSome)

/-- Steps 1 and 2, each repeated with the queue's head placed as sectors come free (R267, R268). -/
def giveRoomTo (part : Nat) : (fuel : Nat) → State → State
  | 0, s => s
  | n + 1, s =>
    match s.part? part with
    | none => s
    | some p =>
      if !needsRoom s p then s
      else if !p.balloon.isEmpty then giveRoomTo part n (placeHead part (claimBlock part s))
      else if (coldest s p).isSome then giveRoomTo part n (placeHead part (demoteBlock part s))
      else s

/-- Step 3: the alert with the shortfall, once until the partition is at its high mark (R268). -/
def alertPart (part : Nat) (s : State) : State :=
  match s.part? part with
  | none => s
  | some p =>
    if !needsRoom s p then s.setPart { p with alerted := false }
    else if p.alerted then s
    else (s.setPart { p with alerted := true }).emit (.balloonAlert part (p.high - p.free))

/-- Would the engine do anything for the partition in this cycle? -/
def balloonDue (s : State) (p : Part) : Bool :=
  (startsEngine s p && actsOn s p && needsRoom s p && (canGive s p.vmid || !p.alerted)) || (p.alerted && !needsRoom s p)

/-- BALLOONING_ENGINE (R268). -/
def execBallooningEngine (part : Nat) (s : State) : Ans :=
  match s.part? part with
  | none => eventDone s
  | some p =>
    if balloonDue s p then eventDone (alertPart part (giveRoomTo part (p.balloon.length + (partBlocks s p).length + 1) s)) else eventDone s

/-- Unassigned sectors a partition on some dies can be given: evenly on each (R265). -/
def unassigned (s : State) (dies : List Nat) : Nat := (dies.map (dieFree s)).foldl Nat.min (dieFree s (dies.headD 0)) * dies.length

/-- QUOTA_ENLARGEMENT: the memory processor's answer to an alert: sectors from the unassigned ones, or a decline (R265, R268). -/
def execQuotaEnlargement (part : Nat) (grant : Option Nat) (s : State) : Ans :=
  match s.part? part, grant with
  | some p, some n =>
    eventDone (s.setPart { p with quota := p.quota + min n (unassigned s p.dies), alerted := false })
  | _, _ => eventDone s

/-! ## Donation (R270) -/

/-- Where the pages of a range of a process lie, every one of them mapped, C = 1 and not D; none otherwise (R270). -/
def rangeAt (s : State) (c : Ctx) : (fuel : Nat) → (va len : Nat) → Option (List (Nat × Nat))
  | 0, _, len => if len = 0 then some [] else none
  | f + 1, va, len =>
    if len = 0 then some []
    else
      let p := BitVec.ofNat 64 (s.rank * 2 ^ 47 + va)
      match walk1 s.mem s.rank c.s2Root .stage1 va 4 c.s1Root with
      | .error _ => none
      | .ok l1 => match walk2 s.mem s.rank false (leafBase l1.e + va % leafSize l1.e) 4 c.s2Root with
        | .error _ => none
        | .ok l2 => match [AccKind.read, .write, .exec].findSome? fun k => (s.glbLoc c k none p).toOption with
          | none => none
          | some t =>
            let n := min len (max 1 t.left)
            if eD l1.e || !eC l2.e then none else (rangeAt s c f (va + n) (len - n)).map ((t.loc, n) :: ·)

/-- The range a donation names, in the first process of the partition that maps it so (R270; log 120). -/
def donationOf (s : State) (p : Part) (va size : Nat) : Option Donation :=
  (s.spaces.filter (·.vmid == p.vmid)).findSome? fun a =>
    (rangeAt s { Ctx.fresh with asid := a.asid, vmid := a.vmid, s1Root := a.s1Root, s2Root := p.s2Root } (size / 4096 + 1) va size).map fun ps =>
      ⟨va, size, ps⟩

/-- The blocks of a donation. -/
def Donation.blocks (d : Donation) : List Nat := d.pieces.flatMap fun r => rangeBlocks r.1 r.2

/-- Does a range hold something that may not be donated: a sealed buffer, an open shadow, a parked write, a D page (R270)? -/
def donationBars (s : State) (p : Part) (d : Donation) : Bool :=
  (s.mem.sealedR.any fun r => d.meets r.1 r.2) ||
  (p.pages.any fun g => g.diff && d.meets (locPa s.rank g.frame) g.size) ||
  (s.foreign.any fun f => d.meets f.2.loc 1) ||
  s.ctxs.any fun c => (c.shadows.any fun h => h.ext.any fun e => d.meets e.2.1 e.2.2) ||
    c.priv.any fun q => q.parked.isSome && q.cells.any fun x => d.meets x.loc 1

/-- Accept a donation whose translations are shot down: the range is unmapped, its blocks are on the balloon list (R270). -/
def donate (part : Nat) (d : Donation) (s : State) : State :=
  match s.part? part with
  | none => s
  | some q =>
    let r := d.pieces.foldl (fun q r => unmapRange (locOff r.1) r.2 q) q
    s.setPart { r with
      balloon := r.balloon ++ d.blocks, donations := r.donations ++ [d], donated := r.donated + (d.blocks.map (heldBy s)).sum }

/-- Withdraw an accepted donation: the range is mapped again at the same address (R270). A block claimed meanwhile reads as zeros and holds what they need. -/
def withdraw (p : Part) (d : Donation) (s : State) : State :=
  let left := d.blocks.filter fun b => p.balloon.contains b
  s.setPart { p with
    balloon := p.balloon.filter fun b => !d.blocks.contains b
    donations := p.donations.filter (· != d)
    pages := p.pages ++ d.pieces.map fun r => ⟨locOff r.1, r.2, true, false⟩
    nominal := p.nominal + d.size / 4096
    donated := p.donated - (left.map (heldBy s)).sum
    used := p.used + ((d.blocks.filter fun b => !left.contains b).map (heldBy s)).sum }

/-- A balloon message that breaks its conditions is counted (R270, R271). -/
def badMessage (p : Part) (s : State) : State := s.setPart { p with malformed := p.malformed + 1 }

/-- Are the fields of a balloon message right (R270)? -/
def messageOk (v : Nat) : Bool :=
  natBits v 59 52 == 0 && natBits v 11 0 == 0 && decide (natBits v 51 47 ≤ 20) && natBits v 46 12 * 4096 % 2 ^ (12 + natBits v 51 47) == 0

/-- The donation a message asks for, when it may be accepted (R270). -/
def donationFor (s : State) (p : Part) (v : Nat) : Option Donation :=
  if messageOk v && natBits v 62 60 == 1 then
    (donationOf s p (natBits v 46 12 * 4096) (2 ^ (12 + natBits v 51 47))).filter fun d => !donationBars s p d
  else none

/-- Is a balloon message to be acted on: one that is no valid donation at once, a valid one as its shootdown goes on (R270, R301)? -/
def messageDue (s : State) (p : Part) (v : Nat) : Bool :=
  match donationFor s p v with
  | none => true
  | some d => match s.shoots.find? (·.1 == .give p.vmid d) with
    | none => true
    | some x => shootDue s x

/-- Act on a balloon message that asks for no valid donation (R270). -/
def balloonAct (p : Part) (v : Nat) (s : State) : State :=
  if !messageOk v || natBits v 62 60 != 2 then badMessage p s
  else match p.donations.find? fun d => d.va == natBits v 46 12 * 4096 && d.size == 2 ^ (12 + natBits v 51 47) with
    | none => badMessage p s
    | some d => withdraw p d s

/-- Forget the donations of a partition that were pending. -/
def dropGives (part : Nat) (s : State) : State :=
  { s with shoots := s.shoots.filter fun x => match x.1 with
    | .give v _ => v != part
    | .shoot _ | .move _ | .map _ | .answer _ _ => true }

/-- Take the oldest message of a partition's balloon mailbox. -/
def popBalloon (p : Part) (s : State) : State :=
  match takeMsg (s.mbx (p.bmbx / 256) (p.bmbx % 256)) with
  | none => s
  | some (_, m) => s.setMbx m

/-- BALLOON_MESSAGE (R270): a valid donation waits in its mailbox for its shootdown. -/
def execBalloonMessage (part : Nat) (msg : BitVec 63) (s : State) : Ans :=
  match s.part? part with
  | none => eventDone s
  | some p => eventDone (match donationFor s p msg.toNat with
    | some d => (Change.give part d).await (fun t => donate part d (popBalloon p t)) s
    | none => balloonAct p msg.toNat (popBalloon p (dropGives part s)))

/-! ## Folding (R259, R266) -/

/-- Sectors a block no longer needs return to its partition (R266). -/
def shrinkBlock (b : Block) (s : State) : State :=
  let need := Config.sectorsOf (blockContent s b.loc)
  match s.parts.find? fun p => p.maps s.rank (b.loc * 512) with
  | some p =>
    if !b.demoted && decide (need < b.sectors) then (s.setBlock { b with sectors := need }).setPart { p with used := p.used - (b.sectors - need) } else s
  | none => s

/-- Does any version hold bytes that fold into the base (R259)? -/
def foldsNow (s : State) : Bool := (s.mem.vers.any fun v => v.acc.isNone && v.cells.any (foldable s v)) || !(accCells s).isEmpty

/-- VERSION_FOLD (R259, R266). -/
def execVersionFold (s : State) : Ans :=
  let t := foldAccs (foldVersions s)
  eventDone (t.blocks.foldl (fun u b => shrinkBlock b u) t)

/-! ## Errors and self-tests (R281 to R284) -/

/-- The bytes an error spoils: the whole sector of a DRAM error, else the units of the failing data (R282). -/
def spoiled (e : MemErr) : Nat × Nat :=
  if e.stage = 0 then (e.loc / 64 * 64, (e.loc + e.len + 63) / 64 * 64 - e.loc / 64 * 64) else (e.loc, e.len)

/-- Poison versions and views in some units too: they are copies of the data (R282). -/
def poisonCells (x n : Nat) (cs : List PCell) : List PCell :=
  cs.map fun c => if x / 8 ≤ unitOf c.loc ∧ unitOf c.loc ≤ (x + n - 1) / 8 then { c with poison := true } else c

/-- The same in private writes: what a write left of a unit unpoisoned is poisoned by a later error (R282). -/
def poisonPrivs (x n : Nat) (ps : List Priv) : List Priv := ps.map fun p => { p with cells := poisonCells x n p.cells }

/-- A context's copies of data in some units are poisoned: views, private writes, open shadows, the write a handler may make again (R282). -/
def poisonCtx (x n : Nat) (c : Ctx) : Ctx :=
  { c with
    view := c.view.map fun e => { e with cell := ((poisonCells x n [e.cell]).headD e.cell) }
    priv := poisonPrivs x n c.priv, withdrawn := poisonPrivs x n c.withdrawn
    shadows := c.shadows.map fun h => { h with cells := poisonCells x n h.cells }
    frame := c.frame.map fun f => { f with replay := f.replay.map fun p => { p with cells := poisonCells x n p.cells } } }

/-- An uncorrectable error marks data as poisoned, and pins itself to the stage it reached (R281, R282). -/
def poisonPlace (stage x n : Nat) (s : State) : State :=
  let us := (List.range ((x + n + 7) / 8 - x / 8)).map (x / 8 + ·)
  let m0 := poisonRange s.mem x n
  let kept := m0.stages.filter fun e => !us.contains e.1
  let m := { m0 with stages := if stage = 1 ∨ stage = 2 then kept ++ us.map (fun u => (u, stage)) else kept }
  { s.mapCtxs (poisonCtx x n) with mem := { m with vers := m.vers.map fun v => { v with cells := poisonCells x n v.cells } } }

/-- A bank's data is poisoned for its own streams and as other contexts see it. -/
def poisonData (stage x n : Nat) (s : State) : State :=
  let t := poisonPlace stage x n s
  if isSram x then poisonPlace stage (locSeen x) n t else t

/-- MEMORY_ERROR: a code found an error; it is logged, and poisons what it cannot correct (R282, R284). -/
def execMemoryError (e : MemErr) (s : State) : Ans :=
  let ent : LogEnt := ⟨s.ptp, e.loc, errUnit e.loc, e.corrected, Config.syndrome s.fresh, none⟩
  let s1 := { s with errors := s.errors ++ [ent], fresh := s.fresh + 1 }
  eventDone (if e.corrected || e.len == 0 then s1 else poisonData e.stage (spoiled e).1 (spoiled e).2 s1)

/-- Note the outcome of a self-test at the last error of its unit (R284). -/
def noteTest (sel : LogEnt → Bool) (lasting : Bool) (s : State) : State :=
  match s.errors.reverse.find? fun e => sel e && e.lasting.isNone with
  | none => s
  | some e => { s with errors := s.errors.map fun x => if x = e then { x with lasting := some lasting } else x }

/-- Contexts, by launch number, that hold a granule of a core. -/
def holdsGranule (s : State) (core gran : Nat) : List Ctx :=
  s.ctxs.filter fun c => c.life != .vacant && c.coreIdx == core && decide (c.gbase ≤ gran) && decide (gran < c.gbase + c.gcount)

/-- A requester's request joins those of a node; a second one of the same requester may only make it urgent. -/
def joinReq (r : PreReq) (rs : List PreReq) : List PreReq :=
  if rs.any fun q => q.die == r.die && q.idx == r.idx then
    rs.map fun q => if q.die = r.die ∧ q.idx = r.idx then { q with urgent := q.urgent || r.urgent } else q
  else rs ++ [r]

/-- Put a pre-emption request on a running queued node (R333, R347). -/
def requestNode (die idx : Nat) (r : PreReq) (s : State) : State :=
  match s.node? die idx with
  | none => s
  | some n =>
    if n.timed || n.st != .running || joinReq r n.requests == n.requests then s
    else
      let s1 := s.setNode { n with requests := joinReq r n.requests }
      s1.mapCtxs fun c => if c.life != .vacant && c.nodeDie == die && c.nodeIdx == idx then setIrq 0x20#7 s.cycle c else c

/-- PIN_REQUEST: pages the memory processor pins are never demoted (R274). -/
def execPinRequest (part frame len : Nat) (s : State) : Ans :=
  match s.part? part with
  | none => eventDone s
  | some p => eventDone (s.setPart { p with pins := p.pins ++ [(frame, len)] })

end Sys2Proof.Machine
end

