-- ==== Sys2Proof/Machine/Placement.lean ====
section
/-!
DEFINITION. Dispatch: the ready pool, placement of gangs, launch, resume, engines, range units, and the requests of a blocked entry (R23, R24, R28 to R30, R42, R325, R330 to R333, R336, R364, R418).
-/
namespace Sys2Proof.Machine

/-! ## Placement (R29, R331) -/

/-- Who holds a place: physical core, bank, timed or not, node, granule range. -/
structure Occ where
  core : Nat
  bank : Nat
  timed : Bool
  nd : Nat
  ni : Nat
  gb : Nat
  gc : Nat
  deriving DecidableEq, Repr

/-- A chosen place of one instance. -/
structure Spot where
  core : Nat
  bank : Nat
  gb : Nat
  deriving DecidableEq, Repr

def occOf (s : State) : List Occ :=
  (s.ctxs.filter fun c => c.life != .vacant && decide (c.core < 4)).map fun c =>
    ⟨c.coreIdx, c.bank, c.timed, c.nodeDie, c.nodeIdx, c.gbase, c.gcount⟩

/-- GCOUNT of a node's partition word (R29). -/
def nodeGc (n : Node) : Nat := 1 + n.nops + 2 * n.nacc + n.nbank

/-- Lowest GBASE with a free range (R29, R331); retired granules are excluded (R283). -/
def lowestBase (retired : List Nat) (os : List Occ) (core gc : Nat) : Option Nat :=
  (List.range 49).find? fun gb =>
    decide (gb + gc ≤ 48) && (os.all fun o => decide (gb + gc ≤ o.gb) || decide (o.gb + o.gc ≤ gb)) &&
    !(retired.any fun g => g / 48 == core && decide (gb ≤ g % 48) && decide (g % 48 < gb + gc))

/-- The free bank of a core for an instance (R331, R418). -/
def freeBank (os : List Occ) (n : Node) : Option Nat :=
  if os.any fun o => o.timed || (o.nd == n.die && o.ni == n.idx) then none
  else match os with
    | [] => some 0
    | [o] => if n.timed then none else some (1 - o.bank)
    | _ => none

/-- May the bay of a core run the node's timed contexts (R331)? -/
def bayFits (occ : List Occ) (n : Node) (core : Nat) : Bool :=
  !n.timed || !occ.any fun o => o.timed && o.core / 4 == core / 4 && !(o.nd == n.die && o.ni == n.idx)

/-- The place a core offers an instance. -/
def spotOn (retired : List Nat) (occ : List Occ) (n : Node) (core : Nat) : Option Spot :=
  let os := occ.filter (·.core == core)
  if !bayFits occ n core then none
  else match freeBank os n with
    | none => none
    | some b => (lowestBase retired os core (nodeGc n)).map fun g => ⟨core, b, g⟩

/-- The first k places cores offer, in ascending order. -/
def spotsOn (retired : List Nat) (occ : List Occ) (n : Node) (k : Nat) (cores : List Nat) : Option (List Spot) :=
  let ss := (cores.filterMap (spotOn retired occ n)).take k
  if ss.length = k then some ss else none

/-- Dies of the node's partition in this mode (R405); all of them where no partition is set up. -/
def partDies (s : State) (vmid : Nat) : List Nat := ((s.part? vmid).map (·.dies)).getD [0, 1, 2, 3]

/-- The units at the node's span, each with its cores ascending (R331, R237); for a domain the cores of this device. -/
def unitsFor (s : State) (n : Node) : List (List Nat) :=
  let dies := partDies s n.vmid
  match n.span with
  | 0 => (List.range 96).map fun i => [n.die * 96 + i]
  | 1 => (List.range 24).map fun b => (List.range 4).map fun i => n.die * 96 + 4 * b + i
  | 2 => [(List.range 96).map (n.die * 96 + ·)]
  | _ => [dies.flatMap fun d => (List.range 96).map (d * 96 + ·)]

/-- The archives of a node. -/
def archivesOf (s : State) (n : Node) : List Archive := s.archives.filter fun a => n.live.contains a.ctx.launch

/-- Cores a node may not resume on: where an instance of it held a granule that has been retired since (R283). -/
def barredCores (s : State) (n : Node) : List Nat :=
  ((archivesOf s n).map (·.ctx)).filterMap fun c =>
    if s.retired.any fun g => g / 48 == c.coreIdx && decide (c.gbase ≤ g % 48) && decide (g % 48 < c.gbase + c.gcount) then some c.coreIdx else none

/-- The cores of each unit that the node may use. -/
def openUnits (s : State) (n : Node) : List (List Nat) := (unitsFor s n).map fun u => u.filter fun k => !(barredCores s n).contains k

/-- The lowest-numbered unit that can hold all V instances (R331); at a resume, those that have not ended. -/
def placeMatrix (s : State) (occ : List Occ) (n : Node) : Option (List Spot) :=
  (openUnits s n).findSome? (spotsOn s.retired occ n (if n.launched then n.live.length else n.v))

/-- The range units of a node by die, with its instances that have not ended. -/
def rangeCounts (s : State) (n : Node) : List (Nat × Nat) :=
  (unitsOf s n.die n.idx).map fun u => (u.die, ((archivesOf s n).filter (·.ctx.die == u.die)).length)

/-- Places in one unit for a node with a range: on the same dies, with the same counts (R331, R332). -/
def rangeIn (s : State) (occ : List Occ) (n : Node) (cores : List Nat) : Option (List Spot) :=
  (rangeCounts s n).foldl (fun acc x => match acc, spotsOn s.retired occ n x.2 (cores.filter (· / 96 == x.1)) with
    | some a, some b => some (a ++ b)
    | _, _ => none) (some [])

/-- A node with a range resumes in the lowest-numbered unit that holds its instances on the same dies (R331, R332). -/
def placeRange (s : State) (occ : List Occ) (n : Node) : Option (List Spot) := (openUnits s n).findSome? (rangeIn s occ n)

/-- Free general cores of a die, lowest first (R331). -/
def freeGp (s : State) (die : Nat) : List Nat := (List.range 8).filter fun k => !s.gpCores.any fun g => g.die == die && g.core == k

/-- Nodes an engine has accepted. -/
def engineNodes (s : State) (die kind : Nat) : List Node :=
  s.nodes.filter fun n => n.die == die && n.kind == kind && n.st == .running

/-- Is a node with a range at a resume. -/
def rangeResume (n : Node) : Bool := n.range != 0 && n.launched

/-- General cores of the node's die that other nodes of the entry take. -/
def gpTaken (n : Node) (taken : List Node) : Nat := ((taken.filter fun m => m.kind == 1 && m.die == n.die).map (·.v)).sum

/-- Other nodes of the entry that go to the node's engine. -/
def engTaken (n : Node) (taken : List Node) : Nat := (taken.filter fun m => m.kind == n.kind && m.die == n.die).length

/-- The places a node can have now, beside the nodes of its entry that have theirs: spots of a matrix node, none for the others; answers nothing when it cannot be placed. -/
def placeNode (s : State) (occ : List Occ) (taken : List Node) (n : Node) : Option (List Spot) :=
  match n.kind with
  | 0 => if rangeResume n then placeRange s occ n else placeMatrix s occ n
  | 1 => if n.v + gpTaken n taken ≤ (freeGp s n.die).length then some [] else none
  | k => if (engineNodes s n.die k).length + engTaken n taken < 64 then some [] else none

def spotOcc (n : Node) (x : Spot) : Occ := ⟨x.core, x.bank, n.timed, n.die, n.idx, x.gb, nodeGc n⟩

/-- Places for every node of an entry, one after another (R331). -/
def placeEntry (s : State) (taken : List Node) : List Occ → List Node → Option (List (Node × List Spot))
  | _, [] => some []
  | occ, n :: r =>
    match placeNode s occ taken n with
    | none => none
    | some ss => match placeEntry s (n :: taken) (occ ++ ss.map (spotOcc n)) r with
      | none => none
      | some q => some ((n, ss) :: q)

/-! ## The pool (R330) -/

/-- Effective priority (R330). -/
def effPrio (n : Node) : Nat := min 3 (n.prio + n.aged)

/-- An entry of the pool: its nodes, effective priority and ready sequence number. -/
structure Entry where
  nodes : List Node
  e : Nat
  seq : Nat
  deriving DecidableEq, Repr

/-- The READY nodes that are dispatched with a node (R330, R331). -/
def entryOf (s : State) (n : Node) : Entry :=
  let ns := (setOf s n).filter (·.st == .ready)
  ⟨ns, ns.foldl (fun e m => Nat.max e (effPrio m)) 0, ns.foldl (fun q m => Nat.max q m.readySeq) 0⟩

def insertEntry (x : Entry) : List Entry → List Entry
  | [] => [x]
  | y :: r => if y.e < x.e ∨ (y.e = x.e ∧ x.seq < y.seq) then x :: y :: r else y :: insertEntry x r

/-- The pool of a die in dispatch order (R330): one entry for each set, at its first node. -/
def poolOf (s : State) (die : Nat) : List Entry :=
  let ns := s.nodes.filter fun n => n.die == die && n.st == .ready
  let heads := ns.filter fun n => ((entryOf s n).nodes.map (·.idx)).head? == some n.idx
  heads.foldl (fun l n => insertEntry (entryOf s n) l) []

/-! ## Launch (R23, R24, R42, R325, R340) -/

/-- The partition word (R28). -/
def partWord (n : Node) (gb : Nat) : W64 :=
  BitVec.ofNat 64 (gb * 2 ^ 50 + nodeGc n * 2 ^ 44 + n.nops * 2 ^ 38 + n.nacc * 2 ^ 33 + n.nbank * 2 ^ 27)

/-- Pointer of declaration j for s(j + 1) and g(j + 1) (R24). -/
def todPtr (n : Node) (j : Nat) : W64 := (n.tods.getD j ⟨0, 0, 0#64⟩).ptr

/-- Registers of s or g at launch (R24). -/
def launchRegs (n : Node) (rank count : Nat) : Vector W64 count :=
  Vector.ofFn fun i => if 1 ≤ i.val ∧ i.val ≤ 8 then todPtr n (i.val - 1) else if i.val = 9 then BitVec.ofNat 64 rank else 0#64

/-- The newest patch epoch (R380). -/
def newestEpoch (s : State) : Nat := (s.patches.map (·.epoch)).foldl Nat.max 0

/-- Physical address of the record page of a launch (R350, R361; log 26): it stands at 0x9000 of its archive. -/
def recPageOf (launch : Nat) : Nat := (Config.recordFrame launch % 2 ^ 20 + 16) * 4096

/-- Virtual address the loader maps it at (R350; log 26). -/
def recVaOf (launch : Nat) : W64 := 0x0FFF800000000000#64 + BitVec.ofNat 64 (Config.recordVa launch % 2 ^ 34 * 4096)

/-- Doubleword k of an entry block (R325). -/
def entryWord (b : List Byte) (k : Nat) : W64 := BitVec.ofNat 64 (leNat ((b.drop (8 * k)).take 8))

/-- Is an entry block refused at launch (R325): a start PC that is not 4 KiB aligned. -/
def entryBad (b : List Byte) : Bool := (List.range 4).any fun k => (entryWord b k).toNat % 4096 != 0

/-- YIELD.DL at a launch or resume (R334). -/
def yieldAt (s : State) (n : Node) : W64 := if n.ydl = 0 then 0xFFFFFFFFFFFFFFFF#64 else s.ptp + BitVec.ofNat 64 n.ydl

/-- Executable pages of a stream class from an address on, page after page (R299; log 27). -/
def codeRange (s : State) (c : Ctx) (x : StreamId) : (fuel : Nat) → (va : W64) → List (Nat × Nat)
  | 0, _ => []
  | f + 1, va =>
    match s.glbLoc c .exec (some x.num) va with
    | .error _ => []
    | .ok t => (s.lockKey va - (t.size - t.left), t.size) :: codeRange s c x f (va + BitVec.ofNat 64 t.left)

/-- Pages of the declarations (R167, R299). -/
def todRange (s : State) (c : Ctx) : (fuel : Nat) → (va : W64) → (len : Nat) → List (Nat × Nat)
  | 0, _, _ => []
  | f + 1, va, len =>
    if len = 0 then []
    else match s.glbLoc c .read none va with
      | .error _ => []
      | .ok t => (s.lockKey va - (t.size - t.left), t.size) :: todRange s c f (va + BitVec.ofNat 64 t.left) (len - min len t.left)

def todPages (s : State) (c : Ctx) (n : Node) : List (Nat × Nat) :=
  (n.tods.flatMap fun d => if d.intent = 0 then [] else todRange s c 130 d.ptr d.len).eraseDups

/-- Pages locked into the C-stream TLB for a timed node (R299, R350). -/
def codePages (s : State) (c : Ctx) (b : List Byte) (vec : W64) : List (Nat × Nat) :=
  (codeRange s c .c 130 (entryWord b 0) ++ codeRange s c .a 130 (entryWord b 1) ++ codeRange s c .m 130 (entryWord b 2) ++
    codeRange s c .s 130 (entryWord b 3) ++ codeRange s c .c 130 vec ++ [(s.lockKey c.recVa, 4096)]).eraseDups

/-- The loader's refusal of a timed node that needs more pins than there are (R167, R299). -/
def pinsExceeded (s : State) (n : Node) (b : List Byte) : Bool :=
  n.timed && (let c := nodeCtx s n
    let vec := if entryWord b 4 = 0#64 then defVecOf s n.vmid else entryWord b 4
    decide (128 < (codePages s c b vec ++ todPages s c n).eraseDups.length) || decide (24 < (todPages s c n).length))

/-- The context of one instance at its launch (R23, R24, R42). -/
def launchCtx (s : State) (n : Node) (b : List Byte) (rank launch : Nat) (x : Spot) : Ctx :=
  let c := nodeCtx s n
  let vec := if entryWord b 4 = 0#64 then defVecOf s n.vmid else entryWord b 4
  let str (k : Nat) : Strm := Strm.fresh (entryWord b k)
  let c1 := { c with
    life := .active, die := x.core / 96, bay := x.core / 4 % 24, core := x.core % 4, bank := x.bank, launch := launch,
    turnAt := (if n.timed then 0 else s.cycle + 1), timed := n.timed, adjRoot := adjRootOf s c, vrank := BitVec.ofNat 32 rank, vcount := BitVec.ofNat 32 n.v, part := partWord n x.gb,
    patchEpoch := BitVec.ofNat 32 (newestEpoch s), yieldDl := yieldAt s n, trapVec := vec,
    s := launchRegs n rank 32, g := launchRegs n rank 16,
    freeSlots := (List.range n.nops).map (x.gb + 1 + ·), freePairs := List.range n.nacc,
    strC := str 0, strA := str 1, strM := str 2, strS := str 3,
    acq := [⟨0, s.nowOf c, n.hbIn⟩], recPage := recPageOf launch, recVa := recVaOf launch }
  if n.timed then { c1 with locked := (codePages s c1 b vec ++ todPages s c1 n).eraseDups, lockedA := todPages s c1 n } else c1

/-- The active queued context of a core is displaced (R418); what it waits in issues again (R135). -/
def displace (core : Nat) (s : State) : State :=
  match s.ctxs.find? fun c => c.life == .active && decide (c.core < 4) && c.coreIdx == core with
  | none => s
  | some c => endLease c.launch (s.mapLaunch c.launch fun d => { d with life := .resident, barWait := none })

/-- Put a context into its bank; the schedule counter of a timed one's bay is 0 in its first active cycle, which is this one (R77). -/
def seat (c : Ctx) (s : State) : State :=
  let s1 := displace c.coreIdx s
  let s2 := if c.timed then s1.setBay { s1.bay c.die c.bay with ctr := 0 } else s1
  { s2 with ring := s2.ring ++ [c] }

/-- The first launch of a matrix node (R24, R331, R340): every instance in one step, each with an acquire at device scope (R242). Its granules are seen by others as they were left (log 7). -/
def launchMatrix (n : Node) (b : List Byte) (spots : List Spot) (s : State) : State :=
  let cs := spots.zipIdx.map fun (x, r) => launchCtx s n b r (s.launches + 1 + r) x
  let s0 := cs.foldl (fun t c => settleSeen (locSram t.rank c.coreIdx c.gbase 0) (c.gcount * 65536) t) s
  let s1 := cs.foldl (fun t c => seat (acquireCtx t .dev c) t) s0
  let m := { n with st := .running, live := cs.map (·.launch), launched := true, tlaunch := laterOf n.after s.ptp, launchSeq := s.seqs }
  { s1 with launches := s.launches + cs.length, seqs := s1.seqs + 1 }.setNode m

/-- Instances of a node on each die, dies ascending. -/
def dieCounts (spots : List Spot) : List (Nat × Nat) :=
  ((List.range 4).map fun d => (d, (spots.filter fun x => x.core / 96 == d).length)).filter fun x => x.2 != 0

/-- Range units at the first launch (R332): `sum` counts the instances on earlier dies. -/
def rangeUnits (n : Node) (total : Nat) : (sum : Nat) → List (Nat × Nat) → List RangeU
  | _, [] => []
  | sum, (d, i) :: r =>
    let start := n.range * sum / total
    ⟨d, n.die, n.idx, start, n.range * (sum + i) / total - start, n.rmin, i, 0⟩ :: rangeUnits n total (sum + i) r

/-- Set up the range units of a node that has a range (R332). -/
def setupRange (n : Node) (spots : List Spot) (s : State) : State :=
  if n.range = 0 then s else { s with ranges := s.ranges ++ rangeUnits n spots.length 0 (dieCounts spots) }

/-! ## Resume (R336, R363 to R365) -/

/-- The blocks of an archive that keep its context from being resumed (R364). -/
def lostBlocks (s : State) (a : Archive) : List Nat := badBlocks s.mem s.rank s.boot a.addr a.seq (archiveBlocks a.ctx.gcount)

/-- Is the context of an archive lost (R364)? -/
def archiveLost (s : State) (a : Archive) : Bool := !(lostBlocks s a).isEmpty

/-- Abandoned array commands are in flight again, in issue order (R335, R365): the array executes them before the M stream issues, on operands that stand as they did at their issue, and the tags are again as the M stream left them (log 90). -/
def redoArray (now : Nat) (as : List ACmd) (c : Ctx) : Ctx :=
  let d := match c.tagsAtStop with
    | some t => { c with ks := t.ks, cix := t.cix, kdep := t.kdep, wrapped := t.wrapped }
    | none => c
  { d with acmds := as.map (fun a => { a with again := true, started := false, start := now, issued := now + 1 }), tagsAtStop := none }

/-- A granule of a context after its move to another range. -/
def regran (old new : Nat) (g : Nat) : Nat := g + new - old

/-- What a saved view still holds of an entry at the resume (R243, R258, R259): a home value; the byte of its version as that has it now, unless the base is above it by then. -/
def keptView (m : Mem) (e : ViewEnt) : Option ViewEnt :=
  if e.ver = 0 then some e
  else match m.ver? e.ver with
    | none => none
    | some v => match cellAt e.cell.loc v.cells with
      | none => none
      | some x => if baseAbove m v x.loc then none else some ⟨x, e.ver⟩

/-- Does a saved context stand between the substitutes of a rewritten word, so that it keeps its epoch (R377, R380)? -/
def keepsEpoch (c : Ctx) : Bool :=
  match c.frame with
  | some f => !f.subst.isEmpty
  | none => !c.subst.isEmpty

/-- The context as it resumes in a place (R336, R355, R377, R380): view kept as far as its versions exist, then an acquire at domain scope by its caller. -/
def resumeCtx (s : State) (n : Node) (keepEpoch : Bool) (a : Archive) (x : Spot) : Ctx :=
  let c := a.ctx
  let old := c.gbase
  let c1 := { c with
    life := .active, die := x.core / 96, bay := x.core / 4 % 24, core := x.core % 4, bank := x.bank, turnAt := s.cycle + 1,
    part := partWord n x.gb, yieldDl := yieldAt s n, saving := none, forcedCtr := none, dlSeen := false, abandoned := [],
    patchEpoch := if keepEpoch then c.patchEpoch else BitVec.ofNat 32 (newestEpoch s),
    freeSlots := c.freeSlots.map (regran old x.gb), backSlots := c.backSlots.map (regran old x.gb),
    ms := c.ms.map fun m => { m with gran := regran old x.gb m.gran },
    view := c.view.filterMap (keptView s.mem),
    strA := { c.strA with stopped := false }, strM := { c.strM with stopped := false }, strS := { c.strS with stopped := false } }
  redoArray s.cycle c.abandoned c1

/-- Bytes of the saved granules go to the granules of the new place. -/
def restoreBanks (a : Archive) (x : Spot) (s : State) : State :=
  settleSeen (locSram s.rank x.core x.gb 0) (a.ctx.gcount * 65536) { s with mem := readArchive s.mem s.rank a.ctx a.addr x.core x.gb }

/-- Armed collectives whose buckets are full fire before any stream issues (R361). -/
def fireFull (s : State) : State :=
  s.me.buckets.foldl (fun t k => match k.armed with
    | some id => if fires k then fireBucket k id t else t
    | none => t) s

/-- One instance resumes (R336, R361). -/
def resumeOne (n : Node) (keep : Bool) (a : Archive) (x : Spot) (s : State) : State :=
  let s1 := restoreBanks a x s
  let c := resumeCtx s1 n keep a x
  let s2 := seat (acquireCtx s1 .dom c) s1
  ({ s2 with archives := s2.archives.filter (· != a) }).onLaunch c.launch fireFull

/-- The archives of the instances that have not ended, in rank order, each with its place: a node with a range keeps the die of each (R331, R332). -/
def pairUp (n : Node) (as : List Archive) : (launches : List Nat) → List Spot → List (Archive × Spot)
  | [], _ => []
  | l :: r, ss =>
    match as.find? fun a => a.ctx.launch == l with
    | none => pairUp n as r ss
    | some a => match ss.find? fun x => n.range == 0 || x.core / 96 == a.ctx.die with
      | none => pairUp n as r ss
      | some x => (a, x) :: pairUp n as r (ss.erase x)

/-- A saved node resumes as a gang, in one epoch: the newest, unless one of its instances keeps the one it stands in (R380); one lost archive ends it with status 4, and the errors its blocks gave are logged for the self-test of their rows (R283, R336, R364). -/
def resumeMatrix (n : Node) (spots : List Spot) (s : State) : State :=
  let as := archivesOf s n
  match as.find? (archiveLost s) with
  | some a =>
    ((lostBlocks s a).foldl (fun t i => logError (locPa s.rank (a.addr + 4096 * i)) n.die t) s).setNode
      { n with st := .finishing, status := 4, xrank := a.ctx.vrank.toNat, live := [] }
  | none =>
    let s1 := (pairUp n as n.live spots).foldl (fun t (a, x) => resumeOne n (as.any fun a => keepsEpoch a.ctx) a x t) s
    { s1 with seqs := s1.seqs + 1 }.setNode { n with st := .running, launchSeq := s1.seqs, savedOne := false }

/-! ## General and engine nodes (R325, R331) -/

/-- A node that a launch check refuses goes to FINISHING with a status (R328, R329). -/
def failNode (n : Node) (status : Nat) (s : State) : State :=
  s.setNode { (s.node? n.die n.idx).getD n with st := .finishing, status := status }

/-- V general cores run the node, each from the entry address and with the a0 of its entry block (R325, R331). -/
def launchGeneral (n : Node) (s : State) : State :=
  match nodeRead s n n.code 16 with
  | none => failNode n 8 s
  | some b =>
    let ks := (freeGp s n.die).take n.v
    { s with gpCores := s.gpCores ++ ks.map (fun k => GpCore.mk n.die k n.die n.idx (entryWord b 0) (entryWord b 1)), seqs := s.seqs + 1 }.setNode
      { n with st := .running, launched := true, tlaunch := laterOf n.after s.ptp, launchSeq := s.seqs }

/-- An engine accepts a node; it performs its nodes in dispatch order (R331). -/
def acceptEngine (n : Node) (s : State) : State :=
  { s with seqs := s.seqs + 1 }.setNode { n with st := .running, launchSeq := s.seqs }

/-- The context an engine acts in for a node. -/
def engineCtx (s : State) (n : Node) : Ctx :=
  { nodeCtx s n with adjRoot := adjRootOf s (nodeCtx s n), launch := s.launches + 1, acq := [⟨0, s.cycle, n.hbIn⟩], turnAt := s.cycle + 1, vcount := 1#32 }

/-- Put an engine's context beside the others. -/
def seatEngine (n : Node) (c : Ctx) (s : State) : State :=
  { s with launches := s.launches + 1, ring := s.ring ++ [acquireCtx s .dev c] }.setNode
    { n with launched := true, tlaunch := laterOf n.after s.ptp, live := [c.launch] }

/-- The command of a collective node's entry block (R180, R325), on base register g1. -/
def entryCol (w0 w1 : Nat) (s : State) : Option Cmd :=
  match decodeWord .a w0 w1 with
  | some (.colRed _ b l _ ser w) => some (newCol .colRed 1 b l 0 ser w.toNat s)
  | some (.colRs _ b l _ ser w) => some (newCol .colRs 1 b l 0 ser w.toNat s)
  | some (.colAg _ b l _ ser w) => some (newCol .colAg 1 b l 0 ser w.toNat s)
  | some (.colBc _ b l _ ser w) => some (newCol .colBc 1 b l 0 ser w.toNat s)
  | _ => none

/-- The engine's command issues, or its node ends as an unhandled trap (R181, R325; log 31). A fault that R303 sends to the memory processor is sent, and the engine waits for the answer. -/
def performCol (w0 w1 : Nat) (s : State) : State :=
  let bad := endGang s.me.nodeDie s.me.nodeIdx 7 0 s
  match entryCol w0 w1 s with
  | none => bad
  | some c =>
    if colIllegal s c || c.bkt then bad
    else match colSegs s c with
      | .ok _ => let r := takeColSeq s.me.die c.bank s; pushQueued { c with colSeq := r.1 } r.2
      | .error e =>
        if e.cls ≠ 7 then bad
        else
          let rep := (e.info.drop 64).take 32
          (s.mapMe fun x => { x with life := .awaiting, report := rep }).emit (.memprocFault (trapDev s (e.on .a)) s.me.launch rep)

/-- The command of a collective node issues, as its entry block gives it (R325). -/
def performEntry (s : State) : State :=
  match (s.node? s.me.nodeDie s.me.nodeIdx).bind fun n => nodeRead s n n.code 24 with
  | none => endGang s.me.nodeDie s.me.nodeIdx 8 0 s
  | some b => performCol (leNat (b.take 4)) (leNat ((b.drop 4).take 4)) s

/-- The collective engine starts a node (R325). -/
def startCol (n : Node) (s : State) : State :=
  match nodeRead s n n.code 24 with
  | none => failNode n 8 s
  | some b =>
    let c := engineCtx s n
    let c1 := { c with g := c.g.set 1 (entryWord b 1), l := Vector.replicate 8 (entryWord b 2) }
    (seatEngine n c1 s).onLaunch c.launch performEntry

/-- The packet engine arms a node's descriptor (R325): BANK is zero. -/
def startPkt (n : Node) (s : State) : State :=
  match nodeRead s n n.code 32 with
  | none => failNode n 8 s
  | some b =>
    let c := engineCtx s n
    if armBad b || colField b 5 0 != 0 then failNode n 8 s
    else { seatEngine n { c with arm := [armOf b s.seqs] } s with seqs := s.seqs + 1 }

/-- The engine of a kind takes up its next node when it is idle (R331). -/
def startEngine (die kind : Nat) (s : State) : State :=
  let ns := engineNodes s die kind
  if ns.any fun n => !n.live.isEmpty then s
  else match ns.foldl (fun (best : Option Node) n => match best with
      | none => some n
      | some m => if n.launchSeq < m.launchSeq then some n else some m) none with
    | none => s
    | some n => if kind = 2 then startCol n s else startPkt n s

/-! ## Dispatch of an entry (R330, R331) -/

/-- May other devices of the domain hold instances of the node? This one alone judges none that it cannot hold (log 115). -/
def spansDevices (s : State) (n : Node) : Bool := n.span == 4 && decide (1 < s.devCount)

/-- Why a node of the entry can never run here: partition invalid, or no unit that holds its gang whatever the load (R29, R331). A NOPS of 33 to 47, outside the range of R28, breaks no condition of R29 and is launched (log 97). -/
def neverFits (s : State) (ns : List Node) (n : Node) : Option Nat :=
  if n.kind = 0 ∧ 48 < nodeGc n then some 1
  else if !(ns.any (spansDevices s)) && (placeEntry { s with gpCores := [], nodes := [] } [] [] ns).isNone then some 3
  else none

/-- The status of the loader's check that refuses a first launch: entry block, pins (R299, R325). -/
def launchFault (s : State) (n : Node) : Option Nat :=
  match n.kind with
  | 0 =>
    if n.launched then none
    else match nodeRead s n n.code 40 with
      | none => some 8
      | some b => if entryBad b then some 8 else if pinsExceeded s n b then some 2 else none
  | 1 => if (nodeRead s n n.code 16).isNone then some 8 else none
  | _ => none

/-- The first launch of a matrix node. -/
def launchNode (n : Node) (spots : List Spot) (s : State) : State :=
  match nodeRead s n n.code 40 with
  | none => failNode n 8 s
  | some b => setupRange n spots (launchMatrix n b spots s)

/-- A requester that is placed withdraws its requests; none has an effect once an instance is saved (R333). -/
def withdrawRequests (n : Node) (s : State) : State :=
  { s with nodes := s.nodes.map fun m =>
      if m.savedOne then m else { m with requests := m.requests.filter fun r => !(r.die == n.die && r.idx == n.idx) } }

/-- Start one placed node. -/
def startNode (n : Node) (spots : List Spot) (s : State) : State :=
  let s1 := withdrawRequests n s
  match n.kind with
  | 0 => if n.launched then resumeMatrix n spots s1 else launchNode n spots s1
  | 1 => launchGeneral n s1
  | _ => acceptEngine n s1

/-- Nodes that stand to be pre-empted for an entry: running queued matrix nodes of the die with PRIO below e, lowest PRIO first, then latest launch (R333). -/
def insertVictim (x : Node) : List Node → List Node
  | [] => [x]
  | y :: r => if x.prio < y.prio ∨ (x.prio = y.prio ∧ y.launchSeq < x.launchSeq) then x :: y :: r else y :: insertVictim x r

def victims (s : State) (die e : Nat) : List Node :=
  (s.nodes.filter fun n => n.die == die && n.kind == 0 && !n.timed && n.st == .running && decide (n.prio < e)).foldl
    (fun l n => insertVictim n l) []

/-- Does a request of the requester stand at a node? -/
def askedBy (n m : Node) : Bool := m.requests.any fun r => r.die == n.die && r.idx == n.idx

/-- What holds places when some nodes and those that are stopping have left. -/
def occWithout (s : State) (gone : List Node) : List Occ :=
  (occOf s).filter fun o => !(gone.any fun n => n.die == o.nd && n.idx == o.ni) &&
    !(s.nodes.any fun n => n.die == o.nd && n.idx == o.ni && n.st == .stopping)

/-- The shortest run of victims whose places, beside those of nodes requested already, would hold the entry (R333). -/
def enough (s : State) (ns asked vs : List Node) : Option (List Node) :=
  ((List.range (vs.length + 1)).map fun k => asked ++ vs.take k).find? fun g => (placeEntry s [] (occWithout s g) ns).isSome

/-- A blocked entry at e = 3 requests pre-emption (R330, R333). -/
def requestFor (x : Entry) (die : Nat) (s : State) : State :=
  match x.nodes with
  | [] => s
  | n :: _ =>
    let vs := victims s die x.e
    match enough s x.nodes (vs.filter (askedBy n)) (vs.filter fun v => !askedBy n v) with
    | some g => g.foldl (fun t v => requestNode v.die v.idx ⟨n.die, n.idx, x.nodes.any (·.urgent)⟩ t) s
    | none => s

/-- Start every node of a placed entry in one step, or, when the loader refuses one of them, none (R331): the refused ones finish, and the dispatcher judges the others again (log 116). -/
def startEntry (ps : List (Node × List Spot)) (s : State) : State :=
  if ps.any fun p => (launchFault s p.1).isSome then
    ps.foldl (fun t p => match launchFault s p.1 with
      | some st => failNode p.1 st t
      | none => t) s
  else ps.foldl (fun t p => startNode p.1 p.2 t) s

/-- Walk the pool in order (R330); answers whether a node started. A gang that spans devices, which this one alone does not place, blocks none (log 115). -/
def walkPool (die : Nat) : List Entry → State → State × Bool
  | [], s => (s, false)
  | x :: r, s =>
    match x.nodes.findSome? (neverFits s x.nodes) with
    | some st => let q := walkPool die r (x.nodes.foldl (fun t n => failNode n ((neverFits s x.nodes n).getD st) t) s); (q.1, true)
    | none => match placeEntry s [] (occOf s) x.nodes with
      | some ps => let q := walkPool die r (startEntry ps s); (q.1, true)
      | none => if x.e = 3 && !x.nodes.any (spansDevices s) then (requestFor x die s, false) else walkPool die r s

/-- The dispatcher of a die works (R330): then its engines take up their next nodes; a start makes the dispatchers judge again. -/
def dispatchDie (die : Nat) (s : State) : State :=
  let s0 := { s with dispatchDue := s.dispatchDue.filter (· != die) }
  let r := walkPool die (poolOf s0 die) s0
  let s1 := startEngine die 3 (startEngine die 2 r.1)
  if r.2 then (List.range 4).foldl (fun t d => if t.nodes.any fun n => n.die == d && n.st == .ready then wakeDie d t else t) s1 else s1

/-- DISPATCH (R330, R331). -/
def execDispatch (die : Nat) (s : State) : Ans := eventDone (dispatchDie die s)

/-- Cycles of 500 µs (R330). -/
def agingCycles : Nat := 650000

/-- Has a node waited another 500 µs (R330)? -/
def agesNow (s : State) (n : Node) : Bool :=
  n.st == .ready && decide (n.aged < 3) && decide (n.readyAt + (n.aged + 1) * agingCycles ≤ s.cycle)

/-- PRIORITY_AGING (R330). -/
def execPriorityAging (s : State) : Ans :=
  eventDone ((s.nodes.filter (agesNow s)).foldl (fun t n => wakeDie n.die (t.setNode { n with aged := n.aged + 1 })) s)

end Sys2Proof.Machine
end

