-- ==== Sys2Proof/Machine/SaveSteps.lean ====
section
/-!
DEFINITION. Stopping and saving a context: stop points, the yield deadline, overruns, the archive, the memory processor's requests (R148, R333 to R336, R361 to R365).
-/
namespace Sys2Proof.Machine

/-! ## Stop points (R333, R334, R336) -/

/-- Can the context be stopped now: a queued one that is not awaiting an answer or draining. -/
def stoppable (c : Ctx) : Bool := !c.timed && decide (c.core < 4) && (c.life == .active || c.life == .resident) && c.trapWait.isNone

/-- Does the forced rule hold (R334, R336): a request stands and YIELD.DL has come, or an instance has been saved. -/
def forcedRule (s : State) (n : Node) (c : Ctx) : Bool := n.savedOne || (!n.requests.isEmpty && decide (c.yieldDl ≤ s.ptp))

/-- The forced stop point: every handle EMPTY, no array command in flight. -/
def quiet (c : Ctx) : Bool := c.ks.toList.all (·.st == .empty) && c.acmds.isEmpty

/-- Is a request of the node an urgent one (R334)? -/
def urgentFor (n : Node) : Bool := n.requests.any (·.urgent)

/-- The stop point the context stands at (R334). -/
def stopNow (s : State) (n : Node) : Option StopKind :=
  if !stoppable s.me then none
  else if urgentFor n then some .urgent
  else if forcedRule s n s.me && quiet s.me then some .forced
  else none

/-- The STOP code an archive records (R362): granule retirement, then the memory processor, go before how the context stopped when several requests stand (log 113). -/
def recordedStop (n : Node) (k : StopKind) : StopKind :=
  if n.requests.any (·.die == 5) then .granule else if n.requests.any (·.die == 4) then .memproc else k

/-- The code of the header's STOP field (R362). -/
def stopCode : StopKind → Nat
  | .cooperative => 0
  | .forced => 1
  | .urgent => 2
  | .overrun => 3
  | .memproc => 4
  | .granule => 5

/-- Cycles of the forced bound (R334). -/
def forcedBound (n : Node) : Nat := n.rdepth * 512 + 28672

/-- Has the bound passed with no stop point reached (R334)? -/
def overruns (s : State) (n : Node) : Bool :=
  stoppable s.me && forcedRule s n s.me && !quiet s.me && (match s.me.forcedCtr with
    | some f => decide (f + forcedBound n < (s.bay s.me.die s.me.bay).run)
    | none => false)

/-- The result of a later seed of the pair stands for an abandoned command before it. -/
def seededOver (seeds : List ACmd) (a : ACmd) : ACmd :=
  match seeds.reverse.find? fun b => b.pair == a.pair && decide (a.id < b.id) with
  | some b => { a with result := b.result, int := b.int, opens := b.opens }
  | none => a

/-- Array commands that have not completed are abandoned; CIX, KDEP and the tags are as before the first of them (R335). -/
def abandon (c : Ctx) : Ctx :=
  match c.acmds.filter (·.kind != .load) with
  | [] => c
  | a :: as =>
    let seeds := c.acmds.filter (·.kind == .load)
    { c with
      abandoned := (a :: as).map (seededOver seeds), acmds := seeds, tagsAtStop := some ⟨c.ks, c.cix, c.kdep, c.wrapped⟩
      ks := (a :: as).reverse.foldl (fun ks b => ks.set b.kreg b.before) c.ks, cix := a.cix, kdep := a.kdep, wrapped := a.wrapped }

/-- The context stops and its work drains (R334, R335, R361). -/
def stopAndDrain (k : StopKind) (s : State) : State :=
  let s1 := stopForSave k s
  drainOut (if k = .urgent ∨ k = .overrun then s1.mapMe abandon else s1)

/-! ## The archive (R361 to R363) -/

/-- Is everything in flight placed, completed or FAULTED (R361)? -/
def drained (c : Ctx) : Bool :=
  c.life == .stopped && !workLeft c && !(c.priv.any fun p => p.parked.isSome) &&
  c.acmds.isEmpty && c.loads.isEmpty && c.rets.isEmpty && c.pend.isEmpty && c.words.isEmpty

/-- Would the versions of the save's publish find no room once the context's own view is gone (R259, R260, R361)? -/
def saveShort (s : State) : Bool := overSpilled s ((publishAll .dom s).mapMe fun c => { c with life := .vacant })

/-- Can the context be saved (R260, R361)? -/
def saveReady (s : State) : Bool := drained s.me && !saveShort s

/-- The archive of the context whose turn it is (R361 to R363). -/
def archiveNow (s : State) (k : StopKind) : Archive := { addr := s.me.recPage - 0x9000, seq := s.saveSeq + 1, stop := k, ctx := s.me }

/-- Write an archive of the context whose turn it is into DRAM (R361 to R363). -/
def storeArchive (a : Archive) (s : State) : State :=
  { s with
    archives := s.archives ++ [a], saveSeq := a.seq
    mem := writeArchive s.mem s.rank a.ctx a.addr (archiveImage s.mem s.rank s.boot a.ctx a.addr a.seq (stopCode a.stop)) }

/-- From the first save on the other instances stop under the forced rule (R336). -/
def forceOthers (die idx : Nat) (s : State) : State :=
  let s1 := match s.node? die idx with
    | none => s
    | some n => s.setNode { n with savedOne := true }
  s1.mapCtxs fun c => if c.nodeDie = die ∧ c.nodeIdx = idx ∧ c.forcedCtr.isNone then { c with forcedCtr := some (s.bay c.die c.bay).run } else c

/-- Publish, archive, and free the partition's granules (R361). -/
def saveNow (k : StopKind) (s : State) : State :=
  let s1 := publishAll .dom s
  let c := s1.me
  savedNode c.nodeDie c.nodeIdx (forceOthers c.nodeDie c.nodeIdx (wakeReady (wakeDie c.die (vacate c.launch (storeArchive (archiveNow s1 k) s1)))))

/-- Save a stopped context that is ready; one that is not waits. -/
def saveIfReady (n : Node) (s : State) : State :=
  match s.me.saving with
  | some k => if saveReady s then saveNow (recordedStop n k) s else s
  | none => s

/-- CONTEXT_SAVE with the STOP code its archive gets (R361, R362). -/
def execContextSave (stop : StopKind) (s : State) : Ans :=
  match s.node? s.me.nodeDie s.me.nodeIdx with
  | none => eventDone s
  | some n =>
    if s.me.life = .stopped then
      eventDone (if (s.me.saving.map (recordedStop n)) = some stop then saveIfReady n s else s)
    else match stopNow s n with
      | some k => eventDone (if recordedStop n k = stop then saveIfReady n (stopAndDrain k s) else s)
      | none => eventDone s

/-- FORCED_STOP_OVERRUN: stopped as for urgent, and NOVR counts it (R334). -/
def execForcedStopOverrun (s : State) : Ans :=
  match s.node? s.me.nodeDie s.me.nodeIdx with
  | none => eventDone s
  | some n =>
    if overruns s n then eventDone (stopAndDrain .overrun (s.setNode { n with novr := n.novr + 1 })) else eventDone s

/-- Has YIELD.DL come for the first time since the launch or resume (R148, R347)? -/
def deadlineNow (s : State) (c : Ctx) : Bool := c.life != .vacant && !c.dlSeen && decide (c.yieldDl ≤ s.ptp)

/-- YIELD_DEADLINE: the event DEADLINE and its interrupt source; the forced bound counts from here (R148, R334, R347). -/
def execYieldDeadline (s : State) : Ans :=
  if deadlineNow s s.me then
    eventDone (s.mapMe fun c => { c with
      dlSeen := true, events := c.events ||| 2#5, irq := c.irq ||| 2#7, irqAt := (setIrq 2#7 s.cycle c).irqAt,
      forcedCtr := match c.forcedCtr with
        | some f => some f
        | none => some (s.bay c.die c.bay).run })
  else eventDone s

/-- MEMORY_PROCESSOR_PREEMPTION (R333). -/
def execMemoryProcessorPreemption (die idx : Nat) (s : State) : Ans := eventDone (requestNode die idx ⟨4, 0, false⟩ s)

end Sys2Proof.Machine
end

