-- ==== Sys2Proof/Machine/MapSteps.lean ====
section
/-!
DEFINITION. Patch images and epochs, map requests with their scan, shootdowns, page migrations (R96, R100, R247, R264, R265, R300, R301, R305, R306, R375, R378 to R381).
-/
namespace Sys2Proof.Machine

/-! ## The scanner (R96, R100, R375) -/

/-- Length in words the scanner gives a word under a slot set; none when the word is refused there. -/
def scanLen (slots : List (List Byte)) (x : StreamId) (w ext : Nat) : Option Nat :=
  match decodeWord x w ext with
  | some _ => some (wordCount x w)
  | none => match winOf (slotMatches x w) slots with
    | some d => if slotAdmit d then some (slotLen d) else none
    | none => none

/-- The word at an offset of a page, and the one after it on the page. -/
def pageWord (m : Mem) (base size o : Nat) : Nat × Nat :=
  (leNat (readBases m (base + o) 4), if o + 4 < size then leNat (readBases m (base + o + 4) 4) else 0)

/-- The rule that refuses a word (R96): of several it breaks, the first the decoder meets (log 106). -/
def ruleOf (x : StreamId) (w ext : Nat) : ScanRule :=
  match scanWord x w ext with
  | .ok _ => .lastWord
  | .error r => r

/-- The byte offset of the first word no slot set of a list accepts, scanning linearly, and the rule that refuses it (R96, R100); a two-word instruction that begins in the last word is refused. -/
def scanPage (sets : List (List (List Byte))) (x : StreamId) (m : Mem) (base size : Nat) : (fuel : Nat) → (o : Nat) → Option (Nat × ScanRule)
  | 0, _ => none
  | n + 1, o =>
    if size ≤ o then none
    else
      let w := pageWord m base size o
      match sets.findSome? fun d => scanLen d x w.1 w.2 with
      | none => some (o, ruleOf x w.1 w.2)
      | some k => if size < o + 4 * k then some (o, .lastWord) else scanPage sets x m base size n (o + 4 * k)

/-- Does a page pass the scan under one slot set. -/
def pagePasses (s : State) (x : StreamId) (frame size : Nat) (p : PatchSet) : Bool :=
  (scanPage [p.slots] x s.mem (locPa s.rank frame) size (size / 4 + 1) 0).isNone

/-- The epochs a page is legal in, of those whose sets are held (R380). -/
def legalIn (s : State) (x : StreamId) (frame size : Nat) : List Nat :=
  (s.patches.filter (pagePasses s x frame size)).map (·.epoch)

/-! ## Patch images (R378, R379) -/

/-- Key numbers of `Config.signatureOk`: Penkor's patch key. -/
def patchKey : Nat := 2

def imgField (b : List Byte) (hi lo : Nat) : Nat := natBits (leNat (b.take 64)) hi lo
def imgNslot (b : List Byte) : Nat := imgField b 439 434
def imgUlen (b : List Byte) : Nat := imgField b 431 400
def imgLength (b : List Byte) : Nat := imgField b 399 368
def imgEpoch (b : List Byte) : Nat := imgField b 471 440
/-- Descriptor i of an image. -/
def imgSlot (b : List Byte) (i : Nat) : List Byte := (b.drop (64 + 32 * i)).take 32

/-- Are the substitutes from k on accepted words of a stream with header 0, two-word ones within SUB (R379)? -/
def subsOk (x : StreamId) (d : List Byte) : (fuel : Nat) → (k : Nat) → Bool
  | 0, _ => true
  | n + 1, k =>
    if slotNsub d ≤ k then true
    else
      let w := slotSub d k
      (decodeWord x w (slotSub d (k + 1))).isSome && headerOf w == 0#4 && decide (k + wordCount x w ≤ slotNsub d) &&
      subsOk x d n (k + wordCount x w)

/-- Fields that must be zero for an ACTION and KIND (R373, R379). -/
def slotZeros (d : List Byte) : Bool :=
  let a := slotAction d
  (a == 2 || slotField d 50 49 == 0) &&
  slotField d 255 (if a = 2 then 128 + 32 * slotNsub d else 128) == 0 &&
  (a == 5 || (slotRdest d == 0 && slotTclass d == 0)) &&
  (a == 3 || (slotCyc d == 0 && slotUentry d == 0)) &&
  (a == 1 || (a == 5 && slotRdest d == 0) || slotVoff d == 0) &&
  (slotKind d == 0 || (slotMval d == 0 && slotMmask d == 0 && slotField d 51 51 == 0))

/-- Is a slot valid (R379)? -/
def slotValid (ulen : Nat) (d : List Byte) : Bool :=
  if slotAction d = 0 then leNat d == 0
  else
    decide (slotAction d ≤ 5) && slotField d 63 60 != 0 && slotZeros d &&
    ((slotKind d == 1) == (slotAction d == 5)) && (slotKind d == 0 || !slotAdmit d) &&
    (slotKind d == 0 || (decide (1 ≤ slotTclass d) && decide (slotTclass d ≤ 16))) &&
    (slotMval d &&& slotMmask d) == slotMval d &&
    (slotAction d != 2 || [StreamId.c, .a, .m, .s].all fun x => !slotSmask d x || subsOk x d 4 0) &&
    (slotAction d != 3 || (decide (1 ≤ slotCyc d) && decide (slotUentry d < ulen) && slotUentry d % 8 == 0))

/-- Is the format of an image that of R378? -/
def imgFormat (b : List Byte) : Bool :=
  imgField b 511 480 == 0x45524641 && imgField b 479 472 == 1 && imgField b 433 432 == 0 && imgField b 365 0 == 0 &&
  decide (imgNslot b ≤ 32) && imgUlen b % 8 == 0 && imgLength b == 64 + 32 * imgNslot b + imgUlen b

/-- The status of an image: 0, or the first check it fails (R379). -/
def imageStatus (s : State) (b : List Byte) : Nat :=
  if !Config.signatureOk patchKey (b.take (imgLength b)) ((b.drop (imgLength b)).take 132) then 1
  else if !imgFormat b then 2
  else if imgField b (if s.lx9601 then 366 else 367) (if s.lx9601 then 366 else 367) = 0 then 3
  else if imgEpoch b ≤ newestEpoch s then 4
  else if !(List.range (imgNslot b)).all fun i => slotValid (imgUlen b) (imgSlot b i) then 5
  else if 1 < s.patches.length then 6
  else 0

/-- The set an image holds. -/
def setOfImage (b : List Byte) : PatchSet :=
  ⟨imgEpoch b, (List.range (imgNslot b)).map (imgSlot b), (b.drop (64 + 32 * imgNslot b)).take (imgUlen b)⟩

/-- Rescan every executable page under the sets held (R380). -/
def rescan (s : State) : State :=
  { s with scanned := s.scanned.map fun p => if p.exec then { p with legal := legalIn s p.cls p.frame p.size } else p }

/-- The EPOCH event and interrupt source in every resident context of an older epoch (R380). -/
def tellEpoch (s : State) : State :=
  let e := newestEpoch s
  s.mapCtxs fun c => if c.life != .vacant && decide (c.patchEpoch.toNat < e) then setIrq 0x10#7 s.cycle { c with events := c.events ||| 0x10#5 } else c

/-- Activate an accepted image (R380). -/
def activate (b : List Byte) (s : State) : State := tellEpoch (rescan { s with patches := s.patches ++ [setOfImage b] })

/-- PATCH_IMAGE_LOAD (R379, R380). -/
def execPatchImageLoad (image : List Byte) (s : State) : Ans :=
  let st := imageStatus s image
  eventDone ((if st = 0 then activate image s else s).emit (.status st))

/-- Does a context, resident or archived to be resumed, hold an epoch older than the newest (R381)? An archive kept for diagnosis alone does not (R364). -/
def olderHeld (s : State) : Bool :=
  (s.ctxs.any fun c => c.life != .vacant && decide (c.core < 4) && decide (c.patchEpoch.toNat < newestEpoch s)) ||
  s.archives.any fun a => decide (a.ctx.patchEpoch.toNat < newestEpoch s) && s.nodes.any fun n => n.live.contains a.ctx.launch

/-- May the open transition close (R381)? -/
def closeDue (s : State) : Bool := decide (1 < s.patches.length) && !olderHeld s

/-- A leaf of a stage-1 tree: where its entry stands, the entry, and its virtual address (R289 to R291). -/
structure LeafAt where
  loc : Nat
  e : Nat
  va : Nat
  deriving DecidableEq, Repr

/-- The leaves of a stage-1 tree from a table of level `n - 1` down, the table at address t of virtual address va; the entries stand where stage 2 puts the table. -/
def stage1Leaves (m : Mem) (rank s2 : Nat) : (n : Nat) → (t va : Nat) → List LeafAt
  | 0, _, _ => []
  | n + 1, t, va =>
    match walk2 m rank false t 4 s2 with
    | .error _ => []
    | .ok l2 => (List.range 512).flatMap fun i =>
      let pa := leafBase l2.e + t % leafSize l2.e + 8 * i
      let e := readEntry m rank pa
      let v := va + i * 2 ^ (12 + 9 * n)
      if !eV e || malformed .stage1 n e then []
      else if isTable e then stage1Leaves m rank s2 n (tblAddr e) v
      else [⟨locPa rank pa, e, v⟩]

/-- An executable leaf without X, and with it without its stream class (R290); one that may not be read either becomes invalid. -/
def clearX (e : Nat) : Nat := if eR e then e - 8 - natBits e 54 53 * 2 ^ 53 else 0

/-- Does an executable leaf of a process lead to a page? -/
def execLeaf (s : State) (s2 : Nat) (g : Scanned) (l : LeafAt) : Bool :=
  eX l.e && match walk2 s.mem s.rank false (leafBase l.e) 4 s2 with
    | .error _ => false
    | .ok l2 => meets (leafBase l2.e + leafBase l.e % leafSize l2.e) (leafSize l.e) g.frame g.size

/-- The shootdowns that take X from the entries of a page, one for each leaf of each process that maps it executable (R300, R381). -/
def closeShoots (s : State) (g : Scanned) : List ShootReq :=
  s.spaces.flatMap fun a => match s.part? a.vmid with
    | none => []
    | some p => ((stage1Leaves s.mem s.rank p.s2Root 4 a.s1Root 0).filter (execLeaf s p.s2Root g)).map fun l =>
      { vmid := a.vmid, asid := some a.asid, va := l.va, len := leafSize l.e, writes := [⟨l.loc, BitVec.ofNat 64 (clearX l.e)⟩] }

/-- EPOCH_TRANSITION_CLOSE: the older set is discarded, and pages illegal in the newer epoch lose X, in the scanner's records at once and in the tables by a shootdown (R300, R381). -/
def execEpochTransitionClose (s : State) : Ans :=
  if closeDue s then
    let e := newestEpoch s
    let lost := s.scanned.filter fun p => p.exec && !p.legal.contains e
    eventDone { s with
      patches := s.patches.filter (·.epoch == e)
      scanned := s.scanned.map fun p => if p.exec && p.legal.contains e then { p with legal := [e] } else { p with exec := false, legal := [] }
      shoots := s.shoots ++ ((lost.flatMap (closeShoots s)).map fun r => (Change.shoot r, [])).filter fun x => !s.shoots.any (·.1 == x.1) }
  else eventDone s

/-! ## Map requests (R96, R264, R265, R381) -/

/-- The nominal size with a page mapped: what of it is mapped already, under another name, counts once (R265). -/
def nominalWith (p : Part) (r : MapReq) : Nat := (unmapRange r.frame r.size p).nominal + r.size / 4096

/-- Would the page raise the overcommit ratio above 2.0 (R265)? -/
def overcommits (p : Part) (r : MapReq) : Bool := decide (p.nominal < nominalWith p r) && decide (2 * p.quota < nominalWith p r * 64)

/-- Offset of the first word legal in no epoch held, of an executable page, and the rule (R96, R381). -/
def execFault (s : State) (r : MapReq) : Option (Nat × ScanRule) :=
  match r.exec with
  | none => none
  | some x => scanPage (s.patches.reverse.map (·.slots)) x s.mem (locPa s.rank r.frame) r.size (r.size / 4 + 1) 0

/-- Is a written entry a leaf with an attribute? -/
def leafWith (f : Nat → Bool) (w : PteWrite) : Bool := eV w.entry.toNat && !isTable w.entry.toNat && f w.entry.toNat

/-- The page a map request maps. -/
def mappedPage (r : MapReq) : Page := ⟨r.frame, r.size, r.writes.any (leafWith eC), r.writes.any (leafWith eD)⟩

/-- Is a page mapped whole? -/
def Part.holds (p : Part) (g : Page) : Bool := p.pages.any fun h => decide (h.frame ≤ g.frame) && decide (g.frame + g.size ≤ h.frame + h.size)

/-- A page that a stage-1 leaf marks D is differentiable, whatever other names it has (R268, R270). -/
def markDiff (g : Page) (p : Part) : Part :=
  { p with pages := p.pages.map fun h => if meets h.frame h.size g.frame g.size then { h with diff := h.diff || g.diff } else h }

/-- Map the page: entries written, the partition's pages, nominal size and sectors with them, an executable page recorded with its epochs. -/
def mapPage (r : MapReq) (s : State) : State :=
  let g := mappedPage r
  let s0 := retable r.part r.writes s
  let s1 := match s0.part? r.part with
    | none => s0
    | some p => s0.setPart (markDiff g (if p.holds g then p else takePage s0 g p))
  match r.exec with
  | none => s1
  | some x => { s1 with scanned := ⟨r.frame, r.size, x, true, legalIn s1 x r.frame r.size⟩ :: s1.scanned.filter (·.frame != r.frame) }

/-- MAP_REQUEST (R96, R265, R300): refused with the status overcommit, or with the offset of the first offending word; one that changes an entry in force waits for its shootdown. -/
def execMapRequest (r : MapReq) (s : State) : Ans :=
  match s.part? r.part with
  | none => eventDone s
  | some p =>
    if s.shoots.any (·.1 == .map r) then eventDone ((Change.map r).await (mapPage r) s)
    else if overcommits p r then eventDone (s.emit (.overcommit r.part))
    else match execFault s r with
      | some o => eventDone (s.emit (.scanFail o.1 o.2))
      | none => eventDone (if overwrites s r.writes then (Change.map r).await (mapPage r) s else mapPage r s)

/-! ## Shootdowns (R300, R301, R305) -/

/-- SHOOTDOWN (R300, R301, R305): one that cannot complete stays pending. -/
def execShootdown (r : ShootReq) (s : State) : Ans := eventDone ((Change.shoot r).await (retable r.vmid r.writes) s)

/-! ## Migration (R247, R300, R306) -/

/-- A place after a range moved. -/
def moved (old new n x : Nat) : Nat := if old ≤ x ∧ x < old + n then new + (x - old) else x

/-- A range of places after another range moved: the part inside moves (R306). -/
def movedRange (old new n : Nat) (r : Nat × Nat) : List (Nat × Nat) :=
  let lo := Nat.max r.1 old
  let hi := Nat.min (r.1 + r.2) (old + n)
  if lo < hi then [(r.1, lo - r.1), (moved old new n lo, hi - lo), (hi, r.1 + r.2 - hi)].filter fun x => x.2 != 0 else [r]

def movedCell (old new n : Nat) (c : PCell) : PCell := { c with loc := moved old new n c.loc }

/-- Memory after the frame's contents were copied and everything held by place follows the page; what the new frame held before is gone (R247, R306). -/
def moveMem (old new n : Nat) (m : Mem) : Mem :=
  let inOld (x : Nat) : Bool := decide (old ≤ x) && decide (x < old + n)
  let inNew (x : Nat) : Bool := decide (new ≤ x) && decide (x < new + n)
  { m with
    base := (m.base.filter fun x => inOld x.1).foldl (fun l x => putCell (moved old new n x.1) x.2 l) (m.base.filter fun x => !inNew x.1)
    poison := (m.poison.filter fun u => !inNew (8 * u)) ++ (m.poison.filter fun u => inOld (8 * u)).map fun u => moved old new n (8 * u) / 8
    stages := (m.stages.filter fun u => !inNew (8 * u.1)).map fun u => (moved old new n (8 * u.1) / 8, u.2)
    vers := m.vers.map fun v => { v with cells := (v.cells.filter fun x => !inNew x.loc).map (movedCell old new n) }
    baseVer := (m.baseVer.filter fun x => !inNew x.1).map fun x => (moved old new n x.1, x.2)
    atoms := (m.atoms.filter fun x => !inNew x.1).foldl (fun l x => putHome (moved old new n x.1) x.2 l) []
    sealedR := (m.sealedR.filter fun r => !meets r.1 r.2 new n).flatMap (movedRange old new n) }

def movedPriv (old new n : Nat) (p : Priv) : Priv :=
  { p with
    cells := p.cells.map (movedCell old new n)
    kind := match p.kind with
      | .atom r d i => .atom { r with loc := moved old new n r.loc } d i
      | k => k }

/-- A context's views, unpublished writes, shadows and buckets follow the page (R247, R306); views of the new frame's earlier contents go. -/
def moveCtx (old new n : Nat) (c : Ctx) : Ctx :=
  let inNew (x : Nat) : Bool := decide (new ≤ x) && decide (x < new + n)
  { c with
    priv := (c.priv.filter fun p => !p.cells.all fun x => inNew x.loc).map (movedPriv old new n)
    withdrawn := c.withdrawn.map (movedPriv old new n)
    frame := c.frame.map fun f => { f with replay := f.replay.map (movedPriv old new n) }
    view := (c.view.filter fun e => !inNew e.cell.loc).map fun e => { e with cell := movedCell old new n e.cell }
    shadows := c.shadows.map fun h => { h with
      cells := h.cells.map (movedCell old new n)
      wrote := h.wrote.map fun w => (moved old new n w.1, w.2)
      ext := h.ext.flatMap fun e => (movedRange old new n e.2).map fun r => (e.1, r) }
    buckets := c.buckets.map fun b => { b with ext := b.ext.flatMap (movedRange old new n) } }

/-- A partition's pages and lists follow the page (R306): `fo` and `fn` are the frames' addresses, `old` and `new` their places. -/
def movePart (fo fn old new n : Nat) (p : Part) : Part :=
  { p with
    pages := p.pages.map fun g => { g with frame := moved fo fn n g.frame }
    pins := p.pins.flatMap (movedRange fo fn n)
    balloon := p.balloon.map fun b => moved old new n (512 * b) / 512
    donations := p.donations.map fun d => { d with pieces := d.pieces.flatMap (movedRange old new n) } }

/-- Sectors of a partition after its pages changed places: a page on the stacks takes none (R272). -/
def recount (s t : State) : State :=
  { t with parts := t.parts.map fun p => match s.part? p.vmid with
    | none => p
    | some q => { p with used := p.used + (p.pages.map (pageSectors t)).sum - (q.pages.map (pageSectors s)).sum } }

/-- Everything held by place follows a migrated page (R306). -/
def movePage (r : MigrateReq) (s : State) : State :=
  let old := locPa s.rank r.oldFrame
  let new := locPa s.rank r.newFrame
  recount s { s.mapCtxs (moveCtx old new r.size) with
    mem := moveMem old new r.size s.mem
    blocks := (s.blocks.filter fun b => !meets (512 * b.loc) 512 new r.size).map fun b => { b with loc := moved old new r.size (512 * b.loc) / 512 }
    parts := s.parts.map (movePart r.oldFrame r.newFrame old new r.size)
    foreign := s.foreign.map fun f => (f.1, { f.2 with loc := moved old new r.size f.2.loc })
    scanned := (s.scanned.filter fun p => !meets p.frame p.size r.newFrame r.size).map fun p => { p with frame := moved r.oldFrame r.newFrame r.size p.frame }
    archives := s.archives.map fun a => { a with ctx := moveCtx old new r.size a.ctx } }

/-- PAGE_MIGRATION (R247, R300, R306): every translation of the page is shot down, it is copied, and the new frame is mapped; of a page pinned for a running timed node the request waits. -/
def execPageMigration (r : MigrateReq) (s : State) : Ans :=
  eventDone ((Change.move r).await (fun t => writePtes r.writes (movePage r t)) s)

end Sys2Proof.Machine
end

