-- ==== Sys2Proof/Machine/HostSteps.lean ====
section
/-!
DEFINITION. The host's side and the general cores' side: submission, doorbells, BAR2 writes, translation answers, registers, mailbox bindings, SEND and RECV, the journal unit (R305, R337 to R339, R384 to R388).
-/
namespace Sys2Proof.Machine

/-! ## Functions (R383, R384) -/

/-- Does the function exist in the partition mode in force (R384, R405)? -/
def fnExists (s : State) (f : Nat) : Bool :=
  let v := fnVmid f
  (s.part? v).isSome && (match s.partMode with
    | 0 => decide (fnLink f ≤ 1)
    | 1 => fnLink f == v
    | _ => fnLink f == v / 2)

/-! ## Submission (R385, R386) -/

/-- The slip a SUBMIT hands in; what it publishes stands before the node (R385, R386). -/
def submitSlip (f port die asid : Nat) (s : State) : State × Int :=
  let r := acceptSlip die asid (fnVmid f) f (some port) (padTo 256 (s.subPort f port).slip) s
  (nodeKnows die r.2 ((s.hostPubs.filter (·.1 == fnLink f)).map (·.2)) r.1, r.2)

/-- What RESULT becomes: −1 while the catalogues are closed, −2 for a word with bits 15:2 or a die beyond the partition, −3 for an ASID that is not registered (R385, R403). -/
def submitResult (f port : Nat) (w : W32) (s : State) : State × Int :=
  let die := natBits w.toNat 1 0
  let asid := natBits w.toNat 31 16
  if !catalogueOpen s then (s, -1)
  else if natBits w.toNat 15 2 ≠ 0 ∨ !(partDies s (fnVmid f)).contains die then (s, -2)
  else if !(s.fnOf f).asids.contains asid then (s, -3)
  else submitSlip f port die asid s

/-- SUBMIT (R385, R386). -/
def execSubmit (f port : Nat) (w : W32) (s : State) : Ans :=
  let r := submitResult f port w s
  eventDone (r.1.setSubPort { r.1.subPort f port with result := BitVec.ofInt 64 r.2 })

/-- DOORBELL: the HOST source of the named instance, resident or saved (R347, R385). -/
def execDoorbell (f : Nat) (w : W64) (s : State) : Ans :=
  let v := w.toNat
  eventDone (if natBits v 63 48 ≠ 0 then s
    else latchIrq (fun c => c.vmid == fnVmid f && c.nodeDie == natBits v 15 14 && c.nodeIdx == natBits v 13 0 && c.vrank.toNat == natBits v 47 16) 0x40#7 s)

/-- The context the device acts in for a function and a process it may name. -/
def fnCtx (s : State) (f asid : Nat) : Ctx := procCtx s (2 * fnLink f) (fnVmid f) asid 0 0

/-- May a function reach a pointer of a process through BAR2 (R384)? -/
def bar2May (s : State) (f asid : Nat) (ptr : W64) : Bool := fnExists s f && (s.fnOf f).asids.contains asid && spaceOf ptr == .glb

/-- A host write takes effect: published here (R386; log 34). -/
def bar2Now (f asid : Nat) (ptr : W64) (bytes : List Byte) (s : State) : State :=
  { unitWrites (fnCtx s f asid) ((s.hostPubs.filter (·.1 == fnLink f)).map (·.2)) [(ptr, bytes)] s with
    hostPubs := s.hostPubs ++ [(fnLink f, s.stamp + 1)] }

/-- A write of the host or of a general core takes effect, or waits, behind those that wait already, until its versions and sectors have room (R260, R266; log 127). -/
def whenRoom (i : Instr) (fits : Bool) (f : State → State) (s : State) : State :=
  let s0 := { s with hostWait := s.hostWait.erase i }
  if (s.hostWait.head?).all (· == i) && fits && !overSpilled s0 (f s0) then f s0 else { s with hostWait := s0.hostWait ++ [i] }

/-- HOST_BAR2_WRITE: a host write into a registered process's GLB space (R384, R386). -/
def execHostBar2Write (f asid : Nat) (ptr : W64) (bytes : List Byte) (s : State) : Ans :=
  eventDone (if bar2May s f asid ptr then
      whenRoom (.hostBar2Write f asid ptr bytes) (unitFits (fnCtx s f asid) [(ptr, bytes)] s) (bar2Now f asid ptr bytes) s
    else { s with hostWait := s.hostWait.erase (.hostBar2Write f asid ptr bytes) })

/-- What a host read through BAR2 returns: the bytes as published at device scope, all ones where the function reaches none (R384; log 34). No step reads: a read changes nothing. -/
def bar2Read (s : State) (f asid : Nat) (ptr : W64) (n : Nat) : List Byte :=
  let c := refreshCtx s .dev (fnCtx s f asid)
  match (if bar2May s f asid ptr then s.access c .read ptr n else .error (.acc 0)) with
  | .error _ => List.replicate n 0xFF#8
  | .ok ss => if recPageHit s true ss then List.replicate n 0xFF#8 else (readSegs { s with me := c } [] ss).map (·.byte)

/-! ## Translation answers (R305, R388) -/

/-- The mapping in force of a unified address: none where its place is donated (R270, R305). -/
def unifiedAt (s : State) (c : Ctx) (k : AccKind) (va : Nat) : Except PErr Trans := (translateU s.mem s.rank c.s2Root c.uRoot k va).bind (undonated s)

/-- Permissions the tables give a unified address: bit 0 read, 1 write, 2 execute. -/
def unifiedPerm (s : State) (c : Ctx) (va : Nat) : Nat :=
  let ok (k : AccKind) : Nat := match unifiedAt s c k va with
    | .ok _ => 1
    | .error _ => 0
  ok .read + 2 * ok .write + 4 * ok .exec

/-- Where a unified address lies, when it is mapped. -/
def unifiedPlace (s : State) (c : Ctx) (va : Nat) : Option Nat :=
  [AccKind.read, .write, .exec].findSome? fun k => match unifiedAt s c k va with
    | .ok t => some t.loc
    | .error _ => none

/-- HOST_TRANSLATION_REQUEST: answered only with a mapping in force, and remembered (R305, R388). -/
def execHostTranslationRequest (f asid : Nat) (va : W64) (s : State) : Ans :=
  let c := fnCtx s f asid
  eventDone (match unifiedPlace s c va.toNat with
    | none => s.emit (.answer f asid va false 0 0)
    | some x => { s.emit (.answer f asid va true x (unifiedPerm s c va.toNat)) with answers := s.answers ++ [(f, asid, va)] })

/-- REVOCATION_CONFIRM: the host agent wrote the sequence number back (R388). -/
def execRevocationConfirm (seq : Nat) (s : State) : Ans := eventDone { s with revoking := s.revoking.filter (· != seq) }

/-- The host link of a die (R383). -/
def hostLinkOf (die : Nat) : Nat := die / 2

/-- Does a command in flight access host memory: its buffer, or a row of it (R296, R388)? -/
def cmdOnHost (s : State) (c : Cmd) : Bool :=
  spaceOf c.ptr == .host && (cmdPieces s c).any fun x => match s.hostLoc s.me .read x.1 with
    | .ok t => isHostBus t.loc
    | .error _ => false

/-- A copy outstanding over a link that goes down takes the deferred fault of poisoned data (R168, R282, R388). -/
def hostFault (c : Cmd) (s : State) : State :=
  if c.isCol || c.kind == .cpBb || c.kind == .cpFill || !cmdOnHost s c then s else faultCmd c ⟨14, 0, 0, 1, c.ptr⟩ s

/-- A word the context waits for from host memory arrives as poisoned data (R282, R388). -/
def hostWord (p : Pend) : Pend :=
  match p.what with
  | .far d _ x ptr addr => if isHostBus x then { p with what := .faulted d x ptr addr } else p
  | _ => p

/-- Change every context as itself. -/
def eachCtx (sel : Ctx → Bool) (f : State → State) (s : State) : State :=
  (s.ctxs.filter fun c => c.life != .vacant && sel c).foldl (fun t c => t.onLaunch c.launch f) s

/-- HOST_LINK_DOWN (R388). -/
def execHostLinkDown (link : Nat) (s : State) : Ans :=
  eventDone (eachCtx (fun c => hostLinkOf c.die == link) (fun t => t.me.cmds.foldl (fun u c => hostFault c u) (t.mapMe fun c => { c with pend := c.pend.map hostWord })) s)

/-! ## The journal unit (R338, R339) -/

def State.jrn (s : State) (die num : Nat) : Jrn :=
  (s.journals.find? fun j => j.die == die && j.num == num).getD ⟨die, num, 0#64, 0#64, 0#64, 0#2, 0#3, [0#64, 0#64, 0#64, 0#64], none⟩

def State.setJrn (s : State) (j : Jrn) : State :=
  { s with journals := j :: s.journals.filter fun x => !(x.die == j.die && x.num == j.num) }

/-- The partition of a die. -/
def vmidOfDie (s : State) (die : Nat) : Nat := ((s.parts.find? fun p => p.dies.contains die).map (·.vmid)).getD 0

/-- The process a journal unit's pointers are read in: the first one registered in the die's partition (log 35). -/
def journalCtx (s : State) (die : Nat) : Ctx :=
  let v := vmidOfDie s die
  procCtx s die v (((s.spaces.find? fun a => a.vmid == v).map (·.asid)).getD 0) 0 0

/-- The sequence number a record must carry (R338). -/
def nextSeq (j : Jrn) : W32 := match j.lastSeq with
  | none => 0#32
  | some q => q + 1#32

/-- A draw record without its reserved bits 47:1, which read as zero (R8, R338). -/
def drawClear (draw : List W64) : List W64 := draw.set 0 (draw.getD 0 0#64 &&& 0xFFFF000000000001#64)

/-- SEQ of a draw: bits 127:96 (R338). -/
def drawSeq (draw : List W64) : W32 := BitVec.ofNat 32 ((draw.getD 1 0#64).toNat / 2 ^ 32)

/-- Does the record at JHEAD pass JLIMIT (R339)? -/
def journalFull (j : Jrn) : Bool := decide (j.limit.toNat < j.head.toNat + 32)

/-- Is a general core held: any but core 0 until the catalogues open (R403 stage 4)? -/
def gpHeld (s : State) (core : Nat) : Bool := core != 0 && !catalogueOpen s

/-- JDRAW_COMMIT: the fourth doubleword commits the record (R339); a plain write of the general core, published by its next SEND. -/
def execJdrawCommit (gp : GpAt) (stream : Nat) (dw3 : W64) (s : State) : Ans :=
  let j := s.jrn gp.die stream
  let draw := drawClear (j.draw.take 3 ++ [dw3])
  let j1 := { j with draw := draw }
  if gpHeld s gp.core then eventDone s
  else if j.mode ≠ 1#2 then eventDone (s.setJrn j1)
  else
    let gap := drawSeq draw != nextSeq j
    let full := journalFull j
    if gap || full then eventDone (s.setJrn { j1 with stat := j.stat ||| (if gap then 4#3 else 0#3) ||| (if full then 1#3 else 0#3) })
    else eventDone { s.setJrn { j1 with head := j.head + 32#64, lastSeq := some (drawSeq draw) } with
      jrnPend := s.jrnPend ++ [(gp.die, gp.core, j.head, draw.flatMap le64)] }

/-- The bytes of a record as the journal unit reads it: the die's unpublished ones first. -/
def journalBytes (s : State) (die : Nat) (p : W64) : List Byte :=
  match s.jrnPend.reverse.find? fun w => w.1 == die && w.2.2.1 == p with
  | some w => w.2.2.2
  | none =>
    let c := refreshCtx s .dev (journalCtx s die)
    match s.access c .read p 32 with
    | .error _ => List.replicate 32 0#8
    | .ok ss => if recPageHit s true ss then List.replicate 32 0#8 else (readSegs { s with me := c } [] ss).map (·.byte)

/-- JDRAW_REPLAY: a read of doubleword `dw` (R339). In replay mode at JLIMIT every read returns 0 and sets END; below it a read of the fourth takes the record at JHEAD, and a read of another returns the register as the last such read left it (log 114). -/
def execJdrawReplay (die : Nat) (reg : JdrawAt) (s : State) : Ans :=
  let j := s.jrn die reg.stream
  let dw := reg.dw
  if j.mode ≠ 2#2 ∨ (dw ≠ 3 ∧ j.head < j.limit) then eventDone (s.emit (.mmioRead die (j.draw.getD dw.val 0#64)))
  else if j.limit ≤ j.head then
    eventDone ((s.setJrn { j with stat := j.stat ||| 2#3, draw := [0#64, 0#64, 0#64, 0#64] }).emit (.mmioRead die 0#64))
  else
    let draw := drawClear ((List.range 4).map (entryWord (journalBytes s die j.head)))
    eventDone ((s.setJrn { j with head := j.head + 32#64, draw := draw }).emit (.mmioRead die (draw.getD 3 0#64)))

/-- JBASE: a write also sets JHEAD; the journal is empty again (R338). -/
def execJbase (die stream : Nat) (value : W64) (s : State) : Ans :=
  eventDone (s.setJrn { s.jrn die stream with base := value, head := value, lastSeq := none })

/-- JSTAT: ones written clear (R338). -/
def execJstat (die stream : Nat) (value : BitVec 3) (s : State) : Ans :=
  let j := s.jrn die stream
  eventDone (s.setJrn { j with stat := j.stat &&& ~~~value })

/-! ## Registers that have no row of their own (R338, R385, R404) -/

/-- Replace 8 bytes of a slip's window. -/
def putSlip (b : List Byte) (off : Nat) (v : W64) : List Byte :=
  (List.range 256).map fun i => if off ≤ i ∧ i < off + 8 then (le64 v).getD (i - off) 0#8 else b.getD i 0#8

/-- REGISTER_WRITE: RO registers keep their values. -/
def execRegisterWrite (reg : DevReg) (v : W64) (s : State) : Ans :=
  match reg with
  | .jlimit d k => eventDone (s.setJrn { s.jrn d k with limit := v })
  | .jmode d k => eventDone (s.setJrn { s.jrn d k with mode := if v.toNat % 4 = 3 then 0#2 else v.setWidth 2 })
  | .jdraw d k i => let j := s.jrn d k; eventDone (s.setJrn { j with draw := drawClear (j.draw.set i.val v) })
  | .slip f p off => let x := s.subPort f p; eventDone (s.setSubPort { x with slip := putSlip x.slip off v })
  | .compvec f p => eventDone (s.setSubPort { s.subPort f p with compvec := v.setWidth 6 })
  | .defvec f => eventDone (s.setFn { s.fnOf f with defVec := v.setWidth 6 })
  | .jhead _ _ | .result _ _ | .evcount _ | .bootstat => eventDone s

/-- A register of a window of the device (R338, R385, R404). -/
inductive RegAt where
  | dev (r : DevReg) | jbase (die stream : Nat) | jstat (die stream : Nat) | submit (fn port : Nat) | doorbell (fn : Nat)
  deriving DecidableEq, Repr

/-- What a read of a register returns (R7): a RW or RO field what it holds, a WO register zero. A read changes nothing but through JDRAW in replay mode (JDRAW_REPLAY, R339). -/
def readReg (s : State) : RegAt → W64
  | .jbase d k => (s.jrn d k).base
  | .jstat d k => (s.jrn d k).stat.setWidth 64
  | .submit _ _ | .doorbell _ => 0#64
  | .dev r => match r with
    | .jlimit d k => (s.jrn d k).limit
    | .jhead d k => (s.jrn d k).head
    | .jmode d k => (s.jrn d k).mode.setWidth 64
    | .jdraw d k i => (s.jrn d k).draw.getD i.val 0#64
    | .slip _ _ _ => 0#64
    | .result f p => (s.subPort f p).result
    | .compvec f p => (s.subPort f p).compvec.setWidth 64
    | .evcount f => (s.fnOf f).evCount
    | .defvec f => (s.fnOf f).defVec.setWidth 64
    | .bootstat => s.bootstat

/-! ## Mailboxes (R140 to R142, R337) -/

/-- MAILBOX_BIND: a word with reserved bits set is not accepted (R337). -/
def execMailboxBind (die box : Nat) (w : W64) (s : State) : Ans :=
  eventDone (if natBits w.toNat 5 0 ≠ 0 then s else s.setMbx { s.mbx die box with binding := w })

def State.gpKnows (s : State) (die core : Nat) : List Nat :=
  ((s.gpKnown.find? fun x => x.1 == die && x.2.1 == core).map (·.2.2)).getD []

def State.gpLearn (s : State) (die core : Nat) (ts : List Nat) : State :=
  { s with gpKnown := (die, core, (s.gpKnows die core ++ ts).eraseDups) :: s.gpKnown.filter fun x => !(x.1 == die && x.2.1 == core) }

/-- The node that runs on a general core, as (die, index). -/
def gpNode (s : State) (die core : Nat) : Nat × Nat :=
  ((s.gpCores.find? fun g => g.die == die && g.core == core).map fun g => (g.nd, g.ni)).getD (die, 0)

/-- May a general core of a die send to a mailbox (R337)? -/
def gpMaySend (s : State) (die : Nat) (m : Mbx) : Bool :=
  mbxKind m != 0 && mbxVmid m == vmidOfDie s die && (mbxSkind m == 0 || mbxSkind m == 1)

/-- The context a general core acts in. -/
def gpCtx (s : State) (die core asid : Nat) : Ctx := procCtx s die (vmidOfDie s die) asid (gpNode s die core).1 (gpNode s die core).2

/-- The earlier stores of a general core, and the journal records it wrote, published at device scope (R337, R339). -/
def gpPublish (die core asid : Nat) (stores : List (W64 × Byte)) (s : State) : State :=
  let s1 := unitWrites (gpCtx s die core asid) (s.gpKnows die core) (stores.map fun x => (x.1, [x.2])) s
  let s2 := unitWrites (journalCtx s1 die) (s1.stamp :: s.gpKnows die core) ((s1.jrnPend.filter fun w => w.1 == die && w.2.1 == core).map (·.2.2)) s1
  { s2.gpLearn die core [s1.stamp, s2.stamp] with jrnPend := s2.jrnPend.filter fun w => !(w.1 == die && w.2.1 == core) }

/-- What a SEND that goes on does: publish, then the message (R141, R337). -/
def sendNow (die core asid box : Nat) (stores : List (W64 × Byte)) (msg : W64) (s : State) : State :=
  sendMsg (s.mbx (box / 256) (box % 256)) msg (gpPublish die core asid stores s)

/-- Do the stores of a SEND find their sectors (R266)? -/
def sendFits (die core asid : Nat) (stores : List (W64 × Byte)) (s : State) : Bool :=
  unitFits (gpCtx s die core asid) (stores.map fun x => (x.1, [x.2])) s

/-- SEND: acts as MBX.SEND (R141, R337); a full mailbox makes the core wait, and a mailbox it may not send to takes nothing. -/
def execSend (die core asid box : Nat) (stores : List (W64 × Byte)) (msg : W64) (s : State) : Ans :=
  let m := s.mbx (box / 256) (box % 256)
  eventDone (if !gpMaySend s die m || gpHeld s core then { s with hostWait := s.hostWait.erase (.send die core asid box stores msg) }
    else if 16 ≤ m.msgs.length then s
    else whenRoom (.send die core asid box stores msg) (sendFits die core asid stores s) (sendNow die core asid box stores msg) s)

/-- Can a write that waits for version space go on (R260)? -/
def roomFor (s : State) (i : Instr) : Bool :=
  let s0 := { s with hostWait := s.hostWait.erase i }
  match i with
  | .hostBar2Write f asid ptr bytes =>
    !bar2May s f asid ptr || (unitFits (fnCtx s f asid) [(ptr, bytes)] s && !overSpilled s0 (bar2Now f asid ptr bytes s0))
  | .send die core asid box stores msg =>
    let m := s.mbx (box / 256) (box % 256)
    !gpMaySend s die m || (decide (m.msgs.length < 16) && sendFits die core asid stores s && !overSpilled s0 (sendNow die core asid box stores msg s0))
  | _ => true

/-- Is a general core the receiver of a mailbox (R337)? -/
def gpReceives (s : State) (die core : Nat) (m : Mbx) : Bool :=
  mbxKind m == 2 && m.die == die && mbxIndex m % 8 == core && mbxVmid m == vmidOfDie s die

/-- RECV: acts as MBX.TRY (R142, R337); what the core reads leaves the model, and it knows what was published. -/
def execRecv (die core box : Nat) (s : State) : Ans :=
  let m := s.mbx (box / 256) (box % 256)
  match (if gpReceives s die core m && !gpHeld s core then takeMsg m else none) with
  | none => eventDone (s.emit (.mmioRead die 0x8000000000000000#64))
  | some (v, m1) =>
    let here : Place := ⟨s.rank, die, 99, 9⟩
    let ts := (s.mem.pubs.filter fun p => available .dev p.scope here p.place).flatMap (·.known)
    eventDone (((s.setMbx m1).gpLearn die core ts).emit (.mmioRead die v))

/-! ## Registrations -/

/-- ASID_REGISTRATION: the function may name the ASID; its process has tables from now on (R292, R296, R384; log 32). -/
def execAsidRegistration (f asid : Nat) (s : State) : Ans :=
  let v := fnVmid f
  let root (k : Nat) : Nat := (Config.treeRoot v asid k % 2 ^ 34 + 1) * 4096
  let x := s.fnOf f
  let s1 := if x.asids.contains asid then s else s.setFn { x with asids := x.asids ++ [asid] }
  eventDone (if !fnExists s f then s
    else if s1.spaces.any fun a => a.asid == asid && a.vmid == v then s1
    else { s1 with spaces := s1.spaces ++ [⟨asid, v, f, root 0, root 1, root 2⟩] })

/-- COMMUNICATOR_TABLE_SET: the ranks of an entry of a die's table (R181). -/
def execCommunicatorTableSet (die entry : Nat) (ranks : List Nat) (s : State) : Ans :=
  eventDone { s with comms := (die, entry, ranks) :: s.comms.filter fun x => !(x.1 == die && x.2.1 == entry) }

end Sys2Proof.Machine
end

