-- ==== Sys2Proof/Machine/LinkSteps.lean ====
section
/-!
DEFINITION. Krytwin links, Ethernet frames, the PTP clock, boot, attestation and power (R185, R366, R389 to R391, R396, R399, R403 to R408).
-/
namespace Sys2Proof.Machine

/-! ## Krytwin links (R389 to R391) -/

/-- How far a sequence number lies behind another, modulo 4096. -/
def seqBehind (a b : Nat) : Nat := (b + 4096 - a) % 4096

/-- Acknowledged flits leave the replay buffer; a negative acknowledge replays from its flit in order (R390). -/
def takeAck (l : Link) (b : List Byte) (s : State) : State :=
  let q := flitNat b 4 2 % 4096
  match flitNat b 3 1 with
  | 1 => s.setLink { l with replay := l.replay.filter fun x => decide (2048 ≤ seqBehind x.1 q) }
  | 2 => (l.replay.filter fun x => decide (seqBehind q x.1 < 2048)).foldl (fun t x => t.emit (.flit l.port x.2)) s
  | _ => s

/-- Credits returned for VC 0, 1 and 2 (R389, R390); a replayed flit returns none twice, as only the one in sequence is taken. -/
def takeCredits (l : Link) (b : List Byte) : Link :=
  { l with credits := (List.range 3).map fun i => l.credits.getD i 0 + flitNat b (6 + 2 * i) 2 }

/-- Free a buffer of a VC: its credit is owed (R390). -/
def Link.free (l : Link) (vc : Nat) : Link := { l with owed := bump l.owed vc (· + 1) }

/-- A request of another device on VC 0 is performed here, and answered on VC 1 (R125, R392; log 93): a load; a store, published at domain scope; an atomic. -/
def takeRequest (port : Nat) (pay : List Byte) (s : State) : State :=
  let here (x : Nat) : Nat := locPa s.rank (x % 2 ^ 48)
  let c := procCtx s 0 0 0 0 0
  match Config.requestOf pay with
  | none => sendBare port s
  | some (.load x n) =>
    sendOn port 1 (Config.replyOf pay ((readRange s (refreshCtx s .dom c) [] (here x) n).map (·.byte))) s
  | some (.store x bs) => sendBare port (asUnit c (fun t => publishSel .dom .c (fun _ => true) (if unitMay t [homeSeg t (here x) bs.length] then unitWrite [] 0#64 [homeSeg t (here x) bs.length] bs t else t)) s)
  | some (.atomic r) =>
    let q := { r with loc := here r.loc / 8 * 8 }
    sendOn port 1 (Config.replyOf pay (leBytes 8 (performAtomic q s).1.toNat)) (performForeign q s)

/-- Deliver a good flit (R390): in sequence it is taken into one of the 64 buffers of its VC; another one waits for the replay. Responses are sunk at once, requests are performed; what came on VC 2 stands until a collective takes it. -/
def takeFlit (port : Nat) (b : List Byte) (s : State) : State :=
  match s.link? port with
  | none => s
  | some l =>
    let vc := flitNat b 2 1
    if flitNat b 0 2 ≠ l.rxSeq ∨ 2 < vc ∨ 64 ≤ (l.received.filter (·.1 == vc)).length then pump port 256 s
    else
      let l1 := { takeCredits l b with rxSeq := (l.rxSeq + 1) % 4096 }
      match vc with
      | 0 => takeRequest port (flitPayload b) (s.setLink (l1.free 0))
      | 1 => if flitBare b then pump port 256 (s.setLink (l1.free 1)) else sendBare port (s.setLink (l1.free 1))
      | _ => sendBare port (s.setLink { l1 with received := l1.received ++ [(2, flitPayload b)] })

/-- Where the error log places a link: no physical address, its port under a kind of location of its own (R284). -/
def locLink (rank port : Nat) : Nat := rank * 2 ^ 60 + 5 * 2 ^ 56 + port

/-- An error of a link is logged (R284): one that a replay mends is corrected. -/
def logLink (corrected : Bool) (port : Nat) (s : State) : State :=
  { s with errors := s.errors ++ [⟨s.ptp, locLink s.rank port, port, corrected, Config.syndrome s.fresh, none⟩], fresh := s.fresh + 1 }

/-- FLIT_RECEIVE (R284, R389, R390): a flit whose CRC fails is discarded and negatively acknowledged, and its error logged. -/
def execFlitReceive (port : Nat) (bytes : List Byte) (s : State) : Ans :=
  match s.link? port with
  | none => eventDone s
  | some l =>
    if l.lost then eventDone s
    else if !flitGood bytes then eventDone (sendBare port (logLink true port (s.setLink { l with nak := true })))
    else eventDone (takeFlit port bytes (takeAck l bytes s))

/-- Does a pointer's device lie behind a port (R392)? -/
def behind (s : State) (port : Nat) (p : W64) : Bool :=
  match s.devOf p with
  | some r => r != s.rank && s.routes[r]? == some port
  | none => false

/-- Does a command depend on the link (R366)? -/
def cmdBehind (s : State) (port : Nat) (c : Cmd) : Bool :=
  if c.isCol then (s.comm s.me.die c.bank).any fun r => r != s.rank && s.routes[r]? == some port
  else c.kind != .cpBb && c.kind != .cpFill && (spaceOf c.ptr == .glb || spaceOf c.ptr == .adj) && behind s port c.ptr

/-- A command that depended on a lost link records the deferred fault of class 15 (R168, R366); one armed on a bucket leaves it. -/
def loseCmd (port : Nat) (s : State) (c : Cmd) : State :=
  if cmdBehind s port c then
    (faultCmd c ⟨15, 0, port, 0, c.ptr⟩ s).mapMe fun x => { x with buckets := x.buckets.map fun b => if b.armed = some c.id then { b with armed := none } else b }
  else s

/-- INFO of class 15 (R352). -/
def linkInfo (port : Nat) (p : W64) : List Byte := padTo 64 (leBytes 8 port ++ le64 p)

/-- A value on its way over the port, with its pointer: it lands as a poisoned word when the link is lost (R366). -/
def farOver (s : State) (port : Nat) (p : Pend) : Option (Pend × W64) :=
  match p.what with
  | .far d _ x ptr addr => if behind s port ptr then some ({ p with what := .faulted d x ptr addr }, ptr) else none
  | .faulted _ x ptr _ => if locRank x != s.rank && behind s port ptr then some (p, ptr) else none
  | _ => none

/-- A pending result when the link of a port is lost. -/
def losePend (s : State) (port : Nat) (p : Pend) : Pend := ((farOver s port p).map fun x => x.1).getD p

/-- The parked writes and atomics of the context that are outstanding over the port. -/
def outstanding (s : State) (port : Nat) : List Priv :=
  s.me.priv.filter fun p => p.src == .cs && p.parked.isSome && behind s port p.ptr

/-- The scalar accesses outstanding over the port: when each was made, and its pointer. -/
def lostAccesses (s : State) (port : Nat) : List (Nat × W64) :=
  (s.me.pend.filterMap fun p => (farOver s port p).map fun x => (p.seq, x.2)) ++ (outstanding s port).map fun p => ((p.parked.map (·.1)).getD 0, p.ptr)

/-- The pointer of the first one. -/
def firstLost : List (Nat × W64) → Option W64
  | [] => none
  | x :: r => some (r.foldl (fun y x => if x.1 < y.1 then x else y) x).2

/-- An outstanding write completes as poisoned data; an outstanding atomic leaves its cell, and its value is poisoned (R282, R348, R366). -/
def completePoisoned (s : State) (p : Priv) : State :=
  match p.kind with
  | .atom r d id => atomPoisoned p r d id (s.mapMe fun c => { c with priv := c.priv.filter (· != p) })
  | .plain | .acc _ => unpark { p with cells := p.cells.map fun x => { x with poison := true } }
      (s.mapMe fun c => { c with priv := c.priv.map fun x => if x = p then { p with cells := p.cells.map fun x => { x with poison := true } } else x })

/-- What a lost link does to one context (R366). -/
def loseCtx (port : Nat) (s : State) : State :=
  let s1 := match firstLost (lostAccesses s port) with
    | none => s
    | some p => holdAsync 15 (linkInfo port p) ((outstanding s port).foldl completePoisoned
        (s.mapMe fun c => { c with pend := c.pend.map (losePend s port) }))
  s1.me.cmds.foldl (loseCmd port) s1

/-- A link is lost (R366); it is logged (R284). -/
def loseLink (l : Link) (s : State) : State :=
  eachCtx (fun _ => true) (loseCtx l.port) (logLink false l.port (s.setLink { l with lost := true }))

/-! ## Self-tests (R283, R284, R391) -/

/-- Lanes a link uses of those that work: 8, else 4, else 2; none when it cannot run (R391). -/
def lanesOf (good : Nat) : Option Nat := if 8 ≤ good then some 8 else if 4 ≤ good then some 4 else if 2 ≤ good then some 2 else none

/-- A link runs on the lanes it has left, or is lost (R391). -/
def relane (l : Link) (good : Nat) (s : State) : State :=
  match lanesOf good with
  | none => loseLink l s
  | some n => s.setLink { l with lanes := n }

/-- The lanes a retraining finds good, of those not removed before. -/
def goodLanes (l : Link) (good : Nat) : Nat := min good (8 - l.faulty)

/-- A lane of a link has a lasting fault: it is removed (R283, R391). -/
def retireLane (port : Nat) (s : State) : State :=
  match s.link? port with
  | none => s
  | some l => if l.lost then s else relane { l with faulty := l.faulty + 1 } (7 - l.faulty) s

/-- SELF_TEST: the outcome of a targeted test (R283, R284). A granule that is retired moves its queued contexts to another core. -/
def execSelfTest (u : TestedUnit) (lasting : Bool) (s : State) : Ans :=
  match u with
  | .dramRow x n spare =>
    let s1 := noteTest (fun e => decide (x ≤ e.loc) && decide (e.loc < x + n)) lasting s
    eventDone (if lasting && spare.isNone then { s1 with rowsLost := s1.rowsLost ++ [(paDie x, n / 64)] } else s1)
  | .granule core g =>
    let s1 := noteTest (fun e => isSram e.loc && locOff e.loc / 0x300000 == core && locOff e.loc % 0x300000 / 65536 == g) lasting s
    eventDone (if !lasting then s1
      else
        let s2 := { s1 with retired := insertNat (core * 48 + g) (s1.retired.filter (· != core * 48 + g)) }
        (holdsGranule s2 core g).foldl (fun t c => requestNode c.nodeDie c.nodeIdx ⟨5, 0, false⟩ t) s2)
  | .lane port =>
    let s1 := noteTest (fun e => e.loc == locLink s.rank port) lasting s
    eventDone (if lasting then retireLane port s1 else s1)

/-- LINK_LOSS (R366). -/
def execLinkLoss (port : Nat) (s : State) : Ans :=
  match s.link? port with
  | none => eventDone s
  | some l => eventDone (if l.lost then s else loseLink l s)

/-- LINK_RETRAIN: on all 8 lanes, else on 4 or 2; a link that cannot run on 2 is lost, and a lane once removed stays so (R283, R391). -/
def execLinkRetrain (port good : Nat) (s : State) : Ans :=
  match s.link? port with
  | none => eventDone s
  | some l => eventDone (if l.lost then s else relane { l with faulty := 8 - goodLanes l good } (goodLanes l good) s)

/-! ## Ethernet (R184, R185, R396) -/

/-- Big-endian 16 bits of a frame. -/
def be16 (b : List Byte) (o : Nat) : Nat := (b.getD o 0#8).toNat * 256 + (b.getD (o + 1) 0#8).toNat

/-- Where the EtherType stands: after an 802.1Q tag (R395; log 36). -/
def typeOff (b : List Byte) : Nat := if be16 b 12 = 0x8100 then 16 else 12

/-- The UDP destination port of an IPv4 or IPv6 frame (R184). -/
def udpDest (b : List Byte) : Option Nat :=
  let o := typeOff b + 2
  match be16 b (typeOff b) with
  | 0x0800 => if (b.getD (o + 9) 0#8).toNat = 17 ∧ be16 b (o + 6) % 8192 = 0 then some (be16 b (o + 4 * ((b.getD o 0#8).toNat % 16) + 2)) else none
  | 0x86DD => if (b.getD (o + 6) 0#8).toNat = 17 then some (be16 b (o + 42)) else none
  | _ => none

/-- Does a frame match an armed bank (R184, R185)? -/
def frameMatches (f : EthFrame) (a : Armed) : Bool :=
  eBit a.ports f.port && (a.etype == 0 || a.etype == be16 f.bytes (typeOff f.bytes)) && (a.udp == 0 || udpDest f.bytes == some a.udp)

/-- The bank of the die armed earliest that the frame matches, with its context (R185). -/
def armedFor (s : State) (f : EthFrame) : Option (Nat × Armed) :=
  ((s.ctxs.filter fun c => c.life != .vacant && c.die == f.die).flatMap fun c => (c.arm.filter (frameMatches f)).map fun a => (c.launch, a)).foldl
    (fun best x => match best with
      | none => some x
      | some y => if x.2.order < y.2.order then some x else some y) none

/-- The landing record (R185). -/
def landingRecord (f : EthFrame) (room : Nat) : List Byte :=
  padTo 64 (le64 f.time ++ leBytes 2 f.bytes.length ++ [BitVec.ofNat 8 f.port, if room < f.bytes.length then 1#8 else 0#8])

/-- The most bytes of a frame that land (R185). -/
def landMax : Nat := 65472

/-- The frame lands in a bank of the context whose turn it is (R185). -/
def landFrame (f : EthFrame) (a : Armed) (s : State) : State :=
  let s1 := bankLand (bankLoc s.rank s.me a.bank 0) (landingRecord f landMax ++ f.bytes.take landMax) s
  s1.mapMe fun c => setIrq 4#7 s.cycle { c with
    arm := c.arm.filter (· != a), landed := c.landed ++ [a.bank], events := c.events ||| 4#5 }

/-- The frame of a packet node lands in its TOD0, and the node ends, once every sector it needs is found (R264, R267, R325). -/
def landNode (f : EthFrame) (s : State) : State :=
  let t := ((s.node? s.me.nodeDie s.me.nodeIdx).map fun n => n.tods.getD 0 ⟨0, 0, 0#64⟩).getD ⟨0, 0, 0#64⟩
  let room := min landMax (t.len - 64)
  let bs := landingRecord f room ++ f.bytes.take room
  match s.access s.me .write t.ptr bs.length with
  | .error _ => endGang s.me.nodeDie s.me.nodeIdx 7 0 s
  | .ok ss => if recPageHit s true ss then endGang s.me.nodeDie s.me.nodeIdx 7 0 s
    else endLanded (writeSegs .cs [] t.ptr ss bs (s.mapMe fun c => { c with arm := [] }))

/-- The most bytes of a frame a port carries (R395; log 36). -/
def frameMax : Nat := 9216

/-- A pause frame, which the MAC takes itself and which changes timing only (R395; log 36). -/
def isPause (f : EthFrame) : Bool := be16 f.bytes 12 == 0x8808

/-- The die that owns an Ethernet or a CXL port: one of each per die, numbered as the dies are (R383). -/
def dieOfPort (port : Nat) : Nat := port

/-- Frames of a die the outside gives together with one: those at the head of the inputs. -/
def sameTime (f : EthFrame) : List Instr → List EthFrame
  | .frameReceive g :: r => if g.die = f.die then g :: sameTime f r else []
  | _ => []

/-- Is a frame of a die taken before another: by receive timestamp; of those of one time the port of the die first (log 36), then the ports by number (R396)? -/
def frameBefore (a b : EthFrame) : Bool :=
  let key (f : EthFrame) : Nat := if dieOfPort f.port = f.die then 0 else f.port + 1
  decide (a.time < b.time) || (a.time == b.time && decide (key a < key b))

/-- The frame that is taken first, and the inputs with the given one in its place. -/
def firstFrame (f : EthFrame) (s : State) : EthFrame × State :=
  let fs := sameTime f s.inputs
  match (fs.foldl (fun b g => if frameBefore g b then g else b) f, fs.length) with
  | (g, n) => if g = f then (f, s) else
    (g, { s with inputs := ((s.inputs.take n).map fun i => if i = .frameReceive g then .frameReceive f else i) ++ s.inputs.drop n })

/-- A frame is taken (R185, R396): one with a bad FCS, or longer than a port carries, is dropped and counted. -/
def takeFrame (f : EthFrame) (s : State) : State :=
  if !f.fcsOk || decide (frameMax < f.bytes.length) then { s with rxDropped := s.rxDropped + 1 }
  else if isPause f then s
  else match armedFor s f with
    | none => { s with rxRing := s.rxRing ++ [f] }
    | some (l, a) => s.onLaunch l fun t => if t.me.core = 9 then landNode f t else landFrame f a t

/-- FRAME_RECEIVE (R185, R395, R396). -/
def execFrameReceive (f : EthFrame) (s : State) : Ans :=
  let q := firstFrame f s
  eventDone (takeFrame q.1 q.2)

/-- FRAME_TRANSMIT: a frame no longer than a port carries leaves, and its PTP timestamp is written back to its descriptor (R395, R396). -/
def execFrameTransmit (die : Nat) (bytes : List Byte) (descr : Nat) (s : State) : Ans :=
  eventDone (if frameMax < bytes.length then s
    else { s with mem := writeBases s.mem (locPa s.rank descr) (le64 s.ptp) }.emit (.frame die bytes s.ptp))

/-! ## The PTP clock (R399) -/

/-- The clock shows `ns` in this cycle. -/
def setClock (ns : Nat) (s : State) : State := { s with ptpBase := (ns + 2 ^ 64 - s.cycle * 10 / 13 % 2 ^ 64) % 2 ^ 64 }

/-- PTP_CLOCK_DISCIPLINE (R399). -/
def execPtpClockDiscipline (ns : Nat) (s : State) : Ans := eventDone (setClock ns s)

/-! ## Boot, identity, power (R403 to R408) -/

/-- Dies of each partition by mode (R405); an LX9601-C has one. -/
def modeDies (lx9601 : Bool) (mode : Nat) : List (List Nat) :=
  if lx9601 then [[0]]
  else match mode with
    | 0 => [[0, 1, 2, 3]]
    | 1 => [[0, 1], [2, 3]]
    | _ => [[0], [1], [2], [3]]

/-- A partition as the memory processor sets it up (R265, R268, R270, R273, R326, R405); a quota beyond what remains of its dies is cut to that (log 118). -/
def bootPart (s : State) (b : BootImage) (v : Nat) (dies : List Nat) : Part :=
  { vmid := v, dies := dies, quota := min (b.quotas.getD v 0) (unassigned s dies), low := b.lowMarks.getD v 0, high := b.highMarks.getD v 0, used := 0, nominal := 0,
    bmbx := b.bmbx.getD v 0, defVec := b.defVecs.getD v 0#64, s2Root := b.s2Roots.getD v 0, balloon := [], donations := [], pages := [], pins := [],
    oos := 0, malformed := 0, donated := 0, running := true, alerted := false, demArea := Config.demotionBlocks v }

/-- Entries of the route table (R392). -/
def routeCount : Nat := 4608

/-- The die that owns a Krytwin port: on an LX9604-P ports 0–4, 5–8, 9–13 and 14–17 of the four dies (R383). -/
def dieOfKrytwin (lx9601 : Bool) (port : Nat) : Nat := if lx9601 then 0 else if port < 5 then 0 else if port < 9 then 1 else if port < 14 then 2 else 3

/-- What the security block has for a report when the boot has come to a stage (R403, R407): the hash of the image it has verified, and that of the firmware, once it runs. -/
def evidenceOf (b : BootImage) (stage : Nat) : List (List Byte) :=
  (if 4 ≤ stage then [Config.sha512 b.bytes] else []) ++ (if 5 ≤ stage then [Config.sha512 (Config.firmwareOf b.bytes)] else [])

/-- What stages 1 to 6 leave. -/
def bootSetup (b : BootImage) (s : State) : State :=
  setClock b.ptp { s with
    partMode := if s.lx9601 then 2 else b.mode
    parts := (modeDies s.lx9601 b.mode).zipIdx.map fun (d, v) => bootPart { s with parts := [] } b v d
    dieMarks := b.dieLow.zip b.dieHigh
    rank := b.rank, devCount := b.domCount, routes := b.routes.take routeCount
    links := (List.range (if s.lx9601 then 5 else 18)).map Link.fresh
    evidence := evidenceOf b 6 }

/-- BOOTSTAT (R404). -/
def bootWord (stage err die mode : Nat) : W64 := BitVec.ofNat 64 (stage * 2 ^ 24 + err * 2 ^ 16 + die * 2 ^ 14 + mode * 2 ^ 12)

/-- Key number of the Penkor root key. -/
def rootKey : Nat := 1

/-- The first failing stage up to stage 6 with its ERROR and die (R403 to R405, R398). -/
def bootFailure (b : BootImage) : Option (Nat × Nat × Nat) :=
  if !Config.signatureOk rootKey b.bytes [] then some (3, 2, 0)
  else if !b.formatOk || decide (2 < b.mode) then some (3, 3, 0)
  else if !b.partOk then some (3, 4, 0)
  else if !b.firmwareOk then some (4, 5, 0)
  else match b.badDie with
    | some d => some (5, 6, d.val)
    | none => if b.multiDomain && decide (4095 < b.rank) then some (6, 3, 0) else none

/-- Stage 7: the image's patch image, if it carries one, is activated; then the catalogues open (R380, R403). -/
def bootPatch (b : BootImage) (s : State) : State :=
  match b.patch with
  | none => { s with bootstat := bootWord 8 0 0 s.partMode }
  | some img =>
    if imageStatus s img = 0 then
      let t := activate img s
      { t with bootstat := bootWord 8 0 0 s.partMode, patches := t.patches.filter (·.epoch == imgEpoch img) }
    else { s with bootstat := bootWord 7 7 0 s.partMode }

/-- The device after reset: what it keeps is what it is, its count of boots, and what the outside still has to say. -/
def afterReset (s : State) : State :=
  { State.reset with lx9601 := s.lx9601, boot := s.boot + 1, inputs := s.inputs, outbox := s.outbox }

/-- RESET_RELEASE: the stages of R403; the image of the module's flash goes before the one the host writes. -/
def execResetRelease (images : BootImages) (s : State) : Ans :=
  let s0 := afterReset s
  match images.flash.or images.host with
  | none => eventDone { s0 with bootstat := bootWord 2 1 0 0 }
  | some b => match bootFailure b with
    | some (st, e, d) => eventDone { s0 with bootstat := bootWord st e d 0, evidence := evidenceOf b st }
    | none => eventDone (bootPatch b (bootSetup b s0))

/-- POWER_REMOVAL: no state is kept (R408). -/
def execPowerRemoval (s : State) : Ans :=
  eventDone { State.reset with powered := false, lx9601 := s.lx9601, boot := s.boot, inputs := s.inputs, outbox := s.outbox }

/-- The report's bytes before its signature (R407). -/
def reportBody (s : State) (nonce : List Byte) : List Byte :=
  padTo 32 nonce ++ padTo 64 (s.evidence.getD 0 []) ++ padTo 64 (s.evidence.getD 1 []) ++ leBytes 4 (newestEpoch s) ++
    [BitVec.ofNat 8 s.partMode, 0#8, 0#8, 0#8] ++ le64 s.ptp

/-- ATTESTATION_REQUEST (R407). -/
def execAttestationRequest (nonce : List Byte) (s : State) : Ans :=
  eventDone (s.emit (.report (reportBody s nonce ++ Config.identitySign (reportBody s nonce))))

/-- CERTIFICATE_REQUEST (R406). -/
def execCertificateRequest (s : State) : Ans := eventDone (s.emit (.certs Config.certificate))

end Sys2Proof.Machine
end

