-- ==== Sys2Proof/Machine/MStream.lean ====
section
/-!
DEFINITION. The M stream: operand slots, pattern registers, products, folds, accumulators, leases and the steps of the array (spec 07, R187 to R214).
-/
namespace Sys2Proof.Machine

/-! ## Reading bank rows for the M stream (R191) -/

/-- The first of 128 rows from a row on whose first n bytes hold a poisoned one (R282). -/
def rowsPoisoned (s : State) (b row n : Nat) : Option Nat :=
  (List.range 128).find? fun r => bankRowPoison (s.orderedFor .m) b (row + r) n

/-- A read of poisoned rows raises the asynchronous trap; the value is 0 (R282). -/
def consumeRows (b row n : Nat) (s : State) : State :=
  match rowsPoisoned s b row n with
  | none => s
  | some r =>
    let x := bankLoc s.rank s.me b (512 * ((row + r) % 128))
    let y := poisonAt (s.orderedFor .m).mem x n
    consumePoison .m y (ownPtr s y) s

/-! ## Slots (R33 to R35, R190 to R192) -/

def putSlot (c : Ctx) (m : MReg) (x : Slot) : Ctx := { c with ms := c.ms.set m x }

/-- SLOT.CLM (R33, R34): of the free granules it binds the lowest-numbered (log 98). -/
def execSlotClm (m : MReg) (s : State) : Ans :=
  if s.me.ms[m].st ≠ .unbound then illegal .m s
  else match s.me.freeSlots with
    | [] => illegal .m s
    | g :: r => .next (retire .m 1 (s.withMe { putSlot s.me m ⟨.claimed, g, Folio.none⟩ with freeSlots := r }))

/-- SLOT.REL (R34, R35): the granule is free again once nothing reads it. -/
def execSlotRel (m : MReg) (s : State) : Ans :=
  if s.me.ms[m].st = .unbound then illegal .m s
  else .next (retire .m 1 (s.withMe { putSlot s.me m Slot.fresh with backSlots := s.me.ms[m].gran :: s.me.backSlots }))

/-- The owner of a released granule may have it back (R35). -/
def slotBack (c : Ctx) (now : Nat) : Option Nat := c.backSlots.find? fun g => !granBusy c g now

/-- SLOT_GRANULE_RETURN for the context whose turn it is (R35). -/
def execSlotGranuleReturn (g : Nat) (s : State) : Ans :=
  .next { (if s.me.backSlots.contains g && !granBusy s.me g s.now then s.mapMe (returnSlot g) else s) with last := .event }

/-- Put a load on the slot-load path (R191): start, end, and the path's next free cycle. -/
def pathStart (s : State) : Nat := Nat.max s.now s.me.pathFree

/-- Load a folio into a bound slot (R191). -/
def loadSlot (m : MReg) (f : Folio) (s : State) : State :=
  let c := s.me
  let st := pathStart s
  { s with
    me := { putSlot c m ⟨.loaded, c.ms[m].gran, f⟩ with
      loads := c.loads ++ [⟨s.seqs, c.ms[m].gran, st, st + 128⟩], pathFree := st + 128 }
    seqs := s.seqs + 1 }

/-- Is every line of the metadata well formed (R192). -/
def folioOk (f : Folio) : Bool :=
  match f.meta24 with
  | none => true
  | some ms => ms.all fun r => metaOk r (folioWidth f.fmt)

/-- The shared part of LDS and LDS.SP after the handle and banks are checked (R191, R192). -/
def ldsWith (m : MReg) (bank row : Nat) (sp : Option Nat) (s : State) : Ans :=
  let f := readFolio (s.orderedFor .m) bank row sp
  if granBusy s.me s.me.ms[m].gran s.now then (if s.me.timed then illegal .m s else .next (waitAt s))
  else if !folioOk f then illegal .m s
  else
    let w := folioWidth f.fmt
    let s1 := loadSlot m f (retire .m 1 s)
    let s2 := consumeRows bank row (rowBytes f.fmt (if sp.isSome then w / 2 else w)) s1
    .next (match sp with
      | none => s2
      | some mb => if s2.last = .trapped then s2 else consumeRows mb row (w / 8) s2)

/-- LDS (R191). -/
def execLds (m : MReg) (bank : BankNo) (row : Byte) (s : State) : Ans :=
  if s.me.ms[m].st = .unbound then illegal .m s
  else if s.me.nbank ≤ bank.val then bankFault .m .read s
  else if s.me.bankFmt bank = .raw ∨ s.me.isArmed bank then illegal .m s
  else ldsWith m bank row.toNat none s

/-- Formats a 2:4 folio may have (R192). -/
def spFmtOk (f : Fmt) : Bool := f != .raw && !fmtScaled f

/-- LDS.SP (R192): `mb` is the distance of the metadata bank. -/
def execLdsSp (m : MReg) (bank : BankNo) (row : Byte) (mb : BitVec 3) (s : State) : Ans :=
  let mbk := bank.val + mb.toNat
  if s.me.ms[m].st = .unbound then illegal .m s
  else if s.me.nbank ≤ bank.val ∨ s.me.nbank ≤ mbk then bankFault .m .read s
  else if !spFmtOk (s.me.bankFmt bank) ∨ s.me.bankFmt mbk ≠ .raw ∨ s.me.isArmed bank ∨ s.me.isArmed mbk then illegal .m s
  else ldsWith m bank row.toNat (some mbk) s

/-! ## Pattern registers (R193 to R195) -/

def putPat (c : Ctx) (p : PReg) (x : Pat) : Ctx := { c with ps := c.ps.set p x }

/-- Set a pattern register and retire; L = 1 towards later M-stream instructions (R194). -/
def setPat (p : PReg) (x : Pat) (s : State) : State := retire .m 1 (s.mapMe fun c => putPat c p x)

/-- Words of an INT32 bank row as an M-stream instruction sees them (R191, R194, R195). -/
def rowWords (s : State) (b row : Nat) : List W32 :=
  let bs := bankRowBytes (s.orderedFor .m) b row 512
  (List.range 128).map fun j => BitVec.ofNat 32 (leNat ((bs.drop (4 * j)).take 4))

/-- A read of one poisoned row (R282). -/
def consumeRow (b row : Nat) (s : State) : State :=
  if bankRowPoison (s.orderedFor .m) b row 512 then
    let x := poisonAt (s.orderedFor .m).mem (bankLoc s.rank s.me b (512 * (row % 128))) 512
    consumePoison .m x (ownPtr s x) s
  else s

/-- PAT.SET of kind PERM with the popped entry (R194); `s0` is the state before the pop. -/
def patPerm (p : PReg) (s0 : State) (v : W64) (s : State) : Ans :=
  let b := natBits v.toNat 5 0
  let row := natBits v.toNat 12 6
  if natBits v.toNat 63 13 ≠ 0 then illegal .m s0
  else if s.me.nbank ≤ b then bankFault .m .read s0
  else if s.me.bankFmt b ≠ .int32 then illegal .m s0
  else .next (consumeRow b row (setPat p (.perm ((rowWords s b row).map BitVec.toInt)) s))

/-- Coefficients of BAND from the popped entries (R194). -/
def bandCoeffs (n : Nat) (vs : List W64) : List (BitVec 16) :=
  (List.range n).map fun t => BitVec.ofNat 16 ((vs.getD (t / 4) 0#64).toNat / 2 ^ (16 * (t % 4)))

/-- PAT.SET of kind BAND (R194). -/
def patBand (p : PReg) (n : Nat) (first : Int) (s : State) : Ans :=
  let k := (n + 3) / 4
  match (s.me.queue 2).fronts? k s.cycle with
  | none => queueBlocked .m s
  | some vs => .next (setPat p (.band first (bandCoeffs n vs)) (s.withMe (s.me.setQueue 2 ((s.me.queue 2).pop k s.cycle))))

/-- PAT.SET (R194). -/
def execPatSet (p : PReg) (spec : PatSpec) (s : State) : Ans :=
  match spec with
  | .none => .next (setPat p .none s)
  | .ones => .next (setPat p .ones s)
  | .ltri => .next (setPat p .ltri s)
  | .utri => .next (setPat p .utri s)
  | .sltri => .next (setPat p .sltri s)
  | .ident o => .next (setPat p (.ident o.toInt) s)
  | .perm q => withFront .m q (patPerm p s) s
  | .band n f => patBand p n.toNat f.toInt s

/-- The entry PAT.OH pops (R195): BASE, N, width and offset; none when it is illegal. -/
structure OhEnt where
  base : Nat
  n : Nat
  width : Nat
  off : Nat
  deriving DecidableEq, Repr

def ohEnt (v : W64) : Option OhEnt :=
  let e : OhEnt := ⟨natBits v.toNat 57 34, natBits v.toNat 33 10, natBits v.toNat 9 5 + 1, natBits v.toNat 4 0⟩
  if natBits v.toNat 63 58 ≠ 0 ∨ e.n = 0 ∨ 24 < e.width ∨ 32 < e.off + e.width then none else some e

/-- PAT.OH with the popped entry (R195). -/
def patOneHot (p : PReg) (b row : Nat) (tr : Bool) (s0 : State) (v : W64) (s : State) : Ans :=
  if s.me.nbank ≤ b then bankFault .m .read s0
  else if s.me.bankFmt b ≠ .int32 then illegal .m s0
  else match ohEnt v with
    | none => illegal .m s0
    | some e =>
      let codes := (rowWords s b row).map fun w => w.toNat / 2 ^ e.off % 2 ^ e.width
      .next (consumeRow b row (setPat p (.onehot codes e.n e.base tr) s))

/-- PAT.OH (R195). -/
def execPatOh (p : PReg) (bank : BankNo) (row : Byte) (tr q6 : Bool) (s : State) : Ans :=
  withFront .m (if q6 then 6 else 2) (patOneHot p bank row.toNat tr s) s

/-! ## CIX (R203) -/

/-- CIX.SET with an immediate (R203). -/
def execCixSet (imm : BitVec 17) (s : State) : Ans :=
  .next (retire .m 1 (s.mapMe fun c => { c with cix := imm.toNat, kdep := 256, wrapped := false }))

/-- CIX.SET with the popped entry (R203). -/
def cixPopped (s0 : State) (v : W64) (s : State) : Ans :=
  let k := natBits v.toNat 32 24
  if natBits v.toNat 63 33 ≠ 0 ∨ 256 < k then illegal .m s0
  else .next (retire .m 1 (s.mapMe fun c => { c with cix := natBits v.toNat 23 0, kdep := if k = 0 then 256 else k, wrapped := false }))

def execCixSetQ (q : QNo) (s : State) : Ans := withFront .m q (cixPopped s) s

/-- CIX advances, and wraps past 16,777,215 (R25, R204). -/
def advanceCix (c : Ctx) : Ctx :=
  if c.cix + 1 < 2 ^ 24 then { c with cix := c.cix + 1 } else { c with cix := 0, wrapped := true }

/-! ## Leases (R210 to R212) -/

/-- The term the context holds. -/
def termOf (s : State) : Option Term :=
  match s.myBay.term with
  | some t => if t.launch = s.me.launch then some t else none
  | none => none

/-- File a lease request (R210, R211). -/
def requestLease (s : State) : State :=
  let b := s.myBay
  s.setBay (if b.reqs.any (·.launch == s.me.launch) then b else { b with reqs := b.reqs ++ [⟨s.me.launch, s.cycle⟩] })

/-- LSE.ACQ (R210). -/
def execLseAcq (s : State) : Ans :=
  if (termOf s).isSome then .next (retire .m 1 s) else .next (waitAt (requestLease s))

/-- LSE.REL (R210). -/
def execLseRel (s : State) : Ans :=
  .next (retire .m 1 (if (termOf s).isSome then endLease s.me.launch s else s))

/-- Does the term accept a command that starts in a cycle of the context's time (R211). -/
def accepts (s : State) (start occ : Nat) : Bool :=
  match termOf s with
  | none => false
  | some t => decide (t.count < 16) && decide (s.myBay.run + (start - s.now) + occ ≤ t.grant + Config.leaseCycles)

/-- An accepted command counts; the 16th ends the term (R211). -/
def countAccepted (s : State) : State :=
  let b := s.myBay
  match b.term with
  | none => s
  | some t =>
    if t.count + 1 < 16 then s.setBay { b with term := some { t with count := t.count + 1 } }
    else endLease s.me.launch s

/-- A command of the array without an accepting term (R199 condition 1, R211). -/
def noLease (s : State) : Ans :=
  if s.me.timed then illegal .m s
  else .next (waitAt (requestLease (if (termOf s).isSome then endLease s.me.launch s else s)))

/-- A slip's priority of the context of a request. -/
def reqPrio (s : State) (r : LReq) : Nat :=
  match s.ctxOf r.launch with
  | none => 0
  | some c => ((s.node? c.nodeDie c.nodeIdx).map (·.prio)).getD 0

/-- Place of a request in the cyclic order after the context granted last: (core, bank) from (0, 0) (R212). -/
def reqPlace (s : State) (b : Bay) (r : LReq) : Nat :=
  let pos := match s.ctxOf r.launch with
    | none => 0
    | some c => c.core * 2 + c.bank
  match b.lastGrant with
  | none => pos
  | some (core, bank) => (pos + 7 - (core * 2 + bank)) % 8

/-- The oldest pending request's cycle. -/
def oldestReq (b : Bay) : Nat := (b.reqs.map (·.made)).foldl Nat.min (b.reqs.headD ⟨0, 0⟩).made

/-- Contexts that may be granted: none granted since the oldest pending request was made (R212). -/
def eligible (b : Bay) : List LReq :=
  b.reqs.filter fun r => !b.granted.any fun g => g.1 == r.launch && decide (oldestReq b < g.2)

/-- The arbiter's choice (R212). -/
def chooseReq (s : State) (b : Bay) : Option LReq :=
  (eligible b).foldl (fun best r =>
    match best with
    | none => some r
    | some q =>
      if reqPrio s q < reqPrio s r ∨ (reqPrio s q = reqPrio s r ∧ reqPlace s b r < reqPlace s b q) then some r else some q) none

/-- Is a grant due in this cycle (R212). -/
def grantDue (s : State) (b : Bay) : Bool :=
  b.term.isNone && !b.frozen && decide (b.ended < s.cycle ∨ b.lastGrant.isNone) && b.reqs.any fun r => decide (r.made < s.cycle)

/-- Grant a term to a request (R211, R212). -/
def grantTo (b : Bay) (r : LReq) (s : State) : State :=
  let at0 := match s.ctxOf r.launch with
    | none => (0, 0)
    | some c => (c.core, c.bank)
  s.setBay { b with
    term := some ⟨r.launch, b.run, 0⟩
    reqs := b.reqs.filter (·.launch != r.launch)
    lastGrant := some at0
    granted := (r.launch, s.cycle) :: b.granted.filter fun g => g.1 != r.launch }

/-- LEASE_GRANT (R212). -/
def execLeaseGrant (die bay : Nat) (s : State) : Ans :=
  let b := s.bay die bay
  .next { (if grantDue s b then match chooseReq s b with
      | none => s
      | some r => grantTo b r s
    else s) with last := .event }

/-! ## Starts and completions of array commands (R209, R213) -/

def isKind (k : ACmdKind) (a : ACmd) : Bool := a.kind == k

/-- Completion lag of a command past its start (R213, R191). -/
def lagOf : ACmdKind → Nat → Nat
  | .grid, occ => occ + 16
  | .fold, _ => 132
  | .load, occ => occ

/-- Contexts of the bay of a context. -/
def bayCtxs (s : State) (c : Ctx) : List Ctx := s.ctxs.filter fun d => d.life != .vacant && d.die == c.die && d.bay == c.bay

/-- The cycle, in the time of the context whose turn it is, in which the grid or the fold adder is free of the commands before number `id` (R213). -/
def unitFree (s : State) (k : ACmdKind) (id : Nat) : Nat :=
  (bayCtxs s s.me).foldl (fun t d =>
    d.acmds.foldl (fun t a =>
      if isKind k a ∧ a.id < id then Nat.max t (s.now + (a.start + a.occ - s.nowOf d)) else t) t) 0

/-- The cycle in which the loads of some granules end. -/
def loadsDone (c : Ctx) (slots : List Nat) : Nat :=
  (c.loads.filter fun l => slots.contains l.gran).foldl (fun t l => Nat.max t l.done) 0

/-- The cycle in which the commands before number `id` that write some pairs complete. -/
def pairsDone (c : Ctx) (pairs : List Nat) (id : Nat) : Nat :=
  (c.acmds.filter fun a => pairs.contains a.pair && decide (a.id < id)).foldl (fun t a => Nat.max t a.done) 0

/-- The start R213 gives a command issued now. -/
def startOf (s : State) (k : ACmdKind) (slots reads : List Nat) : Nat :=
  Nat.max s.now (Nat.max (unitFree s k s.seqs) (Nat.max (loadsDone s.me slots) (pairsDone s.me reads s.seqs)))

/-- May the command start in this cycle (R213). -/
def startReadyA (s : State) (c : Ctx) (a : ACmd) : Bool :=
  !a.started && a.kind != .load &&
  (bayCtxs s c).all (fun d => d.acmds.all fun b =>
    !(b.kind == a.kind && decide (b.id < a.id)) || (b.started && decide (b.start + b.occ ≤ s.nowOf d))) &&
  !(c.loads.any fun l => a.slots.contains l.gran) &&
  !(c.acmds.any fun b => a.reads.contains b.pair && decide (b.id < a.id))

/-- May the command complete in this cycle (R209, R213). -/
def doneReadyA (s : State) (c : Ctx) (a : ACmd) : Bool :=
  a.started && decide (a.done ≤ s.nowOf c) && !pairRetiring c a.pair (s.nowOf c)

/-- Act on an array command of some context, as that context. -/
def onACmd (id : Nat) (f : ACmd → State → State) (s : State) : State :=
  match s.ctxs.find? fun c => c.acmds.any (·.id == id) with
  | none => s
  | some c => s.onLaunch c.launch fun t =>
    match t.me.acmds.find? (·.id == id) with
    | none => t
    | some a => f a t

/-- The command starts: in its issue cycle when nothing held it, else now (R213). -/
def startACmd (k : ACmdKind) (a : ACmd) (s : State) : State :=
  if a.kind = k ∧ startReadyA s s.me a then
    let st := if a.start = a.issued then a.issued else s.now
    s.mapMe fun c => { c with acmds := c.acmds.map fun b =>
      if b.id = a.id then { b with started := true, start := st, done := st + lagOf a.kind a.occ } else b }
  else s

/-- The command completes when R209 lets it. -/
def endACmd (k : ACmdKind) (a : ACmd) (s : State) : State :=
  if a.kind = k ∧ doneReadyA s s.me a then completeACmd a s else s

/-- ARRAY_COMMAND_START (R213). -/
def execArrayCommandStart (id : Nat) (s : State) : Ans := .next { onACmd id (startACmd .grid) s with last := .event }
/-- ARRAY_COMMAND_COMPLETE (R209, R213). -/
def execArrayCommandComplete (id : Nat) (s : State) : Ans := .next { onACmd id (endACmd .grid) s with last := .event }
/-- FOLD_START (R213). -/
def execFoldStart (id : Nat) (s : State) : Ans := .next { onACmd id (startACmd .fold) s with last := .event }
/-- FOLD_COMPLETE (R209, R213). -/
def execFoldComplete (id : Nat) (s : State) : Ans := .next { onACmd id (endACmd .fold) s with last := .event }

/-- A slot load whose 128 cycles are over leaves the path (R191). -/
def endLoad (id : Nat) (s : State) : State :=
  s.mapCtxs fun c => { c with loads := c.loads.filter fun l => !(l.id == id && decide (l.done ≤ s.nowOf c)) }

/-- SLOT_LOAD_COMPLETE: a load of a slot, or of an accumulator, on the slot-load path ends (R191, R207). -/
def execSlotLoadComplete (id : Nat) (s : State) : Ans := .next { onACmd id (endACmd .load) (endLoad id s) with last := .event }

/-! ## Accumulator pairs (R36, R38, R208) -/

def putAcc (c : Ctx) (k : KReg) (x : Acc) : Ctx := { c with ks := c.ks.set k x }

/-- Keep the front of a pair for retirements that may still read it released (R208). -/
def keepRel (p : Nat) (c : Ctx) : Ctx :=
  { c with rels := c.rels.map fun r => if r.old.pair = p ∧ r.front.isNone then { r with front := some (c.front p) } else r }

/-- Bind a pair to a handle that is written: its own, or the lowest free one (R36). -/
def takePair (k : KReg) (c : Ctx) : Nat × Ctx :=
  if c.ks[k].st = .empty then
    match c.freePairs with
    | [] => (0, c)
    | p :: r =>
      let c1 := keepRel p c
      (p, { c1.setFront ⟨p, false, false, []⟩ with freePairs := r })
  else (c.ks[k].pair, c)

/-- Does a write of the handle lack a pair (R36). -/
def noPair (c : Ctx) (k : KReg) : Bool := c.ks[k].st == .empty && c.freePairs.isEmpty

/-- The tile a pair holds after every command issued so far (R205). -/
def latestTile (c : Ctx) (p : Nat) : Tile :=
  match c.acmds.reverse.find? (·.pair == p) with
  | some a => a.result
  | none => (c.front p).tile

/-- Put a command in flight that writes a handle (R199, R206, R207). -/
def pushACmd (kind : ACmdKind) (i : Instr) (k : KReg) (start occ : Nat) (reads slots : List Nat) (x : Acc) (t : Tile) (s : State) : State :=
  let c := s.me
  let p := takePair k c
  let a : ACmd :=
    { id := s.seqs, kind := kind, instr := i, issued := s.now, acc := c.strM.acc + 1, pair := p.1, reads := reads, slots := slots,
      start := start, occ := occ, done := start + lagOf kind occ, started := kind == .load, int := x.int, result := t,
      cix := c.cix, kdep := c.kdep, wrapped := c.wrapped, opens := x.isOpen, again := false, kreg := k, before := c.ks[k],
      lease := if kind = .load then none else s.myBay.term.map fun t => (t.grant, t.count) }
  { s with me := putAcc { p.2 with acmds := c.acmds ++ [a] } k { x with pair := p.1 }, seqs := s.seqs + 1 }

/-- ACC.LD (R207). -/
def execAccLd (k : KReg) (bank : BankNo) (row : Byte) (s : State) : Ans :=
  let f := s.me.bankFmt bank
  if s.me.nbank ≤ bank.val then bankFault .m .read s
  else if (f ≠ .fp32 ∧ f ≠ .int32) ∨ noPair s.me k then illegal .m s
  else
    let st := pathStart s
    let t := seedTile ((List.range 128).map fun n => bankRowBytes (s.orderedFor .m) bank (row.toNat + n) 512)
    let s1 := pushACmd .load (.accLd k bank row) k st 128 [] [] { Acc.fresh with st := .seeded, int := f == .int32 } t s
    .next (consumeRows bank row.toNat 512 (retire .m 1 (s1.mapMe fun c => { c with pathFree := st + 128 })))

/-- Is the ACC.REL not ordered before an S-stream instruction that issues now (R208). -/
def relOpen (c : Ctx) (cyc : Nat) (r : Rel) : Bool :=
  if c.timed then decide (cyc ≤ r.cycle) else decide (c.strS.ord.m < r.acc)

/-- ACC.REL (R208). -/
def execAccRel (k : KReg) (s : State) : Ans :=
  let x := s.me.ks[k]
  .next (retire .m 1 (if x.st = .empty then s else s.mapMe fun c =>
    { putAcc c k Acc.fresh with backPairs := x.pair :: c.backPairs, rels := c.rels.filter (relOpen c s.cycle) ++ [⟨k, x, c.strM.acc + 1, s.cycle, none⟩] }))

/-- A released pair nothing uses any more (R208). -/
def pairBack (c : Ctx) (now : Nat) : Option Nat := c.backPairs.find? fun p => !pairBusy c p now

/-- ACC_PAIR_RETURN for the context whose turn it is (R208). -/
def execAccPairReturn (p : Nat) (s : State) : Ans :=
  .next { (if s.me.backPairs.contains p && !pairBusy s.me p s.now then s.mapMe (returnPair p) else s) with last := .event }

/-! ## Products (R199 to R205) -/

/-- The folio format of a selector; none for a pattern. -/
def selFmt (c : Ctx) : Sel → Option Fmt
  | .slot m => some c.ms[m].folio.fmt
  | .pat _ => none

/-- Formats of both operands: a pattern takes the other's (R98, R196). -/
def mmaFmts (c : Ctx) (a b : Sel) : Fmt × Fmt :=
  match selFmt c a, selFmt c b with
  | some x, some y => (x, y)
  | some x, none => (x, x)
  | none, some y => (y, y)
  | none, none => (.raw, .raw)

/-- The data type of the pair of R98, if it is one: two folios, or a folio and a pattern. -/
def mmaPair (c : Ctx) (a b : Sel) : Option Bool :=
  match selFmt c a, selFmt c b with
  | some x, some y => pairOk x y
  | some x, none | none, some x => patPairOk x
  | none, none => none

def selSlots (c : Ctx) : Sel → List Nat
  | .slot m => [c.ms[m].gran]
  | .pat _ => []

/-- Condition 2 of R199. -/
def selLoaded (c : Ctx) : Sel → Bool
  | .slot m => c.ms[m].st == .loaded
  | .pat _ => true

/-- Condition 3 of R199. -/
def selSet (c : Ctx) : Sel → Bool
  | .slot _ => true
  | .pat p => c.ps[p] != .none

def isSparse (c : Ctx) : Sel → Bool
  | .slot m => c.ms[m].folio.meta24.isSome
  | .pat _ => false

def isBand (c : Ctx) : Sel → Bool
  | .slot _ => false
  | .pat p => match c.ps[p] with
    | .band _ _ => true
    | _ => false

/-- R189 for one operand. -/
def selDirOk (c : Ctx) (x : Sel) (d : Dir) : Bool :=
  match x with
  | .slot m => d == .r || !(fmtScaled c.ms[m].folio.fmt || c.ms[m].folio.meta24.isSome)
  | .pat _ => true

/-- The rest of condition 4 of R199, the format pair apart. -/
def mmaFormsOk (c : Ctx) (a : Sel) (ad : Dir) (b : Sel) (bd : Dir) : Bool :=
  let f := (mmaFmts c a b).1
  let sparse := isSparse c a || isSparse c b
  selDirOk c a ad && selDirOk c b bd &&
  !((isBand c a || isBand c b) && !(f == .bf16 || f == .fp16 || f == .fp32)) &&
  !(sparse && ((selFmt c a).isNone || (selFmt c b).isNone)) &&
  !((isSparse c a && selFmt c a == some .dsh8) || (isSparse c b && selFmt c b == some .dsh8))

/-- The operand as the command reads it at issue. -/
def opndOf (c : Ctx) (x : Sel) (d : Dir) : Opnd :=
  match x with
  | .slot m => .folio c.ms[m].folio d
  | .pat p => .pat c.ps[p] d

/-- The first out-of-range line of an operand with trap-on-range (R198). -/
def selTrapLine (c : Ctx) : Sel → Option Nat
  | .slot _ => none
  | .pat p => trapLine c.ps[p]

/-- What R205 makes of a product. -/
inductive MmaAct where
  | new | seed | cont | bad
  deriving DecidableEq, Repr

def mmaAct (isC fp32 : Bool) (x : Acc) (cix : Nat) : MmaAct :=
  if !isC then .new
  else match x.st with
    | .empty => .new
    | .seeded => if cix = 0 then .seed else .bad
    | .tagged => if x.isOpen && fp32 then .cont else .bad

/-- The handle after a product (R204, R205). -/
def mmaAcc (act : MmaAct) (c : Ctx) (x : Acc) (int fp32 : Bool) : Acc :=
  match act with
  | .cont => { x with isOpen := false }
  | _ => ⟨.tagged, int, 0, c.cix, fp32, c.wrapped, x.pair⟩

/-- The command with every condition met: its tile from the running value of R205 (R200). -/
def mmaGo (i : Instr) (nf int fp32 : Bool) (k : KReg) (start occ : Nat) (slots reads : List Nat) (a b : Opnd) (act : MmaAct) (s : State) : Ans :=
  let c := s.me
  let x := c.ks[k]
  let h := if act = .cont then 1 else 0
  let old := if act = .new then [] else latestTile c x.pair
  let t := prodTile nf int (!fp32 || h == 1) a b (if fp32 then 128 else 256) h c.kdep old
  let s1 := pushACmd .grid i k start occ reads slots (mmaAcc act c x int fp32) t s
  .next (retire .m 1 (countAccepted (if act = .cont then s1 else s1.mapMe advanceCix)))

/-- Conditions 2 to 7 of R199, in order. -/
def mmaIssue (i : Instr) (isC nf : Bool) (k : KReg) (a : Sel) (ad : Dir) (b : Sel) (bd : Dir) (start occ : Nat) (slots reads : List Nat) (s : State) : Ans :=
  let c := s.me
  let fp32 := (mmaFmts c a b).1 == .fp32
  if !(selLoaded c a && selLoaded c b) || !(selSet c a && selSet c b) || !mmaFormsOk c a ad b bd then illegal .m s
  else match mmaPair c a b with
    | none => illegal .m s
    | some int =>
      if (isC && c.ks[k].st != .empty && c.ks[k].int != int) || noPair c k then illegal .m s
      else match (selTrapLine c a).or (selTrapLine c b) with
        | some l => trapOn .m (exRange s l) s
        | none =>
          let act := mmaAct isC fp32 c.ks[k] c.cix
          if act = .bad then trapOn .m (exTree s) s
          else mmaGo i nf int fp32 k start occ slots reads (opndOf c a ad) (opndOf c b bd) act s

/-- MMA.Z and MMA.C (R199). The lease test comes before the pair test: of formats that form no pair it takes the occupancy arrayCycles gives (DESIGN CHOICE, log 132). -/
def mma (i : Instr) (isC nf : Bool) (k : KReg) (a : Sel) (ad : Dir) (b : Sel) (bd : Dir) (s : State) : Ans :=
  let c := s.me
  let f := mmaFmts c a b
  let occ := arrayCycles f.1 f.2
  let slots := selSlots c a ++ selSlots c b
  let reads := if isC && c.ks[k].st != .empty then [c.ks[k].pair] else []
  let start := startOf s .grid slots reads
  if accepts s start occ then mmaIssue i isC nf k a ad b bd start occ slots reads s else noLease s

/-- MMA.Z (R199). -/
def execMmaZ (nf : Bool) (k : KReg) (a : Sel) (ad : Dir) (b : Sel) (bd : Dir) (s : State) : Ans :=
  mma (.mmaZ nf k a ad b bd) false nf k a ad b bd s

/-- MMA.C (R199). -/
def execMmaC (nf : Bool) (k : KReg) (a : Sel) (ad : Dir) (b : Sel) (bd : Dir) (s : State) : Ans :=
  mma (.mmaC nf k a ad b bd) true nf k a ad b bd s

/-! ## Folds (R206) -/

/-- May a handle enter a fold: tagged, closed, not wrapped, level at most 23. -/
def foldInput (x : Acc) : Bool := x.st == .tagged && !x.isOpen && !x.wrapped && decide (x.level ≤ 23)

/-- An accepted fold writes its destination (R204, R206). -/
def foldGo (i : Instr) (d : KReg) (x : Acc) (start : Nat) (reads : List Nat) (t : Tile) (s : State) : Ans :=
  let y : Acc := ⟨.tagged, x.int, x.level + 1, x.index / 2, false, s.me.wrapped, 0⟩
  .next (retire .m 1 (countAccepted (pushACmd .fold i d start 128 reads [] y t s)))

/-- FOLD (R206). -/
def execFold (d a b : KReg) (s : State) : Ans :=
  let c := s.me
  let x := c.ks[a]
  let y := c.ks[b]
  let reads := [x.pair, y.pair]
  let start := startOf s .fold [] reads
  if !accepts s start 128 then noLease s
  else if x.st ≠ .empty ∧ y.st ≠ .empty ∧ x.int ≠ y.int then illegal .m s
  else if !(foldInput x && foldInput y && x.level == y.level && x.index % 2 == 0 && y.index == x.index + 1) then trapOn .m (exTree s) s
  else if noPair c d then illegal .m s
  else foldGo (.fold d a b) d x start reads (foldTile x.int (latestTile c x.pair) (latestTile c y.pair)) s

/-- FOLD.P (R206). -/
def execFoldP (d a : KReg) (s : State) : Ans :=
  let c := s.me
  let x := c.ks[a]
  let start := startOf s .fold [] [x.pair]
  if !accepts s start 128 then noLease s
  else if !(foldInput x && x.index % 2 == 0) then trapOn .m (exTree s) s
  else if noPair c d then illegal .m s
  else foldGo (.foldP d a) d x start [x.pair] (latestTile c x.pair) s

/-! ## Control (R214) -/

/-- MB.Q.nz (R214). -/
def execMbQNz (q : QNo) (off : BitVec 12) (s : State) : Ans :=
  withFront .m q (fun v t => branchIf .m (v != 0#64) (target12 (pcOf s .m) off) t) s

/-- MB.Q.z (R214). -/
def execMbQZ (q : QNo) (off : BitVec 12) (s : State) : Ans :=
  withFront .m q (fun v t => branchIf .m (v == 0#64) (target12 (pcOf s .m) off) t) s

/-- A loop whose count comes from a queue (R116, R214): with four entries present it traps with nothing popped (R97). -/
def loopPopped (x : StreamId) (off : BitVec 12) (s0 : State) (v : W64) (s : State) : Ans :=
  if 4 ≤ (s.me.strm x).loops.length then illegal x s0 else loopWith x v off s

/-- MLOOP (R214). -/
def execMloop (q : QNo) (off : BitVec 12) (s : State) : Ans := withFront .m q (loopPopped .m off s) s

/-- MJMP (R214). -/
def execMjmp (off : BitVec 22) (s : State) : Ans := .next (jump .m (target22 (pcOf s .m) off) s)

end Sys2Proof.Machine
end

