-- ==== Sys2Proof/Machine/SStream.lean ====
section
/-!
DEFINITION. The S stream: row arithmetic, bank rows, retirement, histogram and lane flags (spec 08, R215 to R236).
-/
namespace Sys2Proof.Machine

/-! ## The retire unit (R217) -/

/-- Does an RT.ST occupy the retire unit of the core (R11, R217). -/
def rtBusy (s : State) : Bool :=
  s.ctxs.any fun c => c.life != .vacant && c.die == s.me.die && c.bay == s.me.bay && c.core == s.me.core && decide (s.nowOf c < c.rtFree)

/-- A row instruction needs the unit: it waits in a queued context and traps in a timed one (R217). -/
def rowInstr (f : State → Ans) (s : State) : Ans :=
  if rtBusy s then (if s.me.timed then illegal .s s else .next (waitAt s)) else f s

/-! ## Row arithmetic (R216 to R221) -/

/-- A row instruction that computes every lane (R216). -/
def rowOp (nf : Bool) (d : VReg) (lat : Nat) (f : Ctx → Nat → Res) (s : State) : Ans :=
  rowInstr (fun s =>
    let r := mapLanes (f s.me)
    .next (retire .s 1 (raiseR nf r.2 lat (wrV d r.1 lat s)))) s

/-- A lane result that raises nothing. -/
def plainRes (x : W32) : Res := ⟨x.toNat, 0#6⟩

/-- Lane j of a row register. -/
def vLane (c : Ctx) (r : VReg) (j : Nat) : W32 := lane (rdV c r) j

/-- VADD (R218, R219). -/
def execVadd (nf : Bool) (d a b : VReg) (s : State) : Ans :=
  rowOp nf d 4 (fun c j => addFp32 c.rmR (vLane c a j) (vLane c b j)) s

/-- VSUB (R218). -/
def execVsub (nf : Bool) (d a b : VReg) (s : State) : Ans :=
  rowOp nf d 4 (fun c j => subFp32 c.rmR (vLane c a j) (vLane c b j)) s

/-- VMUL (R218). -/
def execVmul (nf : Bool) (d a b : VReg) (s : State) : Ans :=
  rowOp nf d 4 (fun c j => mulFp32 c.rmR (vLane c a j) (vLane c b j)) s

/-- VFMA (R218). -/
def execVfma (nf : Bool) (d a b e : VReg) (s : State) : Ans :=
  rowOp nf d 4 (fun c j => fmaFp32 c.rmR (vLane c a j) (vLane c b j) (vLane c e j)) s

/-- VMAX (R111, R218). -/
def execVmax (nf : Bool) (d a b : VReg) (s : State) : Ans :=
  rowOp nf d 1 (fun c j => plainRes (maxFp32 (vLane c a j) (vLane c b j))) s

/-- VMIN (R111, R218). -/
def execVmin (nf : Bool) (d a b : VReg) (s : State) : Ans :=
  rowOp nf d 1 (fun c j => plainRes (minFp32 (vLane c a j) (vLane c b j))) s

/-- VCMP (R218). -/
def execVcmp (nf : Bool) (d a b : VReg) (cc : VCond) (s : State) : Ans :=
  rowOp nf d 1 (fun c j => plainRes (if condHolds cc (vLane c a j) (vLane c b j) then one32 else 0#32)) s

/-- VSEL (R218). -/
def execVsel (nf : Bool) (d a b e : VReg) (s : State) : Ans :=
  rowOp nf d 1 (fun c j => plainRes (if (vLane c e j).setWidth 31 = 0#31 then vLane c b j else vLane c a j)) s

/-- VFLD (R220). -/
def execVfld (nf : Bool) (d a b : VReg) (wm1 : BitVec 4) (s : State) : Ans :=
  rowOp nf d 1 (fun c j => fieldOf (vLane c a j) (vLane c b j) (wm1.toNat + 1)) s

/-- VRCP (R218). -/
def execVrcp (nf : Bool) (d a : VReg) (s : State) : Ans := rowOp nf d 8 (fun c j => rcpFp32 c.rmR (vLane c a j)) s

/-- VRSQ (R218). -/
def execVrsq (nf : Bool) (d a : VReg) (s : State) : Ans := rowOp nf d 8 (fun c j => rsqFp32 c.rmR (vLane c a j)) s

/-- VCVT (R221). -/
def execVcvt (nf : Bool) (d a : VReg) (sat : Bool) (f : Fmt) (s : State) : Ans :=
  rowOp nf d 4 (fun c j => vcvtLane f sat (vLane c a j)) s

/-- VMOV (R218). -/
def execVmov (nf : Bool) (d a : VReg) (s : State) : Ans := rowOp nf d 1 (fun c j => plainRes (vLane c a j)) s

/-- VBC: it does not use the unit (R217, R222). -/
def execVbc (_nf : Bool) (d : VReg) (q : QNo) (s : State) : Ans :=
  withFront .s q (fun v t => .next (retire .s 1 (wrV d (List.replicate 128 (v.setWidth 32)) 1 t))) s

/-- SCL.SET: in force from the next cycle (R44, R227). -/
def execSclSet (_nf : Bool) (q : QNo) (s : State) : Ans :=
  withFront .s q (fun v t => .next (retire .s 1 (pendAt (t.clock + 1) (.csr .scaleRcp (v &&& 0xFFFFFFFF#64)) t))) s

/-! ## Bank rows (R223 to R225) -/

/-- Bank row and half of a row field (R223). -/
def rowOf (row : Byte) : Nat := row.toNat % 128
def halfOf (row : Byte) : Nat := row.toNat / 128

/-- Why a bank row cannot be used (R223). -/
def bankRowErr (s : State) (b : BankNo) (row : Byte) : Option Nat :=
  let f := s.me.bankFmt b
  if s.me.nbank ≤ b.val then some 7
  else if f = .raw ∨ s.me.isArmed b ∨ (halfOf row = 1 ∧ (f = .fp32 ∨ f = .int32)) then some 0
  else none

/-- Go on with a usable bank row (R223). -/
def withRow (b : BankNo) (row : Byte) (k : AccKind) (f : State → Ans) (s : State) : Ans :=
  match bankRowErr s b row with
  | none => f s
  | some 7 => bankFault .s k s
  | some _ => illegal .s s

/-- The byte of a location with the S stream's writes still to land (R236). -/
def landingByte (x : Nat) (b : Byte) (ps : List Pend) : Byte :=
  ps.foldl (fun b p => match p.what with
    | .bankRow y bs _ _ => if y ≤ x ∧ x < y + bs.length then bs.getD (x - y) 0#8 else b
    | _ => b) b

/-- The 512 bytes of a bank row as a VLD sees them (R224, R236). -/
def rowSeen (s : State) (b r : Nat) : List Byte :=
  let x := bankLoc s.rank s.me b (512 * r)
  (bankRowBytes (s.orderedFor .s) b r 512).zipIdx.map fun (y, i) => landingByte (x + i) y s.me.pend

/-- Bytes of the half of a row (R223). -/
def halfLen (f : Fmt) : Nat := rowBytes f 128

/-- A poisoned row half read by the S stream (R282). -/
def consumeHalf (b : Nat) (row : Byte) (f : Fmt) (s : State) : State :=
  let x := bankLoc s.rank s.me b (512 * rowOf row + halfOff f (halfOf row))
  let m := (s.orderedFor .s).mem
  let y := poisonAt m x (halfLen f)
  if poisonedRange m x (halfLen f) then consumePoison .s y (ownPtr s y) s else s

/-- VLD (R224). -/
def execVld (d : VReg) (b : BankNo) (row : Byte) (s : State) : Ans :=
  rowInstr (withRow b row .read fun s =>
    let f := s.me.bankFmt b
    let bs := rowSeen s b (rowOf row)
    let r := mapLanes fun j => vldLane f bs (128 * halfOf row + j)
    .next (consumeHalf b row f (retire .s 1 (raiseR false r.2 4 (wrV d r.1 4 s))))) s

/-- The effects of a stored row a number of cycles from now: bank bytes, lane flags, counts (R225, R229); `ret` numbers the retirement that covers it. -/
def storeOut (ret : Nat) (x : Nat) (o : RowOut) (fs : List Flags) (hist : Option (List Nat)) (lat : Nat) (s : State) : State :=
  let flags := (List.range 128).map fun j => o.flags.getD j 0#6 ||| fs.getD j 0#6
  let s1 := o.writes.foldl (fun s w => pendAt (s.clock + lat) (.bankRow (x + w.1) w.2 ret none) s) s
  let s2 := pendAt (s.clock + lat) (.lf flags) s1
  match hist with
  | none => s2
  | some is => pendAt (s.clock + lat) (.hist is) s2

/-- The instruction retires some cycles from now, and its gives are made then (R18, R225, R229); in a timed context it counts as retired in its issue cycle (R368). -/
def retireLater (r : Retiring) (s : State) : State :=
  let s1 := s.mapMe fun c => { c with rets := c.rets ++ [{ r with counts := !c.timed }] }
  if s.me.timed then retire .s 1 s1 else issuePast .s 1 s1

/-- Histogram counters of the lanes, when they are counted (R225, R232). -/
def countOf (aux : StAux) (xs : List LaneIn) : Option (List Nat) := if aux.hist then some (xs.map fun x => histIdx x.ex) else none

/-- VST (R225). -/
def execVst (a : VReg) (b : BankNo) (row : Byte) (aux : StAux) (s : State) : Ans :=
  rowInstr (withRow b row .write fun s =>
    let xs := rowLanes (rdV s.me a)
    let o := storeRow (s.me.bankFmt b) (halfOf row) aux s.me.scaleRcp xs
    let r : Retiring := ⟨s.seqs, 64, s.now, s.now + 4, 0#4, true⟩
    .next (retireLater r (storeOut r.id (bankLoc s.rank s.me b (512 * rowOf row)) o [] (countOf aux xs) 4 s))) s

/-! ## Retirement (R228 to R231) -/

/-- The handle as an S-stream retirement sees it, with the front kept for it when its pair has been taken again (R208). -/
def accSeen (s : State) (k : KReg) : Acc × Option Front :=
  match s.me.rels.find? fun r => r.k == k.val && relOpen s.me s.cycle r with
  | some r => (r.old, r.front)
  | none => (s.me.ks[k], none)

/-- The front a retirement reads (R230): a command that has not completed is not seen. -/
def frontSeen (s : State) (k : KReg) : Front :=
  match accSeen s k with
  | (x, some f) => if x.st = .empty then ⟨0, false, false, []⟩ else f
  | (x, none) => if x.st = .empty then ⟨0, false, false, []⟩ else s.me.front x.pair

/-- Is the handle open, as the front stands (R230). -/
def openSeen (s : State) (k : KReg) : Bool := (frontSeen s k).isOpen

/-- In a queued context, does an array command that writes the handle and is ordered before the retirement run yet (R230)? A seed is no array command. -/
def rtWaits (s : State) (k : KReg) : Bool :=
  let x := (accSeen s k).1
  !s.me.timed && x.st != .empty && s.me.acmds.any fun a => a.kind != .load && a.pair == x.pair && decide (a.acc ≤ s.me.strS.ord.m)

/-- Go on with a retirement when its waits have ended (R217, R230). -/
def withStart (k : KReg) (f : State → Ans) (s : State) : Ans := rowInstr (fun s => if rtWaits s k then .next (waitAt s) else f s) s

/-- Go on with a handle that is not open (R230). -/
def ifClosed (k : KReg) (f : State → Ans) (s : State) : Ans := if openSeen s k then illegal .s s else f s

/-- RT.ROW (R228). -/
def execRtRow (nf : Bool) (d : VReg) (k : KReg) (row : BitVec 7) (s : State) : Ans :=
  withStart k (ifClosed k fun s =>
    let f := frontSeen s k
    let r := mapLanes fun j => rtLane s.me.rmR f.int (tileElt f.tile row.toNat j)
    .next (retire .s 1 (raiseR nf r.2 4 (wrV d r.1 4 s)))) s

/-- Row n of an RT.ST (R229). -/
def rtRowOut (ret : Nat) (f : Front) (b row : Nat) (half : Nat) (fmt : Fmt) (aux : StAux) (rcp : W32) (n : Nat) (s : State) : State :=
  let xs := tileLanes f.int f.tile n
  let o := storeRow fmt half aux rcp xs
  storeOut ret (bankLoc s.rank s.me b (512 * ((row + n) % 128))) o (tileFlags f.tile n) (countOf aux xs) (n + 4) s

/-- A retirement of a handle: in progress for 128 cycles, it retires in cycle s + 131 (R217, R229). -/
def tileRet (k : KReg) (s : State) : Retiring :=
  let x := (accSeen s k).1
  ⟨s.seqs, if x.st = .empty then 64 else x.pair, s.now, s.now + 131, 0#4, true⟩

/-- RT.ST (R229): its waits come before the tests of its bank (R217, R230). -/
def execRtSt (k : KReg) (b : BankNo) (row : Byte) (aux : StAux) (s : State) : Ans :=
  withStart k (withRow b row .write (ifClosed k fun s =>
    let f := frontSeen s k
    let fmt := s.me.bankFmt b
    let rcp := s.me.scaleRcp
    let r := tileRet k s
    let s1 := (List.range 128).foldl (fun s n => rtRowOut r.id f b (rowOf row) (halfOf row) fmt aux rcp n s) s
    .next (retireLater r (s1.mapMe fun c => { c with rtFree := s.now + 128 })))) s

/-- A retirement whose last row is written (R229). -/
def retDue (c : Ctx) (now : Nat) : Option Retiring := c.rets.find? fun r => decide (r.done ≤ now)

/-- RT_ST_RETIRE (R229). -/
def execRtStRetire (s : State) : Ans :=
  .next { (match retDue s.me s.now with
    | none => s
    | some r => finishRet r s) with last := .event }

/-! ## Histogram and lane flags (R232 to R234) -/

/-- HIST.ADD: the lanes count in the next cycle (R233). -/
def execHistAdd (_nf : Bool) (a : VReg) (s : State) : Ans :=
  rowInstr (fun s =>
    let is := (rowLanes (rdV s.me a)).map fun x => histIdx x.ex
    .next (retire .s 1 (pendAt (s.clock + 1) (.hist is) s))) s

/-- HIST.RD (R233). -/
def execHistRd (_nf : Bool) (ctr : Byte) (s : State) : Ans :=
  rowInstr (fun s => pushTo .s 5 ((s.me.hist.toList.getD ctr.toNat 0#32).setWidth 64) s) s

/-- HIST.CLR (R233). -/
def execHistClr (_nf : Bool) (s : State) : Ans :=
  rowInstr (fun s => .next (retire .s 1 (s.mapMe fun c => { c with hist := Vector.replicate 34 0#32 }))) s

/-- FLG.RD (R234). -/
def execFlgRd (_nf : Bool) (d : VReg) (s : State) : Ans :=
  rowInstr (fun s => .next (retire .s 1 (wrV d (flagRow s.me.lf) 1 s))) s

/-- Did lane flags land in this cycle? -/
def flagsNow (s : State) : Bool := s.me.lfNow.1 == s.now && !s.me.lfNow.2.isEmpty

/-- FLG.CLR: flags that land in its cycle are set after the clear, so that a queued one, which clears all of earlier instructions, waits out their landing cycle (R233, R234). -/
def execFlgClr (_nf : Bool) (s : State) : Ans :=
  rowInstr (fun s =>
    if !s.me.timed && flagsNow s then .next (waitAt s)
    else .next (retire .s 1 (s.mapMe fun c => { c with lf := if flagsNow s then c.lfNow.2 else [] }))) s

/-! ## Control (R235) -/

/-- SB.Q.nz (R235). -/
def execSbQNz (q : QNo) (off : BitVec 12) (s : State) : Ans :=
  withFront .s q (fun v t => branchIf .s (v != 0#64) (target12 (pcOf s .s) off) t) s

/-- SB.Q.z (R235). -/
def execSbQZ (q : QNo) (off : BitVec 12) (s : State) : Ans :=
  withFront .s q (fun v t => branchIf .s (v == 0#64) (target12 (pcOf s .s) off) t) s

/-- SLOOP (R235). -/
def execSloop (q : QNo) (off : BitVec 12) (s : State) : Ans := withFront .s q (loopPopped .s off s) s

/-- SJMP (R235). -/
def execSjmp (off : BitVec 22) (s : State) : Ans := .next (jump .s (target22 (pcOf s .s) off) s)

end Sys2Proof.Machine
end

