-- ==== Sys2Proof/Machine/TrapSteps.lean ====
section
/-!
DEFINITION. Trap steps no word encodes: the entry of a drained context, asynchronous traps, interrupts, the memory processor's answer, the restart of a frozen bay (R346 to R348, R353, R354, R356, R359, R360).
-/
namespace Sys2Proof.Machine

/-- TRAP_ENTRY: the context stops, drains and enters (R353); a context that drains already enters once nothing holds the drain. -/
def execTrapEntry (t : TrapReq) (s : State) : Ans := eventDone (takeTrap t (s.mapMe fun c => { c with trapWait := none }))

/-- ASYNC_TRAP: the oldest held asynchronous trap is taken (R348). -/
def execAsyncTrap (s : State) : Ans :=
  if !asyncStands s then eventDone s
  else match s.me.held with
    | [] => eventDone s
    | h :: r => eventDone (takeTrap ⟨h.cls, .c, 0, h.info⟩ (s.mapMe fun c => { c with held := r }))


/-- Is an interrupt a candidate, from the cycle after its source latched (R347)? In supervisor mode only one pending when the handler's write, or the ERET back into it, set STATUS bit 1 (R153). -/
def irqStands (s : State) : Bool :=
  s.me.life == .active && s.me.irq != 0#7 && decide (s.me.irqAt < s.cycle) && s.me.status.getLsbD 1 && (!s.me.sup || s.me.irqNow) && s.me.trapWait.isNone

/-- INTERRUPT_ENTRY (R347). -/
def execInterruptEntry (s : State) : Ans := eventDone (if irqStands s then takeTrap ⟨16, .c, 0, []⟩ s else s)

/-! ## The memory processor's answer (R354, R377) -/

/-- A context whose answer has come becomes active; the other active context of its core is stopped without a publish (R354). -/
def becomeActive (s : State) : State :=
  let s1 := displace s.me.coreIdx s
  s1.mapMe fun c => { c with life := .active, turnAt := s.cycle + 1 }

/-- Mapped: restored as ERET restores, and the faulting instruction issues again (R354). -/
def resumeMapped (s : State) : State :=
  match s.me.frame with
  | none => s
  | some f => leaveFreeze (restoreFrame f (becomeActive s))

/-- Bytes of the record replaced: the cause and the report. -/
def rewriteRecord (cause : W64) (report : List Byte) (s : State) : State :=
  if s.me.recPage = 0 then s
  else { s with mem := writeBases (writeBases s.mem (locPa s.rank s.me.recPage) (le64 cause)) (locPa s.rank s.me.recPage + 224) (padTo 32 report) }

/-- Was the trap of a cause sent to the memory processor by a slot (R377)? -/
def rerouted (s : State) (cause : W64) : Bool :=
  (winTrap s s.me ([StreamId.c, .a, .m, .s].getD (natBits cause.toNat 57 56) .c) (natBits cause.toNat 63 58)).any fun d => slotRdest d == 1

/-- The cause of a declined fault: a page fault is an access fault with QUAL 3; a rerouted trap keeps its own class (R354, R377). -/
def declinedCause (s : State) (c : W64) : W64 :=
  if natBits c.toNat 63 58 = 7 ∧ !rerouted s c then BitVec.ofNat 64 (5 * 2 ^ 58 + natBits c.toNat 57 56 * 2 ^ 56 + 3 * 2 ^ 52 + natBits c.toNat 51 0) else c

/-- Declined: the context becomes active at TRAP.VEC (R354). -/
def resumeDeclined (s : State) : State :=
  let cause := declinedCause s s.me.trapCause
  let s1 := rewriteRecord cause (if natBits cause.toNat 63 58 = 5 ∧ natBits cause.toNat 55 52 = 3 then s.me.report else []) (becomeActive s)
  enterHandler s1.me.trapVec (s1.mapMe fun c => { c with trapCause := cause })

/-- Answer a context that awaits one; the page is mapped already. A collective engine issues its command again, or ends its node as an unhandled trap (R303, R325; log 31). -/
def answerCtx (ans : Answer) (s : State) : State :=
  match ans with
  | .mapped _ => if s.me.core = 9 then performEntry (s.mapMe fun c => { c with life := .resident }) else resumeMapped s
  | .declined => if s.me.core = 9 then endGang s.me.nodeDie s.me.nodeIdx 7 0 s else resumeDeclined s

/-- Answer the oldest command that waits at an index (R168): it goes on, or records an access fault with QUAL 3 at the pointer that failed (R304, R352). -/
def answerCmd (ans : Answer) (s : State) : State :=
  match s.me.cmds.find? (·.st == .pageWait) with
  | none => s
  | some c => match ans with
    | .mapped _ => s.mapCmd c.id fun x => { x with st := .running }
    | .declined => declineCmd c ⟨5, 3, 0, 0, reportPtr c.report⟩ (mvCopy c s) s

/-- The answer reaches its context. -/
def answerNow (launch : Nat) (ans : Answer) (s : State) : State :=
  match s.ctxOf launch with
  | none => s
  | some c => s.onLaunch launch (if c.life = .awaiting then answerCtx ans else answerCmd ans)

/-- MEMORY_PROCESSOR_ANSWER to the fault of a context (R168, R354): entries in force that it changes are shot down first (R300). -/
def execMemoryProcessorAnswer (launch : Nat) (ans : Answer) (s : State) : Ans :=
  match s.ctxOf launch with
  | none => eventDone (match ans with
    | .mapped ws => dropChange (.answer launch ws) s
    | .declined => s)
  | some c => eventDone (match ans with
    | .declined => answerNow launch ans s
    | .mapped ws =>
      if overwrites s ws || s.shoots.any (·.1 == .answer launch ws) then
        (Change.answer launch ws).await (fun t => answerNow launch ans (retable c.vmid ws t)) s
      else answerNow launch ans (retable c.vmid ws s))

/-! ## Restart of a frozen bay (R356, R359, R360) -/

/-- Does a parked write or the lack of version space still hold a timed context of the bay (R129, R130, R170, R260, R360): a landing refresh, a parked atomic, a parked copy, a covered write before a boundary. -/
def stillHeld (s : State) (c : Ctx) : Bool :=
  c.priv.any (·.parked.isSome) || c.cmds.any (fun x => x.st == .parked) || lacksRoom s c

/-- May the counter of a bay restart: frozen, no handler of it left, no condition standing (R359, R360)? -/
def restartDue (s : State) (b : Bay) : Bool :=
  b.frozen && b.trapped.isEmpty && !(b.hold && s.ctxs.any fun c => c.life != .vacant && c.timed && c.die == b.die && c.bay == b.num && stillHeld s c)

/-- TIMED_RESTART: the schedule counter goes on from its value (R359). -/
def execTimedRestart (die bay : Nat) (s : State) : Ans :=
  let b := s.bay die bay
  eventDone (if restartDue s b then s.setBay { b with frozen := false, hold := false, restarted := s.cycle + 1 } else s)

end Sys2Proof.Machine
end

