-- ==== Sys2Proof/Machine/Dispatch.lean ====
section
/-!
DEFINITION. The dispatch: one arm for each constructor of Instr.
-/
namespace Sys2Proof.Machine

/-- The effect of one instruction or step on the context whose turn it is, or on the device. -/
def exec (i : Instr) (s : State) : Host.Outcome State Fault Refusal :=
  match i with
  | .add x0 x1 x2 => Sys2Proof.Machine.execAdd x0 x1 x2 s
  | .sub x0 x1 x2 => Sys2Proof.Machine.execSub x0 x1 x2 s
  | .mul x0 x1 x2 => Sys2Proof.Machine.execMul x0 x1 x2 s
  | .mulh x0 x1 x2 => Sys2Proof.Machine.execMulh x0 x1 x2 s
  | .div x0 x1 x2 => Sys2Proof.Machine.execDiv x0 x1 x2 s
  | .divu x0 x1 x2 => Sys2Proof.Machine.execDivu x0 x1 x2 s
  | .rem x0 x1 x2 => Sys2Proof.Machine.execRem x0 x1 x2 s
  | .remu x0 x1 x2 => Sys2Proof.Machine.execRemu x0 x1 x2 s
  | .and x0 x1 x2 => Sys2Proof.Machine.execAnd x0 x1 x2 s
  | .or x0 x1 x2 => Sys2Proof.Machine.execOr x0 x1 x2 s
  | .xor x0 x1 x2 => Sys2Proof.Machine.execXor x0 x1 x2 s
  | .shl x0 x1 x2 => Sys2Proof.Machine.execShl x0 x1 x2 s
  | .shr x0 x1 x2 => Sys2Proof.Machine.execShr x0 x1 x2 s
  | .sra x0 x1 x2 => Sys2Proof.Machine.execSra x0 x1 x2 s
  | .min x0 x1 x2 => Sys2Proof.Machine.execMin x0 x1 x2 s
  | .max x0 x1 x2 => Sys2Proof.Machine.execMax x0 x1 x2 s
  | .minu x0 x1 x2 => Sys2Proof.Machine.execMinu x0 x1 x2 s
  | .maxu x0 x1 x2 => Sys2Proof.Machine.execMaxu x0 x1 x2 s
  | .slt x0 x1 x2 => Sys2Proof.Machine.execSlt x0 x1 x2 s
  | .sltu x0 x1 x2 => Sys2Proof.Machine.execSltu x0 x1 x2 s
  | .clz x0 x1 => Sys2Proof.Machine.execClz x0 x1 s
  | .ctz x0 x1 => Sys2Proof.Machine.execCtz x0 x1 s
  | .popc x0 x1 => Sys2Proof.Machine.execPopc x0 x1 s
  | .bext x0 x1 x2 => Sys2Proof.Machine.execBext x0 x1 x2 s
  | .addi x0 x1 x2 => Sys2Proof.Machine.execAddi x0 x1 x2 s
  | .andi x0 x1 x2 => Sys2Proof.Machine.execAndi x0 x1 x2 s
  | .ori x0 x1 x2 => Sys2Proof.Machine.execOri x0 x1 x2 s
  | .xori x0 x1 x2 => Sys2Proof.Machine.execXori x0 x1 x2 s
  | .shli x0 x1 x2 => Sys2Proof.Machine.execShli x0 x1 x2 s
  | .shri x0 x1 x2 => Sys2Proof.Machine.execShri x0 x1 x2 s
  | .srai x0 x1 x2 => Sys2Proof.Machine.execSrai x0 x1 x2 s
  | .slti x0 x1 x2 => Sys2Proof.Machine.execSlti x0 x1 x2 s
  | .lui x0 x1 => Sys2Proof.Machine.execLui x0 x1 s
  | .li x0 x1 x2 => Sys2Proof.Machine.execLi x0 x1 x2 s
  | .fadd x0 x1 x2 x3 => Sys2Proof.Machine.execFadd x0 x1 x2 x3 s
  | .fsub x0 x1 x2 x3 => Sys2Proof.Machine.execFsub x0 x1 x2 x3 s
  | .fmul x0 x1 x2 x3 => Sys2Proof.Machine.execFmul x0 x1 x2 x3 s
  | .ffma x0 x1 x2 x3 => Sys2Proof.Machine.execFfma x0 x1 x2 x3 s
  | .fdiv x0 x1 x2 x3 => Sys2Proof.Machine.execFdiv x0 x1 x2 x3 s
  | .fsqrt x0 x1 x2 => Sys2Proof.Machine.execFsqrt x0 x1 x2 s
  | .fmin x0 x1 x2 x3 => Sys2Proof.Machine.execFmin x0 x1 x2 x3 s
  | .fmax x0 x1 x2 x3 => Sys2Proof.Machine.execFmax x0 x1 x2 x3 s
  | .fcmpEq x0 x1 x2 x3 => Sys2Proof.Machine.execFcmpEq x0 x1 x2 x3 s
  | .fcmpLt x0 x1 x2 x3 => Sys2Proof.Machine.execFcmpLt x0 x1 x2 x3 s
  | .fcmpLe x0 x1 x2 x3 => Sys2Proof.Machine.execFcmpLe x0 x1 x2 x3 s
  | .fcvtW x0 x1 x2 => Sys2Proof.Machine.execFcvtW x0 x1 x2 s
  | .fcvtF x0 x1 x2 => Sys2Proof.Machine.execFcvtF x0 x1 x2 s
  | .fclass x0 x1 x2 => Sys2Proof.Machine.execFclass x0 x1 x2 s
  | .fmv x0 x1 x2 => Sys2Proof.Machine.execFmv x0 x1 x2 s
  | .fsgnj x0 x1 x2 x3 => Sys2Proof.Machine.execFsgnj x0 x1 x2 x3 s
  | .beq x0 x1 x2 => Sys2Proof.Machine.execBeq x0 x1 x2 s
  | .bne x0 x1 x2 => Sys2Proof.Machine.execBne x0 x1 x2 s
  | .blt x0 x1 x2 => Sys2Proof.Machine.execBlt x0 x1 x2 s
  | .bge x0 x1 x2 => Sys2Proof.Machine.execBge x0 x1 x2 s
  | .bltu x0 x1 x2 => Sys2Proof.Machine.execBltu x0 x1 x2 s
  | .bgeu x0 x1 x2 => Sys2Proof.Machine.execBgeu x0 x1 x2 s
  | .jmp x0 => Sys2Proof.Machine.execJmp x0 s
  | .jal x0 => Sys2Proof.Machine.execJal x0 s
  | .jr x0 => Sys2Proof.Machine.execJr x0 s
  | .loop x0 x1 => Sys2Proof.Machine.execLoop x0 x1 s
  | .ld x0 x1 x2 x3 => Sys2Proof.Machine.execLd x0 x1 x2 x3 s
  | .st x0 x1 x2 x3 => Sys2Proof.Machine.execSt x0 x1 x2 x3 s
  | .atAdd x0 x1 x2 x3 x4 => Sys2Proof.Machine.execAtAdd x0 x1 x2 x3 x4 s
  | .atBinc x0 x1 x2 x3 x4 => Sys2Proof.Machine.execAtBinc x0 x1 x2 x3 x4 s
  | .atCas x0 x1 x2 x3 x4 => Sys2Proof.Machine.execAtCas x0 x1 x2 x3 x4 s
  | .atSwp x0 x1 x2 x3 x4 => Sys2Proof.Machine.execAtSwp x0 x1 x2 x3 x4 s
  | .atMax x0 x1 x2 x3 x4 => Sys2Proof.Machine.execAtMax x0 x1 x2 x3 x4 s
  | .atFadd x0 x1 x2 x3 => Sys2Proof.Machine.execAtFadd x0 x1 x2 x3 s
  | .atomicPerform x0 => Sys2Proof.Machine.execAtomicPerform x0 s
  | .qpush x0 x1 => Sys2Proof.Machine.execQpush x0 x1 s
  | .qpop x0 x1 => Sys2Proof.Machine.execQpop x0 x1 s
  | .qcnt x0 x1 => Sys2Proof.Machine.execQcnt x0 x1 s
  | .phase x0 => Sys2Proof.Machine.execPhase x0 s
  | .barInit x0 x1 x2 => Sys2Proof.Machine.execBarInit x0 x1 x2 s
  | .barArr x0 => Sys2Proof.Machine.execBarArr x0 s
  | .barWt x0 => Sys2Proof.Machine.execBarWt x0 s
  | .barDl x0 x1 x2 => Sys2Proof.Machine.execBarDl x0 x1 x2 s
  | .barrierCompletion x0 => Sys2Proof.Machine.execBarrierCompletion x0 s
  | .barrierDeadline x0 => Sys2Proof.Machine.execBarrierDeadline x0 s
  | .mbxSend x0 x1 => Sys2Proof.Machine.execMbxSend x0 x1 s
  | .mbxRecv x0 x1 => Sys2Proof.Machine.execMbxRecv x0 x1 s
  | .mbxTry x0 x1 => Sys2Proof.Machine.execMbxTry x0 x1 s
  | .rngNext x0 => Sys2Proof.Machine.execRngNext x0 s
  | .nodeAdd x0 x1 => Sys2Proof.Machine.execNodeAdd x0 x1 s
  | .nodeDone => Sys2Proof.Machine.execNodeDone s
  | .yield => Sys2Proof.Machine.execYield s
  | .tsc x0 => Sys2Proof.Machine.execTsc x0 s
  | .trap x0 => Sys2Proof.Machine.execTrap x0 s
  | .eret => Sys2Proof.Machine.execEret s
  | .brk => Sys2Proof.Machine.execBrk s
  | .diffMode x0 => Sys2Proof.Machine.execDiffMode x0 s
  | .waitEv x0 x1 => Sys2Proof.Machine.execWaitEv x0 x1 s
  | .ctxSw => Sys2Proof.Machine.execCtxSw s
  | .csrr x0 x1 => Sys2Proof.Machine.execCsrr x0 x1 s
  | .csrw x0 x1 => Sys2Proof.Machine.execCsrw x0 x1 s
  | .csrx x0 x1 x2 => Sys2Proof.Machine.execCsrx x0 x1 x2 s
  | .gadd x0 x1 x2 => Sys2Proof.Machine.execGadd x0 x1 x2 s
  | .gsub x0 x1 x2 => Sys2Proof.Machine.execGsub x0 x1 x2 s
  | .gmul x0 x1 x2 => Sys2Proof.Machine.execGmul x0 x1 x2 s
  | .gshl x0 x1 x2 => Sys2Proof.Machine.execGshl x0 x1 x2 s
  | .gshr x0 x1 x2 => Sys2Proof.Machine.execGshr x0 x1 x2 s
  | .gand x0 x1 x2 => Sys2Proof.Machine.execGand x0 x1 x2 s
  | .gor x0 x1 x2 => Sys2Proof.Machine.execGor x0 x1 x2 s
  | .gmin x0 x1 x2 => Sys2Proof.Machine.execGmin x0 x1 x2 s
  | .gaddi x0 x1 x2 => Sys2Proof.Machine.execGaddi x0 x1 x2 s
  | .gli x0 x1 x2 => Sys2Proof.Machine.execGli x0 x1 x2 s
  | .gpop x0 x1 => Sys2Proof.Machine.execGpop x0 x1 s
  | .gpush x0 x1 => Sys2Proof.Machine.execGpush x0 x1 s
  | .gbEq x0 x1 x2 => Sys2Proof.Machine.execGbEq x0 x1 x2 s
  | .gbNe x0 x1 x2 => Sys2Proof.Machine.execGbNe x0 x1 x2 s
  | .gbLt x0 x1 x2 => Sys2Proof.Machine.execGbLt x0 x1 x2 s
  | .gbGe x0 x1 x2 => Sys2Proof.Machine.execGbGe x0 x1 x2 s
  | .gjmp x0 => Sys2Proof.Machine.execGjmp x0 s
  | .gloop x0 x1 => Sys2Proof.Machine.execGloop x0 x1 s
  | .laySet x0 x1 => Sys2Proof.Machine.execLaySet x0 x1 s
  | .bfSet x0 x1 => Sys2Proof.Machine.execBfSet x0 x1 s
  | .cpIn x0 x1 x2 x3 x4 x5 => Sys2Proof.Machine.execCpIn x0 x1 x2 x3 x4 x5 s
  | .cpOut x0 x1 x2 x3 x4 x5 => Sys2Proof.Machine.execCpOut x0 x1 x2 x3 x4 x5 s
  | .cpBb x0 x1 x2 x3 x4 x5 => Sys2Proof.Machine.execCpBb x0 x1 x2 x3 x4 x5 s
  | .cpGth x0 x1 x2 x3 x4 x5 => Sys2Proof.Machine.execCpGth x0 x1 x2 x3 x4 x5 s
  | .cpSct x0 x1 x2 x3 x4 x5 => Sys2Proof.Machine.execCpSct x0 x1 x2 x3 x4 x5 s
  | .cpFill x0 x1 x2 x3 x4 x5 => Sys2Proof.Machine.execCpFill x0 x1 x2 x3 x4 x5 s
  | .copyCommandStart x0 => Sys2Proof.Machine.execCopyCommandStart x0 s
  | .copyComplete x0 => Sys2Proof.Machine.execCopyComplete x0 s
  | .deferredCopyFault x0 x1 => Sys2Proof.Machine.execDeferredCopyFault x0 x1 s
  | .cpWait x0 x1 => Sys2Proof.Machine.execCpWait x0 x1 s
  | .seal x0 => Sys2Proof.Machine.execSeal x0 s
  | .shdOpen x0 => Sys2Proof.Machine.execShdOpen x0 s
  | .shdPub x0 x1 => Sys2Proof.Machine.execShdPub x0 x1 s
  | .shdPubn x0 x1 x2 => Sys2Proof.Machine.execShdPubn x0 x1 x2 s
  | .shdDrop x0 => Sys2Proof.Machine.execShdDrop x0 s
  | .bktSet x0 x1 x2 => Sys2Proof.Machine.execBktSet x0 x1 x2 s
  | .bucketFire x0 => Sys2Proof.Machine.execBucketFire x0 s
  | .colRed x0 x1 x2 x3 x4 x5 => Sys2Proof.Machine.execColRed x0 x1 x2 x3 x4 x5 s
  | .colRs x0 x1 x2 x3 x4 x5 => Sys2Proof.Machine.execColRs x0 x1 x2 x3 x4 x5 s
  | .colAg x0 x1 x2 x3 x4 x5 => Sys2Proof.Machine.execColAg x0 x1 x2 x3 x4 x5 s
  | .colBc x0 x1 x2 x3 x4 x5 => Sys2Proof.Machine.execColBc x0 x1 x2 x3 x4 x5 s
  | .collectiveComplete x0 x1 => Sys2Proof.Machine.execCollectiveComplete x0 x1 s
  | .colWait x0 x1 => Sys2Proof.Machine.execColWait x0 x1 s
  | .colArb x0 => Sys2Proof.Machine.execColArb x0 s
  | .pktArm x0 => Sys2Proof.Machine.execPktArm x0 s
  | .pktWait x0 => Sys2Proof.Machine.execPktWait x0 s
  | .mmaZ x0 x1 x2 x3 x4 x5 => Sys2Proof.Machine.execMmaZ x0 x1 x2 x3 x4 x5 s
  | .mmaC x0 x1 x2 x3 x4 x5 => Sys2Proof.Machine.execMmaC x0 x1 x2 x3 x4 x5 s
  | .fold x0 x1 x2 => Sys2Proof.Machine.execFold x0 x1 x2 s
  | .foldP x0 x1 => Sys2Proof.Machine.execFoldP x0 x1 s
  | .cixSet x0 => Sys2Proof.Machine.execCixSet x0 s
  | .cixSetQ x0 => Sys2Proof.Machine.execCixSetQ x0 s
  | .lds x0 x1 x2 => Sys2Proof.Machine.execLds x0 x1 x2 s
  | .ldsSp x0 x1 x2 x3 => Sys2Proof.Machine.execLdsSp x0 x1 x2 x3 s
  | .slotLoadComplete x0 => Sys2Proof.Machine.execSlotLoadComplete x0 s
  | .accLd x0 x1 x2 => Sys2Proof.Machine.execAccLd x0 x1 x2 s
  | .accRel x0 => Sys2Proof.Machine.execAccRel x0 s
  | .accPairReturn x0 => Sys2Proof.Machine.execAccPairReturn x0 s
  | .slotClm x0 => Sys2Proof.Machine.execSlotClm x0 s
  | .slotRel x0 => Sys2Proof.Machine.execSlotRel x0 s
  | .slotGranuleReturn x0 => Sys2Proof.Machine.execSlotGranuleReturn x0 s
  | .patSet x0 x1 => Sys2Proof.Machine.execPatSet x0 x1 s
  | .patOh x0 x1 x2 x3 x4 => Sys2Proof.Machine.execPatOh x0 x1 x2 x3 x4 s
  | .lseAcq => Sys2Proof.Machine.execLseAcq s
  | .lseRel => Sys2Proof.Machine.execLseRel s
  | .leaseGrant x0 x1 => Sys2Proof.Machine.execLeaseGrant x0 x1 s
  | .mbQNz x0 x1 => Sys2Proof.Machine.execMbQNz x0 x1 s
  | .mbQZ x0 x1 => Sys2Proof.Machine.execMbQZ x0 x1 s
  | .mloop x0 x1 => Sys2Proof.Machine.execMloop x0 x1 s
  | .mjmp x0 => Sys2Proof.Machine.execMjmp x0 s
  | .arrayCommandStart x0 => Sys2Proof.Machine.execArrayCommandStart x0 s
  | .arrayCommandComplete x0 => Sys2Proof.Machine.execArrayCommandComplete x0 s
  | .foldStart x0 => Sys2Proof.Machine.execFoldStart x0 s
  | .foldComplete x0 => Sys2Proof.Machine.execFoldComplete x0 s
  | .vadd x0 x1 x2 x3 => Sys2Proof.Machine.execVadd x0 x1 x2 x3 s
  | .vsub x0 x1 x2 x3 => Sys2Proof.Machine.execVsub x0 x1 x2 x3 s
  | .vmul x0 x1 x2 x3 => Sys2Proof.Machine.execVmul x0 x1 x2 x3 s
  | .vfma x0 x1 x2 x3 x4 => Sys2Proof.Machine.execVfma x0 x1 x2 x3 x4 s
  | .vmax x0 x1 x2 x3 => Sys2Proof.Machine.execVmax x0 x1 x2 x3 s
  | .vmin x0 x1 x2 x3 => Sys2Proof.Machine.execVmin x0 x1 x2 x3 s
  | .vcmp x0 x1 x2 x3 x4 => Sys2Proof.Machine.execVcmp x0 x1 x2 x3 x4 s
  | .vsel x0 x1 x2 x3 x4 => Sys2Proof.Machine.execVsel x0 x1 x2 x3 x4 s
  | .vfld x0 x1 x2 x3 x4 => Sys2Proof.Machine.execVfld x0 x1 x2 x3 x4 s
  | .vrcp x0 x1 x2 => Sys2Proof.Machine.execVrcp x0 x1 x2 s
  | .vrsq x0 x1 x2 => Sys2Proof.Machine.execVrsq x0 x1 x2 s
  | .vcvt x0 x1 x2 x3 x4 => Sys2Proof.Machine.execVcvt x0 x1 x2 x3 x4 s
  | .vmov x0 x1 x2 => Sys2Proof.Machine.execVmov x0 x1 x2 s
  | .vbc x0 x1 x2 => Sys2Proof.Machine.execVbc x0 x1 x2 s
  | .vld x0 x1 x2 => Sys2Proof.Machine.execVld x0 x1 x2 s
  | .vst x0 x1 x2 x3 => Sys2Proof.Machine.execVst x0 x1 x2 x3 s
  | .rtRow x0 x1 x2 x3 => Sys2Proof.Machine.execRtRow x0 x1 x2 x3 s
  | .rtSt x0 x1 x2 x3 => Sys2Proof.Machine.execRtSt x0 x1 x2 x3 s
  | .rtStRetire => Sys2Proof.Machine.execRtStRetire s
  | .histAdd x0 x1 => Sys2Proof.Machine.execHistAdd x0 x1 s
  | .histRd x0 x1 => Sys2Proof.Machine.execHistRd x0 x1 s
  | .histClr x0 => Sys2Proof.Machine.execHistClr x0 s
  | .flgRd x0 x1 => Sys2Proof.Machine.execFlgRd x0 x1 s
  | .flgClr x0 => Sys2Proof.Machine.execFlgClr x0 s
  | .sbQNz x0 x1 => Sys2Proof.Machine.execSbQNz x0 x1 s
  | .sbQZ x0 x1 => Sys2Proof.Machine.execSbQZ x0 x1 s
  | .sloop x0 x1 => Sys2Proof.Machine.execSloop x0 x1 s
  | .sjmp x0 => Sys2Proof.Machine.execSjmp x0 s
  | .sclSet x0 x1 => Sys2Proof.Machine.execSclSet x0 x1 s
  | .retirementTokenGive x0 => Sys2Proof.Machine.execRetirementTokenGive x0 s
  | .resultLanding => Sys2Proof.Machine.execResultLanding s
  | .parkedWritePlace x0 => Sys2Proof.Machine.execParkedWritePlace x0 s
  | .outOfSpaceExpiry x0 => Sys2Proof.Machine.execOutOfSpaceExpiry x0 s
  | .ballooningEngine x0 => Sys2Proof.Machine.execBallooningEngine x0 s
  | .balloonMessage x0 x1 => Sys2Proof.Machine.execBalloonMessage x0 x1 s
  | .expanderBlockDecode x0 => Sys2Proof.Machine.execExpanderBlockDecode x0 s
  | .versionFold => Sys2Proof.Machine.execVersionFold s
  | .yieldDeadline => Sys2Proof.Machine.execYieldDeadline s
  | .priorityAging => Sys2Proof.Machine.execPriorityAging s
  | .dispatch x0 => Sys2Proof.Machine.execDispatch x0 s
  | .forcedStopOverrun => Sys2Proof.Machine.execForcedStopOverrun s
  | .contextSave x0 => Sys2Proof.Machine.execContextSave x0 s
  | .nodeFinish x0 x1 => Sys2Proof.Machine.execNodeFinish x0 x1 s
  | .trapEntry x0 => Sys2Proof.Machine.execTrapEntry x0 s
  | .timedRestart x0 x1 => Sys2Proof.Machine.execTimedRestart x0 x1 s
  | .interruptEntry => Sys2Proof.Machine.execInterruptEntry s
  | .asyncTrap => Sys2Proof.Machine.execAsyncTrap s
  | .memoryProcessorAnswer x0 x1 => Sys2Proof.Machine.execMemoryProcessorAnswer x0 x1 s
  | .patchImageLoad x0 => Sys2Proof.Machine.execPatchImageLoad x0 s
  | .epochTransitionClose => Sys2Proof.Machine.execEpochTransitionClose s
  | .mapRequest x0 => Sys2Proof.Machine.execMapRequest x0 s
  | .shootdown x0 => Sys2Proof.Machine.execShootdown x0 s
  | .pageMigration x0 => Sys2Proof.Machine.execPageMigration x0 s
  | .memoryError x0 => Sys2Proof.Machine.execMemoryError x0 s
  | .selfTest x0 x1 => Sys2Proof.Machine.execSelfTest x0 x1 s
  | .flitReceive x0 x1 => Sys2Proof.Machine.execFlitReceive x0 x1 s
  | .linkRetrain x0 x1 => Sys2Proof.Machine.execLinkRetrain x0 x1 s
  | .linkLoss x0 => Sys2Proof.Machine.execLinkLoss x0 s
  | .frameReceive x0 => Sys2Proof.Machine.execFrameReceive x0 s
  | .frameTransmit x0 x1 x2 => Sys2Proof.Machine.execFrameTransmit x0 x1 x2 s
  | .ptpClockDiscipline x0 => Sys2Proof.Machine.execPtpClockDiscipline x0 s
  | .submit x0 x1 x2 => Sys2Proof.Machine.execSubmit x0 x1 x2 s
  | .doorbell x0 x1 => Sys2Proof.Machine.execDoorbell x0 x1 s
  | .hostBar2Write x0 x1 x2 x3 => Sys2Proof.Machine.execHostBar2Write x0 x1 x2 x3 s
  | .hostTranslationRequest x0 x1 x2 => Sys2Proof.Machine.execHostTranslationRequest x0 x1 x2 s
  | .revocationConfirm x0 => Sys2Proof.Machine.execRevocationConfirm x0 s
  | .hostLinkDown x0 => Sys2Proof.Machine.execHostLinkDown x0 s
  | .registerWrite x0 x1 => Sys2Proof.Machine.execRegisterWrite x0 x1 s
  | .mailboxBind x0 x1 x2 => Sys2Proof.Machine.execMailboxBind x0 x1 x2 s
  | .send x0 x1 x2 x3 x4 x5 => Sys2Proof.Machine.execSend x0 x1 x2 x3 x4 x5 s
  | .recv x0 x1 x2 => Sys2Proof.Machine.execRecv x0 x1 x2 s
  | .jbase x0 x1 x2 => Sys2Proof.Machine.execJbase x0 x1 x2 s
  | .jdrawCommit x0 x1 x2 => Sys2Proof.Machine.execJdrawCommit x0 x1 x2 s
  | .jdrawReplay x0 x1 => Sys2Proof.Machine.execJdrawReplay x0 x1 s
  | .jstat x0 x1 x2 => Sys2Proof.Machine.execJstat x0 x1 x2 s
  | .attestationRequest x0 => Sys2Proof.Machine.execAttestationRequest x0 s
  | .certificateRequest => Sys2Proof.Machine.execCertificateRequest s
  | .resetRelease x0 => Sys2Proof.Machine.execResetRelease x0 s
  | .powerRemoval => Sys2Proof.Machine.execPowerRemoval s
  | .memoryProcessorPreemption x0 x1 => Sys2Proof.Machine.execMemoryProcessorPreemption x0 x1 s
  | .quotaEnlargement x0 x1 => Sys2Proof.Machine.execQuotaEnlargement x0 x1 s
  | .generalInstanceEnd x0 x1 => Sys2Proof.Machine.execGeneralInstanceEnd x0 x1 s
  | .asidRegistration x0 x1 => Sys2Proof.Machine.execAsidRegistration x0 x1 s
  | .pinRequest x0 x1 x2 => Sys2Proof.Machine.execPinRequest x0 x1 x2 s
  | .communicatorTableSet x0 x1 x2 => Sys2Proof.Machine.execCommunicatorTableSet x0 x1 x2 s

end Sys2Proof.Machine
end

