-- ==== Sys2Proof/Machine/Interlock.lean ====
section
/-!
DEFINITION. The interlock of a queued context: an instruction that reads or writes a register with a result pending waits at issue (R104, R154, R216), and one that reads or clears lane flags or counters waits for those still to land (R233, R234).
-/
namespace Sys2Proof.Machine

/-- A register by name. -/
inductive RegName where
  | s (r : SReg) | f (r : FReg) | g (r : GReg) | l (r : LReg) | v (r : VReg)
  deriving DecidableEq, Repr

/-- The registers an instruction reads or writes: its operands; RNG.NEXT writes the next register too (R144), JAL writes s31 (R115). -/
def regsOf : Instr → List RegName
  | .add d a b | .sub d a b | .mul d a b | .mulh d a b | .div d a b => [.s d, .s a, .s b]
  | .divu d a b | .rem d a b | .remu d a b | .and d a b | .or d a b => [.s d, .s a, .s b]
  | .xor d a b | .shl d a b | .shr d a b | .sra d a b | .min d a b => [.s d, .s a, .s b]
  | .max d a b | .minu d a b | .maxu d a b | .slt d a b | .sltu d a b => [.s d, .s a, .s b]
  | .bext d a b => [.s d, .s a, .s b]
  | .clz d a | .ctz d a | .popc d a | .mbxRecv d a | .mbxTry d a => [.s d, .s a]
  | .nodeAdd d a | .waitEv d a => [.s d, .s a]
  | .addi d a _ | .andi d a _ | .ori d a _ | .xori d a _ | .shli d a _ => [.s d, .s a]
  | .shri d a _ | .srai d a _ | .slti d a _ => [.s d, .s a]
  | .lui d _ | .qpop d _ | .qcnt d _ | .csrr d _ => [.s d]
  | .li d _ _ => [.s d]
  | .fadd _ d a b | .fsub _ d a b | .fmul _ d a b | .ffma _ d a b | .fdiv _ d a b => [.f d, .f a, .f b]
  | .fmin _ d a b | .fmax _ d a b | .fsgnj _ d a b => [.f d, .f a, .f b]
  | .fsqrt _ d a | .fmv _ d a => [.f d, .f a]
  | .fcmpEq _ d a b | .fcmpLt _ d a b | .fcmpLe _ d a b => [.s d, .f a, .f b]
  | .fcvtW _ d a | .fclass _ d a => [.s d, .f a]
  | .fcvtF _ d a => [.f d, .s a]
  | .beq a b _ | .bne a b _ | .blt a b _ | .bge a b _ | .bltu a b _ => [.s a, .s b]
  | .bgeu a b _ => [.s a, .s b]
  | .jal _ => [.s 31]
  | .jr a | .trap a => [.s a]
  | .loop a _ => [.s a]
  | .ld _ d a _ | .st _ d a _ => [.s d, .s a]
  | .atAdd d a b _ _ | .atBinc d a b _ _ | .atCas d a b _ _ | .atSwp d a b _ _ | .atMax d a b _ _ => [.s d, .s a, .s b]
  | .atFadd d a b _ => [.s d, .s a, .s b]
  | .qpush _ a | .csrw _ a => [.s a]
  | .barInit _ a _ | .barDl _ a _ => [.s a]
  | .mbxSend a b => [.s a, .s b]
  | .rngNext d => [.s d, .s (d + 1)]
  | .tsc d => [.s d]
  | .csrx d _ a => [.s d, .s a]
  | .gadd d a b | .gsub d a b | .gmul d a b | .gshl d a b | .gshr d a b => [.g d, .g a, .g b]
  | .gand d a b | .gor d a b | .gmin d a b => [.g d, .g a, .g b]
  | .gaddi d a _ => [.g d, .g a]
  | .gli d _ _ => [.g d]
  | .gpop d _ | .cpWait d _ | .colWait d _ => [.g d]
  | .gpush _ a => [.g a]
  | .gbEq a b _ | .gbNe a b _ | .gbLt a b _ | .gbGe a b _ | .shdPubn a b _ => [.g a, .g b]
  | .bktSet a b _ => [.g a, .g b]
  | .gloop a _ | .shdPub a _ => [.g a]
  | .laySet l a => [.l l, .g a]
  | .cpIn g _ l _ _ _ | .cpOut g _ l _ _ _ | .cpBb g _ l _ _ _ | .cpGth g _ l _ _ _ | .cpSct g _ l _ _ _ => [.g g, .l l]
  | .cpFill g _ l _ _ _ | .colRed g _ l _ _ _ | .colRs g _ l _ _ _ | .colAg g _ l _ _ _ | .colBc g _ l _ _ _ => [.g g, .l l]
  | .seal a | .shdOpen a | .shdDrop a | .colArb a | .pktArm a => [.g a]
  | .pktWait d => [.g d]
  | .vadd _ d a b | .vsub _ d a b | .vmul _ d a b | .vmax _ d a b | .vmin _ d a b => [.v d, .v a, .v b]
  | .vfma _ d a b c | .vsel _ d a b c => [.v d, .v a, .v b, .v c]
  | .vcmp _ d a b _ | .vfld _ d a b _ => [.v d, .v a, .v b]
  | .vrcp _ d a | .vrsq _ d a | .vmov _ d a => [.v d, .v a]
  | .vcvt _ d a _ _ => [.v d, .v a]
  | .vbc _ d _ => [.v d]
  | .vld d _ _ => [.v d]
  | .vst a _ _ _ => [.v a]
  | .rtRow _ d _ _ => [.v d]
  | .histAdd _ a => [.v a]
  | .flgRd _ d => [.v d]
  | .jmp _ | .atomicPerform _ | .phase _ | .barArr _ | .barWt _ | .barrierCompletion _ => []
  | .barrierDeadline _ | .nodeDone | .yield | .eret | .brk | .diffMode _ => []
  | .ctxSw | .gjmp _ | .bfSet _ _ | .copyCommandStart _ | .copyComplete _ | .deferredCopyFault _ _ => []
  | .bucketFire _ | .collectiveComplete _ _ | .mmaZ _ _ _ _ _ _ | .mmaC _ _ _ _ _ _ | .fold _ _ _ | .foldP _ _ => []
  | .cixSet _ | .cixSetQ _ | .lds _ _ _ | .ldsSp _ _ _ _ | .slotLoadComplete _ | .accLd _ _ _ => []
  | .accRel _ | .accPairReturn _ | .slotClm _ | .slotRel _ | .slotGranuleReturn _ | .patSet _ _ => []
  | .patOh _ _ _ _ _ | .lseAcq | .lseRel | .leaseGrant _ _ | .mbQNz _ _ | .mbQZ _ _ => []
  | .mloop _ _ | .mjmp _ | .arrayCommandStart _ | .arrayCommandComplete _ | .foldStart _ | .foldComplete _ => []
  | .rtSt _ _ _ _ | .rtStRetire | .histRd _ _ | .histClr _ | .flgClr _ | .sbQNz _ _ => []
  | .sbQZ _ _ | .sloop _ _ | .sjmp _ | .sclSet _ _ | .retirementTokenGive _ | .resultLanding => []
  | .parkedWritePlace _ | .outOfSpaceExpiry _ | .ballooningEngine _ | .balloonMessage _ _ | .expanderBlockDecode _ | .versionFold => []
  | .yieldDeadline | .priorityAging | .dispatch _ | .forcedStopOverrun | .contextSave _ | .nodeFinish _ _ => []
  | .trapEntry _ | .timedRestart _ _ | .interruptEntry | .asyncTrap | .memoryProcessorAnswer _ _ | .patchImageLoad _ => []
  | .epochTransitionClose | .mapRequest _ | .shootdown _ | .pageMigration _ | .memoryError _ | .selfTest _ _ => []
  | .flitReceive _ _ | .linkRetrain _ _ | .linkLoss _ | .frameReceive _ | .frameTransmit _ _ _ | .ptpClockDiscipline _ => []
  | .submit _ _ _ | .doorbell _ _ | .hostBar2Write _ _ _ _ | .hostTranslationRequest _ _ _ | .revocationConfirm _ | .hostLinkDown _ => []
  | .registerWrite _ _ | .mailboxBind _ _ _ | .send _ _ _ _ _ _ | .recv _ _ _ | .jbase _ _ _ | .jdrawCommit _ _ _ => []
  | .jdrawReplay _ _ | .jstat _ _ _ | .attestationRequest _ | .certificateRequest | .resetRelease _ | .powerRemoval => []
  | .memoryProcessorPreemption _ _ | .quotaEnlargement _ _ | .generalInstanceEnd _ _ | .asidRegistration _ _ | .pinRequest _ _ _ | .communicatorTableSet _ _ _ => []

/-- The register a result is pending for. -/
def Land.reg : Land → Option RegName
  | .s d _ | .await d _ | .faulted d _ _ _ | .mbxTry d _ | .far d _ _ _ _ => some (.s d)
  | .f d _ => some (.f d)
  | .g d _ => some (.g d)
  | .lay d _ => some (.l d)
  | .v d _ => some (.v d)
  | _ => none

/-- The destination of a word access that returns a value. -/
def WordOp.reg : WordOp → Option RegName
  | .ld d _ _ _ | .rmw d _ => some (.s d)
  | .st _ => none

/-- The destination of an atomic that waits for sectors (R267). -/
def PrivKind.reg : PrivKind → Option RegName
  | .atom _ d _ => some (.s (Fin.ofNat 32 d))
  | .plain | .acc _ => none

/-- Registers of the context with a result pending; s0 and g0 hold none. -/
def Ctx.pendingRegs (c : Ctx) : List RegName :=
  ((c.pend.filterMap fun p => p.what.reg) ++ (c.words.filterMap fun w => w.op.reg) ++ c.priv.filterMap fun p => p.kind.reg).filter
    fun r => r != .s 0 && r != .g 0

/-- Are lane flags, or counts of the histogram, still to land (R233, R234)? -/
def Ctx.flagsLeft (c : Ctx) : Bool := c.pend.any fun p => match p.what with
  | .lf _ => true
  | _ => false

def Ctx.countsLeft (c : Ctx) : Bool := c.pend.any fun p => match p.what with
  | .hist _ => true
  | _ => false

/-- Does an instruction wait for lane flags or counts that are still to land (R233, R234)? -/
def waitsStats (i : Instr) (c : Ctx) : Bool :=
  match i with
  | .histRd _ _ | .histClr _ => c.countsLeft
  | .flgRd _ _ | .flgClr _ => c.flagsLeft
  | _ => false

/-- Does an instruction of a queued context wait at issue for a result (R104, R216, R233, R234)? A timed one reads the previous value. -/
def interlocked (i : Instr) (c : Ctx) : Bool :=
  !c.timed && ((regsOf i).any c.pendingRegs.contains || waitsStats i c)

end Sys2Proof.Machine
end

