-- ==== Sys2Proof/Machine/Issue.lean ====
section
/-!
DEFINITION. Fetching, the header, patch slots and the issue of one stream (R18, R74 to R78, R99 to R101, R373 to R377), and whose turn comes next (log 2).
-/
namespace Sys2Proof.Machine

/-! ## Fetch (R96, R99, R100, R299, R381) -/

/-- Length of an instruction as the scanner marks it (R100, R375). -/
def instrLen (s : State) (x : StreamId) (w ext : Nat) : Nat :=
  match decodeWord x w ext, win s s.me x w with
  | none, some d => if slotAdmit d then slotLen d else wordCount x w
  | _, _ => wordCount x w

/-- Does the linear scan of a page that starts at a location pass over offset `target` as an extension word (R100)? -/
def markedExt (s : State) (x : StreamId) (base target : Nat) : (fuel : Nat) → (o : Nat) → Bool
  | 0, _ => false
  | n + 1, o =>
    if target ≤ o then decide (target < o)
    else markedExt s x base target n
      (o + 4 * instrLen s x (leNat (readBases s.mem (base + o) 4)) (leNat (readBases s.mem (base + o + 4) 4)))

/-- Is the page of a location fetchable by a context of an epoch (R381)? A page the scanner has no entry for is. -/
def pageLegal (s : State) (epoch x : Nat) : Bool :=
  s.scanned.all fun p =>
    let base := locPa s.rank p.frame
    !(decide (base ≤ x) && decide (x < base + p.size)) || p.legal.contains epoch

/-- What a fetch gives: a trap, or the word and the one after it. -/
inductive Fetched where
  | bad (e : Exc)
  | ok (w ext : Nat)
  deriving DecidableEq, Repr

/-- An instruction-access fault of a stream at its PC (R345 class 6). -/
def exFetch (s : State) (x : StreamId) (qual : Nat) : Exc :=
  ⟨6, qual, accInfo (s.me.strm x).pc (s.me.strm x).pc .exec 0xFF⟩

/-- The fault of a translation at fetch (R99, R303, R352). -/
def fetchErr (s : State) (x : StreamId) (e : PErr) : Exc :=
  let pc := (s.me.strm x).pc
  match e with
  | .acc q => exFetch s x q
  | .tr f =>
    if toMemProc f then
      ⟨7, if f.cause = 2 then 1 else 0, accInfo pc pc .exec 0xFF ++ sentReport s.me x pc .exec .fetch f⟩
    else exFetch s x 1

def fetch (s : State) (x : StreamId) : Fetched :=
  let pc := (s.me.strm x).pc
  if pc.toNat % 4 ≠ 0 then .bad (exFetch s x 2)
  else if timedOut s s.me.locked pc 4 then .bad (exIllegal s x)
  else match (if spaceOf pc = .glb then s.glbLoc s.me .exec (some x.num) pc else .error (.acc 0)) with
    | .error e => .bad (fetchErr s x e)
    | .ok t =>
      let off := t.size - t.left
      if !pageLegal s s.me.patchEpoch.toNat t.loc then .bad (exFetch s x 1)
      else if markedExt s x (t.loc - off) off (off / 4 + 1) 0 then .bad (exFetch s x 2)
      else .ok (leNat (readBases s.mem t.loc 4)) (leNat (readBases s.mem (t.loc + 4) 4))

/-! ## Patch actions (R376, R377) -/

def dropSub (x : StreamId) (c : Ctx) : Ctx := { c with subst := c.subst.filter (·.1 != x) }

/-- The substitute a stream stands at (R377). -/
def subIndex (c : Ctx) (x : StreamId) : Nat := ((c.subst.find? (·.1 == x)).map (·.2)).getD 0

/-- The loop a substitute opened, if it opened one (R116): its body starts after the rewritten instruction of `len` words. -/
def openedLoop (len : Nat) (t0 t : Strm) : Option LoopEnt :=
  if t.loops.length = t0.loops.length + 1 then t.loops.head?.map fun e => { e with start := t0.pc + BitVec.ofNat 64 (4 * len) } else none

/-- Did a substitute of n words transfer control (R376)? -/
def subMoved (n now : Nat) (t0 t : Strm) : Bool := t.loops.length != t0.loops.length + 1 && t.pc != (stepPast n now t0).pc

/-- After substitute k of n words issued: a transfer or the last one ends the rewritten instruction of `len` words, else the next one stands (R376; log 22). A loop it opened is kept. -/
def afterSub (x : StreamId) (len nsub k n : Nat) (s0 s : State) : State :=
  let t0 := s0.me.strm x
  s.mapMe fun c =>
    let t := c.strm x
    if subMoved n s0.now t0 t then dropSub x c
    else
      let last := decide (nsub ≤ k + n)
      let u := match openedLoop len t0 t with
        | some e => { t0 with loops := e :: t0.loops, pc := if last then e.start else t0.pc, ref := s0.now + 1 }
        | none => if last then stepPast len s0.now t0 else { t0 with ref := s0.now + 1 }
      if last then (dropSub x c).setStrm x { u with acc := t.acc }
      else { (dropSub x c).setStrm x u with subst := (x, k + n) :: (dropSub x c).subst }

/-- A substitute as it acts: TRAP leaves the saved PC at the matched word (R377), every other as elsewhere. -/
def execSubstitute (i : Instr) (s : State) : Ans :=
  match i with
  | .trap a => trapOn .c ⟨11, 0, padTo 64 (leBytes 4 (rdS s.me a).toNat ++ leBytes 4 0 ++ le64 s.me.strC.pc)⟩ (countTrap s)
  | i => exec i s

/-- Issue substitute k of a winning REWRITE slot (R376): the gives are made when the last that issues retires. -/
def runSub (x : StreamId) (h : BitVec 4) (len : Nat) (d : List Byte) (k : Nat) (s : State) : Ans :=
  let w := slotSub d k
  let n := wordCount x w
  let old := (s.me.strm x).ord
  match decodeWord x w (slotSub d (k + 1)) with
  | none => .refused (.reservedEncoding x (BitVec.ofNat 32 w))
  | some i =>
    let s1 := if k = 0 then s.mapMe (learn x h) else s
    match execSubstitute i s1 with
    | .next s2 =>
      let last := decide (slotNsub d ≤ k + n) || subMoved n s1.now (s1.me.strm x) (s2.me.strm x)
      let s3 := if s2.last = .retired ∨ s2.last = .issued then afterSub x len (slotNsub d) k n s1 s2 else s2
      .next (finish s.me.launch x (if k = 0 then h else 0#4) (if last then h else 0#4) last old s3)
    | r => r

/-- Queues a stream may pop and push (R85). -/
def popQueues : StreamId → List QNo
  | .c => [1, 3, 5]
  | .a => [0]
  | .m => [2, 6]
  | .s => [4, 7]

def pushQueues : StreamId → List QNo
  | .c => [0, 2, 4]
  | .a => [1, 6, 7]
  | .m => []
  | .s => [5]

/-- Pending results for what a routine changed. -/
def landChanged {α : Type} (l : List α) (same : α → Bool) (what : α → Land) (lat : Nat) (s : State) : State :=
  l.foldl (fun s d => if same d then s else pendAt (s.clock + lat) (what d) s) s

/-- The changed registers of the issuing stream land at issue + CYC (R23, R376): the bank formats belong to every stream. -/
def emulateWrite (x : StreamId) (lat : Nat) (r : Ctx) (s : State) : State :=
  let c := s.me
  let s0 := landChanged (List.finRange 48) (fun b => decide (r.bf[b] = c.bf[b])) (fun b => .bf b.val r.bf[b]) lat s
  match x with
  | .c =>
    let s1 := landChanged (List.finRange 32) (fun d => rdS r d == rdS c d) (fun d => .s d (rdS r d)) lat s0
    let s2 := landChanged (List.finRange 16) (fun d => rdF r d == rdF c d) (fun d => .f d (rdF r d)) lat s1
    let s3 := landChanged [r.fflags] (· == c.fflags) (fun v => .csr .fflags (v.setWidth 64)) lat s2
    landChanged [r.bars] (· == c.bars) .barSet lat s3
  | .a =>
    let s1 := landChanged (List.finRange 16) (fun d => rdG r d == rdG c d) (fun d => .g d (rdG r d)) lat s0
    let s2 := landChanged (List.finRange 8) (fun d => rdL r d == rdL c d) (fun d => .lay d (rdL r d)) lat s1
    landChanged (List.range 128) (fun n => r.tag n == c.tag n) (fun n => .tag n (r.tag n)) lat s2
  | .m => pendAt (s0.clock + lat) (.mregs r.ms r.ks r.ps r.cix) s0
  | .s =>
    let s1 := landChanged (List.finRange 16) (fun d => rdV r d == rdV c d) (fun d => .v d (rdV r d)) lat s0
    pendAt (s1.clock + lat) (.lfHist r.lf r.hist) s1

/-- EMULATE (R376; log 10): the routine's trap, of one of the classes 1 to 16 (R345), or its pops, pushes and register results, as a whole or not at all; its gives are made when it retires, after CYC cycles. -/
def runEmulate (x : StreamId) (h : BitVec 4) (len : Nat) (d : List Byte) (s : State) : Ans :=
  let area := (s.patchSet s.me.patchEpoch.toNat).area
  let ent := slotUentry d
  let old := (s.me.strm x).ord
  match Config.emulateTrap area ent x s.me with
  | some cls => .next (takeTrap ⟨cls % 16 + 1, x, 0, s.instrInfo x⟩ s)
  | none =>
    let pops := fun q => Config.emulatePops area ent x s.me q
    let pushes := fun q => Config.emulatePushes area ent x s.me q
    let short := (popQueues x).any (fun q => ((s.me.queue q).fronts? (pops q) s.cycle).isNone) ||
      (pushQueues x).any (fun q => decide (8 < (s.me.queue q).fill s.cycle + (pushes q).length))
    if short then (if s.me.timed then illegal x s else .next (waitAt s))
    else
      let r := Config.emulateRegs area ent x s.me
      let c1 := (popQueues x).foldl (fun c q => c.setQueue q ((c.queue q).pop (pops q) s.cycle)) s.me
      let c2 := (pushQueues x).foldl (fun c q => (pushes q).foldl (fun c v => c.setQueue q ((c.queue q).push v s.cycle)) c) c1
      let s1 := emulateWrite x (slotCyc d) r (s.withMe c2)
      let s2 := retire x len (s1.mapMe (learn x h))
      let s3 := s2.mapMe fun c => c.mapStrm x fun t => { t with ref := s.now + slotCyc d }
      .next (finish s.me.launch x h 0#4 true old (if h.getLsbD 1 || h.getLsbD 0 then pendAt (s.clock + slotCyc d) (.give x h) s3 else s3))

/-- The instruction itself (R74 to R78). -/
def runPlain (x : StreamId) (h : BitVec 4) (w ext : Nat) (s : State) : Ans :=
  let old := (s.me.strm x).ord
  match decodeWord x w ext with
  | none => .refused (.reservedEncoding x (BitVec.ofNat 32 w))
  | some i =>
    match exec i (s.mapMe (learn x h)) with
    | .next s1 => .next (finish s.me.launch x h h true old s1)
    | r => r

/-- Issue the word at a stream's PC: the action of its winning slot, or the instruction (R376). -/
def runWord (x : StreamId) (h : BitVec 4) (w ext : Nat) (s : State) : Ans :=
  match win s s.me x w with
  | none => runPlain x h w ext s
  | some d =>
    let len := instrLen s x w ext
    match slotAction d with
    | 1 => illegal x s
    | 2 => runSub x h len d (subIndex s.me x) s
    | 3 => runEmulate x h len d s
    | _ => .next (finish s.me.launch x h h true (s.me.strm x).ord (retire x len (s.mapMe (learn x h))))

/-! ## The issue of one stream -/

/-- Does the timed bay of the context stand still for it (R356)? -/
def frozenFor (s : State) : Bool := s.me.timed && !s.me.sup && s.myBay.frozen

/-- Does a pending shootdown hold the context's accesses at translation (R301)? A timed context's pages are pinned. -/
def shootHolds (s : State) : Bool := !s.me.timed && s.shoots.any fun x => x.1.concerns s s.me

/-- May the stream issue at all in this cycle (R12, R18, R45, R301, R335, R353, R356, R376)? The handler's C stream issues though an instruction from before its entry still stays at retirement for a full FIFO (log 99). -/
def canIssue (s : State) (x : StreamId) : Bool :=
  let c := s.me
  let t := c.strm x
  c.life == .active && c.trapWait.isNone && !shootHolds s && (c.sup || t.held.isEmpty) && !t.stopped &&
  (x == .c || !c.sup) && (x != .m || !c.acmds.any (·.again)) && (c.sup || decide (t.ref ≤ s.now))

/-- Does the word a queued stream stands at wait for a pending result (R104)? A substitute waits for its own registers, a routine, which may read any, for all (R376). -/
def wordHeld (s : State) (x : StreamId) (w ext : Nat) : Bool :=
  let i := match win s s.me x w with
    | none => decodeWord x w ext
    | some d => if slotAction d = 2 then decodeWord x (slotSub d (subIndex s.me x)) (slotSub d (subIndex s.me x + 1)) else none
  let routine := match win s s.me x w with
    | none => false
    | some d => slotAction d == 3
  match i with
  | none => routine && !s.me.timed && !s.me.pendingRegs.isEmpty
  | some i => interlocked i s.me

/-- The fetch of the word at a stream's PC reaches its block (R268). -/
def touchCode (x : StreamId) (s : State) : State :=
  match s.glbLoc s.me .exec (some x.num) (s.me.strm x).pc with
  | .error _ => s
  | .ok t => s.touch [⟨t, 4⟩]

/-- Issue from a stream, without regard to a frozen bay. -/
def issueCore (x : StreamId) (s0 : State) : Ans :=
  if !canIssue s0 x then .next { s0 with last := .none }
  else match fetch s0 x with
    | .bad e => .next (takeTrap (e.on x) s0)
    | .ok w ext =>
      let s := touchCode x s0
      if wordHeld s x w ext then .next (waitAt s) else
      let h := headerOf w
      if s.me.paced then
        if (s.me.strm x).ref + (if subIndex s.me x = 0 then h.toNat else 0) ≤ s.now then runWord x 0#4 w ext s
        else .next { s with last := .none }
      else if usesTokens s.me then
        if subIndex s.me x ≠ 0 || waitsReady s.me x h s.cycle then runWord x h w ext s else .next (waitAt s)
      else runWord x 0#4 w ext s

/-- Issue from a stream of the context whose turn it is. -/
def issueOne (x : StreamId) (s : State) : Ans :=
  if frozenFor s then .next { s with last := .none } else issueCore x s

/-- The precise trap a stream would take in this cycle, with the state it would be taken in (R346). -/
def trapOf (s : State) (x : StreamId) : Option (TrapReq × State) :=
  match issueCore x { s with judging := true } with
  | .next t => if t.last == .trapped then t.me.trapWait.map fun r => (r, t) else none
  | _ => none

/-- The precise trap that stands first in this cycle (R346). -/
def firstTrap (s : State) : Option (TrapReq × State) := [StreamId.c, .a, .m, .s].findSome? (trapOf s)

/-- What a trap changes in its context before the entry (R97, R146, R169, R368): the streams and the tags; results due at the freeze cycle stay latches. -/
def withTrap (s t : State) : State :=
  s.mapMe fun c => { c with strC := t.me.strC, strA := t.me.strA, strM := t.me.strM, strS := t.me.strS, tags := t.me.tags, cmds := t.me.cmds }

/-- A faulted word whose landing cycle this is: its destination receives 0 (R358). -/
def zeroFaulted (s : State) : State :=
  match s.me.pend.find? fun p => match p.what with
    | .faulted _ _ _ _ => decide (p.due ≤ s.now)
    | _ => false with
  | some p => landOne p (s.mapMe fun c => { c with pend := c.pend.filter (· != p) })
  | none => s

/-- The trap a timed context takes at this cycle, if one stands, and the state it is entered in (R346, R356, R358, R368). -/
def timedEntry (s : State) : Option (TrapReq × State) :=
  match (if asyncStands s then s.me.held else []) with
  | h :: r => some (⟨h.cls, .c, 0, h.info⟩, s.mapMe fun c => { c with held := r })
  | [] => match landDue s.now (4 * s.me.pend.length + 8) s with
    | (_, some (x, q, a)) => some (⟨14, .c, 0, poisonInfo s.mem a x q 0xFF⟩, zeroFaulted s)
    | (v, none) => match firstTrap v with
      | some (r, t) => some (r, withTrap s t)
      | none => if irqStands s then some (⟨16, .c, 0, []⟩, s) else none

/-- Is the context the first timed one of its bay in this cycle, with the bay running (R356)? -/
def opensBay (s : State) : Bool :=
  s.slot == .c && s.me.life == .active && s.me.timed && !s.myBay.frozen &&
  !s.ring.any fun c => c.life == .active && c.timed && c.die == s.me.die && c.bay == s.me.bay && c.turnAt == s.cycle + 1

/-- Launch numbers of the timed active contexts of the bay. -/
def bayLaunches (s : State) : List Nat :=
  (s.ctxs.filter fun c => c.life == .active && c.timed && c.die == s.me.die && c.bay == s.me.bay).map (·.launch)

/-- Launch numbers of the contexts of the bay with a trap standing at this cycle (R356). -/
def freezing (s : State) : List Nat := (bayLaunches s).filter fun n => (timedEntry (s.seenBy n)).isSome

/-- Does the bay of the context freeze in this cycle (R356)? -/
def freezes (s : State) : Bool := opensBay s && !(freezing s).isEmpty

/-- Every timed context of the bay with a trap standing at this cycle enters it, before any of them issues (R356). -/
def freezeTraps (s : State) : State :=
  (freezing s).foldl (fun t n => t.onLaunch n fun u => match timedEntry u with
    | some (r, v) => enterTrap r v
    | none => u) s

/-! ## Whose turn comes next (log 2) -/

/-- A cycle ends: the banks take its accesses (R251), time advances, and with it the schedule counter of every bay that is not frozen (R5, R77, R356). -/
def endCycle (s : State) : State :=
  let s1 := bankCycle s
  { s1 with cycle := s1.cycle + 1, ptpTop := (if s1.ptpTop ≤ s1.ptp then s1.ptp else s1.ptpTop), bays := s1.bays.map fun b => if b.frozen then b else { b with ctr := b.ctr + 1, run := b.run + 1 } }

/-- The first context of a list that has not had its turn in this cycle, with the others. -/
def pickTurn (cyc : Nat) : List Ctx → Option (Ctx × List Ctx)
  | [] => none
  | c :: r =>
    if c.turnAt ≤ cyc then some (c, r)
    else match pickTurn cyc r with
      | none => none
      | some (d, q) => some (d, c :: q)

/-- Contexts without the vacant ones. -/
def dropVacant (l : List Ctx) : List Ctx := l.filter fun c => c.life != .vacant

/-- The turn of a context ends; the next one has it, and after the last one the cycle ends. -/
def endTurn (s : State) : State :=
  let me := { s.me with turnAt := s.cycle + 1 }
  let all := dropVacant (s.ring ++ [me])
  match pickTurn s.cycle all with
  | some (c, r) => { s with me := c, ring := r, slot := .c }
  | none =>
    match all with
    | [] => endCycle { s with me := me, ring := [], slot := .c }
    | c :: r => endCycle { s with me := c, ring := r, slot := .c }

/-- After a stream's issue the next stream of the context has its turn. -/
def nextSlot (s : State) : State :=
  match s.slot with
  | .s => endTurn s
  | x => { s with slot := x.next }

/-- One issue turn: the stream of the slot issues, waits or does nothing. The turn passes on if the context kept it. -/
def issueTurn (s : State) : Ans :=
  if freezes s then .next { freezeTraps s with last := .trapped }
  else match issueOne s.slot s with
    | .next t => .next (nextSlot t)
    | r => r

end Sys2Proof.Machine
end

