-- ==== Sys2Proof/Machine/Events.lean ====
section
/-!
DEFINITION. Which step no word encodes is due before the next issue, the placing of a program, and one step (log 2, log 6).
-/
namespace Sys2Proof.Machine

/-! ## Steps of the device (log 2) -/

/-- Has no context had its turn in this cycle? -/
def cycleStart (s : State) : Bool := s.slot == .c && s.ctxs.all fun c => c.turnAt != s.cycle + 1

/-- The index of a barrier home with a generation that has reached its count (R134). -/
def barDue (s : State) : Option Nat := s.bars.findIdx? fun h => h.gens.any (reached h)

/-- A BAR.WT whose wait ended with the last cycle (R135). -/
def waitDue (s : State) : Option Instr :=
  s.ctxs.findSome? fun c => match c.barWait with
    | some b => if c.life == .active && deadlineEnds (s.seenBy c.launch) b then some (.barrierDeadline (Fin.ofNat _ b)) else none
    | none => none

/-- A node that can finish: one whose declared writes have no room waits (R260). -/
def nodeDue (s : State) : Option Instr := (s.nodes.find? (canFinish s)).map fun n => .nodeFinish n.die n.idx

/-- A write of the host or a general core that waited for version space and now has room (R260). -/
def hostDue (s : State) : Option Instr := (s.hostWait.head?).filter (roomFor s)

def leaseDue (s : State) : Option Instr :=
  (s.bays.find? fun b => grantDue s b && (chooseReq s b).isSome).map fun b => .leaseGrant b.die b.num

def restartStep (s : State) : Option Instr := (s.bays.find? (restartDue s)).map fun b => .timedRestart b.die b.num

/-- The oldest balloon message of a partition (R270). -/
def balloonMsg (s : State) : Option Instr :=
  s.parts.findSome? fun p => match takeMsg (s.mbx (p.bmbx / 256) (p.bmbx % 256)) with
    | none => none
    | some m => if messageDue s p (m.1.setWidth 63).toNat then some (.balloonMessage p.vmid (m.1.setWidth 63)) else none

/-- The earlier-refreshed of two contexts. -/
def olderView (a b : Ctx) : Ctx := if ((b.acq.getLast?).map (·.cycle)).getD 0 < ((a.acq.getLast?).map (·.cycle)).getD 0 then b else a

/-- Does any publish wait for version space: a boundary's, a save's, a node's, the host's or a general core's (R260)? -/
def waitsRoom (s : State) : Bool :=
  (s.ctxs.any fun c => c.life != .vacant && (lacksRoom s c || (drained c && saveShort (s.seenBy c.launch)))) ||
  (s.nodes.any fun n => n.st == .finishing && !canFinish s n) || !s.hostWait.isEmpty

/-- The node of the resident queued context with the oldest view, when a boundary waits for version space and the memory processor has no context to save yet (R260, R333; log 124). -/
def spaceSave (s : State) : Option (Nat × Nat) :=
  if !(waitsRoom s) || (s.nodes.any fun n => n.requests.any (·.die == 4)) then none
  else match s.ctxs.filter fun c => stoppable c && (s.node? c.nodeDie c.nodeIdx).any fun n => n.st == .running with
    | [] => none
    | c :: r => let d := r.foldl olderView c; some (d.nodeDie, d.nodeIdx)

/-- Steps of the memory system that are due. -/
def memoryDue (s : State) : Option Instr :=
  match s.parts.find? fun p => headFits s p.vmid with
  | some p => some (.parkedWritePlace p.vmid)
  | none => match s.parts.find? fun p => !(overdueIn s p.vmid).isEmpty with
    | some p => some (.outOfSpaceExpiry p.vmid)
    | none => match s.parts.find? (balloonDue s) with
      | some p => some (.ballooningEngine p.vmid)
      | none => match balloonMsg s with
        | some i => some i
        | none => if foldsNow s then some .versionFold else (spaceSave s).map fun n => .memoryProcessorPreemption n.1 n.2

/-- A pending change of tables that goes on (R247, R300, R301); a donation is its message's (R270). -/
def changeDue (s : State) : Option Instr :=
  s.shoots.findSome? fun x => if !shootDue s x then none else match x.1 with
    | .shoot r => some (.shootdown r)
    | .move r => some (.pageMigration r)
    | .map r => some (.mapRequest r)
    | .answer l ws => some (.memoryProcessorAnswer l (.mapped ws))
    | .give _ _ => none

/-- Steps of the scheduler, the arbiters and the memory processor that are due. -/
def deviceDue (s : State) : Option Instr :=
  if s.nodes.any (agesNow s) then some .priorityAging
  else match ((waitDue s).or (nodeDue s)).or (hostDue s) with
    | some i => some i
    | none => match s.dispatchDue with
      | d :: _ => some (.dispatch d)
      | [] => match leaseDue s with
        | some i => some i
        | none => match restartStep s with
          | some i => some i
          | none => match memoryDue s with
            | some i => some i
            | none => match changeDue s with
              | some i => some i
              | none => if closeDue s then some .epochTransitionClose else none

/-! ## Steps of the context whose turn it is (log 2) -/

/-- The start or the completion of an array command that is due (R209, R213). -/
def arrayDue (s : State) : Option Instr :=
  s.me.acmds.findSome? fun a =>
    if startReadyA s s.me a then (match a.kind with
      | .grid => some (.arrayCommandStart a.id)
      | .fold => some (.foldStart a.id)
      | .load => none)
    else if doneReadyA s s.me a then (match a.kind with
      | .grid => some (.arrayCommandComplete a.id)
      | .fold => some (.foldComplete a.id)
      | .load => some (.slotLoadComplete a.id))
    else none

/-- Are all ranks of a collective this device alone (R181)? Others' contributions come as an input. -/
def colAlone (s : State) (x : Cmd) : Bool := (s.comm s.me.die x.bank).all (· == s.rank)

/-- The step of a command that is due (R161, R165, R171, R181). -/
def cmdDue (s : State) : Option Instr :=
  s.me.cmds.findSome? fun x =>
    if startReady s.me x then some (.copyCommandStart x.id)
    else if x.st == .running && expLeft s x != 0 && blockDue s x then some (.expanderBlockDecode x.id)
    else if moveReady s x || (!x.isCol && unparked s x) then some (.copyComplete x.id)
    else if x.isCol && (unparked s x || (x.st == .running && decide (x.due ≤ s.now) && colAlone s x)) then some (.collectiveComplete x.id ⟨[], false⟩)
    else none

/-- Granules, pairs, loads and retirements that are due. -/
def storageDue (s : State) : Option Instr :=
  match s.me.loads.find? fun l => decide (l.done ≤ s.now) with
  | some l => some (.slotLoadComplete l.id)
  | none => match retDue s.me s.now with
    | some _ => some .rtStRetire
    | none => match slotBack s.me s.now with
      | some g => some (.slotGranuleReturn g)
      | none => (pairBack s.me s.now).map .accPairReturn

/-- Does the C stream retire a YIELD in this cycle (R146)? -/
def yieldsNow (s : State) : Bool :=
  canIssue s .c && match fetch s .c with
    | .bad _ => false
    | .ok w ext => (win s s.me .c w).isNone && decodeWord .c w ext == some .yield && waitsReady s.me .c (headerOf w) s.cycle

/-- Does a forced stop leave a YIELD of this cycle to stop the context: the deadline expires in it (R146, R334)? -/
def leavesYield (s : State) (n : Node) (k : StopKind) : Bool :=
  k == .forced && !n.savedOne && !decide (s.me.yieldDl ≤ s.ptpTop) && yieldsNow s

/-- A stop or a save of the context that is due (R334, R361). -/
def saveDue (s : State) : Option Instr :=
  match s.node? s.me.nodeDie s.me.nodeIdx with
  | none => none
  | some n =>
    if s.me.life == .stopped then (if saveReady s then s.me.saving.map fun k => .contextSave (recordedStop n k) else none)
    else if overruns s n then some .forcedStopOverrun
    else match stopNow s n with
      | none => none
      | some k => if leavesYield s n k then none else some (.contextSave (recordedStop n k))

/-- A trap of the context that is due; a timed context takes its traps at a freeze cycle, but for an interrupt of its handler (R346 to R348, R353, R356). -/
def trapDue (s : State) : Option Instr :=
  match s.me.trapWait with
  | some t => if workLeft s.me then none else some (.trapEntry t)
  | none =>
    if s.me.timed && !s.me.sup then none
    else if asyncStands s then some .asyncTrap
    else if irqStands s && (firstTrap s).isNone then some .interruptEntry else none

/-- The step of the context that is due. -/
def contextDue (s : State) : Option Instr :=
  if landOld s then some .resultLanding
  else match [StreamId.c, .a, .m, .s].find? fun x => match (s.me.strm x).held with
      | h :: _ => giveRoom s.me x h s.cycle
      | [] => false with
    | some x => some (.retirementTokenGive x)
    | none => match storageDue s with
      | some i => some i
      | none => match arrayDue s with
        | some i => some i
        | none => match cmdDue s with
          | some i => some i
          | none => match s.me.buckets.find? fires with
            | some k => some (.bucketFire k.base)
            | none => if landNew s && !freezes s then some .resultLanding else none

/-- The internal step that is due, if any: the barriers' at any time, the device's when a cycle begins, a context's before its streams issue. -/
def nextEvent (s : State) : Option Instr :=
  match barDue s with
  | some n => some (.barrierCompletion n)
  | none => match (if cycleStart s then deviceDue s else none) with
    | some i => some i
    | none =>
      if s.slot != .c || s.me.life == .vacant then none
      else match contextDue s with
        | some i => some i
        | none =>
          if deadlineNow s s.me then some .yieldDeadline
          else match trapDue s with
            | some i => some i
            | none => saveDue s

/-! ## A program placed for the next step (log 6) -/

/-- VA of the placed instruction: self rank, page offset 0. -/
def placedPc : W64 := 0x0FFF800000000000#64

/-- Bytes of the two translation trees: each a root, one table and a 1 GiB leaf; stage 2 from 0x1000, stage 1 from 0x3000 (R289 to R291). -/
def placedTables (x : StreamId) : List (Nat × Nat) :=
  let leaf := (2 ^ 18 - 1) * 4096 + 0xB
  [(0x1000, 0x2001), (0x2000, leaf), (0x3000, 0x4001), (0x4000, leaf + x.num * 2 ^ 53)]

/-- The base memory with the trees and the instruction. -/
def placedMem (s : State) (x : StreamId) (w : Nat) : Mem :=
  writeBases ((placedTables x).foldl (fun m p => writeBases m (locPa s.rank p.1) (leBytes 8 p.2)) s.mem) (locPa s.rank 0) (leBytes 8 w)

/-- One token in a FIFO, given before this cycle. -/
def oneToken (cyc : Nat) : Fifo := ⟨[⟨cyc, Ord.zero⟩], 0, 0⟩

/-- The context a placed instruction runs in: active, queued, in user mode, its stream at the instruction. -/
def placedCtx (s : State) (x : StreamId) (h : BitVec 4) : Ctx :=
  let c0 := { s.me with
    life := .active, launch := (if s.me.launch = 0 then s.launches + 1 else s.me.launch), timed := false, status := 0#2,
    trapWait := none, held := [], irq := 0#7, subst := [], s1Root := 0x3000, s2Root := 0x1000, turnAt := 0 }
  let c1 := c0.mapStrm x fun t => { t with pc := placedPc, held := [], stopped := false, ref := 0 }
  let c2 := if h.getLsbD 3 then c1.setFifo x.prev true (oneToken s.cycle) else c1
  if h.getLsbD 2 then c2.setFifo x.next false (oneToken s.cycle) else c2

/-- The state in which the next step fetches and runs the instruction with bits `w`. -/
def placedState (s : State) (nbits w : Nat) : State :=
  let v := w % 2 ^ nbits
  let x := (tableStream v).getD .c
  let h := headerOf (v % 2 ^ 32)
  { s with
    powered := true, inputs := [], slot := x, patches := [], scanned := [], shoots := [], last := .none,
    cycle := (if h.getLsbD 3 || h.getLsbD 2 then s.cycle + 1 else s.cycle),
    launches := (if s.me.launch = 0 then s.launches + 1 else s.launches),
    mem := placedMem s x v, me := placedCtx s x h }

/-! ## One step -/

/-- What a device without power reacts to (R403, R408). -/
def wakes : Instr → Bool
  | .resetRelease _ => true
  | _ => false

/-- One step of the machine (log 2): an input, else an internal step that is due, else an issue turn. -/
def stepNow (s : State) : Ans :=
  match s.inputs with
  | i :: r => if s.powered || wakes i then exec i { s with inputs := r } else .next { s with inputs := r }
  | [] =>
    if !s.powered then .fault .noPower
    else match nextEvent s with
      | some e => exec e s
      | none => issueTurn s

end Sys2Proof.Machine
end

