-- ==== Sys2Proof/Machine/Step.lean ====
section
/-!
DEFINITION. One step, and a program placed for it.
-/
namespace Sys2Proof.Machine

/-- One step: the next state, or why there is none. -/
def step (s : State) : Host.Outcome State Fault Refusal := stepNow s

/-- The state in which the next step fetches and runs the instruction with bits `w` (log 6). -/
def State.withFetchWord (s : State) (nbits w : Nat) : State := placedState s nbits w

end Sys2Proof.Machine
end

