-- ==== Sys2Proof/Safety.lean ====
section
/-!
DEFINITION. The terms the claims use: a safe step, a sound state, what an instruction leaves as it was, where a result goes, and the value tables of the register instructions, written from the rules.
-/
namespace Sys2Proof.Safety

open Sys2Proof.Machine

/-- A step is safe when it answers a next state. -/
def SafeStep (s : State) : Prop := ∃ t, step s = .next t

/-- The state keeps its invariant: memory is in canonical form. -/
def Sound (s : State) : Prop := s.mem.wf = true

/-! ## Frames -/

/-- Nothing outside the context whose turn it is changed, but for the numbering of results and commands. -/
def OnlyMe (s t : State) : Prop := t = { s with me := t.me, last := t.last, seqs := t.seqs }

/-- Every byte reads as before, at its base and as the C stream sees it. -/
def SameBytes (s t : State) : Prop :=
  ∀ x, readBase t.mem x = readBase s.mem x ∧ readCell t t.me (visC t.me) x = readCell s s.me (visC s.me) x

/-- Stream x retired an instruction of n words that transfers no control (R78, R117, R351). -/
def Ran (x : StreamId) (n : Nat) (s t : State) : Prop :=
  t.last = .retired ∧ t.me.strm x = countRetired (stepPast n s.now (s.me.strm x))

/-- Stream x retired an instruction that transfers control to an address (R117). -/
def Went (x : StreamId) (a : W64) (s t : State) : Prop :=
  t.last = .retired ∧ (t.me.strm x).pc = a ∧ (t.me.strm x).loops = loopJump a (s.me.strm x).loops ∧
  (t.me.strm x).acc = ((s.me.strm x).acc + 1) % 2 ^ 48 ∧ (t.me.strm x).held = (s.me.strm x).held ∧
  (t.me.strm x).ord = (s.me.strm x).ord ∧ (t.me.strm x).stopped = (s.me.strm x).stopped

/-- A context as another one but for one stream. -/
def ButStream (x : StreamId) (c d : Ctx) : Prop := d = c.setStrm x (d.strm x)

/-- The instruction waits at issue: nothing changed (R18, R127). -/
def Waits (s t : State) : Prop := t = { s with last := .waiting }

/-! ## Where a result goes (R23, R104, R105) -/

/-- Pending results with those of one instruction added, each with its landing cycle. -/
def withPends (seq : Nat) (l : List Pend) : List (Nat × Land) → List Pend
  | [] => l
  | (due, w) :: r => withPends (seq + 1) (insertPend ⟨due, seq, w⟩ l) r

/-- Register d of the s family keeps its value, and v is to land in it `lat` cycles after this one; ResultsLand says what the landing does. -/
def GetsS (d : SReg) (v : W64) (lat : Nat) (s t : State) : Prop :=
  t.me.s = s.me.s ∧ t.me.pend = withPends s.seqs s.me.pend [(s.clock + lat, .s d v)]

/-- The same for a g register. -/
def GetsG (d : GReg) (v : W64) (lat : Nat) (s t : State) : Prop :=
  t.me.g = s.me.g ∧ t.me.pend = withPends s.seqs s.me.pend [(s.clock + lat, .g d v)]

/-- An FP32 result is to land in its register and its flags in FFLAGS, both in the landing cycle; with nf no flags are (R105, R110). -/
def GetsF (nf : Bool) (d : FReg) (r : Res) (lat : Nat) (s t : State) : Prop :=
  t.me.f = s.me.f ∧ t.me.fflags = s.me.fflags ∧
  t.me.pend = withPends s.seqs s.me.pend
    ((s.clock + lat, .f d (BitVec.ofNat 32 r.bits)) :: if nf then [] else [(s.clock + lat, .fflags r.flags)])

/-- 128 lanes are to land in a row register and their flags in LF (R26, R216). -/
def GetsV (nf : Bool) (d : VReg) (v : Row) (fs : List Flags) (lat : Nat) (s t : State) : Prop :=
  t.me.v = s.me.v ∧ t.me.lf = s.me.lf ∧
  t.me.pend = withPends s.seqs s.me.pend ((s.clock + lat, .v d v) :: if nf then [] else [(s.clock + lat, .lf fs)])

/-! ## Values of the integer instructions (R106 to R109) -/

/-- Destination, value, latency and words of an integer instruction of the C stream. -/
def intOp : Instr → Option (SReg × (Ctx → W64) × Nat × Nat)
  | .add d a b => some (d, fun c => BitVec.ofNat 64 ((rdS c a).toNat + (rdS c b).toNat), 1, 1)
  | .sub d a b => some (d, fun c => BitVec.ofInt 64 ((rdS c a).toInt - (rdS c b).toInt), 1, 1)
  | .mul d a b => some (d, fun c => BitVec.ofNat 64 ((rdS c a).toNat * (rdS c b).toNat), 3, 1)
  | .mulh d a b => some (d, fun c => BitVec.ofInt 64 ((rdS c a).toInt * (rdS c b).toInt / 2 ^ 64), 3, 1)
  | .div d a b => some (d, fun c => if rdS c b = 0#64 then -1#64 else (rdS c a).sdiv (rdS c b), 20, 1)
  | .divu d a b => some (d, fun c => if rdS c b = 0#64 then -1#64 else rdS c a / rdS c b, 20, 1)
  | .rem d a b => some (d, fun c => if rdS c b = 0#64 then rdS c a else (rdS c a).srem (rdS c b), 20, 1)
  | .remu d a b => some (d, fun c => if rdS c b = 0#64 then rdS c a else rdS c a % rdS c b, 20, 1)
  | .and d a b => some (d, fun c => rdS c a &&& rdS c b, 1, 1)
  | .or d a b => some (d, fun c => rdS c a ||| rdS c b, 1, 1)
  | .xor d a b => some (d, fun c => rdS c a ^^^ rdS c b, 1, 1)
  | .shl d a b => some (d, fun c => BitVec.ofNat 64 ((rdS c a).toNat * 2 ^ ((rdS c b).toNat % 64)), 1, 1)
  | .shr d a b => some (d, fun c => BitVec.ofNat 64 ((rdS c a).toNat / 2 ^ ((rdS c b).toNat % 64)), 1, 1)
  | .sra d a b => some (d, fun c => BitVec.ofInt 64 ((rdS c a).toInt / 2 ^ ((rdS c b).toNat % 64)), 1, 1)
  | .min d a b => some (d, fun c => if (rdS c a).toInt ≤ (rdS c b).toInt then rdS c a else rdS c b, 1, 1)
  | .max d a b => some (d, fun c => if (rdS c a).toInt ≤ (rdS c b).toInt then rdS c b else rdS c a, 1, 1)
  | .minu d a b => some (d, fun c => if (rdS c a).toNat ≤ (rdS c b).toNat then rdS c a else rdS c b, 1, 1)
  | .maxu d a b => some (d, fun c => if (rdS c a).toNat ≤ (rdS c b).toNat then rdS c b else rdS c a, 1, 1)
  | .slt d a b => some (d, fun c => if (rdS c a).toInt < (rdS c b).toInt then 1#64 else 0#64, 1, 1)
  | .sltu d a b => some (d, fun c => if (rdS c a).toNat < (rdS c b).toNat then 1#64 else 0#64, 1, 1)
  | .clz d a => some (d, fun c => BitVec.ofNat 64 (clz64 (rdS c a)), 1, 1)
  | .ctz d a => some (d, fun c => BitVec.ofNat 64 (ctz64 (rdS c a)), 1, 1)
  | .popc d a => some (d, fun c => BitVec.ofNat 64 (popCount 64 (rdS c a).toNat), 1, 1)
  | .bext d a b => some (d, fun c =>
      BitVec.ofNat 64 ((rdS c a).toNat / 2 ^ ((rdS c b).toNat % 64) % 2 ^ min ((rdS c b).toNat / 256 % 128) 64), 1, 1)
  | .addi d a m => some (d, fun c => BitVec.ofInt 64 ((rdS c a).toInt + m.toInt), 1, 1)
  | .andi d a m => some (d, fun c => rdS c a &&& m.signExtend 64, 1, 1)
  | .ori d a m => some (d, fun c => rdS c a ||| m.signExtend 64, 1, 1)
  | .xori d a m => some (d, fun c => rdS c a ^^^ m.signExtend 64, 1, 1)
  | .shli d a m => some (d, fun c => BitVec.ofNat 64 ((rdS c a).toNat * 2 ^ m.toNat), 1, 1)
  | .shri d a m => some (d, fun c => BitVec.ofNat 64 ((rdS c a).toNat / 2 ^ m.toNat), 1, 1)
  | .srai d a m => some (d, fun c => BitVec.ofInt 64 ((rdS c a).toInt / 2 ^ m.toNat), 1, 1)
  | .slti d a m => some (d, fun c => if (rdS c a).toInt < m.toInt then 1#64 else 0#64, 1, 1)
  | .lui d m => some (d, fun _ => BitVec.ofInt 64 (m.toInt * 4096), 1, 1)
  | .li d m e => some (d, fun _ => BitVec.ofInt 64 (m.toInt * 2 ^ 32 + e.toNat), 1, 2)
  | _ => none

/-- Destination, value, latency and words of an address instruction of the A stream (R154). -/
def addrOp : Instr → Option (GReg × (Ctx → W64) × Nat × Nat)
  | .gadd d a b => some (d, fun c => BitVec.ofNat 64 ((rdG c a).toNat + (rdG c b).toNat), 1, 1)
  | .gsub d a b => some (d, fun c => BitVec.ofInt 64 ((rdG c a).toInt - (rdG c b).toInt), 1, 1)
  | .gmul d a b => some (d, fun c => BitVec.ofNat 64 ((rdG c a).toNat * (rdG c b).toNat), 3, 1)
  | .gshl d a b => some (d, fun c => BitVec.ofNat 64 ((rdG c a).toNat * 2 ^ ((rdG c b).toNat % 64)), 1, 1)
  | .gshr d a b => some (d, fun c => BitVec.ofNat 64 ((rdG c a).toNat / 2 ^ ((rdG c b).toNat % 64)), 1, 1)
  | .gand d a b => some (d, fun c => rdG c a &&& rdG c b, 1, 1)
  | .gor d a b => some (d, fun c => rdG c a ||| rdG c b, 1, 1)
  | .gmin d a b => some (d, fun c => if (rdG c a).toInt ≤ (rdG c b).toInt then rdG c a else rdG c b, 1, 1)
  | .gaddi d a m => some (d, fun c => BitVec.ofInt 64 ((rdG c a).toInt + m.toInt), 1, 1)
  | .gli d m e => some (d, fun _ => BitVec.ofInt 64 (m.toInt * 2 ^ 32 + e.toNat), 1, 2)
  | _ => none

/-! ## FP32 instructions of the C stream (R110 to R113) -/

/-- Destination, result and latency of an FP32 instruction that writes an f register and may raise flags. -/
def fpOp : Instr → Option (Bool × FReg × (Ctx → Res) × Nat)
  | .fadd nf d a b => some (nf, d, fun c => addFp32 (c.frnd.toNat % 4) (rdF c a) (rdF c b), 4)
  | .fsub nf d a b => some (nf, d, fun c => subFp32 (c.frnd.toNat % 4) (rdF c a) (rdF c b), 4)
  | .fmul nf d a b => some (nf, d, fun c => mulFp32 (c.frnd.toNat % 4) (rdF c a) (rdF c b), 4)
  | .ffma nf d a b => some (nf, d, fun c => fmaFp32 (c.frnd.toNat % 4) (rdF c a) (rdF c b) (rdF c d), 4)
  | .fdiv nf d a b => some (nf, d, fun c => divFp32 (c.frnd.toNat % 4) (rdF c a) (rdF c b), 12)
  | .fsqrt nf d a => some (nf, d, fun c => sqrtFp32 (c.frnd.toNat % 4) (rdF c a), 12)
  | .fcvtF nf d a => some (nf, d, fun c => cvtF (c.frnd.toNat % 4) (rdS c a), 4)
  | _ => none

/-- Destination and value of an FP32 instruction that writes an f register and raises nothing, whatever nf is. -/
def fpMoveOp : Instr → Option (FReg × (Ctx → W32))
  | .fmin _ d a b => some (d, fun c => minFp32 (rdF c a) (rdF c b))
  | .fmax _ d a b => some (d, fun c => maxFp32 (rdF c a) (rdF c b))
  | .fmv _ d a => some (d, fun c => rdF c a)
  | .fsgnj _ d a b => some (d, fun c => (rdF c b).extractLsb 31 31 ++ (rdF c a).extractLsb 30 0)
  | _ => none

/-- Destination and value of an FP32 instruction that writes an s register and raises nothing, whatever nf is. -/
def fpTestOp : Instr → Option (SReg × (Ctx → W64))
  | .fcmpEq _ d a b => some (d, fun c => if eqFp32 (rdF c a) (rdF c b) then 1#64 else 0#64)
  | .fcmpLt _ d a b => some (d, fun c => if ltFp32 (rdF c a) (rdF c b) then 1#64 else 0#64)
  | .fcmpLe _ d a b => some (d, fun c => if leFp32 (rdF c a) (rdF c b) then 1#64 else 0#64)
  | .fclass _ d a => some (d, fun c => BitVec.ofNat 64 (classFp32 (rdF c a)))
  | _ => none

/-! ## Transfers of control (R81, R114, R115, R155, R214, R235) -/

/-- Address `off` words from a stream's PC. -/
def wordsFrom (s : State) (x : StreamId) (off : Int) : W64 := BitVec.ofInt 64 ((pcOf s x).toInt + 4 * off)

/-- Stream, condition and target of a conditional branch on registers. -/
def branchOp (s : State) : Instr → Option (StreamId × Prop × W64)
  | .beq a b o => some (.c, rdS s.me a = rdS s.me b, wordsFrom s .c o.toInt)
  | .bne a b o => some (.c, rdS s.me a ≠ rdS s.me b, wordsFrom s .c o.toInt)
  | .blt a b o => some (.c, (rdS s.me a).toInt < (rdS s.me b).toInt, wordsFrom s .c o.toInt)
  | .bge a b o => some (.c, (rdS s.me b).toInt ≤ (rdS s.me a).toInt, wordsFrom s .c o.toInt)
  | .bltu a b o => some (.c, (rdS s.me a).toNat < (rdS s.me b).toNat, wordsFrom s .c o.toInt)
  | .bgeu a b o => some (.c, (rdS s.me b).toNat ≤ (rdS s.me a).toNat, wordsFrom s .c o.toInt)
  | .gbEq a b o => some (.a, rdG s.me a = rdG s.me b, wordsFrom s .a o.toInt)
  | .gbNe a b o => some (.a, rdG s.me a ≠ rdG s.me b, wordsFrom s .a o.toInt)
  | .gbLt a b o => some (.a, (rdG s.me a).toInt < (rdG s.me b).toInt, wordsFrom s .a o.toInt)
  | .gbGe a b o => some (.a, (rdG s.me b).toInt ≤ (rdG s.me a).toInt, wordsFrom s .a o.toInt)
  | _ => none

/-- Stream and target of a jump that writes no register. -/
def jumpOp (s : State) : Instr → Option (StreamId × W64)
  | .jmp o => some (.c, wordsFrom s .c o.toInt)
  | .jr a => some (.c, rdS s.me a)
  | .gjmp o => some (.a, wordsFrom s .a o.toInt)
  | .mjmp o => some (.m, wordsFrom s .m o.toInt)
  | .sjmp o => some (.s, wordsFrom s .s o.toInt)
  | _ => none

/-- Stream, count and body length of a loop instruction whose count is in a register (R116, R155). -/
def loopOp (s : State) : Instr → Option (StreamId × W64 × BitVec 12)
  | .loop a o => some (.c, rdS s.me a, o)
  | .gloop a o => some (.a, rdG s.me a, o)
  | _ => none

/-- Stream, queue and offset of a loop whose count a queue gives (R214, R235). -/
def loopQOp : Instr → Option (StreamId × QNo × BitVec 12)
  | .mloop q o => some (.m, q, o)
  | .sloop q o => some (.s, q, o)
  | _ => none

/-- Stream, queue, whether it is taken on a value that is not zero, and target of a branch on a queue (R214, R235). -/
def branchQOp (s : State) : Instr → Option (StreamId × QNo × Bool × W64)
  | .mbQNz q o => some (.m, q, true, wordsFrom s .m o.toInt)
  | .mbQZ q o => some (.m, q, false, wordsFrom s .m o.toInt)
  | .sbQNz q o => some (.s, q, true, wordsFrom s .s o.toInt)
  | .sbQZ q o => some (.s, q, false, wordsFrom s .s o.toInt)
  | _ => none

/-- The queue has an entry that can be popped in this cycle, and it is v (R21). -/
def AtFront (s : State) (q : QNo) (v : W64) : Prop := (s.me.queue q).front? s.cycle = some v

/-- A context with the oldest entry of a queue removed (R21). -/
def popped (s : State) (q : QNo) : Ctx := s.me.setQueue q ((s.me.queue q).pop 1 s.cycle)

/-- Stream, queue and value of a push (R21, R126, R154). -/
def pushOp (s : State) : Instr → Option (StreamId × QNo × W64)
  | .qpush q a => some (.c, q, rdS s.me a)
  | .gpush q a => some (.a, q, rdG s.me a)
  | _ => none

/-! ## Row arithmetic (R216 to R221) -/

/-- Flags, destination, latency and lane result of a row instruction. -/
def rowInstrOp : Instr → Option (Bool × VReg × Nat × (Ctx → Nat → Res))
  | .vadd nf d a b => some (nf, d, 4, fun c j => addFp32 (c.frnd.toNat / 4) (lane (rdV c a) j) (lane (rdV c b) j))
  | .vsub nf d a b => some (nf, d, 4, fun c j => subFp32 (c.frnd.toNat / 4) (lane (rdV c a) j) (lane (rdV c b) j))
  | .vmul nf d a b => some (nf, d, 4, fun c j => mulFp32 (c.frnd.toNat / 4) (lane (rdV c a) j) (lane (rdV c b) j))
  | .vfma nf d a b e => some (nf, d, 4, fun c j => fmaFp32 (c.frnd.toNat / 4) (lane (rdV c a) j) (lane (rdV c b) j) (lane (rdV c e) j))
  | .vmax nf d a b => some (nf, d, 1, fun c j => ⟨(maxFp32 (lane (rdV c a) j) (lane (rdV c b) j)).toNat, 0#6⟩)
  | .vmin nf d a b => some (nf, d, 1, fun c j => ⟨(minFp32 (lane (rdV c a) j) (lane (rdV c b) j)).toNat, 0#6⟩)
  | .vcmp nf d a b cc => some (nf, d, 1, fun c j => ⟨if condHolds cc (lane (rdV c a) j) (lane (rdV c b) j) then 0x3F800000 else 0, 0#6⟩)
  | .vsel nf d a b e => some (nf, d, 1, fun c j =>
      ⟨(if (lane (rdV c e) j).toNat % 2 ^ 31 = 0 then lane (rdV c b) j else lane (rdV c a) j).toNat, 0#6⟩)
  | .vfld nf d a b w => some (nf, d, 1, fun c j => fieldOf (lane (rdV c a) j) (lane (rdV c b) j) (w.toNat + 1))
  | .vrcp nf d a => some (nf, d, 8, fun c j => rcpFp32 (c.frnd.toNat / 4) (lane (rdV c a) j))
  | .vrsq nf d a => some (nf, d, 8, fun c j => rsqFp32 (c.frnd.toNat / 4) (lane (rdV c a) j))
  | .vcvt nf d a sat f => some (nf, d, 4, fun c j => vcvtLane f sat (lane (rdV c a) j))
  | .vmov nf d a => some (nf, d, 1, fun c j => ⟨(lane (rdV c a) j).toNat, 0#6⟩)
  | _ => none

/-! ## Memory accesses of the C stream (R118 to R125) -/

/-- Pieces of a checked access, as the bytes' locations in order. -/
def bytesAt (a : Access) : List Nat := segLocs a.ss

/-- No adjoint accumulate stands on any cell, published or not (R314, R315). -/
def NoAccs (s : State) : Prop := (∀ v ∈ s.mem.vers, v.acc = none) ∧ ∀ p ∈ s.me.priv, ∀ w, p.kind ≠ .acc w

/-- The pointer of LD and ST (R118): base plus offset times size, the space code unchanged. -/
def ldstPtr (s : State) (a : SReg) (off : BitVec 10) (z : MemSize) : W64 :=
  BitVec.ofInt 64 ((rdS s.me a).toInt + off.toInt * (sizeBytes z : Int))

/-- The access of an LD or ST passes its checks, with these pieces and, in a timed context, this latency. -/
def LdReady (s : State) (z : MemSize) (a : SReg) (off : BitVec 10) (acc : Access) : Prop :=
  (rdS s.me a).toNat / 2 ^ 60 = (ldstPtr s a off z).toNat / 2 ^ 60 ∧
  checkAccess s false .read (ldstPtr s a off z) (sizeBytes z) = .ok acc

def StReady (s : State) (z : MemSize) (a : SReg) (off : BitVec 10) (acc : Access) : Prop :=
  (rdS s.me a).toNat / 2 ^ 60 = (ldstPtr s a off z).toNat / 2 ^ 60 ∧
  checkAccess s false .write (ldstPtr s a off z) (sizeBytes z) = .ok acc ∧
  sealedHit s.mem acc.ss = false ∧ shadowHit s true acc.ss = false

/-- The access does not act on a differentiable page under FWD or REV (R121, R313). -/
def PlainPage (s : State) (acc : Access) : Prop := segsDiff acc.ss = false ∨ s.me.dmode = .off

/-- An LD that reads memory and nothing else: no differentiable page, mode OFF, or a word under FWD (R121, R313). -/
def PlainLoad (s : State) (z : MemSize) (acc : Access) : Prop := PlainPage s acc ∨ (s.me.dmode = .fwd ∧ z = .w)

/-- First location of a checked access. -/
def firstAt (acc : Access) : Nat := (bytesAt acc).headD 0

/-- What a word access on its way to a bank leaves pending from its issue on: in a timed context the latch of its result, if it has one, and the mark of an access to another core (R122, R253, R357). -/
def wordPends (s : State) (x : Nat) (latch : List (Nat × Land)) : List (Nat × Land) :=
  if s.me.timed then latch ++ if sramCore x = s.me.coreIdx then [] else [(s.clock + 24, .remote (sramCore x))] else []

/-- A word access of the C stream is on its way to a bank (R250, R252, R253): appended to those in flight, and served no sooner than its distance allows. -/
def Sent (op : WordOp) (x : Nat) (ptr : W64) (latch : List (Nat × Land)) (s t : State) : Prop :=
  (∃ w, t.me.words = s.me.words ++ [w] ∧ w.id = s.seqs ∧ w.op = op ∧ w.loc = x ∧ w.ptr = ptr ∧ w.addr = s.me.strC.pc ∧ s.cycle + wordTravel s x ≤ w.from0) ∧
  t.me.pend = withPends (s.seqs + 1) s.me.pend (wordPends s x latch)

/-- Bytes that are no byte of a compression record read as before (R271). -/
def SameData (s t : State) : Prop :=
  ∀ x, readBase t.mem x = readBase s.mem x ∧ (isRecord x = false → readCell t t.me (visC t.me) x = readCell s s.me (visC s.me) x)

/-- Operation, width, scope, destination, pointer and operand of an atomic (R90, R123). -/
def atomOp : Instr → Option (AtOp × Bool × Scope × SReg × SReg × SReg)
  | .atAdd d a b sc w => some (.add, w, sc, d, a, b)
  | .atBinc d a b sc w => some (.binc, w, sc, d, a, b)
  | .atCas d a b sc w => some (.cas, w, sc, d, a, b)
  | .atSwp d a b sc w => some (.swp, w, sc, d, a, b)
  | .atMax d a b sc w => some (.max, w, sc, d, a, b)
  | .atFadd d a b sc => some (.fadd, true, sc, d, a, b)
  | _ => none

/-- Bytes of an atomic's cell. -/
def atomBytes (w32 : Bool) : Nat := if w32 then 4 else 8

/-- The request an atomic makes to the home of its cell (R123, R125). -/
def atomReq (s : State) (op : AtOp) (w32 : Bool) (d b : SReg) (acc : Access) : AtomReq := ⟨op, w32, firstAt acc, rdS s.me b, rdS s.me d⟩

/-- The atomic passes its checks (R124): space, alignment, access, target, page, scope; it is no third access to another core (R253). -/
def AtomReady (s : State) (w32 : Bool) (sc : Scope) (a : SReg) (acc : Access) : Prop :=
  let p := rdS s.me a
  (spaceOf p = .glb ∨ spaceOf p = .scr) ∧ p.toNat % atomBytes w32 = 0 ∧
  checkAccess s true .rmw p (atomBytes w32) = .ok acc ∧ sealedHit s.mem acc.ss = false ∧ shadowHit s true acc.ss = false ∧
  PlainPage s acc ∧ scopeOk s sc (firstAt acc) = true ∧ remoteWaits s acc = false

/-- What brings a value from memory to an s register: one from another device, or from the host bus, stands as outstanding over a link until it lands (R366). -/
def fromMem (s : State) (d : SReg) (v : W64) (x : Nat) (p : W64) : Land :=
  if locRank x = s.rank ∧ isHostBus x = false then .s d v else .far d v x p s.me.strC.pc

/-- The sectors of its block are found (R266), or it needs none. -/
def AtomPlaced (s : State) (op : AtOp) (w32 : Bool) (d a b : SReg) (acc : Access) : Prop :=
  segsComp acc.ss = true → atomBad s.mem (atomReq s op w32 d b acc) = false →
    (reserveAtom (atomPriv s (atomReq s op w32 d b acc) d (rdS s.me a)) s).2 = true

/-! ## The issue of a word (R18, R74 to R78, R100) -/

/-- The next step issues the word `w` (with `ext` after it) at the PC of the stream of the slot: no input, no internal step and no freeze comes first, the stream may issue, no patch slot matches, no result is pending that the word waits for, and its header lets it. `h` is the header as tokens: in a paced context it counts cycles, in supervisor mode it is not looked at. -/
def Issues (s : State) (w ext : Nat) (h : BitVec 4) : Prop :=
  s.powered = true ∧ s.inputs = [] ∧ nextEvent s = none ∧ freezes s = false ∧ frozenFor s = false ∧
  canIssue s s.slot = true ∧ fetch s s.slot = .ok w ext ∧ win s s.me s.slot w = none ∧ subIndex s.me s.slot = 0 ∧
  wordHeld s s.slot w ext = false ∧
  ((s.me.paced = true ∧ h = 0#4 ∧ (s.me.strm s.slot).ref + (headerOf w).toNat ≤ s.now) ∨
   (s.me.paced = false ∧ usesTokens s.me = true ∧ h = headerOf w ∧ waitsReady s.me s.slot h s.cycle = true) ∨
   (s.me.paced = false ∧ usesTokens s.me = false ∧ h = 0#4))

/-! ## Traps and special registers (R42 to R44, R349 to R357) -/

/-- TRAP.CAUSE of a trap (R349): class, stream (0 for classes 15 and 16), qualifier, and the page of the record. -/
def causeWord (t : TrapReq) (recVa : W64) : W64 :=
  BitVec.ofNat 64 (t.cls * 2 ^ 58 + (if t.cls = 15 ∨ t.cls = 16 then 0 else t.stream.num) * 2 ^ 56 + t.qual * 2 ^ 52 + recVa.toNat / 2 ^ 8 % 2 ^ 39 * 2 ^ 8)

/-- A trap of the context enters at once, in the handler at TRAP.VEC: outside a handler, unless it is an interrupt (R347), nothing in flight (in a queued context), no patch slot of the class, no default vector (R326, R353, R376, R377). -/
def CanEnter (t : TrapReq) (s : State) : Prop :=
  Sound s ∧ s.judging = false ∧ s.me.life ≠ .vacant ∧ (s.me.sup = true → t.cls = 16) ∧ s.me.recPage ≠ 0 ∧ winTrap s s.me (trapStream t) t.cls = none ∧ trapSlotOff t s = 0 ∧
  s.me.trapVec ≠ defVecOf s s.me.vmid ∧ s.me.cmds = [] ∧ s.me.acmds = [] ∧ s.me.loads = [] ∧ s.me.rets = [] ∧
  (s.me.timed = false → s.me.pend = [] ∧ s.me.words = []) ∧ ∀ p ∈ s.me.pend, s.clock ≤ p.due

/-- The frame of an entry of a class (R353, R357): in a timed context the results still to land and the barrier waited on; of an out-of-space fault the write its handler may have made again (R269). -/
def frameOf (cls : Nat) (c : Ctx) : Frame :=
  ⟨c.strC.loops, c.subst, if c.timed then c.pend else [], [c.strC.ref, c.strA.ref, c.strM.ref, c.strS.ref],
    [c.strC.pc, c.strA.pc, c.strM.pc, c.strS.pc], if cls = 8 then c.withdrawn.head? else none, if c.timed then c.barWait else none⟩

/-- The context after an entry (R347, R353): supervisor mode with interrupts off, the C stream at the vector with no loop open, cause and frame set and the frame's bytes in their granule, the sources of an interrupt cleared; the results of a queued context have landed, those of a timed one stand in the frame. -/
def entryCtx (t : TrapReq) (cyc : Nat) (c : Ctx) : Ctx :=
  { c with
    status := 1#2, strC := { c.strC with pc := c.trapVec, loops := [], ref := cyc }, subst := [], pend := [],
    trapCause := causeWord t c.recVa, frame := some (frameOf t.cls c), frameImg := ctxImage c,
    withdrawn := if t.cls = 8 then c.withdrawn.tail else c.withdrawn, trapWait := none, barWait := none, diffWait := false,
    irq := if t.cls = 16 then 0#7 else c.irq, irqNow := false }

/-- The record of an entry stands in the record page (R350, R351) and no other byte changed: cause, status, the four PCs, sources, the streams' counts, INFO, and the report of R304 where the trap has one. -/
def Recorded (t : TrapReq) (s u : State) : Prop :=
  u.mem = { s.mem with base := u.mem.base, poison := u.mem.poison } ∧
  recField u 0 8 = (causeWord t s.me.recVa).toNat ∧ recField u 8 8 = s.me.status.toNat ∧
  (∀ x, recField u (96 + 8 * StreamId.num x) 8 = (pcOf s x).toNat) ∧ recField u 128 8 = s.me.irq.toNat ∧
  (∀ x, recField u (136 + 6 * StreamId.num x) 6 = (s.me.strm x).acc % 2 ^ 48) ∧
  readBases u.mem (locPa s.rank s.me.recPage + 224) 32 = (List.range 32).map (fun i => if t.cls = 5 ∧ t.qual = 3 then t.info.getD (64 + i) 0#8 else 0#8) ∧
  readBases u.mem (locPa s.rank s.me.recPage + 160) 64 = (List.range 64).map (fun i => t.info.getD i 0#8) ∧
  ∀ x, x < locPa s.rank s.me.recPage ∨ locPa s.rank s.me.recPage + 256 ≤ x → readBase u.mem x = readBase s.mem x

/-- The bay of a timed context that traps is frozen; no other bay, and no bay for a queued context, changes (R356). -/
def Frozen (s u : State) : Prop :=
  if s.me.timed then
    u.bay s.me.die s.me.bay = { s.bay s.me.die s.me.bay with frozen := true, trapped := s.me.launch :: (s.bay s.me.die s.me.bay).trapped } ∧
    ∀ d n, (d ≠ s.me.die ∨ n ≠ s.me.bay) → u.bay d n = s.bay d n
  else u.bays = s.bays

/-- A lost link is logged with its trap, and an uncorrectable error that the log has no entry for; no other trap is (R284, R367; log 18). -/
def Logged (t : TrapReq) (s u : State) : Prop :=
  if t.cls = 15 ∨ (t.cls = 14 ∧ ∀ e ∈ s.errors, e.corrected = true ∨ e.loc / 512 ≠ poisonLoc s t / 512) then ∃ e, u.errors = s.errors ++ [e] ∧ e.time = s.ptp ∧ e.corrected = false ∧ u.fresh = s.fresh + 1
  else u.errors = s.errors ∧ u.fresh = s.fresh

/-- The trap was taken: the context entered, its record stands, and nothing else changed. -/
def Entered (t : TrapReq) (s u : State) : Prop :=
  u.me = entryCtx t s.cycle s.me ∧ Recorded t s u ∧ Frozen s u ∧ Logged t s u ∧
  u = { s with me := u.me, last := u.last, mem := u.mem, bays := u.bays, errors := u.errors, fresh := u.fresh }

/-- The CSRs a mode may read (R42, R43). -/
def mayRead (sup : Bool) (r : Csr) : Bool := sup || !([Csr.adjRoot, .trapVec, .trapCause].contains r)

/-- The CSRs a mode may write (R42, R43). -/
def mayWrite (sup : Bool) (r : Csr) : Bool :=
  [Csr.frnd, .fflags, .scaleRcp, .tapeBase, .tapeLimit].contains r || (sup && [Csr.status, .tapeHead, .adjRoot, .expStall, .trapVec].contains r)

/-- Bits of a CSR that a program may write (R42). -/
def csrBits : Csr → Nat
  | .status => 2
  | .frnd => 4
  | .fflags => 5
  | .scaleRcp => 32
  | _ => 64

/-- Does a write of the CSR stand until the differentiable accesses in flight are done (R153)? -/
def csrHeld (r : Csr) (c : Ctx) : Bool :=
  [Csr.tapeBase, .tapeLimit, .tapeHead, .adjRoot].contains r && ((c.cmds.any fun x => x.dmode != .off) || diffParked c)

/-! ## Commands of the A stream (R161 to R186) -/

/-- Kind and operands of a copy command. -/
def copyOp : Instr → Option (CmdKind × GReg × BankNo × LReg × TagNo × Bool × Nat)
  | .cpIn g b l t ser w => some (.cpIn, g, b, l, t, ser, w.toNat)
  | .cpOut g b l t ser w => some (.cpOut, g, b, l, t, ser, w.toNat)
  | .cpBb g b l t ser w => some (.cpBb, g, b, l, t, ser, w.toNat)
  | .cpGth g b l t ser w => some (.cpGth, g, b, l, t, ser, w.toNat)
  | .cpSct g b l t ser w => some (.cpSct, g, b, l, t, ser, w.toNat)
  | .cpFill g b l t ser w => some (.cpFill, g, b, l, t, ser, w.toNat)
  | _ => none

/-- Kind and operands of a collective command; the communicator stands in the bank field. -/
def colOp : Instr → Option (CmdKind × GReg × BankNo × LReg × TagNo × Bool × Nat)
  | .colRed g b l t ser w => some (.colRed, g, b, l, t, ser, w.toNat)
  | .colRs g b l t ser w => some (.colRs, g, b, l, t, ser, w.toNat)
  | .colAg g b l t ser w => some (.colAg, g, b, l, t, ser, w.toNat)
  | .colBc g b l t ser w => some (.colBc, g, b, l, t, ser, w.toNat)
  | _ => none

/-- A command stands for the instruction that issued it, with what it read at issue (R161, R165, R180). -/
def StandsAs (k : CmdKind) (g : GReg) (b : BankNo) (l : LReg) (t : TagNo) (ser : Bool) (w1 : Nat) (s : State) (x : Cmd) : Prop :=
  x.id = s.seqs ∧ x.kind = k ∧ x.tag = t.val ∧ x.ser = ser ∧ x.bank = b.val ∧ x.ptr = rdG s.me g ∧ x.lay = rdL s.me l ∧ x.w1 = w1 ∧
  x.addr = s.me.strA.pc ∧ x.issued = s.now ∧ x.acc = s.me.strA.acc + 1

/-- The same of a command that has found no fault and carries no data. -/
def StandsFor (k : CmdKind) (g : GReg) (b : BankNo) (l : LReg) (t : TagNo) (ser : Bool) (w1 : Nat) (s : State) (x : Cmd) : Prop :=
  StandsAs k g b l t ser w1 s x ∧ x.fault = none ∧ x.blocks = []

/-- A boundary, a swap or a seal changes its context's private entries, view and what it knows, the versions of memory, and the counts of buckets; nothing else (R128, R172, R177, R240). -/
def PublishFrame (x : StreamId) (s t : State) : Prop :=
  t = { s with me := t.me, ring := t.ring, mem := t.mem, last := t.last, seqs := t.seqs, stamp := t.stamp } ∧
  t.mem = { s.mem with vers := t.mem.vers, pubs := t.mem.pubs, atoms := t.mem.atoms, sealedR := t.mem.sealedR } ∧
  t.me = { s.me.setStrm x (t.me.strm x) with
    priv := t.me.priv, view := t.me.view, accView := t.me.accView, acq := t.me.acq, roomWait := t.me.roomWait, buckets := t.me.buckets, shadows := t.me.shadows } ∧
  t.ring.length = s.ring.length ∧ ∀ c d, (c, d) ∈ s.ring.zip t.ring → d = { c with buckets := d.buckets }

/-- No write of a later swap of the context stands: its entries are numbered as they are made. -/
def NewestSwap (s : State) : Prop := ∀ q ∈ s.me.priv, ∀ j, q.src = .cmd j swapTag → j ≤ s.seqs

/-- A queued command runs at once, or waits for the earlier ones of its tag when it is serialised (R161). -/
def Started (s : State) (x : Cmd) : Prop :=
  (x.st = if x.ser && (s.me.cmds.any fun d => d.tag == x.tag) then .waiting else .running) ∧ (x.st = .running → s.now < x.due)

/-- e(n) of R170: the cycle a timed command has moved its bytes, after its issue, the command before it and, when it is serialised, the completion of the earlier ones of its tag. -/
def movedAt (s : State) (c : Cmd) : Nat :=
  let before := (s.me.cmds.map (·.moved)).foldl max 0
  let tagged := if c.ser then ((s.me.cmds.filter (·.tag == c.tag)).map (·.due)).foldl max 0 else 0
  max s.now (max before tagged) + (cmdBytes c + 63) / 64

/-- A command that acts on differentiable pages under a mode joins those in flight (R165, R170, R173). -/
def JoinedAs (m : DMode) (k : CmdKind) (g : GReg) (b : BankNo) (l : LReg) (t : TagNo) (ser : Bool) (w : Nat) (s u : State) (x : Cmd) : Prop :=
  u.me.cmds = s.me.cmds ++ [x] ∧ StandsAs k g b l t ser w s x ∧ x.dmode = m ∧ (s.me.timed = false → Started s x) ∧
  (s.me.timed = true → x.st = .running ∧ x.moved = movedAt s (newCmd k g b l t ser w s))

/-- A tag was returned: the writes of its commands stand before the stream's later boundaries, those published at core scope too (R128, R319); nothing else but the context changed. -/
def TagReturned (g : TagNo) (s t : State) : Prop :=
  t = { s with me := t.me, last := t.last, seqs := t.seqs, mem := { s.mem with vers := t.mem.vers } } ∧
  t.mem.vers = s.mem.vers.map fun v => if v.launch = s.me.launch then { v with prov := waitProv g.val (s.me.strA.acc + 1) s.now v.prov } else v

/-- The rows of a copy that neither expands nor inverts, each as one move (R159, R162, R164, R173). -/
def rowMove (c : Cmd) : Option (Nat → State → Mv) :=
  match c.kind with
  | .cpIn => if layExp c.lay = 0 ∧ c.dmode ≠ .rev then some (fun i => inRow c c.ptr (memRuns c.lay (cmdMemFmt c) i) i) else none
  | .cpOut => if c.dmode ≠ .rev ∧ c.fault = none then some (fun i => outRow c c.ptr (memRuns c.lay (cmdMemFmt c) i) i) else none
  | .cpBb => some (mvBank c)
  | .cpGth => some (mvGather c)
  | .cpSct => some (mvScatter c)
  | _ => none

/-- No write of a later command of the tag stands (R165). -/
def NoLater (s : State) (c : Cmd) : Prop := ∀ q ∈ s.me.priv, ∀ j, q.src = .cmd j c.tag → j ≤ c.id

/-- Bytes of a command's write to memory stand among its context's own writes from a location on, parked or not (R166, R267). -/
def WroteAt (u : State) (c : Cmd) (x : Nat) (bs : List Byte) : Prop :=
  ∀ k b, bs[k]? = some b → ∃ p ∈ u.me.priv, p.src = .cmd c.id c.tag ∧ p.kind = .plain ∧ (cellAt (x + k) p.cells).map (·.byte) = some b

/-- Bytes of a bank from a location on, and every other byte of memory's base as before. -/
def BankHolds (s u : State) (x : Nat) (bs : List Byte) : Prop :=
  readBases u.mem x bs.length = bs ∧ ∀ y, y < x ∨ x + bs.length ≤ y → readBase u.mem y = readBase s.mem y

/-- The elements a collective leaves in a rank's buffer, by index (R181). -/
def colLeaves (c : Cmd) (p m : Nat) (bufs : List (List W32)) : List (Nat × W32) :=
  (List.range c.count).filterMap fun j => (colResult c.kind c.other c.red c.root p m c.count bufs j).map fun v => (j, v)

/-- A command in flight that belongs to the context whose turn it is. -/
def Mine (s : State) (id : Nat) (x : Cmd) : Prop := s.cmd? id = some x

/-! ## The array (R187 to R213) -/

/-- Pattern a PAT.SET without a queue sets (R193, R194). -/
def patOp : PatSpec → Option Pat
  | .none => some .none
  | .ones => some .ones
  | .ltri => some .ltri
  | .utri => some .utri
  | .sltri => some .sltri
  | .ident o => some (.ident o.toInt)
  | .perm _ => none
  | .band _ _ => none

/-- Bytes of a folio line that an LDS reads; half of them beside metadata (R187, R192). -/
def lineBytes (f : Fmt) (sparse : Bool) : Nat := rowBytes f (if sparse then folioWidth f / 2 else folioWidth f)

/-- 128 rows of a bank from a row on, n bytes each, the rows numbered modulo 128 (R191). -/
def rowsFrom (s : State) (b row n : Nat) : List (List Byte) := (List.range 128).map fun r => bankRowBytes s b (row + r) n

/-- No unit of those rows is poisoned (R282). -/
def CleanRows (s : State) (b row n : Nat) : Prop := ∀ r, r < 128 → bankRowPoison s b (row + r) n = false

/-- Is MMA.C, flags, handle, operands and directions of a product. -/
def mmaOp : Instr → Option (Bool × Bool × KReg × Sel × Dir × Sel × Dir)
  | .mmaZ nf k a ad b bd => some (false, nf, k, a, ad, b, bd)
  | .mmaC nf k a ad b bd => some (true, nf, k, a, ad, b, bd)
  | _ => none

/-- Array cycles of a product (R201). -/
def mmaOcc (s : State) (a b : Sel) : Nat := arrayCycles (mmaFmts s.me a b).1 (mmaFmts s.me a b).2

/-- The cycle a product issued now starts in (R213). -/
def mmaStart (s : State) (isC : Bool) (k : KReg) (a b : Sel) : Nat :=
  startOf s .grid (selSlots s.me a ++ selSlots s.me b) (if isC && s.me.ks[k].st != .empty then [s.me.ks[k].pair] else [])

/-- Conditions 1 to 6 of R199, the accumulator's state apart; `int` is the data type of the pair. -/
def MmaReady (s : State) (isC : Bool) (k : KReg) (a : Sel) (ad : Dir) (b : Sel) (bd : Dir) (int : Bool) : Prop :=
  accepts s (mmaStart s isC k a b) (mmaOcc s a b) = true ∧ selLoaded s.me a = true ∧ selLoaded s.me b = true ∧ selSet s.me a = true ∧ selSet s.me b = true ∧
  mmaFormsOk s.me a ad b bd = true ∧ mmaPair s.me a b = some int ∧ (s.me.ks[k].st ≠ .empty ∨ s.me.freePairs ≠ []) ∧
  (isC = true → s.me.ks[k].st ≠ .empty → s.me.ks[k].int = int) ∧ selTrapLine s.me a = none ∧ selTrapLine s.me b = none

/-- Is the product of FP32 operands (R201, R205)? -/
def mmaFp32 (s : State) (a b : Sel) : Bool := (mmaFmts s.me a b).1 == .fp32

/-- The tile of a product: half h, on top of a tile (R200). -/
def mmaTile (s : State) (nf int : Bool) (a : Sel) (ad : Dir) (b : Sel) (bd : Dir) (h : Nat) (old : Tile) : Tile :=
  prodTile nf int (!mmaFp32 s a b || h == 1) (opndOf s.me a ad) (opndOf s.me b bd) (if mmaFp32 s a b then 128 else 256) h s.me.kdep old

/-- An array command was put in flight as the last one, with its start, its completion and its result, and counted in the term (R199, R211). -/
def Queued (s t : State) (kind : ACmdKind) (k : KReg) (start occ lag : Nat) (tile : Tile) : Prop :=
  t.mem = s.mem ∧ t.seqs = s.seqs + 1 ∧ (∃ x, t.me.acmds = s.me.acmds ++ [x] ∧ x.id = s.seqs ∧ x.kind = kind ∧ x.start = start ∧ x.occ = occ ∧ x.done = start + lag ∧
    x.result = tile ∧ x.pair = t.me.ks[k].pair ∧ x.acc = s.me.strM.acc + 1) ∧ (∀ j, j ≠ k → t.me.ks[j] = s.me.ks[j]) ∧
  t.me.ks[k].pair = (if s.me.ks[k].st = .empty then s.me.freePairs.headD 0 else s.me.ks[k].pair) ∧
  t.me = { s.me with acmds := t.me.acmds, ks := t.me.ks, freePairs := t.me.freePairs, fronts := t.me.fronts, rels := t.me.rels, cix := t.me.cix, wrapped := t.me.wrapped, strM := t.me.strM, pathFree := t.me.pathFree }

/-- The term of the context counted a command; the 16th ended it (R211). -/
def Counted (s t : State) : Prop :=
  ∀ x, s.myBay.term = some x → t.myBay.term = if x.count + 1 < 16 then some { x with count := x.count + 1 } else none

/-- Chunk index after a product that starts a chunk (R25, R204). -/
def nextCix (c d : Ctx) : Prop :=
  if c.cix + 1 < 2 ^ 24 then d.cix = c.cix + 1 ∧ d.wrapped = c.wrapped else d.cix = 0 ∧ d.wrapped = true

/-- The steps that start and complete an array command of a kind. -/
def startOp (kind : ACmdKind) (id : Nat) : Option Instr :=
  match kind with
  | .grid => some (.arrayCommandStart id)
  | .fold => some (.foldStart id)
  | .load => none

def doneOp (kind : ACmdKind) (id : Nat) : Instr :=
  match kind with
  | .grid => .arrayCommandComplete id
  | .fold => .foldComplete id
  | .load => .slotLoadComplete id

/-! ## Rows (R215 to R236) -/

/-- The row and the flags of a lane function. -/
def rowBits (f : Nat → Res) : Row := (List.range 128).map fun j => BitVec.ofNat 32 (f j).bits
def rowFlags (f : Nat → Res) : List Flags := (List.range 128).map fun j => (f j).flags

/-- Lane flags raised in LF. -/
def Raised (fs : List Flags) (c d : Ctx) : Prop := ∀ j, j < 128 → d.lf.getD j 0#6 = c.lf.getD j 0#6 ||| fs.getD j 0#6

/-- What a stored row leaves to land in one cycle (R225, R229): its bytes in the bank, covered by retirement `ret`, its lanes' flags, and its counts. -/
def rowPends (due ret x : Nat) (o : RowOut) (fs : List Flags) (hist : Option (List Nat)) : List (Nat × Land) :=
  o.writes.map (fun w => (due, Land.bankRow (x + w.1) w.2 ret none)) ++
  (due, .lf ((List.range 128).map fun j => o.flags.getD j 0#6 ||| fs.getD j 0#6)) ::
  match hist with
  | none => []
  | some is => [(due, .hist is)]

/-- An instruction of the S stream went on to a later retirement (R229): in a timed context it counts as retired at its issue (R368). -/
def WentOn (r : Retiring) (s t : State) : Prop :=
  t.me.rets = s.me.rets ++ [{ r with counts := !s.me.timed }] ∧
  (s.me.timed = true → Ran .s 1 s t) ∧ (s.me.timed = false → t.last = .issued ∧ t.me.strS = stepPast 1 s.now s.me.strS)

/-- Histogram indices of lanes that are counted. -/
def histOf (aux : StAux) (xs : List LaneIn) : Option (List Nat) := if aux.hist then some (xs.map fun x => histIdx x.ex) else none

/-- Location of a bank row. -/
def rowLoc (s : State) (b : Nat) (row : Nat) : Nat := bankLoc s.rank s.me b (512 * row)

/-! ## Steps no word encodes -/

/-- What a pending register result makes of a context (R104, R105). -/
def afterLanding : Land → Ctx → Option Ctx
  | .s d v, c => some (putS c d v)
  | .f d v, c => some (putF c d v)
  | .g d v, c => some (putG c d v)
  | .lay d v, c => some (putL c d v)
  | .v d r, c => some (putV c d r)
  | .fflags f, c => some { c with fflags := c.fflags ||| f.setWidth 5 }
  | .csr r v, c => some { putCsr c r v with irqNow := (putCsr c r v).status.getLsbD 1 && (c.irqNow || (!c.status.getLsbD 1 && c.irq != 0#7)) }
  | .bf b f, c => some (setBf c b f)
  | .hist l, c => some { c with hist := histCount c.hist l }
  | .remote _, c | .await _ _, c => some c
  | .far d v _ _ _, c => some (putS c d v)
  | .tag n t, c => some (c.setTag n t)
  | .barSet bs, c => some { c with bars := bs }
  | .mregs ms ks ps cix, c => some { c with ms := ms, ks := ks, ps := ps, cix := cix }
  | .lfHist lf hist, c => some { c with lf := lf, hist := hist }
  | _, _ => none

/-- A context once the register results it has pending have landed in their order (R104, R353); none where one of them is no such result. -/
def landedCtx (c : Ctx) : Option Ctx := c.pend.foldl (fun o p => o.bind (afterLanding p.what)) (some { c with pend := [] })

/-- The step is an event and changes nothing but what is named by the caller. -/
def Idle (s t : State) : Prop := t = { s with last := .event }

/-- Nothing of the context is in flight but array commands. -/
def QuietCtx (c : Ctx) : Prop := c.cmds = [] ∧ c.rets = [] ∧ c.pend = [] ∧ c.loads = [] ∧ c.words = []

/-- No two contexts share a launch number with the one whose turn it is. -/
def Alone (s : State) : Prop := ∀ c ∈ s.ring, c.launch ≠ s.me.launch

/-- The only node with its die and index. -/
def OneNode (s : State) (n : Node) : Prop := s.node? n.die n.idx = some n ∧ ∀ m ∈ s.nodes, m.die = n.die → m.idx = n.idx → m = n

/-- The only partition with its VMID. -/
def OnePart (s : State) (p : Part) : Prop := s.part? p.vmid = some p ∧ ∀ q ∈ s.parts, q.vmid = p.vmid → q = p

/-- No command of any context is in flight. -/
def NoCmds (s : State) : Prop := ∀ c ∈ s.ctxs, c.cmds = []

/-- The step leaves a message behind, and nothing else. -/
def Says (o : Out) (s t : State) : Prop := t = { s with outbox := s.outbox ++ [o], last := .event }

/-! ## Normal execution, form by form -/

/-- Every check of a copy before its issue passes, on these pieces of memory (R157 to R173): banks, words and shapes, space and alignment of the pointer, locked pages, the mode, and the pages of the tile. -/
def CopyFits (c : Cmd) (s : State) : Prop :=
  s.me.cmds.length < 128 ∧ s.me.diffWait = false ∧ c.bank < s.me.nbank ∧ (c.isIndexed = true → c.xbank < s.me.nbank) ∧ cmdIllegal s c = false ∧
  spaceOk c = true ∧ (c.kind = .cpFill ∨ c.ptr.toNat % 2 ^ layAlign c.lay = 0) ∧ cmdTimedOut s c = false ∧ indexedDiff s c = false ∧
  (c.isIndexed = true → ptrForm s c = .ok ()) ∧
  ∃ ss, cmdSegs s c = .ok ss ∧ (segsDiff ss = false ∨ s.me.dmode = .off) ∧ (s.me.timed = true → (cmdTier s c ss).isSome = true)

/-- Every check of a collective passes (R157, R165, R179, R180), and with BKT set its bucket takes it. -/
def ColFits (c : Cmd) (s : State) : Prop :=
  colIllegal s c = false ∧ s.me.cmds.length < 128 ∧ (∃ ss, colSegs s c = .ok ss ∧ (s.me.diffWait = false ∨ segsDiff ss = false)) ∧
  (c.bkt = true → ∃ k, s.me.buckets.find? (·.base == c.ptr) = some k ∧ k.armed = none ∧ k.total = colBytes c)

/-- The tag is neither BUSY nor FAULTED (R169, R182). -/
def TagFits (t : TagNo) (s : State) : Prop := s.me.tagBusy t = false ∧ (s.me.tag t).fault = none

/-- A descriptor that names an open shadow of the context (R174, R175). -/
def ShadowAt (a : GReg) (s : State) (h : Shadow) : Prop :=
  ∃ b, readShd s (rdG s.me a) = .ok b ∧ s.me.shadows.find? (isShadow (shdDesc b)) = some h

/-- A swap of the first n rows may be made now (R177, R260). -/
def SwapFits (a : GReg) (n : Shadow → Nat) (sc : Scope) (s : State) : Prop :=
  ∃ h, ShadowAt a s h ∧ n h ≤ h.nrows ∧ writersLeft s.me = false ∧ writerFault s.me = none ∧ swapShort sc h (n h) s = 0

/-- A product may issue (R199, R205). -/
def MmaFits (isC : Bool) (k : KReg) (a : Sel) (ad : Dir) (b : Sel) (bd : Dir) (s : State) : Prop :=
  (∃ int, MmaReady s isC k a ad b bd int) ∧ mmaAct isC (mmaFp32 s a b) s.me.ks[k] s.me.cix ≠ .bad

/-- A slot can be loaded from a bank, with metadata in another or none (R191, R192). -/
def LoadFits (m : MReg) (b : BankNo) (row : Byte) (sp : Option Nat) (s : State) : Prop :=
  s.me.ms[m].st ≠ .unbound ∧ b.val < s.me.nbank ∧ s.me.isArmed b.val = false ∧ granBusy s.me s.me.ms[m].gran s.now = false ∧
  folioOk (readFolio (s.orderedFor .m) b.val row.toNat sp) = true ∧
  (s.me.sup = false ∨ (CleanRows (s.orderedFor .m) b.val row.toNat (lineBytes (s.me.bankFmt b.val) sp.isSome) ∧
    ∀ mb, sp = some mb → CleanRows (s.orderedFor .m) mb row.toNat (folioWidth (s.me.bankFmt b.val) / 8)))

/-- The pattern a PAT.SET names can be set from its queue (R193, R194). -/
def PatFits (spec : PatSpec) (s : State) : Prop :=
  match spec with
  | .perm q => ∃ v, AtFront s q v ∧ v.toNat / 2 ^ 13 = 0 ∧ v.toNat % 64 < s.me.nbank ∧ s.me.bankFmt (v.toNat % 64) = .int32 ∧
      (s.me.sup = false ∨ bankRowPoison (s.orderedFor .m) (v.toNat % 64) (v.toNat / 64 % 128) 512 = false)
  | .band n _ => ((s.me.queue 2).fronts? ((n.toNat + 3) / 4) s.cycle).isSome = true
  | .none | .ones | .ltri | .utri | .sltri | .ident _ => True

/-- A retirement may start: the unit is free, no earlier command still writes the handle, and it is not open (R217, R230). -/
def RetireFits (k : KReg) (s : State) : Prop := rtBusy s = false ∧ rtWaits s k = false ∧ openSeen s k = false

/-- The conditions of the spec, on the state and the operands, under which an instruction word executes normally: no trap of its own, no wait. TRAP and BRK, whose effect is a trap, and steps no word encodes have none. An LD, ST, copy or collective on a differentiable page under FWD or REV has statements of its own. -/
def Fits (i : Instr) (s : State) : Prop :=
  match i with
  | .add _ _ _ | .sub _ _ _ | .mul _ _ _ | .mulh _ _ _ | .div _ _ _ | .divu _ _ _ | .rem _ _ _ | .remu _ _ _ | .and _ _ _ | .or _ _ _
  | .xor _ _ _ | .shl _ _ _ | .shr _ _ _ | .sra _ _ _ | .min _ _ _ | .max _ _ _ | .minu _ _ _ | .maxu _ _ _ | .slt _ _ _ | .sltu _ _ _
  | .clz _ _ | .ctz _ _ | .popc _ _ | .bext _ _ _ | .addi _ _ _ | .andi _ _ _ | .ori _ _ _ | .xori _ _ _ | .shli _ _ _ | .shri _ _ _
  | .srai _ _ _ | .slti _ _ _ | .lui _ _ | .li _ _ _ => True
  | .fadd _ _ _ _ | .fsub _ _ _ _ | .fmul _ _ _ _ | .ffma _ _ _ _ | .fdiv _ _ _ _ | .fsqrt _ _ _ | .fmin _ _ _ _ | .fmax _ _ _ _
  | .fcmpEq _ _ _ _ | .fcmpLt _ _ _ _ | .fcmpLe _ _ _ _ | .fcvtW _ _ _ | .fcvtF _ _ _ | .fclass _ _ _ | .fmv _ _ _ | .fsgnj _ _ _ _ => True
  | .beq _ _ _ | .bne _ _ _ | .blt _ _ _ | .bge _ _ _ | .bltu _ _ _ | .bgeu _ _ _ | .jmp _ | .jal _ | .jr _ | .yield | .tsc _ | .qcnt _ _ => True
  | .gadd _ _ _ | .gsub _ _ _ | .gmul _ _ _ | .gshl _ _ _ | .gshr _ _ _ | .gand _ _ _ | .gor _ _ _ | .gmin _ _ _ | .gaddi _ _ _ | .gli _ _ _
  | .gbEq _ _ _ | .gbNe _ _ _ | .gbLt _ _ _ | .gbGe _ _ _ | .gjmp _ | .laySet _ _ | .cixSet _ | .accRel _ | .lseRel | .mjmp _ | .sjmp _ => True
  | .loop _ _ => s.me.strC.loops.length < 4
  | .gloop _ _ => s.me.strA.loops.length < 4
  | .mloop q _ => (∃ v, AtFront s q v) ∧ s.me.strM.loops.length < 4
  | .sloop q _ => (∃ v, AtFront s q v) ∧ s.me.strS.loops.length < 4
  | .qpop _ q | .gpop _ q | .mbQNz q _ | .mbQZ q _ | .sbQNz q _ | .sbQZ q _ | .vbc _ _ q | .sclSet _ q => ∃ v, AtFront s q v
  | .qpush q _ | .gpush q _ => (s.me.queue q).full s.cycle = false
  | .ld z _ a o => ∃ acc, LdReady s z a o acc ∧ PlainLoad s z acc ∧ remoteWaits s acc = false
  | .st z _ a o => ∃ acc, StReady s z a o acc ∧ PlainPage s acc ∧ remoteWaits s acc = false
  | .atAdd _ a _ sc w | .atBinc _ a _ sc w | .atCas _ a _ sc w | .atSwp _ a _ sc w | .atMax _ a _ sc w => ∃ acc, AtomReady s w sc a acc
  | .atFadd _ a _ sc => ∃ acc, AtomReady s true sc a acc
  | .phase sc => (s.me.timed = false ∨ sc ≠ .dom) ∧ boundaryBarred sc .c s = false
  | .barInit b a _ => 1 ≤ (rdS s.me a).toNat ∧ (rdS s.me a).toNat ≤ 16777215 ∧ s.me.bar? b = none
  | .barArr b => ∃ x, s.me.bar? b = some x ∧ x.arrived = false ∧ arrivalDiffers s b x = false ∧ windowFull s b x = false ∧ boundaryBarred x.scope .c s = false
  | .barWt b => ∃ x, s.me.bar? b = some x ∧ x.arrived = true ∧ ((doneAt s b x).isSome = true ∨ (x.proceed = true ∧ pastDeadline x.deadline s.ptpTop = true))
  | .barDl b _ _ => (s.me.bar? b).isSome = true
  | .mbxSend a _ => ∃ m, boxOf s (rdS s.me a) = some m ∧ maySend s s.me m = true ∧ m.msgs.length < 16 ∧ boundaryBarred .dev .c s = false
  | .mbxRecv _ a => ∃ m, boxOf s (rdS s.me a) = some m ∧ isReceiver s.me m = true ∧ m.msgs ≠ []
  | .mbxTry _ a => ∃ m, boxOf s (rdS s.me a) = some m ∧ isReceiver s.me m = true
  | .rngNext _ => s.me.timed = false
  | .nodeAdd _ a => s.me.timed = false ∧ spaceOf (rdS s.me a) = .glb ∧ (rdS s.me a).toNat % 256 = 0 ∧
      (∃ acc, checkAccess s true .read (rdS s.me a) 256 = .ok acc) ∧ boundaryBarred .dev .c s = false
  | .nodeDone => firstFault s.me = none ∧ allDrained s.me = true ∧ (∀ p ∈ s.me.priv, p.parked = none) ∧ spaceShort .dev .c (fun _ => true) (stopStreams s) = 0
  | .eret => s.me.sup = true ∧ s.me.frame.isSome = true ∧ handlerPending s.me = false
  | .diffMode _ => s.me.timed = false ∧ (∀ x ∈ s.me.cmds, x.dmode = .off) ∧ diffParked s.me = false ∧ coverParked s.me .c s.now = false ∧
      spaceShort .core .c (diffCovers s) s = 0
  | .waitEv _ a => (rdS s.me a).toNat % 2 ^ 63 / 2 ^ 5 = 0 ∧ (rdS s.me a).toNat % 32 ≠ 0 ∧
      (2 ^ 63 ≤ (rdS s.me a).toNat ∨ pendingEv s &&& (rdS s.me a).setWidth 5 ≠ 0#5)
  | .ctxSw => s.me.sup = true ∧ s.me.timed = false ∧ (otherBank s s.me).isSome = true
  | .csrr _ r => mayRead s.me.sup r = true
  | .csrw r _ | .csrx _ r _ => mayWrite s.me.sup r = true ∧ csrHeld r s.me = false
  | .bfSet b _ => b.val < s.me.nbank ∧ s.me.isArmed b.val = false
  | .cpIn g b l t ser w => CopyFits (newCmd .cpIn g b l t ser w.toNat s) s
  | .cpOut g b l t ser w => CopyFits (newCmd .cpOut g b l t ser w.toNat s) s
  | .cpBb g b l t ser w => CopyFits (newCmd .cpBb g b l t ser w.toNat s) s
  | .cpGth g b l t ser w => CopyFits (newCmd .cpGth g b l t ser w.toNat s) s
  | .cpSct g b l t ser w => CopyFits (newCmd .cpSct g b l t ser w.toNat s) s
  | .cpFill g b l t ser w => CopyFits (newCmd .cpFill g b l t ser w.toNat s) s
  | .colRed g b l t ser w => ColFits (newCol .colRed g b l t ser w.toNat s) s
  | .colRs g b l t ser w => ColFits (newCol .colRs g b l t ser w.toNat s) s
  | .colAg g b l t ser w => ColFits (newCol .colAg g b l t ser w.toNat s) s
  | .colBc g b l t ser w => ColFits (newCol .colBc g b l t ser w.toNat s) s
  | .cpWait _ t | .colWait _ t => TagFits t s
  | .seal a => spaceOf (rdG s.me a) = .glb ∧ (rdG s.me a).toNat % 64 = 0 ∧ boundaryBarred .dev .a s = false ∧
      ∃ col ss, readForA s (s.me.priv.filter fun q => covers s.me .a s.now q.prov) (rdG s.me a) 64 = .ok col ∧ colValid col = true ∧
        bufferSegs s (rdG s.me a) col = .ok ss
  | .shdOpen a => s.me.shadows.length < 8 ∧ ∃ b rows, readShd s (rdG s.me a) = .ok b ∧ rowSegs s (shdDesc b) (shdDesc b).nrows 0 = .ok rows ∧
      segsDiff (rows.flatMap (·.2)) = false ∧ sealedHit s.mem (rows.flatMap (·.2)) = false ∧ recPageHit s true (rows.flatMap (·.2)) = false ∧
      shadowHit s true (rows.flatMap (·.2)) = false
  | .shdPub a sc => SwapFits a (·.nrows) sc s
  | .shdPubn a b sc => SwapFits a (fun _ => (rdG s.me b).toNat) sc s
  | .shdDrop a => ∃ h, ShadowAt a s h
  | .bktSet a b _ => spaceOf (rdG s.me a) = .glb ∧ 0 < (rdG s.me b).toNat ∧ (rdG s.me b).toNat < 2 ^ 32 ∧
      (s.me.buckets.length < 16 ∨ (s.me.buckets.any (·.base == rdG s.me a)) = true) ∧ ∃ ss, s.access s.me .read (rdG s.me a) (rdG s.me b).toNat = .ok ss
  | .colArb a => (rdG s.me a).toNat < 2 ^ 16 ∧ (rdG s.me a).toNat % 256 ≠ 0 ∧ (rdG s.me a).toNat / 256 ≠ 0
  | .pktArm a => (spaceOf (rdG s.me a) = .glb ∨ spaceOf (rdG s.me a) = .scr) ∧ (rdG s.me a).toNat % 32 = 0 ∧
      ∃ d, readForA s (visA s.me) (rdG s.me a) 32 = .ok d ∧ armBad d = false ∧ (armOf d 0).bank < s.me.nbank ∧ s.me.bankFmt (armOf d 0).bank = .raw ∧
        s.me.isArmed (armOf d 0).bank = false ∧ bankBusy s (armOf d 0).bank = false
  | .pktWait _ => s.me.landed ≠ []
  | .mmaZ _ k a ad b bd => MmaFits false k a ad b bd s
  | .mmaC _ k a ad b bd => MmaFits true k a ad b bd s
  | .fold d a b => accepts s (startOf s .fold [] [s.me.ks[a].pair, s.me.ks[b].pair]) 128 = true ∧ noPair s.me d = false ∧ foldInput s.me.ks[a] = true ∧
      foldInput s.me.ks[b] = true ∧ s.me.ks[a].int = s.me.ks[b].int ∧ s.me.ks[a].level = s.me.ks[b].level ∧ s.me.ks[a].index % 2 = 0 ∧
      s.me.ks[b].index = s.me.ks[a].index + 1
  | .foldP d a => accepts s (startOf s .fold [] [s.me.ks[a].pair]) 128 = true ∧ noPair s.me d = false ∧ foldInput s.me.ks[a] = true ∧ s.me.ks[a].index % 2 = 0
  | .cixSetQ q => ∃ v, AtFront s q v ∧ v.toNat / 2 ^ 33 = 0 ∧ v.toNat / 2 ^ 24 % 2 ^ 9 ≤ 256
  | .lds m b row => s.me.bankFmt b.val ≠ .raw ∧ LoadFits m b row none s
  | .ldsSp m b row mb => b.val + mb.toNat < s.me.nbank ∧ spFmtOk (s.me.bankFmt b.val) = true ∧ s.me.bankFmt (b.val + mb.toNat) = .raw ∧
      s.me.isArmed (b.val + mb.toNat) = false ∧ LoadFits m b row (some (b.val + mb.toNat)) s
  | .accLd k b row => b.val < s.me.nbank ∧ (s.me.bankFmt b.val = .fp32 ∨ s.me.bankFmt b.val = .int32) ∧ noPair s.me k = false ∧
      (s.me.sup = false ∨ CleanRows (s.orderedFor .m) b.val row.toNat 512)
  | .slotClm m => s.me.ms[m].st = .unbound ∧ s.me.freeSlots ≠ []
  | .slotRel m => s.me.ms[m].st ≠ .unbound
  | .patSet _ spec => PatFits spec s
  | .patOh _ b row _ q6 => ∃ v, AtFront s (if q6 then 6 else 2) v ∧ b.val < s.me.nbank ∧ s.me.bankFmt b.val = .int32 ∧ (ohEnt v).isSome = true ∧
      (s.me.sup = false ∨ bankRowPoison (s.orderedFor .m) b.val row.toNat 512 = false)
  | .lseAcq => (termOf s).isSome = true
  | .vadd _ _ _ _ | .vsub _ _ _ _ | .vmul _ _ _ _ | .vfma _ _ _ _ _ | .vmax _ _ _ _ | .vmin _ _ _ _ | .vcmp _ _ _ _ _ | .vsel _ _ _ _ _
  | .vfld _ _ _ _ _ | .vrcp _ _ _ | .vrsq _ _ _ | .vcvt _ _ _ _ _ | .vmov _ _ _ | .histAdd _ _ | .histClr _ | .flgRd _ _ => rtBusy s = false
  | .flgClr _ => rtBusy s = false ∧ (s.me.timed = true ∨ flagsNow s = false)
  | .vld _ b row => rtBusy s = false ∧ bankRowErr s b row = none ∧ (s.me.sup = false ∨
      poisonedRange (s.orderedFor .s).mem (rowLoc s b.val (row.toNat % 128) + rowBytes (s.me.bankFmt b.val) (128 * (row.toNat / 128))) (rowBytes (s.me.bankFmt b.val) 128) = false)
  | .vst _ b row _ => rtBusy s = false ∧ bankRowErr s b row = none
  | .rtRow _ _ k _ => RetireFits k s
  | .rtSt k b row _ => bankRowErr s b row = none ∧ RetireFits k s
  | .histRd _ _ => rtBusy s = false ∧ (s.me.queue 5).full s.cycle = false
  | _ => False

end Sys2Proof.Safety
end

