-- ==== Sys2Proof/Certificates/Slice0/Obligations.lean ====
section
/-!
DEFINITION. The statements for the provers. Terms stand in Sys2Proof/Safety.lean.
-/
open Sys2Proof Sys2Proof.Machine Sys2Proof.Safety

/-! ## Encoding, the step, invariants -/

/-- Words written out from the encoding tables decode to the instructions they stand for (R79 to R95); words with a reserved major or function, a non-zero zero field, a register beyond its family or a reserved direction are refused (R96). -/
def Obligations.SampleWordsDecode : Prop :=
  decodeWord .c 0x0006240B 0 = some (.shl 3 2 8) ∧
  decodeWord .c 0x004A1FFF 0 = some (.addi 5 1 0xFFF#12) ∧
  decodeWord .c 0x02C440C3 0 = some (.ffma true 2 4 1) ∧
  decodeWord .c 0x060E2017 0 = some (.atBinc 7 2 0 .dev true) ∧
  decodeWord .c 0x028C0000 0x3F000000 = some (.li 6 0#17 0x3F000000#32) ∧
  decodeWord .c 0x05881800 0 = some (.ld .w 4 1 0#10) ∧
  decodeWord .c 0x07E80071 0 = some (.csrr 20 .trapCause) ∧
  decodeWord .a 0x00C02301 0 = some (.gpush 6 2) ∧
  decodeWord .a 0x05001124 0 = some (.shdPubn 1 2 .die) ∧
  decodeWord .a 0x04420000 0 = some (.cpFill 1 0 0 0 false 0#32) ∧
  decodeWord .m 0x00062212 0 = some (.mmaZ false 3 (.slot 4) .c (.slot 2) .c) ∧
  decodeWord .m 0x02040000 0 = some (.slotClm 2) ∧
  decodeWord .s 0x00048D06 0 = some (.vfma false 1 2 3 4) ∧
  decodeWord .s 0x00C3082B 0 = some (.vst 1 33 5 ⟨true, true, false⟩) ∧
  decodeWord .c 0x0FFFFFFF 0 = none ∧ decodeWord .c 0x00062418 0 = none ∧
  decodeWord .a 0x00022800 0 = none ∧ decodeWord .m 0x02040810 0 = none ∧ decodeWord .m 0x00060E10 0 = none

/-- The decoder answers only well-formed instructions of the stream whose map it reads, whatever the word (R96, R99). -/
def Obligations.DecodedIsWellFormed : Prop :=
  ∀ x w ext i, decodeWord x w ext = some i → i.wf = true ∧ i.stream = some x

/-- Decoding the bytes of any well-formed instruction of the four maps under any header, whatever follows them, gives the header, the instruction and what follows (R6, R74 to R95). -/
def Obligations.DecodeOfEncode : Prop :=
  ∀ (x : StreamId) (h : BitVec 4) (i : Instr) (rest : List Byte), i.stream = some x → i.wf = true →
    decodeBytes x (encodeBytes h i ++ rest) = some ⟨h, i, rest⟩

/-- A word that the decoder accepts is the encoding of what it decodes to under its own header: no bit of an accepted word is ignored (R86, R96). -/
def Obligations.EncodeOfDecode : Prop :=
  ∀ (x : StreamId) (w ext : W32) (i : Instr), decodeWord x w.toNat ext.toNat = some i →
    encode (headerOf w.toNat) i = if wordCount x w.toNat = 2 then [w, ext] else [w]

/-- A step whose turn it is to issue a word runs exec of the instruction it decodes to, with the header's tokens taken into account before it and settled after it, and passes the turn on; its fetch counts as a use of the word's block (R268); a fault or a refusal of exec is the step's. That streams take turns is the model's choice (log 2). -/
def Obligations.StepRunsDecoded : Prop :=
  ∀ (s : State) (w ext : Nat) (h : BitVec 4) (i : Instr), Issues s w ext h → decodeWord s.slot w ext = some i →
    step s = match exec i ((touchCode s.slot s).mapMe (learn s.slot h)) with
      | .next t => .next (nextSlot (finish s.me.launch s.slot h h true (s.me.strm s.slot).ord t))
      | .fault r => .fault r
      | .refused r => .refused r

/-- Memory is in its canonical form right after reset. The form, and that an unlisted byte reads 0, are the model's choice (log 1). -/
def Obligations.ResetSound : Prop := Sound State.reset

/-- Every step of the machine keeps memory in its canonical form: locations strictly rising, no listed byte equal to what an unlisted one reads as. -/
def Obligations.StepKeepsMemoryForm : Prop :=
  ∀ s t : State, Sound s → step s = .next t → Sound t

/-! ## Register instructions -/

/-- Every instruction of the INT family, every immediate form and LUI and LI (R104 to R109): it retires, its destination is to get the value of the rule after the rule's latency (s0 discards it when it lands), and nothing else changes: no other register, flag, special register or byte. -/
def Obligations.IntegerResults : Prop :=
  ∀ i d v lat n, intOp i = some (d, v, lat, n) → ∀ s : State, ∃ t, exec i s = .next t ∧
    Ran .c n s t ∧ GetsS d (v s.me) lat s t ∧ OnlyMe s t ∧
    t.me = { s.me with s := t.me.s, pend := t.me.pend, strC := t.me.strC } ∧ SameBytes s t

/-- The values at the corners (R106, R107): CLZ and CTZ of 0 give 64 and else the position of the first bit set, POPC counts the bits; division by zero gives all ones, its remainder the dividend; the most negative number divided by −1 gives itself with remainder 0; else quotient and remainder make up the dividend. -/
def Obligations.CountsAndDivision : Prop :=
  (∀ a : W64, clz64 a ≤ 64 ∧ a.toNat < 2 ^ (64 - clz64 a) ∧ (a ≠ 0#64 → 2 ^ (63 - clz64 a) ≤ a.toNat ∧ clz64 a < 64) ∧ (a = 0#64 → clz64 a = 64)) ∧
  (∀ a : W64, (a = 0#64 → ctz64 a = 64) ∧ (a ≠ 0#64 → ctz64 a < 64 ∧ a.getLsbD (ctz64 a) = true ∧ ∀ i, i < ctz64 a → a.getLsbD i = false)) ∧
  (∀ a : W64, popCount 64 a.toNat = ((List.range 64).filter fun i => a.getLsbD i).length) ∧
  (∀ a, divS a 0#64 = -1#64 ∧ divU a 0#64 = -1#64 ∧ remS a 0#64 = a ∧ remU a 0#64 = a) ∧
  divS (1#64 <<< 63) (-1#64) = 1#64 <<< 63 ∧ remS (1#64 <<< 63) (-1#64) = 0#64 ∧
  (∀ (s : State) (d a b : SReg), rdS s.me b = 0#64 → ∃ t u v w, exec (.div d a b) s = .next t ∧ exec (.divu d a b) s = .next u ∧
    exec (.rem d a b) s = .next v ∧ exec (.remu d a b) s = .next w ∧
    GetsS d 0xFFFFFFFFFFFFFFFF#64 20 s t ∧ GetsS d 0xFFFFFFFFFFFFFFFF#64 20 s u ∧ GetsS d (rdS s.me a) 20 s v ∧ GetsS d (rdS s.me a) 20 s w) ∧
  (∀ (s : State) (d a b : SReg), (rdS s.me a).toInt = -(2 ^ 63) → (rdS s.me b).toInt = -1 → ∃ t u v w, exec (.div d a b) s = .next t ∧
    exec (.divu d a b) s = .next u ∧ exec (.rem d a b) s = .next v ∧ exec (.remu d a b) s = .next w ∧
    GetsS d (BitVec.ofInt 64 (-(2 ^ 63))) 20 s t ∧ GetsS d (BitVec.ofNat 64 ((rdS s.me a).toNat / (rdS s.me b).toNat)) 20 s u ∧
    GetsS d 0#64 20 s v ∧ GetsS d (BitVec.ofNat 64 ((rdS s.me a).toNat % (rdS s.me b).toNat)) 20 s w) ∧
  (∀ a b : W64, b ≠ 0#64 → divS a b * b + remS a b = a ∧ divU a b * b + remU a b = a ∧ remU a b < b ∧
    (remS a b).toInt.natAbs < b.toInt.natAbs ∧ ((remS a b).toInt ≠ 0 → ((remS a b).toInt < 0 ↔ a.toInt < 0)))

/-- FADD, FSUB, FMUL, FFMA, FDIV, FSQRT and FCVT.F (R105, R110, R112): the instruction retires, its f register is to get the rounded result under FRND and FFLAGS the flags, both in the landing cycle; with nf no flags are; nothing else changes. -/
def Obligations.FpResults : Prop :=
  ∀ i nf d r lat, fpOp i = some (nf, d, r, lat) → ∀ s : State, ∃ t, exec i s = .next t ∧
    Ran .c 1 s t ∧ GetsF nf d (r s.me) lat s t ∧ OnlyMe s t ∧
    t.me = { s.me with f := t.me.f, fflags := t.me.fflags, pend := t.me.pend, strC := t.me.strC } ∧ SameBytes s t

/-- FMIN, FMAX, FMV, FSGNJ, the comparisons and FCLASS raise nothing whatever nf is (R110, R111, R113): the destination is to get its value with latency 1, and nothing else changes; −0 is below +0 for FMIN and FMAX and equal to it for FCMP, one NaN gives the other operand, two give 0x7FC0_0000, and FCMP with a NaN gives 0; FCVT.W (R112) puts the INT32 result sign-extended into sd and its flags into FFLAGS, 4 cycles later. -/
def Obligations.FpMovesTestsConversion : Prop :=
  (∀ i d v, fpMoveOp i = some (d, v) → ∀ s : State, ∃ t, exec i s = .next t ∧ Ran .c 1 s t ∧ OnlyMe s t ∧
    t.me = { s.me with pend := withPends s.seqs s.me.pend [(s.clock + 1, .f d (v s.me))], strC := t.me.strC } ∧ SameBytes s t) ∧
  (∀ i d v, fpTestOp i = some (d, v) → ∀ s : State, ∃ t, exec i s = .next t ∧ Ran .c 1 s t ∧ OnlyMe s t ∧
    GetsS d (v s.me) 1 s t ∧ t.me = { s.me with s := t.me.s, pend := t.me.pend, strC := t.me.strC } ∧ SameBytes s t) ∧
  (∀ (nf : Bool) (d : SReg) (a : FReg) (s : State), ∃ t, exec (.fcvtW nf d a) s = .next t ∧ Ran .c 1 s t ∧ OnlyMe s t ∧
    (let r := cvtW (s.me.frnd.toNat % 4) (rdF s.me a)
     let v := (BitVec.ofNat 32 r.bits).signExtend 64
     t.me.pend = withPends s.seqs s.me.pend ((s.clock + 4, .s d v) :: if nf then [] else [(s.clock + 4, .fflags r.flags)])) ∧
    t.me = { s.me with pend := t.me.pend, strC := t.me.strC } ∧ SameBytes s t) ∧
  (∀ a b : W32, (isNan32 a = true ↔ 0x7F800000 < a.toNat % 2 ^ 31) ∧
    (isNan32 a = true → isNan32 b = false → minFp32 a b = b ∧ minFp32 b a = b ∧ maxFp32 a b = b ∧ maxFp32 b a = b) ∧
    (isNan32 a = true → isNan32 b = true → minFp32 a b = 0x7FC00000#32 ∧ maxFp32 a b = 0x7FC00000#32) ∧
    (isNan32 a = true ∨ isNan32 b = true → eqFp32 a b = false ∧ ltFp32 a b = false ∧ leFp32 a b = false)) ∧
  (minFp32 0#32 0x80000000#32 = 0x80000000#32 ∧ minFp32 0x80000000#32 0#32 = 0x80000000#32 ∧
    maxFp32 0#32 0x80000000#32 = 0#32 ∧ maxFp32 0x80000000#32 0#32 = 0#32 ∧
    eqFp32 0#32 0x80000000#32 = true ∧ eqFp32 0x80000000#32 0#32 = true ∧ ltFp32 0x80000000#32 0#32 = false ∧ ltFp32 0#32 0x80000000#32 = false ∧
    leFp32 0x80000000#32 0#32 = true ∧ leFp32 0#32 0x80000000#32 = true)

/-- The address instructions of the A stream (R154): the destination is to get its value after the rule's latency (g0 discards it when it lands), and nothing else changes. -/
def Obligations.AddressResults : Prop :=
  (∀ i d v lat n, addrOp i = some (d, v, lat, n) → ∀ s : State, ∃ t, exec i s = .next t ∧
    Ran .a n s t ∧ GetsG d (v s.me) lat s t ∧ OnlyMe s t ∧
    t.me = { s.me with g := t.me.g, pend := t.me.pend, strA := t.me.strA } ∧ SameBytes s t) ∧
  (∀ (l : LReg) (a : GReg) (s : State), ∃ t, exec (.laySet l a) s = .next t ∧ Ran .a 1 s t ∧ OnlyMe s t ∧
    t.me = { s.me with pend := withPends s.seqs s.me.pend [(s.clock + 1, .lay l (rdG s.me a))], strA := t.me.strA } ∧ SameBytes s t)

/-- A conditional branch on registers (R81, R114, R155): it transfers to its own address plus four times the offset when its condition holds, else falls through; it writes no register, flag or byte. -/
def Obligations.Branches : Prop :=
  ∀ (s : State) (i : Instr) (x : StreamId) (p : Prop) (a : W64), branchOp s i = some (x, p, a) → ∃ t, exec i s = .next t ∧
    (p → Went x a s t) ∧ (¬p → Ran x 1 s t) ∧ OnlyMe s t ∧ t.seqs = s.seqs ∧ ButStream x s.me t.me ∧ SameBytes s t

/-- The jumps (R81, R115, R155, R214, R235): JMP, JR, GJMP, MJMP and SJMP transfer to their target and change nothing else; JAL also puts the address of the next word into s31 with latency 1. -/
def Obligations.Jumps : Prop :=
  (∀ (s : State) (i : Instr) (x : StreamId) (a : W64), jumpOp s i = some (x, a) → ∃ t, exec i s = .next t ∧
    Went x a s t ∧ OnlyMe s t ∧ t.seqs = s.seqs ∧ ButStream x s.me t.me ∧ SameBytes s t) ∧
  (∀ (s : State) (o : BitVec 22), ∃ t, exec (.jal o) s = .next t ∧ Went .c (wordsFrom s .c o.toInt) s t ∧
    GetsS 31 (BitVec.ofNat 64 (s.me.strC.pc.toNat + 4)) 1 s t ∧ OnlyMe s t ∧
    t.me = { s.me with s := t.me.s, pend := t.me.pend, strC := t.me.strC } ∧ SameBytes s t)

/-- LOOP and GLOOP (R116, R155): with fewer than four open loops a count that is not zero opens the body on the loop stack and the stream goes on at its first word, and with count 0 the body is passed over, where an enclosing body that ends at the same word ends too (log 23) and a count other than 0 there leaves the outer count (log 104); with four open loops the instruction is an illegal dynamic combination, with count 0 too (log 103). These three are the model's readings. -/
def Obligations.LoopsOpen : Prop :=
  ∀ (s : State) (i : Instr) (x : StreamId) (n : W64) (o : BitVec 12), loopOp s i = some (x, n, o) →
    (n ≠ 0#64 → (s.me.strm x).loops.length < 4 → ∃ t, exec i s = .next t ∧ t.last = .retired ∧
      (t.me.strm x).pc = pcOf s x + 4#64 ∧ (t.me.strm x).loops = ⟨pcOf s x + 4#64, wordsFrom s x o.toInt, n⟩ :: (s.me.strm x).loops ∧
      (t.me.strm x).acc = ((s.me.strm x).acc + 1) % 2 ^ 48 ∧ OnlyMe s t ∧ ButStream x s.me t.me ∧ SameBytes s t) ∧
    (n = 0#64 → (s.me.strm x).loops.length < 4 → ∃ t, exec i s = .next t ∧ t.last = .retired ∧
      ((t.me.strm x).loops, (t.me.strm x).pc) = loopEnd (pcOf s x) (wordsFrom s x o.toInt + 4#64) (s.me.strm x).loops ∧
      (t.me.strm x).acc = ((s.me.strm x).acc + 1) % 2 ^ 48 ∧ OnlyMe s t ∧ ButStream x s.me t.me ∧ SameBytes s t) ∧
    (4 ≤ (s.me.strm x).loops.length → exec i s = .next (takeTrap ((exIllegal s x).on x) s))

/-- The end of a loop body (R117): an instruction whose last word is the body's last word and that transfers no control starts the next pass while passes remain, and closes the loop after the last one; an instruction that ends elsewhere leaves the loop stack as it is; a transfer closes the loops whose bodies do not hold the target. -/
def Obligations.LoopBodies : Prop :=
  (∀ (last nxt start c : W64) (r : List LoopEnt), c ≠ 1#64 →
    loopEnd last nxt (⟨start, last, c⟩ :: r) = (⟨start, last, c - 1#64⟩ :: r, start)) ∧
  (∀ (last nxt start : W64) (r : List LoopEnt), loopEnd last nxt (⟨start, last, 1#64⟩ :: r) = loopEnd last nxt r) ∧
  (∀ (last nxt : W64) (e : LoopEnt) (r : List LoopEnt), e.stop ≠ last → loopEnd last nxt (e :: r) = (e :: r, nxt)) ∧
  (∀ (a : W64) (l : List LoopEnt), ∃ k, loopJump a l = l.drop k ∧ (∀ e ∈ l.take k, ¬(e.start.toNat ≤ a.toNat ∧ a.toNat ≤ e.stop.toNat)) ∧
    ∀ e ∈ (loopJump a l).head?, e.start.toNat ≤ a.toNat ∧ a.toNat ≤ e.stop.toNat)

/-! ## Queues -/

/-- A push (R20, R21, R126, R154): with room the value becomes the newest entry, in this cycle; a full queue makes a queued context wait with nothing changed and is an illegal dynamic combination in a timed one. -/
def Obligations.QueuePushes : Prop :=
  ∀ (s : State) (i : Instr) (x : StreamId) (q : QNo) (v : W64), pushOp s i = some (x, q, v) →
    ((s.me.queue q).full s.cycle = false → ∃ t, exec i s = .next t ∧ Ran x 1 s t ∧ OnlyMe s t ∧ t.seqs = s.seqs ∧
      t.me.queue q = ⟨(s.me.queue q).ents ++ [⟨v, s.cycle⟩], (s.me.queue q).poppedAt, (s.me.queue q).popped⟩ ∧
      (∀ p, p ≠ q → t.me.queue p = s.me.queue p) ∧
      ButStream x { s.me with qs := t.me.qs } t.me ∧ SameBytes s t) ∧
    ((s.me.queue q).full s.cycle = true → s.me.timed = false → exec i s = .next { s with last := .waiting }) ∧
    ((s.me.queue q).full s.cycle = true → s.me.timed = true → exec i s = .next (takeTrap ((exIllegal s x).on x) s))

/-- A pop into a register (R20, R21, R126, R154): the oldest entry leaves and the register is to get it with latency 1; QCNT gets the number of entries pushed before this cycle and never waits. -/
def Obligations.QueuePops : Prop :=
  (∀ (s : State) (d : SReg) (q : QNo) (v : W64), AtFront s q v → ∃ t, exec (.qpop d q) s = .next t ∧ Ran .c 1 s t ∧ OnlyMe s t ∧
    GetsS d v 1 s t ∧ t.me.queue q = (s.me.queue q).pop 1 s.cycle ∧
    t.me = { popped s q with s := t.me.s, pend := t.me.pend, strC := t.me.strC } ∧ SameBytes s t) ∧
  (∀ (s : State) (d : GReg) (q : QNo) (v : W64), AtFront s q v → ∃ t, exec (.gpop d q) s = .next t ∧ Ran .a 1 s t ∧ OnlyMe s t ∧
    GetsG d v 1 s t ∧ t.me.queue q = (s.me.queue q).pop 1 s.cycle ∧
    t.me = { popped s q with g := t.me.g, pend := t.me.pend, strA := t.me.strA } ∧ SameBytes s t) ∧
  (∀ (s : State) (d : SReg) (q : QNo), ∃ t, exec (.qcnt d q) s = .next t ∧ Ran .c 1 s t ∧ OnlyMe s t ∧
    GetsS d (BitVec.ofNat 64 ((s.me.queue q).ents.filter fun e => decide (e.pushed < s.cycle)).length) 1 s t ∧
    t.me = { s.me with s := t.me.s, pend := t.me.pend, strC := t.me.strC } ∧ SameBytes s t)

/-- The branches and loops that a queue controls (R116, R214, R235): the oldest entry leaves; a branch is taken on a value that is not zero, or on zero, as its form says; a loop opens with the entry as its count, and a count of 0 passes over the body, ending an enclosing body there too (log 23; a count other than 0 leaves the outer one, log 104); with four open loops it is illegal, with an entry of 0 too (log 103), and nothing leaves the queue. The three are the model's readings. -/
def Obligations.QueueControl : Prop :=
  (∀ (s : State) (i : Instr) (x : StreamId) (q : QNo) (nz : Bool) (a v : W64), branchQOp s i = some (x, q, nz, a) → AtFront s q v →
    ∃ t, exec i s = .next t ∧ (nz = decide (v ≠ 0#64) → Went x a s t) ∧ (nz ≠ decide (v ≠ 0#64) → Ran x 1 s t) ∧
      OnlyMe s t ∧ ButStream x (popped s q) t.me ∧ SameBytes s t) ∧
  (∀ (s : State) (i : Instr) (x : StreamId) (q : QNo) (o : BitVec 12) (v : W64), loopQOp i = some (x, q, o) → AtFront s q v →
    (v ≠ 0#64 → (s.me.strm x).loops.length < 4 → ∃ t, exec i s = .next t ∧ t.last = .retired ∧ (t.me.strm x).pc = pcOf s x + 4#64 ∧
      (t.me.strm x).loops = ⟨pcOf s x + 4#64, wordsFrom s x o.toInt, v⟩ :: (s.me.strm x).loops ∧
      OnlyMe s t ∧ ButStream x (popped s q) t.me ∧ SameBytes s t) ∧
    (v = 0#64 → (s.me.strm x).loops.length < 4 → ∃ t, exec i s = .next t ∧ t.last = .retired ∧
      ((t.me.strm x).loops, (t.me.strm x).pc) = loopEnd (pcOf s x) (wordsFrom s x o.toInt + 4#64) (s.me.strm x).loops ∧
      OnlyMe s t ∧ ButStream x (popped s q) t.me ∧ SameBytes s t) ∧
    (4 ≤ (s.me.strm x).loops.length → exec i s = .next (takeTrap ((exIllegal s x).on x) s)))

/-- CIX.SET in both forms (R203): CIX takes the immediate, or the low 24 bits of the oldest entry, KDEP 256 or the depth the entry names, and the index no longer counts as wrapped; nothing else changes. -/
def Obligations.ChunkIndexSets : Prop :=
  (∀ (s : State) (m : BitVec 17), ∃ t, exec (.cixSet m) s = .next t ∧ Ran .m 1 s t ∧ OnlyMe s t ∧
    ButStream .m { s.me with cix := m.toNat, kdep := 256, wrapped := false } t.me ∧ SameBytes s t) ∧
  (∀ (s : State) (q : QNo) (v : W64), AtFront s q v → v.toNat < 2 ^ 33 → v.toNat / 2 ^ 24 ≤ 256 →
    ∃ t, exec (.cixSetQ q) s = .next t ∧ Ran .m 1 s t ∧ OnlyMe s t ∧
    ButStream .m { popped s q with cix := v.toNat % 2 ^ 24, kdep := (if v.toNat / 2 ^ 24 = 0 then 256 else v.toNat / 2 ^ 24), wrapped := false } t.me ∧
    SameBytes s t) ∧
  (∀ (s : State) (q : QNo) (v : W64), AtFront s q v → (2 ^ 33 ≤ v.toNat ∨ 256 < v.toNat / 2 ^ 24) →
    exec (.cixSetQ q) s = .next (takeTrap ((exIllegal s .m).on .m) s))

/-! ## Loads, stores and atomics -/

/-- LD from memory (R118, R120, R122, R239, R282, R358): the bytes at its pointer as the C stream sees them, lowest address least significant, sign-extended, are to land in sd after the latency of their tier; of a poisoned byte a fault is to land instead, and a value from another device stands as outstanding over its link until it lands (R366); its blocks count as used (R268) and nothing else changes. A queued load's latency is a free value (log 4) that its tier bounds (R261). -/
def Obligations.LoadGivesBytes : Prop :=
  ∀ (s : State) (z : MemSize) (d a : SReg) (off : BitVec 10) (acc : Access), LdReady s z a off acc → PlainLoad s z acc → remoteWaits s acc = false →
    isSram (firstAt acc) = false →
    let u := s.touch acc.ss
    let cs := readSegs u (visC s.me) acc.ss
    ∃ t, exec (.ld z d a off) s = .next t ∧ Ran .c 1 s t ∧ OnlyMe u t ∧ t.me = { s.me with pend := t.me.pend, strC := t.me.strC } ∧ SameBytes u t ∧ SameData s t ∧
      (cellsPoison cs = false → t.me.s = s.me.s ∧ t.me.pend = withPends s.seqs s.me.pend [(s.clock + memLat s acc,
        fromMem s d ((BitVec.ofNat (8 * sizeBytes z) (leNat (cs.map (·.byte)))).signExtend 64) (firstAt acc) (ldstPtr s a off z))]) ∧
      (cellsPoison cs = true →
        t.me.pend = withPends s.seqs s.me.pend [(s.clock + memLat s acc, .faulted d (firstPoison cs) (ldstPtr s a off z) s.me.strC.pc)]) ∧
      (s.me.timed = false → ∀ l, timedLat s acc.ss = some l → l ≠ 0 → 1 ≤ memLat s acc ∧ memLat s acc ≤ l)

/-- LD from a bank (R118, R120, R250, R252, R253, R357): its word access is on its way, with its latch in a timed context, and nothing else changes; what another context's bank gives it is what the C stream sees at the issue, so no later store of the stream. Performed within one 8-byte unit it gives the sign-extended bytes: of the own bank in the next cycle, of another core's of the bay in the eighth; in a timed context in its latch. -/
def Obligations.TimedLoadLands : Prop :=
  (∀ (s : State) (z : MemSize) (d a : SReg) (off : BitVec 10) (acc : Access), LdReady s z a off acc → PlainLoad s z acc → remoteWaits s acc = false →
    isSram (firstAt acc) = true →
    ∃ t, exec (.ld z d a off) s = .next t ∧ Ran .c 1 s t ∧ OnlyMe s t ∧
      (let cs := if ownBank s s.me (firstAt acc) then [] else readPlace s (visC s.me) (firstAt acc) (sizeBytes z)
       Sent (.ld d (cs.map (·.byte)) (cellsPoison cs) (sizeBytes z)) (firstAt acc) (ldstPtr s a off z) [(s.clock + acc.lat, .await d s.seqs)] s t) ∧
      t.me = { s.me with words := t.me.words, pend := t.me.pend, strC := t.me.strC } ∧ SameBytes s t) ∧
  (∀ (s : State) (z : MemSize) (d a : SReg) (off : BitVec 10) (acc : Access), LdReady s z a off acc → PlainLoad s z acc → remoteWaits s acc = true →
    exec (.ld z d a off) s = .next { s with last := .waiting }) ∧
  (∀ (pre s : State) (w : WordReq) (d : SReg) (n : Nat), w.op = .ld d [] false n → n ≤ 8 - w.loc % 8 → w.core = s.me.coreIdx → ownBank s s.me w.loc = true →
    let cs := readPlace { pre with me := s.me } [] w.loc n
    let v := (BitVec.ofNat (8 * n) (leNat (cs.map (·.byte)))).signExtend 64
    cellsPoison cs = false →
    (s.me.timed = false → serveWord pre w s = pendAt (s.cycle + 1) (.s d v) (keepWord w none s)) ∧
    (s.me.timed = true → (serveWord pre w s).me.pend = fillLatches w.id (.s d v) 0#6 s.me.pend ∧ (serveWord pre w s).mem = s.mem)) ∧
  (∀ (pre s : State) (w : WordReq) (d : SReg) (bs : List Byte), w.op = .ld d bs false bs.length → bs.length ≤ 8 - w.loc % 8 → ownBank s s.me w.loc = false →
    w.core ≠ s.me.coreIdx → w.core / 4 = s.me.coreIdx / 4 → sramCore w.loc = w.core →
    let v := (BitVec.ofNat (8 * bs.length) (leNat bs)).signExtend 64
    (s.me.timed = false → serveWord pre w s = pendAt (s.cycle + 8) (.remote w.core) (pendAt (s.cycle + 8) (.s d v) (keepWord w none s))) ∧
    (s.me.timed = true → (serveWord pre w s).me.pend = fillLatches w.id (.s d v) 0#6 s.me.pend ∧ (serveWord pre w s).mem = s.mem))

/-- A pointer whose addition carries into the space code makes LD and ST an access fault with QUAL 0, whatever stands there (R118, R352). -/
def Obligations.PointerCarryTraps : Prop :=
  ∀ (s : State) (z : MemSize) (d a : SReg) (off : BitVec 10), (rdS s.me a).toNat / 2 ^ 60 ≠ (ldstPtr s a off z).toNat / 2 ^ 60 →
    exec (.ld z d a off) s = .next (takeTrap ((exAcc s .c 0 (ldstPtr s a off z) .read 0xFF).on .c) s) ∧
    exec (.st z d a off) s = .next (takeTrap ((exAcc s .c 0 (ldstPtr s a off z) .write 0xFF).on .c) s)

/-- ST to a bank (R118, R120, R128, R250, R252): the word access is on its way and its bytes stand among the context's own writes from its issue on, every other byte as before; no register, flag or special register changes; performed within one 8-byte unit it writes the low bytes of sd at the place its pointer names and no other byte. -/
def Obligations.StoreToBank : Prop :=
  (∀ (s : State) (z : MemSize) (d a : SReg) (off : BitVec 10) (acc : Access) (g : Seg), StReady s z a off acc → PlainPage s acc → remoteWaits s acc = false →
    acc.ss = [g] → g.len = sizeBytes z → isSram g.tr.loc = true → NoAccs s →
    ∃ t, exec (.st z d a off) s = .next t ∧ Ran .c 1 s t ∧ OnlyMe s t ∧
      Sent (.st (leBytes (sizeBytes z) (rdS s.me d).toNat)) g.tr.loc (ldstPtr s a off z) [] s t ∧
      t.me = { s.me with words := t.me.words, priv := t.me.priv, pend := t.me.pend, strC := t.me.strC } ∧
      (∀ k, k < sizeBytes z → ∃ p ∈ t.me.priv, p.src = .cs ∧ p.kind = .plain ∧ p.parked = none ∧
        (cellAt (locSeen g.tr.loc + k) p.cells).map (·.byte) = some ((leBytes (sizeBytes z) (rdS s.me d).toNat).getD k 0#8)) ∧
      (∀ x, (x < locSeen g.tr.loc ∨ locSeen g.tr.loc + sizeBytes z ≤ x) → isRecord x = false → readCell t t.me (visC t.me) x = readCell s s.me (visC s.me) x)) ∧
  (∀ (pre s : State) (w : WordReq) (bs : List Byte), Sound s → w.op = .st bs → bs.length ≤ 8 - w.loc % 8 →
    readBases (serveWord pre w s).mem w.loc bs.length = bs ∧
    (∀ y, y < w.loc ∨ w.loc + bs.length ≤ y → readBase (serveWord pre w s).mem y = readBase s.mem y) ∧
    (serveWord pre w s).me.s = s.me.s ∧ (serveWord pre w s).me.priv = s.me.priv)

/-- ST to memory (R120, R257, R239): the context's own loads see the low bytes of sd at the stored locations and every other byte as before; the base of memory and every register stay as they are. -/
def Obligations.StoreToMemory : Prop :=
  ∀ (s : State) (z : MemSize) (d a : SReg) (off : BitVec 10) (acc : Access), StReady s z a off acc → PlainPage s acc → NoAccs s →
    (∀ x ∈ bytesAt acc, isSram x = false ∧ isRecord x = false ∧ inRecPage s s.me x = false) →
    (∀ g ∈ acc.ss, isSram g.tr.loc = false ∧ inRecPage s s.me g.tr.loc = false) → (bytesAt acc).Nodup → isSram (firstAt acc) = false →
    ∃ t, exec (.st z d a off) s = .next t ∧ Ran .c 1 s t ∧ t.me = { s.me with priv := t.me.priv, strC := t.me.strC } ∧
      (∀ k x, (bytesAt acc)[k]? = some x → k < sizeBytes z →
        (readCell t t.me (visC t.me) x).byte = (leBytes (sizeBytes z) (rdS s.me d).toNat).getD k 0#8) ∧
      (∀ x, x ∉ bytesAt acc → isRecord x = false → readCell t t.me (visC t.me) x = readCell s s.me (visC s.me) x) ∧
      t = { s with me := t.me, last := t.last, seqs := t.seqs, blocks := t.blocks, parts := t.parts }

/-- LD and ST on differentiable pages (R121, R309, R313, R314): REV LD.w adds sd to the cell as a private accumulate and keeps sd; FWD ST.w appends the old word to the tape and then stores; REV ST.w pops the old word, gives sd the cell, clears the cell and restores the word; another size under FWD or REV is an access fault with QUAL 5. -/
def Obligations.DifferentiableAccesses : Prop :=
  (∀ (s : State) (d a : SReg) (off : BitVec 10) (acc : Access) (c : Trans), LdReady s .w a off acc → segsDiff acc.ss = true → s.me.dmode = .rev →
    cellPlace s .rmw (ldstPtr s a off .w) = .ok c → revHolds s (cellLoc c) = false →
    ∃ t p, exec (.ld .w d a off) s = .next t ∧ Ran .c 1 s t ∧ t.me = { s.me with priv := s.me.priv ++ [p], strC := t.me.strC } ∧
      p.src = .cs ∧ p.kind = .acc ((rdS s.me d).setWidth 32) ∧ p.cells = [⟨cellLoc c, 0#8, false⟩] ∧
      t = { s with me := t.me, last := t.last, seqs := t.seqs, blocks := t.blocks, parts := t.parts }) ∧
  (∀ (s s1 : State) (d a : SReg) (off : BitVec 10) (acc : Access) (ss : List Seg), StReady s .w a off acc → segsDiff acc.ss = true → s.me.dmode = .fwd →
    s.access s.me .rmw (ldstPtr s a off .w) 4 = .ok ss →
    tapeAppend .c .cs s.me.knownC 1 4 0#64 (ldstPtr s a off .w) (readSegs s (visC s.me) acc.ss) s = .ok s1 →
    ∃ t, exec (.st .w d a off) s = .next t ∧ t.last = .retired ∧ s1.me.tapeHead = s.me.tapeHead + BitVec.ofNat 64 (recSize 4) ∧
      t = retire .c 1 (writeSegs .cs s1.me.knownC (ldstPtr s a off .w) acc.ss (leBytes 4 (rdS s1.me d).toNat) s1)) ∧
  (∀ (s s1 : State) (d a : SReg) (off : BitVec 10) (acc : Access) (c : Trans) (old : List PCell) (top : TapeTop), StReady s .w a off acc → segsDiff acc.ss = true →
    s.me.dmode = .rev → cellPlace s .rmw (ldstPtr s a off .w) = .ok c → revHolds s (cellLoc c) = false →
    tapePop .c 1 0#64 (ldstPtr s a off .w) 4 s = .ok (old, top, s1) →
    ∃ t s2, exec (.st .w d a off) s = .next t ∧ t.last = .retired ∧ s1.me.tapeHead = s.me.tapeHead - BitVec.ofNat 64 top.size ∧
      s2 = clearCell .cs s1.me.knownC (adjPtr (ldstPtr s a off .w)) { c with loc := cellLoc c } (revCell d (cellLoc c) (adjPtr (ldstPtr s a off .w)) s1) ∧
      t = retire .c 1 (spoilPriv (ldstPtr s a off .w) s2.seqs (cellsPoison old)
        (writeSegs .cs s2.me.knownC (ldstPtr s a off .w) acc.ss (old.map (·.byte)) s2)) ∧
      (cellPoison s1 (cellLoc c) = false → locRank (cellLoc c) = s1.rank → isHostBus (cellLoc c) = false →
        revCell d (cellLoc c) (adjPtr (ldstPtr s a off .w)) s1 = pendAt (s1.clock + tripAt s1 (cellLoc c)) (.s d ((cellValue s1 (cellLoc c)).setWidth 64)) s1)) ∧
  (∀ (s : State) (z : MemSize) (d a : SReg) (off : BitVec 10) (acc : Access), segsDiff acc.ss = true → s.me.dmode ≠ .off → z ≠ .w →
    (LdReady s z a off acc → exec (.ld z d a off) s = .next (takeTrap ((exAcc s .c 5 (ldstPtr s a off z) .read 0xFF).on .c) s)) ∧
    (StReady s z a off acc → exec (.st z d a off) s = .next (takeTrap ((exAcc s .c 5 (ldstPtr s a off z) .write 0xFF).on .c) s)))

/-- Atomics (R123 to R125, R252, R267, R358, R392): in memory the cell's home holds the new value, no byte outside it changes, and the old value and the flags of AT.FADD are to land; of a poisoned cell nothing changes and a fault is to land; on a bank the word access is on its way, and performed it changes its cell and no other byte; one whose block finds no sector parks and completes all the same, its register pending until it is placed (log 25, the model's reading). ATOMIC_PERFORM does the same at the home for a party outside the model; that it waits without expiry is the model's reading (log 123). -/
def Obligations.AtomicsAtHome : Prop :=
  (∀ (s : State) (i : Instr) (op : AtOp) (w32 : Bool) (sc : Scope) (d a b : SReg) (acc : Access), atomOp i = some (op, w32, sc, d, a, b) →
    AtomReady s w32 sc a acc →
    let x := firstAt acc
    let n := atomBytes w32
    let old := BitVec.ofNat 64 (leNat (homeRead s x n))
    let new := atomicNew op w32 old (rdS s.me b) (rdS s.me d)
    (isSram x = false → AtomPlaced s op w32 d a b acc → atomBad s.mem (atomReq s op w32 d b acc) = false →
      ∃ t, exec i s = .next t ∧ Ran .c 1 s t ∧ homeRead t x n = leBytes n new.1.toNat ∧
        (∀ y, y < x ∨ x + n ≤ y → homeByte t.mem y = homeByte s.mem y ∧ readBase t.mem y = readBase s.mem y) ∧
        t.me = { s.me with pend := withPends s.seqs s.me.pend [(s.clock + memLat s acc, fromMem s d (atomicOld op w32 old) x (rdS s.me a)), (s.clock + memLat s acc, .fflags new.2)],
                           strC := t.me.strC }) ∧
    (isSram x = false → AtomPlaced s op w32 d a b acc → atomBad s.mem (atomReq s op w32 d b acc) = true →
      ∃ t, exec i s = .next t ∧ Ran .c 1 s t ∧ t.mem = s.mem ∧
        t.me = { s.me with pend := withPends s.seqs s.me.pend [(s.clock + memLat s acc, .faulted d x (rdS s.me a) s.me.strC.pc)], strC := t.me.strC }) ∧
    (isSram x = true → AtomPlaced s op w32 d a b acc → ∃ t, exec i s = .next t ∧ Ran .c 1 s t ∧ OnlyMe s t ∧
      Sent (.rmw d (atomReq s op w32 d b acc)) x (rdS s.me a) [(s.clock + acc.lat, .await d s.seqs)] s t ∧
      t.me = { s.me with words := t.me.words, pend := t.me.pend, strC := t.me.strC } ∧ SameBytes s t) ∧
    (¬AtomPlaced s op w32 d a b acc → ∃ t p, exec i s = .next t ∧ Ran .c 1 s t ∧ OnlyMe s t ∧ t.mem = s.mem ∧
      t.me = { s.me with priv := s.me.priv ++ [p], pend := t.me.pend, strC := t.me.strC } ∧ p.parked = some (s.seqs, s.cycle) ∧
      p.kind = .atom (atomReq s op w32 d b acc) d.val s.seqs)) ∧
  (∀ (pre s : State) (w : WordReq) (d : SReg) (r : AtomReq), Sound pre → Sound s → w.op = .rmw d r → isSram r.loc = true → isSram (r.loc + 7) = true → atomBad pre.mem r = false →
    let n := atomBytes r.w32
    let old := BitVec.ofNat 64 (leNat (homeRead pre r.loc n))
    readBases (serveWord pre w s).mem r.loc n = leBytes n (atomicNew r.op r.w32 old r.b r.expect).1.toNat ∧
    homeRead (serveWord pre w s) r.loc n = leBytes n (atomicNew r.op r.w32 old r.b r.expect).1.toNat ∧
    (∀ y, y < r.loc ∨ r.loc + n ≤ y → readBase (serveWord pre w s).mem y = readBase s.mem y) ∧
    (s.me.timed = true → (serveWord pre w s).me.pend = fillLatches w.id (.s d (atomicOld r.op r.w32 old)) (atomicNew r.op r.w32 old r.b r.expect).2 s.me.pend)) ∧
  (∀ (s : State) (r : AtomReq), Sound s →
    let n := atomBytes r.w32
    ((blockParked s (r.loc / 512) = true ∨ (reserveForeign r s).2 = false) →
      exec (.atomicPerform r) s = .next { s with foreign := s.foreign ++ [(s.seqs, r)], seqs := s.seqs + 1, last := .event }) ∧
    (blockParked s (r.loc / 512) = false → (reserveForeign r s).2 = true → ∃ t, exec (.atomicPerform r) s = .next t ∧ t.last = .event ∧ t.me = s.me ∧
      (atomBad s.mem r = true → t.mem = s.mem) ∧
      (atomBad s.mem r = false →
        homeRead t r.loc n = leBytes n (atomicNew r.op r.w32 (BitVec.ofNat 64 (leNat (homeRead s r.loc n))) r.b r.expect).1.toNat ∧
        ∀ y, (y < r.loc ∨ r.loc + n ≤ y) → (y < locSeen r.loc ∨ locSeen r.loc + n ≤ y) →
          homeByte t.mem y = homeByte s.mem y ∧ readBase t.mem y = readBase s.mem y)))

/-- The values of the atomics (R123): AT.ADD wraps at the width, AT.BINC adds 1 below its cap, AT.CAS writes only on equality, AT.SWP exchanges, AT.MAX is signed, AT.FADD is fp32_add rounded to nearest even with its flags, and with a NaN operand 0x7FC0_0000; a 64-bit old value is sd's as it is, a 32-bit one is sign-extended, one of AT.FADD zero-extended. -/
def Obligations.AtomicValues : Prop :=
  (∀ o b e : W64, (atomicNew .add false o b e).1 = o + b ∧ (atomicNew .add true o b e).1.toNat = (o.toNat + b.toNat) % 2 ^ 32 ∧
    (atomicNew .binc false o b e).1 = (if o.toNat < b.toNat then o + 1#64 else o) ∧
    (atomicNew .binc true o b e).1.toNat = (if o.toNat % 2 ^ 32 < b.toNat % 2 ^ 32 then o.toNat % 2 ^ 32 + 1 else o.toNat % 2 ^ 32) ∧
    (atomicNew .cas false o b e).1 = (if o = e then b else o) ∧ (atomicNew .swp false o b e).1 = b ∧ (atomicNew .swp true o b e).1.toNat = b.toNat % 2 ^ 32 ∧
    (atomicNew .cas true o b e).1.toNat = (if o.toNat % 2 ^ 32 = e.toNat % 2 ^ 32 then b.toNat % 2 ^ 32 else o.toNat % 2 ^ 32) ∧
    (atomicNew .max false o b e).1.toInt = max o.toInt b.toInt ∧
    (atomicNew .max true o b e).1.toNat % 2 ^ 32 = (if (o.setWidth 32).toInt < (b.setWidth 32).toInt then b.toNat else o.toNat) % 2 ^ 32) ∧
  (∀ o b e : W64, let r := addFp32 0 (o.setWidth 32) (b.setWidth 32)
    (atomicNew .fadd true o b e).1 = BitVec.ofNat 64 r.bits ∧ (atomicNew .fadd true o b e).2 = r.flags ∧
    ((isNan32 (o.setWidth 32) = true ∨ isNan32 (b.setWidth 32) = true) → (atomicNew .fadd true o b e).1 = 0x7FC00000#64)) ∧
  (∀ (op : AtOp) (w : Bool) (o b e : W64), op ≠ .fadd → (atomicNew op w o b e).2 = 0#6) ∧
  (∀ (op : AtOp) (o : W64), atomicOld op false o = o) ∧
  (∀ (op : AtOp) (o : W64), op ≠ .fadd → (atomicOld op true o).toInt = (o.setWidth 32).toInt) ∧
  (∀ o : W64, (atomicOld .fadd true o).toNat = o.toNat % 2 ^ 32)

/-! ## Ordering, barriers, mailboxes -/

/-- A publish of the C stream (R128, R240): the covered writes that are not parked leave the private entries, for each covered plain byte a version of the scope holds the byte of the latest of the covered writes of it, that of a command issued earlier giving way to a later one's (R241), and no register or base byte changes. A refresh (R240): a byte of the one version of it that is available at the scope comes into the view where the view and the base hold nothing newer of it. -/
def Obligations.PublishAndRefresh : Prop :=
  (∀ (s : State) (sc : Scope),
    (publish sc .c s).me.priv = (s.me.priv.filter fun p => !(covers s.me .c s.now p.prov && p.parked.isNone)) ∧
    (let cov := s.me.priv.filter fun p => covers s.me .c s.now p.prov && p.parked.isNone
     ∀ p ∈ cov, p.kind = .plain → ∀ c ∈ p.cells, ∃ w ∈ cov, winnerAt c.loc cov = some w ∧ w.kind = .plain ∧ (cellAt c.loc w.cells).isSome = true ∧
      ∃ v ∈ (publish sc .c s).mem.vers, v.scope = sc ∧ v.stamp = s.stamp + 1 ∧ v.acc = none ∧ cellAt c.loc v.cells = cellAt c.loc w.cells) ∧
    (∀ (x : Nat) (ps : List Priv) (p q : Priv), p.kind = .plain → q.kind = .plain → (cellAt x p.cells).isSome = true → (cellAt x q.cells).isSome = true →
      (∀ r ∈ ps, r.kind = .plain → cellAt x r.cells = none) → winnerAt x (ps ++ [p, q]) = some (if beats q p then q else p)) ∧
    (publish sc .c s).mem.base = s.mem.base ∧ (publish sc .c s).me.s = s.me.s ∧ (publish sc .c s).me.strC = s.me.strC) ∧
  (∀ (s : State) (sc : Scope) (v : Ver) (c : PCell), v ∈ s.mem.vers → v.acc = none → c ∈ v.cells → (∀ e ∈ v.cells, e.loc = c.loc → e = c) →
    available sc v.scope (s.placeOf s.me) v.place = true → (∀ u ∈ s.mem.vers, u ≠ v → cellAt c.loc u.cells = none) →
    s.me.view.all (·.cell.loc != c.loc) = true → s.mem.baseVer.all (·.1 != c.loc) = true → s.mem.atoms.all (·.1 != c.loc) = true →
    viewCell (refresh sc s).mem (refresh sc s).me c.loc = c)

/-- PHASE (R128 to R130, R260): a queued one publishes at its scope what it covers and then refreshes at that scope, once no covered write is on its way and the versions find room; until then it waits. A timed one, in a handler too, publishes at issue and refreshes after the latency of its scope; without room at issue it publishes nothing then, and at its landing the bay is held until there is room, when it publishes and refreshes. A timed PHASE of domain scope is illegal. -/
def Obligations.PhaseOrders : Prop :=
  (∀ (s : State) (sc : Scope),
    (s.me.timed = false → boundaryBarred sc .c s = false →
      ∃ t, exec (.phase sc) s = .next t ∧ t.last = .retired ∧ (t.me.strm .c).acc = ((s.me.strm .c).acc + 1) % 2 ^ 48 ∧
        t.me.priv = (s.me.priv.filter fun p => !(covers s.me .c s.now p.prov && p.parked.isNone)) ∧
        t.mem = (publish sc .c s).mem ∧ t.me.view = (refreshCtx (publish sc .c s) sc (publish sc .c s).me).view ∧
        t.me = { s.me with priv := t.me.priv, view := t.me.view, accView := t.me.accView, acq := t.me.acq, buckets := t.me.buckets, roomWait := 0, strC := t.me.strC }) ∧
    (s.me.timed = false → boundaryBarred sc .c s = true →
      exec (.phase sc) s = .next { s with me := { s.me with roomWait := shortOf sc .c s }, last := .waiting }) ∧
    (s.me.timed = true → sc ≠ .dom → shortOf sc .c s = 0 →
      ∃ t, exec (.phase sc) s = .next t ∧ t.last = .retired ∧ (t.me.strm .c).acc = ((s.me.strm .c).acc + 1) % 2 ^ 48 ∧
        t.me.priv = (s.me.priv.filter fun p => !(covers s.me .c s.now p.prov && p.parked.isNone)) ∧ t.mem = (publish sc .c s).mem ∧
        t.me.pend = withPends (publish sc .c s).seqs s.me.pend [(s.clock + phaseLat sc, .refresh sc (s.me.strC.acc + 1) s.now)] ∧ t.me.s = s.me.s ∧ t.me.view = (publish sc .c s).me.view) ∧
    (s.me.timed = true → sc ≠ .dom → shortOf sc .c s ≠ 0 →
      ∃ t, exec (.phase sc) s = .next t ∧ Ran .c 1 s t ∧ OnlyMe s t ∧ t.mem = s.mem ∧
        t.me = { s.me with roomWait := shortOf sc .c s, strC := t.me.strC,
                           pend := withPends s.seqs s.me.pend [(s.clock + phaseLat sc, .refresh sc (s.me.strC.acc + 1) s.now)] }) ∧
    (s.me.timed = true → exec (.phase .dom) s = .next (takeTrap ((exIllegal s .c).on .c) s))) ∧
  (∀ (s : State) (p : Pend) (r : List Pend) (sc : Scope) (acc at0 : Nat), s.me.pend = p :: r → p.what = .refresh sc acc at0 →
    (p.due ≤ s.clock → 0 < spaceShort sc .c (phaseCovers acc at0) s →
      ∃ t, exec .resultLanding s = .next t ∧ t.last = .event ∧ t.myBay = { s.myBay with frozen := true, hold := true } ∧ t.mem = s.mem ∧
        t.me = { s.me with roomWait := max s.me.roomWait (spaceShort sc .c (phaseCovers acc at0) s) }) ∧
    (p.due = s.clock → r = [] → spaceShort sc .c (phaseCovers acc at0) s = 0 → (∀ q ∈ s.me.priv, q.parked = none) →
      let s1 := publishSel sc .c (phaseCovers acc at0) { s with me := { s.me with pend := [] } }
      exec .resultLanding s = .next { refresh sc s1 with last := .event }))

/-- BAR.INIT and BAR.DL (R132, R136): an expected count of 1 to 16,777,215 sets a barrier that is clear; another count, or a barrier that is set, is illegal; BAR.DL sets deadline and policy, of a barrier that is not set up is illegal, and a deadline of 0 ends no wait. -/
def Obligations.BarrierSetUp : Prop :=
  (∀ (s : State) (b : BarNo) (a : SReg) (sc : Scope), s.me.bar? b = none → 1 ≤ (rdS s.me a).toNat → (rdS s.me a).toNat ≤ 16777215 →
    ∃ t, exec (.barInit b a sc) s = .next t ∧ Ran .c 1 s t ∧ OnlyMe s t ∧ t.me.bar? b = some ⟨sc, (rdS s.me a).toNat, false, 0, 0#64, false⟩ ∧
      (∀ n, n ≠ b.val → t.me.bar? n = s.me.bar? n) ∧ t.me = { s.me with bars := t.me.bars, strC := t.me.strC } ∧ SameBytes s t) ∧
  (∀ (s : State) (b : BarNo) (a : SReg) (sc : Scope), (s.me.bar? b ≠ none ∨ rdS s.me a = 0#64 ∨ 16777215 < (rdS s.me a).toNat) →
    exec (.barInit b a sc) s = .next (takeTrap ((exIllegal s .c).on .c) s)) ∧
  (∀ (s : State) (b : BarNo) (a : SReg) (p : Bool) (x : BarSt), s.me.bar? b = some x →
    ∃ t, exec (.barDl b a p) s = .next t ∧ Ran .c 1 s t ∧ OnlyMe s t ∧ t.me.bar? b = some { x with deadline := rdS s.me a, proceed := p } ∧
      (∀ n, n ≠ b.val → t.me.bar? n = s.me.bar? n) ∧ t.me = { s.me with bars := t.me.bars, strC := t.me.strC } ∧ SameBytes s t) ∧
  (∀ (s : State) (b : BarNo) (a : SReg) (p : Bool), s.me.bar? b = none → exec (.barDl b a p) s = .next (takeTrap ((exIllegal s .c).on .c) s)) ∧
  (∀ (s : State) (b : BarNo) (x : BarSt), s.me.bar? b = some x → x.deadline = 0#64 → deadlineEnds s b = false ∧
    (x.arrived = true → doneAt s b x = none → ∃ t, exec (.barWt b) s = .next t ∧ t.last = .waiting ∧ t.me = { s.me with barWait := some b.val }))

/-- BAR.ARR and BAR.WT (R133, R134): the first arrival of a context publishes at the barrier's scope and adds one to the count of its generation at the barrier's home, a second one before its wait is illegal; a wait whose generation is complete ends, refreshes and moves the context to the next generation; one whose generation is not complete and has no deadline waits. -/
def Obligations.BarrierRounds : Prop :=
  (∀ (s : State) (b : BarNo) (x : BarSt), s.me.bar? b = some x → x.arrived = false → arrivalDiffers s b x = false → windowFull s b x = false →
    boundaryBarred x.scope .c s = false →
    ∃ t, exec (.barArr b) s = .next t ∧ t.last = .retired ∧ t.me.bar? b = some { x with arrived := true } ∧
      t.bars = (arriveAt b x (publish x.scope .c s)).bars ∧
      (genOf t b { x with arrived := true }).map (·.count) = some (((genOf s b x).map (·.count)).getD 0 + 1) ∧ t.mem = (publish x.scope .c s).mem ∧ t.me.s = s.me.s ∧
      (t.me.strm .c).acc = ((s.me.strm .c).acc + 1) % 2 ^ 48) ∧
  (∀ (s : State) (b : BarNo) (x : BarSt), s.me.bar? b = some x → x.arrived = true →
    exec (.barArr b) s = .next (takeTrap ((exIllegal s .c).on .c) s)) ∧
  (∀ (s : State) (b : BarNo) (x : BarSt) (k : Nat), s.me.bar? b = some x → x.arrived = true → doneAt s b x = some k →
    ∃ t, exec (.barWt b) s = .next t ∧ t.last = .retired ∧ t.me.bar? b = some { x with arrived := false, gen := (x.gen + 1) % 2 ^ 32 } ∧
      t.me.view = (refreshCtx s x.scope s.me).view ∧ t.me.s = s.me.s ∧ (t.me.strm .c).acc = ((s.me.strm .c).acc + 1) % 2 ^ 48) ∧
  (∀ (s : State) (b : BarNo) (x : BarSt), s.me.bar? b = some x → x.arrived = true → doneAt s b x = none → x.proceed = false →
    ∃ t, exec (.barWt b) s = .next t ∧ t.last = .waiting ∧ t.me = { s.me with barWait := some b.val } ∧ t.mem = s.mem)

/-- BARRIER_COMPLETION and BARRIER_DEADLINE (R134, R135): a generation that has reached its count is complete from this cycle; the wait of a PROCEED barrier whose deadline cycle has passed ends late, with the event LATE, the refresh and the next generation; with no such wait the step changes nothing. -/
def Obligations.BarrierEnds : Prop :=
  (∀ (s : State) (n : Nat) (h : BarHome), s.bars[n]? = some h → ∃ t, exec (.barrierCompletion n) s = .next t ∧ t.me = s.me ∧ t.mem = s.mem ∧
    t.bars[n]? = some { h with gens := h.gens.map fun g => if g.doneAt = none ∧ h.expected ≤ g.count then { g with doneAt := some s.cycle, top := s.ptpTop } else g } ∧
    (∀ k, k ≠ n → t.bars[k]? = s.bars[k]?) ∧ t = { s with bars := t.bars, last := .event }) ∧
  (∀ (s : State) (b : BarNo) (x : BarSt), Alone s → s.me.bar? b = some x → deadlineEnds s b = true →
    ∃ t, exec (.barrierDeadline b) s = .next t ∧ t.last = .event ∧ t.me.bar? b = some { x with arrived := false, gen := (x.gen + 1) % 2 ^ 32 } ∧
      t.me.events = s.me.events ||| 8#5 ∧ t.me.barWait = none ∧ t.me.s = s.me.s ∧ t.me.view = (refreshCtx s x.scope s.me).view ∧ t.mem = s.mem) ∧
  (∀ (s : State) (b : BarNo), (∀ c ∈ s.ctxs, deadlineEnds (s.seenBy c.launch) b = false) → exec (.barrierDeadline b) s = .next { s with last := .event })

/-- The mailbox instructions (R140 to R143, R148, R347): MBX.SEND publishes at device scope and appends the message with bit 63 clear, latching MAIL in every context that is the receiver and changing no other context but for the bytes its buckets count; MBX.RECV takes the oldest message, which is to land in sd, with a refresh at device scope; MBX.TRY does so of a queued context, gives bit 63 of an empty mailbox, and in a timed context samples in its landing cycle; an empty mailbox makes RECV wait; a full one makes a queued SEND wait and a timed one trap; a number beyond 1,023, a sender that may not send and a context that is not the receiver are an access fault with QUAL 7. That a queued MBX.TRY samples in its issue cycle is the model's choice (log 96). -/
def Obligations.Mailboxes : Prop :=
  (∀ (s : State) (a b : SReg) (m : Mbx), boxOf s (rdS s.me a) = some m → maySend s s.me m = true → m.msgs.length < 16 → boundaryBarred .dev .c s = false →
    ∃ t, exec (.mbxSend a b) s = .next t ∧ t.last = .retired ∧ (t.mbx m.die m.num) = { m with msgs := m.msgs ++ [rdS s.me b &&& 0x7FFFFFFFFFFFFFFF#64] } ∧
      t.me.priv = (s.me.priv.filter fun p => !(covers s.me .c s.now p.prov && p.parked.isNone)) ∧ t.mem = (publish .dev .c s).mem ∧
      (t.me.strm .c).acc = ((s.me.strm .c).acc + 1) % 2 ^ 48 ∧
      (∀ c d, (c, d) ∈ s.ctxs.zip t.ctxs → d.irq = (if c.life ≠ .vacant ∧ isReceiver c m = true then c.irq ||| 1#7 else c.irq) ∧
        d.irqAt = (if c.life ≠ .vacant ∧ isReceiver c m = true ∧ c.irq = 0#7 then s.cycle else c.irqAt)) ∧
      t.ring.length = s.ring.length ∧ (∀ c d, (c, d) ∈ s.ring.zip t.ring → d = { c with buckets := d.buckets, irq := d.irq, irqAt := d.irqAt }) ∧
      t.me = { s.me with priv := t.me.priv, view := t.me.view, accView := t.me.accView, acq := t.me.acq, buckets := t.me.buckets, roomWait := 0, irq := t.me.irq, irqAt := t.me.irqAt, strC := t.me.strC }) ∧
  (∀ (s : State) (d a : SReg) (m : Mbx) (v : W64) (r : List W64), boxOf s (rdS s.me a) = some m → isReceiver s.me m = true → m.msgs = v :: r →
    (∃ t, exec (.mbxRecv d a) s = .next t ∧ t.last = .retired ∧ GetsS d v 1 s t ∧ t.mbx m.die m.num = { m with msgs := r } ∧ t.mem = s.mem ∧
      t.me.view = (refreshCtx s .dev s.me).view ∧ (t.me.strm .c).acc = ((s.me.strm .c).acc + 1) % 2 ^ 48 ∧
      t.me = { s.me with pend := t.me.pend, view := t.me.view, accView := t.me.accView, acq := t.me.acq, strC := t.me.strC }) ∧
    (s.me.timed = false → ∃ t, exec (.mbxTry d a) s = .next t ∧ t.last = .retired ∧ GetsS d v s.trip s t ∧ t.mbx m.die m.num = { m with msgs := r } ∧ t.mem = s.mem ∧
      t.me.view = (refreshCtx s .dev s.me).view ∧
      t.me = { s.me with pend := t.me.pend, view := t.me.view, accView := t.me.accView, acq := t.me.acq, strC := t.me.strC })) ∧
  (∀ (s : State) (d a : SReg) (m : Mbx), boxOf s (rdS s.me a) = some m → isReceiver s.me m = true → m.msgs = [] →
    exec (.mbxRecv d a) s = .next { s with last := .waiting } ∧
    (s.me.timed = false → ∃ t, exec (.mbxTry d a) s = .next t ∧ Ran .c 1 s t ∧ GetsS d 0x8000000000000000#64 s.trip s t ∧ OnlyMe s t ∧
      t.me = { s.me with pend := t.me.pend, strC := t.me.strC } ∧ SameBytes s t)) ∧
  (∀ (s : State) (d a : SReg) (m : Mbx), boxOf s (rdS s.me a) = some m → isReceiver s.me m = true → s.me.timed = true →
    ∃ t, exec (.mbxTry d a) s = .next t ∧ Ran .c 1 s t ∧ OnlyMe s t ∧ SameBytes s t ∧
      t.me = { s.me with pend := withPends s.seqs s.me.pend [(s.clock + (if m.die = s.me.die then 96 else 4096), .mbxTry d (rdS s.me a).toNat)], strC := t.me.strC }) ∧
  (∀ (s : State) (a b : SReg) (m : Mbx), boxOf s (rdS s.me a) = some m → maySend s s.me m = true → 16 ≤ m.msgs.length →
    (s.me.timed = false → exec (.mbxSend a b) s = .next { s with last := .waiting }) ∧
    (s.me.timed = true → exec (.mbxSend a b) s = .next (takeTrap ((exIllegal s .c).on .c) s))) ∧
  (∀ (s : State) (d a b : SReg),
    (1024 ≤ (rdS s.me a).toNat ∨ (∃ m, boxOf s (rdS s.me a) = some m ∧ maySend s s.me m = false) →
      exec (.mbxSend a b) s = .next (takeTrap ((exAcc s .c 7 (rdS s.me a) .write 0xFF).on .c) s)) ∧
    (1024 ≤ (rdS s.me a).toNat ∨ (∃ m, boxOf s (rdS s.me a) = some m ∧ isReceiver s.me m = false) →
      exec (.mbxRecv d a) s = .next (takeTrap ((exAcc s .c 7 (rdS s.me a) .read 0xFF).on .c) s) ∧
      exec (.mbxTry d a) s = .next (takeTrap ((exAcc s .c 7 (rdS s.me a) .read 0xFF).on .c) s)))

/-! ## Work, time, traps and special registers -/

/-- RNG.NEXT, NODE.ADD, NODE.DONE and DIFF.MODE (R144 to R146, R151, R260, R319): RNG.NEXT serves a part of the range, whose start and length are to land in sd and s(d + 1), and of a node with no range start 0 and length 0; NODE.ADD publishes at device scope and hands a slip that can be read to the catalogue, whose answer is to land in sd; NODE.DONE stops the other streams, waits while work is in flight or a write is parked, and then ends the instance; DIFF.MODE with no differentiable access in flight publishes and then refreshes at core scope and the mode is the new one, before that it waits, holding later differentiable commands. RNG.NEXT, NODE.ADD and DIFF.MODE are illegal in a timed context. The queued latencies are free values (log 4). -/
def Obligations.WorkAndModes : Prop :=
  (∀ (s : State) (d : SReg), s.me.timed = false →
    let us := unitsOf s s.me.nodeDie s.me.nodeIdx
    let r := serveRange (((s.node? s.me.nodeDie s.me.nodeIdx).map (·.range)).getD 0) (us.findIdx fun u => u.die == s.me.die) us
    ∃ t, exec (.rngNext d) s = .next t ∧ Ran .c 1 s t ∧ t.ranges = (s.setRanges r.2.2).ranges ∧
      t.me = { s.me with pend := withPends s.seqs s.me.pend [(s.clock + s.trip, .s d (BitVec.ofNat 64 r.1)), (s.clock + s.trip, .s (d + 1) (BitVec.ofNat 64 r.2.1))], strC := t.me.strC } ∧
      t = { s with me := t.me, last := t.last, seqs := t.seqs, ranges := t.ranges }) ∧
  (∀ (s : State) (d : SReg), s.me.timed = false → unitsOf s s.me.nodeDie s.me.nodeIdx = [] → (∀ n, s.node? s.me.nodeDie s.me.nodeIdx = some n → n.range = 0) →
    ∃ t, exec (.rngNext d) s = .next t ∧ Ran .c 1 s t ∧
      t.me = { s.me with pend := withPends s.seqs s.me.pend [(s.clock + s.trip, .s d 0#64), (s.clock + s.trip, .s (d + 1) 0#64)], strC := t.me.strC }) ∧
  (∀ (total p : Nat) (us : List RangeU) (u : RangeU), us[p]? = some u → u.remaining ≠ 0 → u.instances ≠ 0 →
    (serveRange total p us).1 = u.start ∧
    (serveRange total p us).2.1 = min u.remaining (max u.minimum ((u.remaining + 2 * u.instances - 1) / (2 * u.instances))) ∧
    (serveRange total p us).2.2 = us.set p { u with start := u.start + (serveRange total p us).2.1, remaining := u.remaining - (serveRange total p us).2.1 }) ∧
  (∀ (s : State) (d a : SReg) (acc : Access), s.me.timed = false → spaceOf (rdS s.me a) = .glb → (rdS s.me a).toNat % 256 = 0 →
    checkAccess s true .read (rdS s.me a) 256 = .ok acc → boundaryBarred .dev .c s = false →
    let s1 := publish .dev .c s
    let slip := (readSegs (s1.withMe (refreshCtx s1 .dev s1.me)) [] acc.ss).map (·.byte)
    let r := acceptSlip s1.me.die s1.me.asid s1.me.vmid (fnOfDie s1.me.die s1.me.vmid) none slip s1
    ∃ t q, exec (.nodeAdd d a) s = .next t ∧ t.last = .retired ∧ t.mem = s1.mem ∧
      t.nodes = (addNode d acc.ss s).nodes ∧
      t.me.priv = (s.me.priv.filter fun p => !(covers s.me .c s.now p.prov && p.parked.isNone)) ∧
      t.me.pend = insertPend ⟨s.clock + s.trip, q, .s d (BitVec.ofInt 64 r.2)⟩ s.me.pend ∧ t.me.s = s.me.s ∧ t.me.f = s.me.f ∧ t.me.g = s.me.g) ∧
  (∀ s : State, firstFault (stopStreams s).me = none → allDrained s.me = true → s.me.priv.any (·.parked.isSome) = false →
    spaceShort .dev .c (fun _ => true) (stopStreams s) = 0 →
    ∃ t, exec .nodeDone s = .next t ∧ t = endInstance (stopStreams s) ∧ t.last = .retired) ∧
  (∀ s : State, firstFault (stopStreams s).me = none → (allDrained s.me = false ∨ s.me.priv.any (·.parked.isSome) = true) →
    exec .nodeDone s = .next { stopStreams s with last := .waiting }) ∧
  (∀ (s : State) (m : DMode), s.me.timed = false → diffInFlight s.me = false → diffParked s.me = false → coverParked s.me .c s.now = false →
    spaceShort .core .c (diffCovers s) s = 0 →
    ∃ t, exec (.diffMode m) s = .next t ∧ t.last = .retired ∧ t.me.dmode = m ∧ t.me.diffWait = false ∧
      t.me.priv = (s.me.priv.filter fun p => !((covers s.me .c s.now p.prov || p.diff) && p.parked.isNone)) ∧ t.mem = (publishSel .core .c (diffCovers s) s).mem ∧
      t.me.view = (refreshCtx (publishSel .core .c (diffCovers s) s) .core (publishSel .core .c (diffCovers s) s).me).view ∧
      (t.me.strm .c).acc = ((s.me.strm .c).acc + 1) % 2 ^ 48 ∧
      t.me = { s.me with dmode := m, diffWait := false, priv := t.me.priv, view := t.me.view, accView := t.me.accView, acq := t.me.acq, buckets := t.me.buckets, roomWait := 0, strC := t.me.strC }) ∧
  (∀ (s : State) (m : DMode), s.me.timed = false → (diffInFlight s.me = true ∨ diffParked s.me = true ∨ coverParked s.me .c s.now = true) →
    ∃ t, exec (.diffMode m) s = .next t ∧ t.last = .waiting ∧ t.me = { s.me with diffWait := true, roomWait := t.me.roomWait } ∧ t = { s with me := t.me, last := .waiting }) ∧
  (∀ (s : State) (d a : SReg) (m : DMode), s.me.timed = true →
    exec (.rngNext d) s = .next (takeTrap ((exIllegal s .c).on .c) s) ∧ exec (.nodeAdd d a) s = .next (takeTrap ((exIllegal s .c).on .c) s) ∧
    exec (.diffMode m) s = .next (takeTrap ((exIllegal s .c).on .c) s))

/-- YIELD (R146): with no request standing and its deadline not come, or in a timed context, it only retires; else the context stops for a save, no longer active, once what it has in flight has drained. -/
def Obligations.YieldStops : Prop :=
  (∀ s : State, (s.me.timed = true ∨ (requested s s.me = false ∧ s.ptp.toNat < s.me.yieldDl.toNat)) →
    ∃ t, exec .yield s = .next t ∧ Ran .c 1 s t ∧ OnlyMe s t ∧ ButStream .c s.me t.me ∧ SameBytes s t) ∧
  (∀ s : State, s.me.timed = false → s.me.life = .active → Alone s → QuietCtx s.me → s.me.acmds = [] → (requested s s.me = true ∨ s.me.yieldDl.toNat ≤ s.ptp.toNat) →
    ∃ t, exec .yield s = .next t ∧ t.last = .retired ∧ t.mem = s.mem ∧ t.me = { s.me with saving := some .cooperative, life := .stopped, barWait := none, strC := countRetired (stepPast 1 s.now s.me.strC) })

/-- TSC and WAIT.EV (R147, R148): sd gets PTP time, never below an earlier TSC of the context; WAIT.EV gives the pending events of its mask and clears them, MAIL excepted; with none pending it waits, and with bit 63 it gives 0; a mask with no event bit or with reserved bits is illegal. -/
def Obligations.TimeAndEvents : Prop :=
  (∀ (s : State) (d : SReg), ∃ t, exec (.tsc d) s = .next t ∧ Ran .c 1 s t ∧ OnlyMe s t ∧
    (let v := if s.ptp.toNat < s.me.lastTsc.toNat then s.me.lastTsc else s.ptp
     GetsS d v 1 s t ∧ t.me.lastTsc = v) ∧ t.me = { s.me with s := t.me.s, pend := t.me.pend, strC := t.me.strC, lastTsc := t.me.lastTsc } ∧ SameBytes s t) ∧
  (∀ (s : State) (d a : SReg), (rdS s.me a).toNat / 32 % 2 ^ 58 = 0 → (rdS s.me a).toNat % 32 ≠ 0 →
    (pendingEv s &&& (rdS s.me a).setWidth 5 ≠ 0#5 ∨ (rdS s.me a).getLsbD 63 = true) →
    ∃ t, exec (.waitEv d a) s = .next t ∧ Ran .c 1 s t ∧ OnlyMe s t ∧ GetsS d ((pendingEv s &&& (rdS s.me a).setWidth 5).setWidth 64) 1 s t ∧
      t.me.events = s.me.events &&& ~~~(pendingEv s &&& (rdS s.me a).setWidth 5 &&& 0x1E#5) ∧
      t.me = { s.me with s := t.me.s, pend := t.me.pend, strC := t.me.strC, events := t.me.events } ∧ SameBytes s t) ∧
  (∀ (s : State) (d a : SReg), (rdS s.me a).toNat / 32 % 2 ^ 58 = 0 → (rdS s.me a).toNat % 32 ≠ 0 →
    pendingEv s &&& (rdS s.me a).setWidth 5 = 0#5 → (rdS s.me a).getLsbD 63 = false → exec (.waitEv d a) s = .next { s with last := .waiting }) ∧
  (∀ (s : State) (d a : SReg), ((rdS s.me a).toNat / 32 % 2 ^ 58 ≠ 0 ∨ (rdS s.me a).toNat % 32 = 0) →
    exec (.waitEv d a) s = .next (takeTrap ((exIllegal s .c).on .c) s))


/-! ## Traps, returns and special registers -/

/-- Taking a trap outside a handler, with nothing in flight (R149, R284, R345, R347 to R353, R356): a held TRAP_ENTRY, TRAP with its code and its own next address, BRK at its own address, an asynchronous trap and an interrupt, in a handler too once it enables interrupts (R347), leave the record in the record page, TRAP.CAUSE, a valid frame with its bytes, supervisor mode with interrupts off and the C stream at TRAP.VEC, freeze a timed context's bay, log an error of class 14 or 15, and change nothing else; the results a queued context has pending have landed before. That TRAP and BRK count in queued contexts too, and the frame's inner layout, are the model's (logs 83, 12). -/
def Obligations.TrapsEnter : Prop :=
  (∀ (s : State) (t : TrapReq), CanEnter t { s with me := { s.me with trapWait := none } } → t.cls ≠ 7 →
    ∃ u, exec (.trapEntry t) s = .next u ∧ Entered t { s with me := { s.me with trapWait := none } } u ∧ u.last = .event) ∧
  (∀ (s : State) (t : TrapReq) (c : Ctx), s.judging = false → s.me.sup = false → s.me.timed = false → landedCtx { s.me with trapWait := none } = some c →
    s.me.words = [] → s.me.rets = [] → s.me.acmds = [] → s.me.loads = [] → s.me.cmds = [] → CanEnter t { s with me := c } → t.cls ≠ 7 →
    ∃ u, exec (.trapEntry t) s = .next u ∧ Entered t { s with me := c } u ∧ u.last = .event) ∧
  (∀ (s : State) (a : SReg), CanEnter ⟨11, .c, 0, []⟩ s → ∃ u, exec (.trap a) s = .next u ∧ u.last = .trapped ∧
    Entered ⟨11, .c, 0, leBytes 4 (rdS s.me a).toNat ++ leBytes 4 0 ++ leBytes 8 s.me.strC.pc.toNat⟩
      { s with me := { s.me with strC := { s.me.strC with pc := s.me.strC.pc + 4#64, acc := (s.me.strC.acc + 1) % 2 ^ 48, ref := s.now + 1 } } } u) ∧
  (∀ s : State, CanEnter ⟨12, .c, 0, []⟩ s → ∃ u, exec .brk s = .next u ∧ u.last = .trapped ∧
    Entered ⟨12, .c, 0, leBytes 8 s.me.strC.pc.toNat⟩
      { s with me := { s.me with strC := { s.me.strC with acc := (s.me.strC.acc + 1) % 2 ^ 48, ref := s.now + 1 } } } u) ∧
  (∀ (s : State) (h : Held) (r : List Held), s.me.life = .active → s.me.held = h :: r → s.me.heldAt < s.cycle → s.me.trapWait = none → s.me.sup = false →
    CanEnter ⟨h.cls, .c, 0, h.info⟩ { s with me := { s.me with held := r } } → h.cls ≠ 7 →
    ∃ u, exec .asyncTrap s = .next u ∧ Entered ⟨h.cls, .c, 0, h.info⟩ { s with me := { s.me with held := r } } u ∧ u.last = .event) ∧
  (∀ s : State, s.me.life = .active → s.me.irq ≠ 0#7 → s.me.irqAt < s.cycle → s.me.status.getLsbD 1 = true → (s.me.sup = true → s.me.irqNow = true) → s.me.trapWait = none → CanEnter ⟨16, .c, 0, []⟩ s →
    ∃ u, exec .interruptEntry s = .next u ∧ Entered ⟨16, .c, 0, []⟩ s u ∧ u.last = .event)

/-- Traps that no handler of the context takes (R150, R303, R348, R354): a page fault of class 7 makes the context await the memory processor, with its frame and cause set and its streams where they were, and reports it to the memory processor of the device that owns the entry; any trap in a handler but an interrupt is a double trap, which ends the node with status 5; what drains holds a queued context's entry. That what needs only time drains within the step is the model's choice (log 13). -/
def Obligations.TrapsElsewhere : Prop :=
  (∀ (s : State) (t : TrapReq), CanEnter t s → t.cls = 7 → (∀ c ∈ s.ring, c.launch ≠ s.me.launch) →
    ∃ u, exec (.trapEntry t) s = .next u ∧ u.me.life = .awaiting ∧ u.me.trapCause = causeWord t s.me.recVa ∧ u.me.frame = some (frameOf 7 s.me) ∧
      u.me.strC = s.me.strC ∧ u.me.status = s.me.status ∧ u.me.s = s.me.s ∧ u.outbox = s.outbox ++ [.memprocFault (trapDev s t) s.me.launch ((t.info.drop 64).take 32)]) ∧
  (∀ (s : State) (t : TrapReq) (n : Node), s.judging = false → s.me.sup = true → t.cls ≠ 16 → s.node? s.me.nodeDie s.me.nodeIdx = some n →
    ∃ u, exec (.trapEntry t) s = .next u ∧
      u.node? s.me.nodeDie s.me.nodeIdx = some { n with st := .finishing, status := 5, xrank := s.me.vrank.toNat, live := [] }) ∧
  (∀ (s : State) (t : TrapReq) (x : Cmd), s.judging = false → s.me.life = .active → s.me.sup = false → s.me.timed = false → s.me.cmds = [x] → x.isCol = true → x.st ≠ .armed →
    s.me.acmds = [] → s.me.loads = [] → s.me.rets = [] → s.me.pend = [] → s.me.words = [] →
    ∃ u, exec (.trapEntry t) s = .next u ∧ u.me = { s.me with trapWait := some t } ∧ u.mem = s.mem)

/-- ERET (R355, R359): in a handler with a valid frame and none of its results pending, the status and the four PCs come from the record, the loop stack from the frame, the frame is no longer valid and the instruction counts; a write the frame holds is made again when the record's status asks for it; until the handler's results have landed it waits; in user mode, and in a handler with no valid frame, it is an illegal dynamic combination (R150). CTX.SW (R13, R418): the context gives the core to the resumable context of the other bank; in user mode, in a timed context or with no such context it is illegal. -/
def Obligations.ReturnsAndSwitches : Prop :=
  (∀ (s : State) (f : Frame), s.me.sup = true → s.me.frame = some f → handlerPending s.me = false → eretReplay f s = none →
    ∃ u, exec .eret s = .next u ∧ u.last = .retired ∧ u = { s with me := u.me, last := u.last, bays := u.bays } ∧
      u.me.status = BitVec.ofNat 2 (recField s 8 8) ∧ (∀ x, pcOf u x = BitVec.ofNat 64 (recField s (96 + 8 * StreamId.num x) 8)) ∧
      u.me.strC.loops = f.loops ∧ u.me.strC.acc = (s.me.strC.acc + 1) % 2 ^ 48 ∧
      u.me = { s.me with status := u.me.status, strC := u.me.strC, strA := u.me.strA, strM := u.me.strM, strS := u.me.strS, subst := u.me.subst, pend := u.me.pend,
                         barWait := f.bar, irqNow := u.me.irqNow, frame := none } ∧
      (s.me.timed = false → u.bays = s.bays ∧ u.me.pend = s.me.pend) ∧ (s.me.timed = true → u.me.pend = f.latches)) ∧
  (∀ (s : State) (f : Frame) (p : Priv), s.me.sup = true → s.me.frame = some f → handlerPending s.me = false → eretReplay f s = some p → p.kind = .plain →
    ∃ u, exec .eret s = .next u ∧ u.last = .retired ∧ u.me.status = BitVec.ofNat 2 (recField s 8 8) ∧ u.me.frame = none ∧ u.mem = s.mem ∧ u.me.s = s.me.s ∧
      (let s1 := leaveFreeze (restoreFrame f s)
       u.me.priv = (placePriv (onComp s1 p) { p with parked := none } s1).me.priv)) ∧
  (∀ (s : State) (f : Frame), s.me.sup = true → s.me.frame = some f → handlerPending s.me = true → exec .eret s = .next { s with last := .waiting }) ∧
  (∀ s : State, (s.me.sup = false ∨ s.me.frame = none) → exec .eret s = .next (takeTrap ((exIllegal s .c).on .c) s)) ∧
  (∀ (s : State) (o : Ctx), s.me.sup = true → s.me.timed = false → otherBank s s.me = some o → o.launch ≠ s.me.launch →
    ∃ u, exec .ctxSw s = .next u ∧ u.last = .retired ∧ u.me = { s.me with life := .resident, strC := u.me.strC } ∧
      u.me.strC = countRetired (stepPast 1 s.now s.me.strC) ∧ (u.ctxOf o.launch).map (·.life) = some .active ∧ u.mem = s.mem) ∧
  (∀ s : State, (s.me.sup = false ∨ s.me.timed = true ∨ otherBank s s.me = none) → exec .ctxSw s = .next (takeTrap ((exIllegal s .c).on .c) s))

/-- The special registers (R42 to R44, R152, R153, R309): CSRR, CSRW and CSRX on every register the mode may use; a write is in force from the next cycle, keeps the bits its register has, and a write of TAPE.BASE sets TAPE.HEAD too; a register the mode may not use is illegal, and a number that is not listed decodes to nothing; a write of a tape register or ADJ.ROOT waits while a differentiable access is in flight. -/
def Obligations.SpecialRegisters : Prop :=
  (∀ (s : State) (d : SReg) (r : Csr), mayRead s.me.sup r = true → ∃ t, exec (.csrr d r) s = .next t ∧ Ran .c 1 s t ∧ OnlyMe s t ∧
    GetsS d (readCsr s.me r) 1 s t ∧ t.me = { s.me with s := t.me.s, pend := t.me.pend, strC := t.me.strC } ∧ SameBytes s t) ∧
  (∀ (s : State) (d a : SReg) (r : Csr), mayWrite s.me.sup r = true → csrHeld r s.me = false →
    ∃ t u, exec (.csrw r a) s = .next t ∧ exec (.csrx d r a) s = .next u ∧ Ran .c 1 s t ∧ Ran .c 1 s u ∧ OnlyMe s t ∧ OnlyMe s u ∧ SameBytes s t ∧ SameBytes s u ∧
      t.me = { s.me with pend := withPends s.seqs s.me.pend [(s.clock + 1, .csr r (rdS s.me a))], strC := t.me.strC } ∧
      u.me = { s.me with pend := withPends s.seqs s.me.pend [(s.clock + 1, .csr r (rdS s.me a)), (s.clock + 1, .s d (readCsr s.me r))], strC := u.me.strC }) ∧
  (∀ (s : State) (d : SReg) (r : Csr), mayRead s.me.sup r = false → exec (.csrr d r) s = .next (takeTrap ((exIllegal s .c).on .c) s)) ∧
  (∀ (s : State) (d a : SReg) (r : Csr), mayWrite s.me.sup r = false →
    exec (.csrw r a) s = .next (takeTrap ((exIllegal s .c).on .c) s) ∧ exec (.csrx d r a) s = .next (takeTrap ((exIllegal s .c).on .c) s)) ∧
  (∀ (s : State) (d a : SReg) (r : Csr), mayWrite s.me.sup r = true → csrHeld r s.me = true →
    exec (.csrw r a) s = .next { s with last := .waiting } ∧ exec (.csrx d r a) s = .next { s with last := .waiting }) ∧
  (∀ (c : Ctx) (r : Csr) (v : W64), mayWrite true r = true → (readCsr (putCsr c r v) r).toNat = v.toNat % 2 ^ csrBits r) ∧
  (∀ (c : Ctx) (v : W64), (putCsr c .tapeBase v).tapeHead = v) ∧
  (∀ r : Csr, mayRead true r = true ∧ (mayRead false r = false ↔ r ∈ [Csr.adjRoot, .trapVec, .trapCause]) ∧
    (mayWrite false r = true ↔ r ∈ [Csr.frnd, .fflags, .scaleRcp, .tapeBase, .tapeLimit]) ∧
    (mayWrite true r = true ↔ r ∈ [Csr.status, .frnd, .fflags, .scaleRcp, .tapeBase, .tapeLimit, .tapeHead, .adjRoot, .expStall, .trapVec])) ∧
  (∀ w ext : Nat, w / 2 ^ 22 % 64 ∈ [0x1F, 0x20, 0x21] →
    w % 2 ^ 12 ∉ [0x000, 0x001, 0x002, 0x003, 0x004, 0x010, 0x011, 0x020, 0x030, 0x031, 0x032, 0x033, 0x034, 0x040, 0x050, 0x060, 0x070, 0x071] →
    decodeWord .c w ext = none)


/-! ## The A stream -/

/-- BF.SET, COL.ARB, PKT.ARM and PKT.WAIT (R31, R160, R183, R184, R186): the format of a bank changes from the next cycle; the weights are the register's 16 bits; a checked descriptor arms its bank, its read counting as a use of its block (R268); the oldest landing goes to gd; each keeps everything else. A bank number at or above NBANK is an access fault with QUAL 7; an armed bank, weights of 0 or beyond 16 bits, or a wait with no bank armed and nothing landed, are illegal. -/
def Obligations.StreamASettings : Prop :=
  (∀ (s : State) (b : BankNo) (f : Fmt), b.val < s.me.nbank → s.me.isArmed b.val = false →
    ∃ t, exec (.bfSet b f) s = .next t ∧ Ran .a 1 s t ∧ OnlyMe s t ∧
      t.me = { s.me with pend := withPends s.seqs s.me.pend [(s.now + 1, .bf b.val f)], strA := t.me.strA } ∧ SameBytes s t) ∧
  (∀ (s : State) (b : BankNo) (f : Fmt), s.me.nbank ≤ b.val → exec (.bfSet b f) s = .next (takeTrap ((exAcc s .a 7 0#64 .read 0xFF).on .a) s)) ∧
  (∀ (s : State) (b : BankNo) (f : Fmt), b.val < s.me.nbank → s.me.isArmed b.val = true →
    exec (.bfSet b f) s = .next (takeTrap ((exIllegal s .a).on .a) s)) ∧
  (∀ (c : Ctx) (b : Nat) (f : Fmt), b < c.nbank → b < 48 → (setBf c b f).bankFmt b = f ∧ ∀ k, k ≠ b → (setBf c b f).bankFmt k = c.bankFmt k) ∧
  (∀ (s : State) (a : GReg), (rdG s.me a).toNat < 2 ^ 16 → (rdG s.me a).toNat % 256 ≠ 0 → (rdG s.me a).toNat / 256 ≠ 0 →
    ∃ t, exec (.colArb a) s = .next t ∧ Ran .a 1 s t ∧ OnlyMe s t ∧
      t.me = { s.me with weights := (rdG s.me a).setWidth 16, strA := t.me.strA } ∧ SameBytes s t) ∧
  (∀ (s : State) (a : GReg), (2 ^ 16 ≤ (rdG s.me a).toNat ∨ (rdG s.me a).toNat % 256 = 0 ∨ (rdG s.me a).toNat / 256 = 0) →
    exec (.colArb a) s = .next (takeTrap ((exIllegal s .a).on .a) s)) ∧
  (∀ (s : State) (a : GReg) (d : List Byte), (spaceOf (rdG s.me a) = .glb ∨ spaceOf (rdG s.me a) = .scr) → (rdG s.me a).toNat % 32 = 0 →
    readForA s (visA s.me) (rdG s.me a) 32 = .ok d → armBad d = false → leNat d % 64 < s.me.nbank →
    s.me.bankFmt (leNat d % 64) = .raw → s.me.isArmed (leNat d % 64) = false → bankBusy s (leNat d % 64) = false →
    let u := touchAt (rdG s.me a) 32 s
    ∃ t, exec (.pktArm a) s = .next t ∧ Ran .a 1 s t ∧ OnlyMe u t ∧ u = { s with blocks := u.blocks } ∧
      t.me = { s.me with arm := s.me.arm ++ [⟨leNat d % 64, leNat d / 2 ^ 48 % 2 ^ 16, leNat d / 2 ^ 32 % 2 ^ 16, leNat d / 2 ^ 16 % 16, s.seqs⟩], strA := t.me.strA } ∧
      SameBytes u t) ∧
  (∀ (s : State) (d : GReg) (b : Nat) (r : List Nat), s.me.landed = b :: r →
    ∃ t, exec (.pktWait d) s = .next t ∧ Ran .a 1 s t ∧ OnlyMe s t ∧ GetsG d (BitVec.ofNat 64 b) 1 s t ∧
      t.me = { s.me with landed := r, g := t.me.g, pend := t.me.pend, strA := t.me.strA } ∧ SameBytes s t) ∧
  (∀ (s : State) (d : GReg), s.me.landed = [] → s.me.arm = [] → exec (.pktWait d) s = .next (takeTrap ((exIllegal s .a).on .a) s)) ∧
  (∀ (s : State) (d : GReg), s.me.landed = [] → s.me.arm ≠ [] → exec (.pktWait d) s = .next { s with last := .waiting })

/-- The issue of the six copies outside differentiation (R122, R161 to R170): a command that passes its checks joins those in flight with what it read; in a queued context it runs at once or, serialised behind its tag, waits; in a timed one its completion cycle is e(n), its moved cycle, plus the tier's latency; no register and no byte changes. A differentiable command waits for a DIFF.MODE. With 128 commands in flight a queued context waits and a timed one traps; a failed check is its trap; a bank number at or above NBANK is an access fault with QUAL 7. A queued command's later cycle is a free value (log 4); the order of its checks is the model's reading (log 30). -/
def Obligations.CopiesIssue : Prop :=
  ∀ (s : State) (i : Instr) (k : CmdKind) (g : GReg) (b : BankNo) (l : LReg) (t : TagNo) (ser : Bool) (w : Nat), copyOp i = some (k, g, b, l, t, ser, w) →
    (∀ ss, s.me.timed = false → s.me.cmds.length < 128 → cmdChecks s (newCmd k g b l t ser w s) = .ok ss → s.me.diffWait = false →
      (segsDiff ss = false ∨ s.me.dmode = .off) →
      ∃ u x, exec i s = .next u ∧ Ran .a 2 s u ∧ u = { s with me := u.me, last := u.last, seqs := u.seqs, fresh := u.fresh } ∧
        u.me = { s.me with cmds := s.me.cmds ++ [x], strA := u.me.strA } ∧ StandsFor k g b l t ser w s x ∧ Started s x ∧ SameBytes s u) ∧
    (∀ ss lat, s.me.timed = true → s.me.cmds.length < 128 → cmdChecks s (newCmd k g b l t ser w s) = .ok ss → s.me.diffWait = false →
      (segsDiff ss = false ∨ s.me.dmode = .off) → cmdTier s (newCmd k g b l t ser w s) ss = some lat →
      ∃ u x, exec i s = .next u ∧ Ran .a 2 s u ∧ u = { s with me := u.me, last := u.last, seqs := u.seqs } ∧
        u.me = { s.me with cmds := s.me.cmds ++ [x], strA := u.me.strA } ∧ StandsFor k g b l t ser w s x ∧
        x.st = .running ∧ x.due = x.moved + lat ∧ x.moved = movedAt s (newCmd k g b l t ser w s) ∧ SameBytes s u) ∧
    (s.me.cmds.length < 128 → s.me.diffWait = true → ((newCmd k g b l t ser w s).isIndexed = true ∨
      ∃ ss, cmdChecks s (newCmd k g b l t ser w s) = .ok ss ∧ segsDiff ss = true) → exec i s = .next { s with last := .waiting }) ∧
    (128 ≤ s.me.cmds.length → s.me.timed = false → exec i s = .next { s with last := .waiting }) ∧
    (128 ≤ s.me.cmds.length → s.me.timed = true → exec i s = .next (takeTrap ((exIllegal s .a).on .a) s)) ∧
    (∀ e, s.me.cmds.length < 128 → (s.me.diffWait = false ∨ (newCmd k g b l t ser w s).isIndexed = false) → cmdChecks s (newCmd k g b l t ser w s) = .error e → exec i s = .next (takeTrap (e.on .a) s)) ∧
    (s.me.nbank ≤ b.val → ∃ e, cmdChecks s (newCmd k g b l t ser w s) = .error e ∧ e.cls = 5 ∧ e.qual = 7)

/-- The issue of the collectives (R165, R179, R180, R181): one that passes its checks joins the commands in flight with the next sequence number of its communicator and starts, or with BKT set is armed on its bucket, which is not full; no register and no byte changes. With 128 commands in flight, or on a differentiable page behind a DIFF.MODE, it waits; an illegal one, or one whose pages fail, traps. A queued command's later cycle is a free value (log 4). -/
def Obligations.CollectivesIssue : Prop :=
  ∀ (s : State) (i : Instr) (k : CmdKind) (g : GReg) (b : BankNo) (l : LReg) (t : TagNo) (ser : Bool) (w : Nat), colOp i = some (k, g, b, l, t, ser, w) →
    (∀ ss, colIllegal s (newCol k g b l t ser w s) = false → s.me.cmds.length < 128 → colSegs s (newCol k g b l t ser w s) = .ok ss → s.me.diffWait = false →
      w / 2 ^ 27 % 2 = 0 →
      ∃ u x, exec i s = .next u ∧ Ran .a 2 s u ∧ u = { s with me := u.me, last := u.last, seqs := u.seqs, fresh := u.fresh, colSeqs := u.colSeqs } ∧
        u.me = { s.me with cmds := s.me.cmds ++ [x], strA := u.me.strA } ∧ StandsFor k g b l t ser w s x ∧ Started s x ∧ SameBytes s u ∧
        x.colSeq = (takeColSeq s.me.die b.val s).1 ∧ (takeColSeq s.me.die b.val u).1 = x.colSeq + 1) ∧
    (∀ ss q, colIllegal s (newCol k g b l t ser w s) = false → s.me.cmds.length < 128 → colSegs s (newCol k g b l t ser w s) = .ok ss → s.me.diffWait = false →
      w / 2 ^ 27 % 2 = 1 → s.me.buckets.find? (·.base == rdG s.me g) = some q → q.armed = none → q.total = colBytes (newCol k g b l t ser w s) → q.count < q.total →
      ∃ u x, exec i s = .next u ∧ Ran .a 2 s u ∧ u = { s with me := u.me, last := u.last, seqs := u.seqs, colSeqs := u.colSeqs } ∧
        u.me = { s.me with cmds := s.me.cmds ++ [x], buckets := u.me.buckets, strA := u.me.strA } ∧ StandsFor k g b l t ser w s x ∧ x.st = .armed ∧
        x.colSeq = (takeColSeq s.me.die b.val s).1 ∧ u.me.buckets.find? (·.base == rdG s.me g) = some { q with armed := some s.seqs } ∧
        (∀ p, p ≠ rdG s.me g → u.me.buckets.find? (·.base == p) = s.me.buckets.find? (·.base == p)) ∧ SameBytes s u) ∧
    (colIllegal s (newCol k g b l t ser w s) = false → 128 ≤ s.me.cmds.length → exec i s = .next { s with last := .waiting }) ∧
    (∀ ss, colIllegal s (newCol k g b l t ser w s) = false → s.me.cmds.length < 128 → colSegs s (newCol k g b l t ser w s) = .ok ss → s.me.diffWait = true →
      segsDiff ss = true → exec i s = .next { s with last := .waiting }) ∧
    (∀ e, colIllegal s (newCol k g b l t ser w s) = false → s.me.cmds.length < 128 → colSegs s (newCol k g b l t ser w s) = .error e →
      exec i s = .next (takeTrap (e.on .a) s)) ∧
    (colIllegal s (newCol k g b l t ser w s) = true → exec i s = .next (takeTrap ((exIllegal s .a).on .a) s)) ∧
    (s.me.timed = true → colIllegal s (newCol k g b l t ser w s) = true)

/-- Buckets (R178, R179, R246): BKT.SET sets a bucket of a range with count 0, keeping a collective armed on it, in one of 16 places; a bucket that is full with a collective armed fires: the collective runs with the bytes the bucket's scope shows now, or waits with them for the earlier commands of its tag when it is serialised; a poisoned byte is its deferred fault; and the bucket is gone. That a bucket is gone once it fired is the model's reading (log 54). -/
def Obligations.BucketsFire : Prop :=
  (∀ (s : State) (a b : GReg) (sc : Scope) (ss : List Seg), spaceOf (rdG s.me a) = .glb → 1 ≤ (rdG s.me b).toNat → (rdG s.me b).toNat < 2 ^ 32 →
    ((s.me.buckets.find? (·.base == rdG s.me a)).isSome ∨ s.me.buckets.length < 16) →
    s.access s.me .read (rdG s.me a) (rdG s.me b).toNat = .ok ss →
    ∃ t, exec (.bktSet a b sc) s = .next t ∧ Ran .a 1 s t ∧ OnlyMe s t ∧ t.me = { s.me with buckets := t.me.buckets, strA := t.me.strA } ∧ SameBytes s t ∧
      t.me.buckets.find? (·.base == rdG s.me a) = some ⟨ss.map (fun g => (g.tr.loc, g.len)), rdG s.me a, (rdG s.me b).toNat, sc, 0,
        (s.me.buckets.find? (·.base == rdG s.me a)).bind (·.armed)⟩ ∧
      ∀ p, p ≠ rdG s.me a → t.me.buckets.find? (·.base == p) = s.me.buckets.find? (·.base == p)) ∧
  (∀ (s : State) (a b : GReg) (sc : Scope), (spaceOf (rdG s.me a) ≠ .glb ∨ rdG s.me b = 0#64 ∨ 2 ^ 32 ≤ (rdG s.me b).toNat ∨
      ((s.me.buckets.find? (·.base == rdG s.me a)) = none ∧ 16 ≤ s.me.buckets.length)) →
    exec (.bktSet a b sc) s = .next (takeTrap ((exIllegal s .a).on .a) s)) ∧
  (∀ (s : State) (k : Bucket) (id : Nat) (x : Cmd), s.me.buckets.find? (·.base == k.base) = some k → k.armed = some id → k.total ≤ k.count → Mine s id x →
    ∃ t n, exec (.bucketFire k.base) s = .next t ∧ s.now < n ∧
      Mine t id { x with
        st := if x.ser && s.me.cmds.any (fun d => d.tag == x.tag && decide (d.id < x.id)) then .waiting else .running,
        blocks := [(0, (bucketCells s k).map (·.byte))], fault := readFault s k.base (bucketCells s k), due := n } ∧
      t.me.buckets.find? (·.base == k.base) = none ∧ t = { s with me := t.me, last := .event, fresh := t.fresh } ∧
      t.me = { s.me with cmds := t.me.cmds, buckets := t.me.buckets } ∧ ∀ d, d ≠ id → t.cmd? d = s.cmd? d)

/-- The ends of commands (R71, R161, R163, R165, R168, R169, R171, R181, R182, R277): a serialised command starts when the earlier ones of its tag have left; an expander takes its blocks in order, counting the cycles its FIFO is full in EXP.STALL (R279), which moved blocks do not (arrivals are free values, log 19); a copy whose elements moved leaves and its tag counts it, and one that found a fault leaves it under its tag; a CP.FILL writes its rows and no other byte; a collective leaves with the flag for non-finite results, or with class 13 on a mismatch; collectives reduce along the canonical tree; CP.WAIT and COL.WAIT wait while the tag is busy, trap on its fault and give its count or flag, once. That all elements move in the completing step is the model's choice (log 14); the cap of the count is its reading (log 53). -/
def Obligations.CommandsEnd : Prop :=
  (∀ (s : State) (id : Nat) (x : Cmd), Mine s id x → x.st = .waiting → (∀ d ∈ s.me.cmds, d.tag = x.tag → x.id ≤ d.id) →
    ∃ t n, exec (.copyCommandStart id) s = .next t ∧ s.now < n ∧ Mine t id { x with st := .running, due := n } ∧ t.mem = s.mem ∧
      t.me = { s.me with cmds := t.me.cmds }) ∧
  (∀ (s : State) (id : Nat) (x : Cmd) (col bs : List Byte), Mine s id x → x.st = .running → expLeft s x ≠ 0 → colOf s x = .ok col → expandNext s x col = .ok bs →
    ∃ t y, exec (.expanderBlockDecode id) s = .next t ∧ Mine t id y ∧
      y = { x with blocks := x.blocks ++ [(x.nextBlock, bs)], nextBlock := x.nextBlock + 1, due := y.due } ∧ t.mem = s.mem ∧
      (layExp x.lay = 2 → y.due = x.due ∧ t.me.expStall = s.me.expStall) ∧
      (layExp x.lay ≠ 2 → y.due = max x.due (x.issued + ((cmdPasses x col (bs.length :: x.lens)).head?.map (·.leaves)).getD 0) ∧
        ∃ more, t.me.expStall = s.me.expStall + BitVec.ofNat 64 (fullCycles (cmdPasses x col (bs.length :: x.lens)) + more))) ∧
  (∀ (s u : State) (id : Nat) (x : Cmd), Mine s id x → moveReady s x = true → mvCopy x s = .ok u → cmdParked u id = false → x.id = id →
    ∃ t, exec (.copyComplete id) s = .next t ∧ t.cmd? id = none ∧ t.mem = u.mem ∧ t.me.tag x.tag = { u.me.tag x.tag with done := (u.me.tag x.tag).done + 1 }) ∧
  (∀ (s u : State) (x : Cmd), Sound s → x.kind = .cpFill → x.skip = [] → x.row0 + layRows x.lay ≤ 128 → (fillRow x.fmt (layCols x.lay) (x.ptr.setWidth 32)).length ≤ 512 →
    mvCopy x s = .ok u →
    (∀ i, i < layRows x.lay → readBases u.mem (bankLoc s.rank s.me x.bank (512 * (x.row0 + i))) (fillRow x.fmt (layCols x.lay) (x.ptr.setWidth 32)).length =
      fillRow x.fmt (layCols x.lay) (x.ptr.setWidth 32)) ∧
    (∀ y, y < bankLoc s.rank s.me x.bank (512 * x.row0) ∨ bankLoc s.rank s.me x.bank (512 * (x.row0 + layRows x.lay)) ≤ y → readBase u.mem y = readBase s.mem y)) ∧
  (∀ (s : State) (id : Nat) (x : Cmd) (f : CmdFault), Mine s id x → x.id = id → (s.me.tag x.tag).fault = none → x.tape = none →
    ∃ t, exec (.deferredCopyFault id f) s = .next t ∧ t.cmd? id = none ∧ t.mem = s.mem ∧
      (∃ g, (t.me.tag x.tag).fault = some g ∧ g.fault = f ∧ g.addr = x.addr ∧ g.ptr = f.ptr) ∧ (t.me.tag x.tag).done = (s.me.tag x.tag).done) ∧
  (∀ (s u : State) (id : Nat) (x : Cmd) (p : PeerData) (nf : Bool), Mine s id x → x.id = id → x.isCol = true → x.st = .running → s.me.core ≠ 9 → u.me.core = s.me.core →
    mvCollective x p (touchRuns x.ptr [(0, x.count * elemBytes x.other)] s) = (.ok u, nf) → cmdParked u id = false →
    ∃ t, exec (.collectiveComplete id p) s = .next t ∧ t.cmd? id = none ∧ t.mem = u.mem ∧
      t.me.tag x.tag = { u.me.tag x.tag with done := (u.me.tag x.tag).done + 1, nonFinite := (u.me.tag x.tag).nonFinite || nf }) ∧
  (∀ (s : State) (id : Nat) (x : Cmd) (bufs : List (List Byte)), Mine s id x → x.id = id → x.isCol = true → x.st = .running → s.me.core ≠ 9 → x.tape = none →
    (s.me.tag x.tag).fault = none →
    ∃ t g, exec (.collectiveComplete id ⟨bufs, true⟩) s = .next t ∧ t.cmd? id = none ∧ t.mem = s.mem ∧ (t.me.tag x.tag).fault = some g ∧ g.fault.cls = 13) ∧
  (∀ (f : W32 → W32 → W32) (a b c d e : W32), treeFold f 5 [a, b, c, d, e] = f (f (f a b) (f c d)) e ∧ treeFold f 3 [a, b, c] = f (f a b) c) ∧
  (∀ (s : State) (d : GReg) (g : TagNo), (s.me.cmds.any fun x => x.tag == g.val) = false → (s.me.tag g).fault = none →
    ∃ t u, exec (.cpWait d g) s = .next t ∧ exec (.colWait d g) s = .next u ∧ Ran .a 1 s t ∧ Ran .a 1 s u ∧ TagReturned g s t ∧ TagReturned g s u ∧
      GetsG d (BitVec.ofNat 64 (min 128 (s.me.tag g).done)) 1 s t ∧ t.me.tag g = { s.me.tag g with done := 0 } ∧
      GetsG d (if (s.me.tag g).nonFinite then 1#64 else 0#64) 1 s u ∧ u.me.tag g = { s.me.tag g with nonFinite := false } ∧
      t.me = { s.me with g := t.me.g, pend := t.me.pend, strA := t.me.strA, tags := t.me.tags, priv := t.me.priv } ∧
      u.me = { s.me with g := u.me.g, pend := u.me.pend, strA := u.me.strA, tags := u.me.tags, priv := u.me.priv } ∧
      (∀ k, k ≠ g.val → t.me.tag k = s.me.tag k ∧ u.me.tag k = s.me.tag k)) ∧
  (∀ (s : State) (d : GReg) (g : TagNo), (s.me.cmds.any fun x => x.tag == g.val) = true →
    exec (.cpWait d g) s = .next { s with last := .waiting } ∧ exec (.colWait d g) s = .next { s with last := .waiting }) ∧
  (∀ (s : State) (d : GReg) (g : TagNo) (f : TagFault), (s.me.cmds.any fun x => x.tag == g.val) = false → (s.me.tag g).fault = some f →
    exec (.cpWait d g) s = .next (takeTrap ((tagExc g f).on .a) { s with me := s.me.setTag g { s.me.tag g with fault := none, writer := none } }) ∧
    exec (.colWait d g) s = exec (.cpWait d g) s)

/-- SEAL, SHD.OPEN, SHD.PUB, SHD.PUBN and SHD.DROP (R172, R174 to R177, R246, R260, R276): SEAL of a valid colophon publishes what its stream covers at device scope and, when it is not sealed yet, publishes the flag and closes the pages of the buffer to stores; an invalid colophon is an access fault with QUAL 8. SHD.OPEN opens a shadow with the bytes its rows show; SHD.PUB and SHD.PUBN make the rows visible with the bytes the shadow holds, all in one publish, and close the shadow, once no command that writes memory is left and the versions find room; SHD.DROP closes it with nothing visible. A descriptor that breaks its rules, a shadow that is not open, or more rows than it has, is illegal; a recorded fault of a writer is taken first, with the swap abandoned. The reads of a descriptor or colophon count as uses of their blocks (R268). That SHD.PUB waits in a timed context too is the model's reading (log 102). -/
def Obligations.SealsAndShadows : Prop :=
  (∀ (s : State) (a : GReg) (col : List Byte) (ss : List Seg), spaceOf (rdG s.me a) = .glb → (rdG s.me a).toNat % 64 = 0 →
    readForA s (s.me.priv.filter fun q => covers s.me .a s.now q.prov) (rdG s.me a) 64 = .ok col → colValid col = true → bufferSegs s (rdG s.me a) col = .ok ss →
    boundaryBarred .dev .a s = false →
    ∃ t, exec (.seal a) s = .next t ∧ Ran .a 1 s t ∧ PublishFrame .a (touchAt (rdG s.me a) 64 s) t ∧ t.me.shadows = s.me.shadows ∧
      (colSealed col = false → ∀ g ∈ ss, (g.tr.loc - (g.tr.size - g.tr.left), g.tr.size) ∈ t.mem.sealedR) ∧
      (colSealed col = false → NewestSwap s → ∀ x, (segLocs ss)[58]? = some x →
        ∃ v ∈ t.mem.vers, v.scope = .dev ∧ v.launch = s.me.launch ∧ cellAt x v.cells = some ⟨x, col.getD 58 0#8 ||| 0x10#8, false⟩) ∧
      (colSealed col = true → t.mem.sealedR = s.mem.sealedR) ∧
      ∀ p ∈ s.me.priv, covers s.me .a s.now p.prov = true → p.parked = none → p ∉ t.me.priv) ∧
  (∀ (s : State) (a : GReg) (col : List Byte), spaceOf (rdG s.me a) = .glb → (rdG s.me a).toNat % 64 = 0 →
    readForA s (s.me.priv.filter fun q => covers s.me .a s.now q.prov) (rdG s.me a) 64 = .ok col → colValid col = false →
    exec (.seal a) s = .next (takeTrap ((exAcc s .a 8 (rdG s.me a) .write 0xFF).on .a) s)) ∧
  (∀ (s : State) (a : GReg) (b : List Byte) (rows : List (Nat × List Seg)), readShd s (rdG s.me a) = .ok b → s.me.shadows.length < 8 →
    rowSegs s (shdDesc b) (shdDesc b).nrows 0 = .ok rows → segsDiff (rows.flatMap (·.2)) = false → sealedHit s.mem (rows.flatMap (·.2)) = false →
    recPageHit s true (rows.flatMap (·.2)) = false → shadowHit s true (rows.flatMap (·.2)) = false →
    let u := touchAt (rdG s.me a) 64 (s.touch (rows.flatMap (·.2)))
    ∃ t h, exec (.shdOpen a) s = .next t ∧ Ran .a 1 s t ∧ OnlyMe u t ∧ u = { s with blocks := u.blocks } ∧ t.me = { s.me with shadows := s.me.shadows ++ [h], strA := t.me.strA } ∧
      isShadow (shdDesc b) h = true ∧ h.cells = rows.flatMap (fun r => readSegs s [] r.2) ∧ h.wrote = [] ∧ SameBytes u t) ∧
  (∀ (s : State) (a : GReg) (sc : Scope) (b : List Byte) (h : Shadow), readShd s (rdG s.me a) = .ok b → s.me.shadows.find? (isShadow (shdDesc b)) = some h →
    writersLeft s.me = false → writerFault s.me = none → swapShort sc h h.nrows s = 0 → NewestSwap s →
    ∃ t, exec (.shdPub a sc) s = .next t ∧ Ran .a 1 s t ∧ PublishFrame .a (touchAt (rdG s.me a) 64 s) t ∧ t.me.shadows = s.me.shadows.filter (· != h) ∧
      (rowCells h h.nrows ≠ [] → h.nrows ≠ 0 → ∃ v ∈ t.mem.vers, v.scope = sc ∧ v.launch = s.me.launch ∧ v.stamp = s.stamp + 1 ∧
        ∀ c ∈ rowCells h h.nrows, cellAt c.loc v.cells = cellAt c.loc (rowCells h h.nrows))) ∧
  (∀ (s : State) (a r : GReg) (sc : Scope) (b : List Byte) (h : Shadow), readShd s (rdG s.me a) = .ok b → s.me.shadows.find? (isShadow (shdDesc b)) = some h →
    (rdG s.me r).toNat ≤ h.nrows → writersLeft s.me = false → writerFault s.me = none → swapShort sc h (rdG s.me r).toNat s = 0 → NewestSwap s →
    ∃ t, exec (.shdPubn a r sc) s = .next t ∧ Ran .a 1 s t ∧ PublishFrame .a (touchAt (rdG s.me a) 64 s) t ∧ t.me.shadows = s.me.shadows.filter (· != h) ∧
      (rdG s.me r = 0#64 → t.mem = s.mem) ∧
      (rdG s.me r ≠ 0#64 → rowCells h (rdG s.me r).toNat ≠ [] → ∃ v ∈ t.mem.vers, v.scope = sc ∧ v.launch = s.me.launch ∧ v.stamp = s.stamp + 1 ∧
        ∀ c ∈ rowCells h (rdG s.me r).toNat, cellAt c.loc v.cells = cellAt c.loc (rowCells h (rdG s.me r).toNat))) ∧
  (∀ (s : State) (a r : GReg) (sc : Scope) (b : List Byte) (h : Shadow), readShd s (rdG s.me a) = .ok b → s.me.shadows.find? (isShadow (shdDesc b)) = some h →
    (writersLeft s.me = true → exec (.shdPub a sc) s = .next { s with last := .waiting } ∧
      ((rdG s.me r).toNat ≤ h.nrows → exec (.shdPubn a r sc) s = .next { s with last := .waiting })) ∧
    (h.nrows < (rdG s.me r).toNat → exec (.shdPubn a r sc) s = .next (takeTrap ((exIllegal s .a).on .a) s)) ∧
    (∀ g f, writersLeft s.me = false → writerFault s.me = some (g, f) → s.me.tagBusy g = false →
      exec (.shdPub a sc) s = .next (takeTrap ((tagExc g f).on .a) { s with me := s.me.setTag g { s.me.tag g with fault := none, writer := none } }))) ∧
  (∀ (s : State) (a : GReg) (b : List Byte) (h : Shadow), readShd s (rdG s.me a) = .ok b → s.me.shadows.find? (isShadow (shdDesc b)) = some h →
    let u := touchAt (rdG s.me a) 64 s
    ∃ t, exec (.shdDrop a) s = .next t ∧ Ran .a 1 s t ∧ OnlyMe u t ∧ u = { s with blocks := u.blocks } ∧
      t.me = { s.me with shadows := s.me.shadows.filter (· != h), strA := t.me.strA } ∧ SameBytes u t) ∧
  (∀ (s : State) (a r : GReg) (sc : Scope) (b : List Byte), readShd s (rdG s.me a) = .ok b → s.me.shadows.find? (isShadow (shdDesc b)) = none →
    exec (.shdPub a sc) s = .next (takeTrap ((exIllegal s .a).on .a) s) ∧ exec (.shdPubn a r sc) s = .next (takeTrap ((exIllegal s .a).on .a) s) ∧
    exec (.shdDrop a) s = .next (takeTrap ((exIllegal s .a).on .a) s)) ∧
  (∀ (s : State) (a r : GReg) (sc : Scope), (spaceOf (rdG s.me a) ≠ .glb ∨ (rdG s.me a).toNat % 64 ≠ 0 ∨
      ∃ b, readForA s (visA s.me) (rdG s.me a) 64 = .ok b ∧ shdBad b = true) → ∀ i ∈ [Instr.shdOpen a, .shdPub a sc, .shdPubn a r sc, .shdDrop a],
    exec i s = .next (takeTrap ((exIllegal s .a).on .a) s))


/-! ## The M stream -/

/-- Operand slots and pattern registers (R33 to R35, R187, R191 to R195): SLOT.CLM binds the lowest free granule (log 98), the free ones standing in order, and SLOT.REL gives it up, to be free once nothing reads it; LDS and LDS.SP bind to a slot the folio the bank rows hold, on the slot-load path for 128 cycles; PAT.SET and PAT.OH set a pattern from its form, its popped entries and its bank row. Each changes nothing else; a load waits for the earlier commands that read its slot, and in a timed context traps; a wrong handle state, a bank in RAW or armed, one of PERM or PAT.OH that is not INT32, reserved bits, N of 0, a WM1 above 23 or a field past bit 31 are illegal, and a bank beyond NBANK an access fault with QUAL 7. That the rows are read at issue, with the C stream's writes ordered before it, is the model's choice (log 14). -/
def Obligations.SlotsAndPatterns : Prop :=
  (∀ (s : State) (m : MReg) (g : Nat) (r : List Nat), s.me.ms[m].st = .unbound → s.me.freeSlots = g :: r →
    ∃ t, exec (.slotClm m) s = .next t ∧ Ran .m 1 s t ∧ OnlyMe s t ∧ t.me.ms[m] = ⟨.claimed, g, Folio.none⟩ ∧ (∀ j, j ≠ m → t.me.ms[j] = s.me.ms[j]) ∧
      (s.me.freeSlots.Pairwise (· ≤ ·) → (∀ x ∈ r, g ≤ x) ∧ t.me.freeSlots.Pairwise (· ≤ ·)) ∧
      t.me = { s.me with ms := t.me.ms, freeSlots := r, strM := t.me.strM } ∧ SameBytes s t) ∧
  (∀ (s : State) (n : Node) (b : List Byte) (rank launch : Nat) (x : Spot), (launchCtx s n b rank launch x).freeSlots.Pairwise (· ≤ ·) ∧
    (launchCtx s n b rank launch x).freePairs.Pairwise (· ≤ ·)) ∧
  (∀ (s : State) (m : MReg), (s.me.ms[m].st ≠ .unbound ∨ s.me.freeSlots = []) → exec (.slotClm m) s = .next (takeTrap ((exIllegal s .m).on .m) s)) ∧
  (∀ (s : State) (m : MReg), s.me.ms[m].st ≠ .unbound →
    ∃ t, exec (.slotRel m) s = .next t ∧ Ran .m 1 s t ∧ OnlyMe s t ∧ t.me.ms[m].st = .unbound ∧ (∀ j, j ≠ m → t.me.ms[j] = s.me.ms[j]) ∧
      t.me = { s.me with ms := t.me.ms, backSlots := s.me.ms[m].gran :: s.me.backSlots, strM := t.me.strM } ∧ SameBytes s t) ∧
  (∀ (s : State) (m : MReg), s.me.ms[m].st = .unbound → exec (.slotRel m) s = .next (takeTrap ((exIllegal s .m).on .m) s)) ∧
  (∀ (s : State) (g : Nat), g ∈ s.me.backSlots → granBusy s.me g s.now = false →
    ∃ t, exec (.slotGranuleReturn g) s = .next t ∧ g ∈ t.me.freeSlots ∧ g ∉ t.me.backSlots ∧
      (s.me.freeSlots.Pairwise (· ≤ ·) → t.me.freeSlots.Pairwise (· ≤ ·)) ∧ (∀ x, x ≠ g → (x ∈ t.me.freeSlots ↔ x ∈ s.me.freeSlots)) ∧
      t.me = { s.me with freeSlots := t.me.freeSlots, backSlots := t.me.backSlots } ∧ t = { s with me := t.me, last := .event }) ∧
  (∀ (s : State) (m : MReg) (b : BankNo) (row : Byte), s.me.ms[m].st ≠ .unbound → b.val < s.me.nbank → s.me.bankFmt b.val ≠ .raw → s.me.isArmed b.val = false →
    granBusy s.me s.me.ms[m].gran s.now = false → CleanRows (s.orderedFor .m) b.val row.toNat (lineBytes (s.me.bankFmt b.val) false) →
    ∃ t, exec (.lds m b row) s = .next t ∧ Ran .m 1 s t ∧ OnlyMe s t ∧
      t.me.ms[m] = ⟨.loaded, s.me.ms[m].gran, ⟨s.me.bankFmt b.val, rowsFrom (s.orderedFor .m) b.val row.toNat (lineBytes (s.me.bankFmt b.val) false), none⟩⟩ ∧
      (∀ j, j ≠ m → t.me.ms[j] = s.me.ms[j]) ∧ t.me.pathFree = max s.now s.me.pathFree + 128 ∧
      t.me.loads = s.me.loads ++ [⟨s.seqs, s.me.ms[m].gran, max s.now s.me.pathFree, max s.now s.me.pathFree + 128⟩] ∧
      t.me = { s.me with ms := t.me.ms, loads := t.me.loads, pathFree := t.me.pathFree, strM := t.me.strM } ∧ SameBytes s t) ∧
  (∀ (s : State) (m : MReg) (b : BankNo) (row : Byte) (mb : BitVec 3), s.me.ms[m].st ≠ .unbound → b.val + mb.toNat < s.me.nbank →
    s.me.bankFmt b.val ≠ .raw → fmtScaled (s.me.bankFmt b.val) = false → s.me.bankFmt (b.val + mb.toNat) = .raw → s.me.isArmed b.val = false →
    s.me.isArmed (b.val + mb.toNat) = false → granBusy s.me s.me.ms[m].gran s.now = false →
    (∀ r ∈ rowsFrom (s.orderedFor .m) (b.val + mb.toNat) row.toNat (folioWidth (s.me.bankFmt b.val) / 8), metaOk r (folioWidth (s.me.bankFmt b.val)) = true) →
    CleanRows (s.orderedFor .m) b.val row.toNat (lineBytes (s.me.bankFmt b.val) true) → CleanRows (s.orderedFor .m) (b.val + mb.toNat) row.toNat (folioWidth (s.me.bankFmt b.val) / 8) →
    ∃ t, exec (.ldsSp m b row mb) s = .next t ∧ Ran .m 1 s t ∧ OnlyMe s t ∧
      t.me.ms[m] = ⟨.loaded, s.me.ms[m].gran, ⟨s.me.bankFmt b.val, rowsFrom (s.orderedFor .m) b.val row.toNat (lineBytes (s.me.bankFmt b.val) true),
        some (rowsFrom (s.orderedFor .m) (b.val + mb.toNat) row.toNat (folioWidth (s.me.bankFmt b.val) / 8))⟩⟩ ∧
      (∀ j, j ≠ m → t.me.ms[j] = s.me.ms[j]) ∧
      t.me = { s.me with ms := t.me.ms, loads := t.me.loads, pathFree := t.me.pathFree, strM := t.me.strM } ∧ SameBytes s t) ∧
  (∀ (s : State) (m : MReg) (b : BankNo) (row : Byte), s.me.ms[m].st ≠ .unbound → b.val < s.me.nbank → s.me.bankFmt b.val ≠ .raw → s.me.isArmed b.val = false →
    granBusy s.me s.me.ms[m].gran s.now = true →
    (s.me.timed = false → exec (.lds m b row) s = .next { s with last := .waiting }) ∧
    (s.me.timed = true → exec (.lds m b row) s = .next (takeTrap ((exIllegal s .m).on .m) s))) ∧
  (∀ (s : State) (m : MReg) (b : BankNo) (row : Byte), s.me.ms[m].st ≠ .unbound → s.me.nbank ≤ b.val →
    exec (.lds m b row) s = .next (takeTrap ((exAcc s .m 7 0#64 .read 0xFF).on .m) s)) ∧
  (∀ (s : State) (m : MReg) (b : BankNo) (row : Byte), (s.me.ms[m].st = .unbound ∨ (b.val < s.me.nbank ∧ (s.me.bankFmt b.val = .raw ∨ s.me.isArmed b.val = true))) →
    exec (.lds m b row) s = .next (takeTrap ((exIllegal s .m).on .m) s)) ∧
  (∀ (s : State) (id : Nat), (∀ c ∈ s.ctxs, ∀ a ∈ c.acmds, a.id ≠ id) →
    ∃ t, exec (.slotLoadComplete id) s = .next t ∧ t.mem = s.mem ∧ t.me = { s.me with loads := t.me.loads } ∧
      ∀ l, l ∈ t.me.loads ↔ l ∈ s.me.loads ∧ ¬(l.id = id ∧ l.done ≤ s.now)) ∧
  (∀ (s : State) (p : PReg) (k : PatSpec) (x : Pat), patOp k = some x →
    ∃ t, exec (.patSet p k) s = .next t ∧ Ran .m 1 s t ∧ OnlyMe s t ∧ t.me.ps[p] = x ∧ (∀ j, j ≠ p → t.me.ps[j] = s.me.ps[j]) ∧
      t.me = { s.me with ps := t.me.ps, strM := t.me.strM } ∧ SameBytes s t) ∧
  (∀ (s : State) (p : PReg) (q : QNo) (v : W64), AtFront s q v → v.toNat < 2 ^ 13 → v.toNat % 64 < s.me.nbank → s.me.bankFmt (v.toNat % 64) = .int32 →
    bankRowPoison (s.orderedFor .m) (v.toNat % 64) (v.toNat / 64) 512 = false →
    ∃ t, exec (.patSet p (.perm q)) s = .next t ∧ Ran .m 1 s t ∧ OnlyMe s t ∧ t.me.ps[p] = .perm ((rowWords s (v.toNat % 64) (v.toNat / 64)).map BitVec.toInt) ∧
      (∀ j, j ≠ p → t.me.ps[j] = s.me.ps[j]) ∧ t.me = { popped s q with ps := t.me.ps, strM := t.me.strM } ∧ SameBytes s t) ∧
  (∀ (s : State) (p : PReg) (n f : BitVec 4) (vs : List W64), (s.me.queue 2).fronts? ((n.toNat + 3) / 4) s.cycle = some vs →
    ∃ t, exec (.patSet p (.band n f)) s = .next t ∧ Ran .m 1 s t ∧ OnlyMe s t ∧
      t.me.ps[p] = .band f.toInt ((List.range n.toNat).map fun i => BitVec.ofNat 16 ((vs.getD (i / 4) 0#64).toNat / 2 ^ (16 * (i % 4)))) ∧
      t.me = { s.me with ps := t.me.ps, qs := t.me.qs, strM := t.me.strM } ∧ t.me.queue 2 = (s.me.queue 2).pop ((n.toNat + 3) / 4) s.cycle ∧ SameBytes s t) ∧
  (∀ (s : State) (p : PReg) (b : BankNo) (row : Byte) (tr q6 : Bool) (v : W64), AtFront s (if q6 then 6 else 2) v → b.val < s.me.nbank → s.me.bankFmt b.val = .int32 →
    v.toNat < 2 ^ 58 → v.toNat / 2 ^ 10 % 2 ^ 24 ≠ 0 → v.toNat / 2 ^ 5 % 32 + 1 ≤ 24 → v.toNat % 32 + (v.toNat / 2 ^ 5 % 32 + 1) ≤ 32 →
    bankRowPoison (s.orderedFor .m) b.val row.toNat 512 = false →
    ∃ t, exec (.patOh p b row tr q6) s = .next t ∧ Ran .m 1 s t ∧ OnlyMe s t ∧
      t.me.ps[p] = .onehot ((rowWords s b.val row.toNat).map fun w => w.toNat / 2 ^ (v.toNat % 32) % 2 ^ (v.toNat / 2 ^ 5 % 32 + 1)) (v.toNat / 2 ^ 10 % 2 ^ 24) (v.toNat / 2 ^ 34) tr ∧
      (∀ j, j ≠ p → t.me.ps[j] = s.me.ps[j]) ∧ t.me = { popped s (if q6 then 6 else 2) with ps := t.me.ps, strM := t.me.strM } ∧ SameBytes s t) ∧
  (∀ (s : State) (p : PReg) (q : QNo) (v : W64), AtFront s q v →
    ((2 ^ 13 ≤ v.toNat ∨ (v.toNat % 64 < s.me.nbank ∧ s.me.bankFmt (v.toNat % 64) ≠ .int32)) → exec (.patSet p (.perm q)) s = .next (takeTrap ((exIllegal s .m).on .m) s)) ∧
    (v.toNat < 2 ^ 13 → s.me.nbank ≤ v.toNat % 64 → exec (.patSet p (.perm q)) s = .next (takeTrap ((exAcc s .m 7 0#64 .read 0xFF).on .m) s))) ∧
  (∀ (s : State) (p : PReg) (b : BankNo) (row : Byte) (tr q6 : Bool) (v : W64), AtFront s (if q6 then 6 else 2) v →
    (s.me.nbank ≤ b.val → exec (.patOh p b row tr q6) s = .next (takeTrap ((exAcc s .m 7 0#64 .read 0xFF).on .m) s)) ∧
    (b.val < s.me.nbank → (s.me.bankFmt b.val ≠ .int32 ∨ 2 ^ 58 ≤ v.toNat ∨ v.toNat / 2 ^ 10 % 2 ^ 24 = 0 ∨ 23 < v.toNat / 2 ^ 5 % 32 ∨
        32 < v.toNat % 32 + (v.toNat / 2 ^ 5 % 32 + 1)) → exec (.patOh p b row tr q6) s = .next (takeTrap ((exIllegal s .m).on .m) s)))

/-- Accumulator handles and leases (R36, R207, R208, R210 to R212): ACC.LD seeds a handle with the bank's 128 rows, on its own pair or the lowest free one, the free pairs standing in order, and completes 128 cycles after the path takes it; ACC.REL empties a handle and gives up its pair, to be free once nothing uses it; LSE.ACQ completes with the term and otherwise waits with its request filed; LSE.REL ends the term; a grant that is due goes to a request of the highest priority among those eligible. That ACC.LD reads its rows at issue is the model's choice (log 14). -/
def Obligations.AccumulatorsAndLeases : Prop :=
  (∀ (s : State) (k : KReg) (b : BankNo) (row : Byte), b.val < s.me.nbank → (s.me.bankFmt b.val = .fp32 ∨ s.me.bankFmt b.val = .int32) →
    (s.me.ks[k].st ≠ .empty ∨ s.me.freePairs ≠ []) → CleanRows (s.orderedFor .m) b.val row.toNat 512 →
    ∃ t, exec (.accLd k b row) s = .next t ∧ Ran .m 1 s t ∧
      Queued s t .load k (max s.now s.me.pathFree) 128 128 (seedTile (rowsFrom (s.orderedFor .m) b.val row.toNat 512)) ∧ t.me.pathFree = max s.now s.me.pathFree + 128 ∧
      t.me.ks[k].st = .seeded ∧ t.me.ks[k].int = decide (s.me.bankFmt b.val = .int32) ∧ t.me.cix = s.me.cix ∧ t.me.wrapped = s.me.wrapped ∧
      (s.me.ks[k].st = .empty → s.me.freePairs.Pairwise (· ≤ ·) → t.me.ks[k].pair ∈ s.me.freePairs ∧ (∀ p ∈ s.me.freePairs, t.me.ks[k].pair ≤ p) ∧
        t.me.freePairs.Pairwise (· ≤ ·))) ∧
  (∀ (s : State) (k : KReg) (b : BankNo) (row : Byte), s.me.nbank ≤ b.val → exec (.accLd k b row) s = .next (takeTrap ((exAcc s .m 7 0#64 .read 0xFF).on .m) s)) ∧
  (∀ (s : State) (k : KReg) (b : BankNo) (row : Byte), b.val < s.me.nbank → ((s.me.bankFmt b.val ≠ .fp32 ∧ s.me.bankFmt b.val ≠ .int32) ∨
      (s.me.ks[k].st = .empty ∧ s.me.freePairs = [])) → exec (.accLd k b row) s = .next (takeTrap ((exIllegal s .m).on .m) s)) ∧
  (∀ (s : State) (k : KReg), ∃ t, exec (.accRel k) s = .next t ∧ Ran .m 1 s t ∧ OnlyMe s t ∧ SameBytes s t ∧
    (s.me.ks[k].st = .empty → ButStream .m s.me t.me) ∧
    (s.me.ks[k].st ≠ .empty → t.me.ks[k].st = .empty ∧ (∀ j, j ≠ k → t.me.ks[j] = s.me.ks[j]) ∧ t.me.backPairs = s.me.ks[k].pair :: s.me.backPairs ∧
      t.me = { s.me with ks := t.me.ks, backPairs := t.me.backPairs, rels := t.me.rels, strM := t.me.strM })) ∧
  (∀ (s : State) (p : Nat), p ∈ s.me.backPairs → pairBusy s.me p s.now = false →
    ∃ t, exec (.accPairReturn p) s = .next t ∧ p ∈ t.me.freePairs ∧ p ∉ t.me.backPairs ∧
      (s.me.freePairs.Pairwise (· ≤ ·) → t.me.freePairs.Pairwise (· ≤ ·)) ∧ (∀ x, x ≠ p → (x ∈ t.me.freePairs ↔ x ∈ s.me.freePairs)) ∧
      t.me = { s.me with freePairs := t.me.freePairs, backPairs := t.me.backPairs } ∧ t = { s with me := t.me, last := .event }) ∧
  (∀ s : State, (termOf s).isSome = true → ∃ t, exec .lseAcq s = .next t ∧ Ran .m 1 s t ∧ OnlyMe s t ∧ ButStream .m s.me t.me ∧ SameBytes s t) ∧
  (∀ s : State, termOf s = none → ∃ t, exec .lseAcq s = .next t ∧ t.last = .waiting ∧ t.me = s.me ∧ t.mem = s.mem ∧
    (t.myBay.reqs.any (·.launch == s.me.launch)) = true ∧ t.myBay.term = s.myBay.term) ∧
  (∀ s : State, ∃ t, exec .lseRel s = .next t ∧ Ran .m 1 s t ∧ ButStream .m s.me t.me ∧ t.mem = s.mem ∧ termOf t = none ∧
    (∀ x, termOf s = some x → t.myBay.ended = s.cycle)) ∧
  (∀ (s : State) (d n : Nat) (r : LReq), grantDue s (s.bay d n) = true → chooseReq s (s.bay d n) = some r →
    ∃ t, exec (.leaseGrant d n) s = .next t ∧ t.me = s.me ∧ t.mem = s.mem ∧ (t.bay d n).term = some ⟨r.launch, (s.bay d n).run, 0⟩ ∧
      r ∈ eligible (s.bay d n) ∧ (∀ q ∈ eligible (s.bay d n), reqPrio s q ≤ reqPrio s r) ∧ ∀ e k, (e ≠ d ∨ k ≠ n) → t.bay e k = s.bay e k)

/-- Array commands (R199 to R206, R209, R211, R213): a product whose conditions hold is put in flight with the tile of R200 and its cycles, leaves its handle tagged with the chunk index and counts in the term: MMA.Z and MMA.C of an empty handle start a tile and advance CIX, MMA.C of a seeded handle at CIX 0 goes on from the seed, MMA.C of an open FP32 handle completes it and leaves CIX; another state of the handle is a tree-order trap. FOLD and FOLD.P do so one level up, of closed handles in tree order, and others are a tree-order trap whether or not a pair is free; two data types are illegal. Without an accepting term a queued context waits with its request filed and a timed one traps. Commands start when R213 lets them, and a complete one is the front of its pair. The wrapped bit of a fold's tag and the order of its checks are the model's readings (log 59, log 60). -/
def Obligations.ArrayCommands : Prop :=
  (∀ (s : State) (i : Instr) (isC nf int : Bool) (k : KReg) (a b : Sel) (ad bd : Dir), mmaOp i = some (isC, nf, k, a, ad, b, bd) → MmaReady s isC k a ad b bd int →
    ((isC = false ∨ s.me.ks[k].st = .empty) → ∃ t, exec i s = .next t ∧ Ran .m 1 s t ∧
      Queued s t .grid k (mmaStart s isC k a b) (mmaOcc s a b) (mmaOcc s a b + 16) (mmaTile s nf int a ad b bd 0 []) ∧ Counted s t ∧ nextCix s.me t.me ∧
      t.me.ks[k] = ⟨.tagged, int, 0, s.me.cix, mmaFp32 s a b, s.me.wrapped, t.me.ks[k].pair⟩) ∧
    (isC = true → s.me.ks[k].st = .seeded → s.me.cix = 0 → ∃ t, exec i s = .next t ∧ Ran .m 1 s t ∧
      Queued s t .grid k (mmaStart s isC k a b) (mmaOcc s a b) (mmaOcc s a b + 16) (mmaTile s nf int a ad b bd 0 (latestTile s.me s.me.ks[k].pair)) ∧ Counted s t ∧
      nextCix s.me t.me ∧ t.me.ks[k] = ⟨.tagged, int, 0, 0, mmaFp32 s a b, s.me.wrapped, s.me.ks[k].pair⟩) ∧
    (isC = true → s.me.ks[k].st = .tagged → s.me.ks[k].isOpen = true → mmaFp32 s a b = true → ∃ t, exec i s = .next t ∧ Ran .m 1 s t ∧
      Queued s t .grid k (mmaStart s isC k a b) (mmaOcc s a b) (mmaOcc s a b + 16) (mmaTile s nf int a ad b bd 1 (latestTile s.me s.me.ks[k].pair)) ∧ Counted s t ∧
      t.me.cix = s.me.cix ∧ t.me.wrapped = s.me.wrapped ∧ t.me.ks[k] = { s.me.ks[k] with isOpen := false }) ∧
    (isC = true → ((s.me.ks[k].st = .seeded ∧ s.me.cix ≠ 0) ∨ (s.me.ks[k].st = .tagged ∧ (s.me.ks[k].isOpen = false ∨ mmaFp32 s a b = false))) →
      exec i s = .next (takeTrap ((exTree s).on .m) s))) ∧
  (∀ (s : State) (i : Instr) (isC nf : Bool) (k : KReg) (a b : Sel) (ad bd : Dir), mmaOp i = some (isC, nf, k, a, ad, b, bd) →
    (accepts s (mmaStart s isC k a b) (mmaOcc s a b) = false → s.me.timed = false → ∃ t, exec i s = .next t ∧ t.last = .waiting ∧ t.me = s.me ∧ t.mem = s.mem ∧
      (t.myBay.reqs.any (·.launch == s.me.launch)) = true) ∧
    (accepts s (mmaStart s isC k a b) (mmaOcc s a b) = false → s.me.timed = true → exec i s = .next (takeTrap ((exIllegal s .m).on .m) s)) ∧
    (accepts s (mmaStart s isC k a b) (mmaOcc s a b) = true → (selLoaded s.me a = false ∨ selSet s.me a = false ∨ mmaPair s.me a b = none) →
      exec i s = .next (takeTrap ((exIllegal s .m).on .m) s))) ∧
  (∀ (s : State) (d a b : KReg), accepts s (startOf s .fold [] [s.me.ks[a].pair, s.me.ks[b].pair]) 128 = true → (s.me.ks[d].st ≠ .empty ∨ s.me.freePairs ≠ []) →
    foldInput s.me.ks[a] = true → foldInput s.me.ks[b] = true → s.me.ks[a].int = s.me.ks[b].int → s.me.ks[a].level = s.me.ks[b].level →
    s.me.ks[a].index % 2 = 0 → s.me.ks[b].index = s.me.ks[a].index + 1 →
    ∃ t, exec (.fold d a b) s = .next t ∧ Ran .m 1 s t ∧ Counted s t ∧ t.me.cix = s.me.cix ∧
      Queued s t .fold d (startOf s .fold [] [s.me.ks[a].pair, s.me.ks[b].pair]) 128 132
        (foldTile s.me.ks[a].int (latestTile s.me s.me.ks[a].pair) (latestTile s.me s.me.ks[b].pair)) ∧
      t.me.ks[d] = ⟨.tagged, s.me.ks[a].int, s.me.ks[a].level + 1, s.me.ks[a].index / 2, false, s.me.wrapped, t.me.ks[d].pair⟩) ∧
  (∀ (s : State) (d a : KReg), accepts s (startOf s .fold [] [s.me.ks[a].pair]) 128 = true → (s.me.ks[d].st ≠ .empty ∨ s.me.freePairs ≠ []) →
    foldInput s.me.ks[a] = true → s.me.ks[a].index % 2 = 0 →
    ∃ t, exec (.foldP d a) s = .next t ∧ Ran .m 1 s t ∧ Counted s t ∧ t.me.cix = s.me.cix ∧
      Queued s t .fold d (startOf s .fold [] [s.me.ks[a].pair]) 128 132 (latestTile s.me s.me.ks[a].pair) ∧
      t.me.ks[d] = ⟨.tagged, s.me.ks[a].int, s.me.ks[a].level + 1, s.me.ks[a].index / 2, false, s.me.wrapped, t.me.ks[d].pair⟩) ∧
  (∀ (s : State) (d a : KReg), accepts s (startOf s .fold [] [s.me.ks[a].pair]) 128 = true → (foldInput s.me.ks[a] = false ∨ s.me.ks[a].index % 2 = 1) →
    exec (.foldP d a) s = .next (takeTrap ((exTree s).on .m) s)) ∧
  (∀ (s : State) (d a b : KReg), accepts s (startOf s .fold [] [s.me.ks[a].pair, s.me.ks[b].pair]) 128 = true → s.me.ks[a].st ≠ .empty → s.me.ks[b].st ≠ .empty →
    s.me.ks[a].int ≠ s.me.ks[b].int → exec (.fold d a b) s = .next (takeTrap ((exIllegal s .m).on .m) s)) ∧
  (∀ (s : State) (d a b : KReg), accepts s (startOf s .fold [] [s.me.ks[a].pair, s.me.ks[b].pair]) 128 = true →
    s.me.ks[a].int = s.me.ks[b].int → (foldInput s.me.ks[a] = false ∨ s.me.ks[a].level ≠ s.me.ks[b].level ∨ s.me.ks[a].index % 2 = 1 ∨ s.me.ks[b].index ≠ s.me.ks[a].index + 1) →
    exec (.fold d a b) s = .next (takeTrap ((exTree s).on .m) s)) ∧
  (∀ (s : State) (id : Nat) (i : Instr) (a : ACmd), s.me.acmds.find? (·.id == id) = some a → startOp a.kind id = some i → startReadyA s s.me a = true →
    ∃ t st, exec i s = .next t ∧ st = (if a.start = a.issued then a.issued else s.now) ∧ t.mem = s.mem ∧ t.me = { s.me with acmds := t.me.acmds } ∧
      t.me.acmds.find? (·.id == id) = some { a with started := true, start := st, done := st + lagOf a.kind a.occ }) ∧
  (∀ (s : State) (id : Nat) (a : ACmd), s.me.acmds.find? (·.id == id) = some a → doneReadyA s s.me a = true →
    ∃ t, exec (doneOp a.kind id) s = .next t ∧ t.mem = s.mem ∧ t.me.front a.pair = ⟨a.pair, a.int, a.opens, a.result⟩ ∧ t.me.acmds.find? (·.id == id) = none ∧
      (∀ p, p ≠ a.pair → t.me.front p = s.me.front p) ∧ t.me = { s.me with acmds := t.me.acmds, fronts := t.me.fronts, loads := t.me.loads })


/-! ## The S stream -/

/-- The row instructions (R215 to R221): with the retire unit free a row instruction retires, every lane of its destination gets the value of its rule and LF its lane's flags, after its latency, and nothing else changes; while an RT.ST occupies the unit a queued context waits and a timed one traps. VBC (R222) needs no unit: every lane gets the low 32 bits of the oldest entry. -/
def Obligations.RowResults : Prop :=
  (∀ i nf d lat f, rowInstrOp i = some (nf, d, lat, f) → ∀ s : State,
    (rtBusy s = false → ∃ t, exec i s = .next t ∧ Ran .s 1 s t ∧ OnlyMe s t ∧ GetsV nf d (rowBits (f s.me)) (rowFlags (f s.me)) lat s t ∧
      t.me = { s.me with v := t.me.v, lf := t.me.lf, pend := t.me.pend, strS := t.me.strS } ∧ SameBytes s t) ∧
    (rtBusy s = true → s.me.timed = false → exec i s = .next { s with last := .waiting }) ∧
    (rtBusy s = true → s.me.timed = true → exec i s = .next (takeTrap ((exIllegal s .s).on .s) s))) ∧
  (∀ (s : State) (nf : Bool) (d : VReg) (q : QNo) (v : W64), AtFront s q v → ∃ t, exec (.vbc nf d q) s = .next t ∧ Ran .s 1 s t ∧ OnlyMe s t ∧
    GetsV true d (List.replicate 128 (v.setWidth 32)) [] 1 s t ∧ t.me = { popped s q with pend := t.me.pend, strS := t.me.strS } ∧ SameBytes s t)

/-- Bank rows, the histogram, lane flags and SCALE.RCP (R27, R44, R223 to R227, R232 to R234, R236): VLD gives the row half, with the rows still to land, as FP32 with its lanes' flags; VST issues, and four cycles later the row half's bytes stand in the bank, its lanes' flags are raised, its lanes counted, and it retires; HIST.ADD counts, saturating, in the next cycle; HIST.RD pushes a counter into queue 5; HIST.CLR clears; FLG.CLR clears all but the flags that land in its cycle, for which a queued one waits a cycle; FLG.RD gives the flags as numbers; SCL.SET sets SCALE.RCP from the next cycle. Each changes nothing else; a bank beyond NBANK is an access fault with QUAL 7, a RAW or armed bank or an upper half it has not is illegal. -/
def Obligations.RowsFlagsCounters : Prop :=
  (∀ (s : State) (d : VReg) (b : BankNo) (row : Byte), rtBusy s = false → bankRowErr s b row = none →
    poisonedRange (s.orderedFor .s).mem (rowLoc s b.val (row.toNat % 128) + rowBytes (s.me.bankFmt b.val) (128 * (row.toNat / 128))) (rowBytes (s.me.bankFmt b.val) 128) = false →
    ∃ t, exec (.vld d b row) s = .next t ∧ Ran .s 1 s t ∧ OnlyMe s t ∧
      GetsV false d (rowBits fun j => vldLane (s.me.bankFmt b.val) (rowSeen s b.val (row.toNat % 128)) (128 * (row.toNat / 128) + j))
        (rowFlags fun j => vldLane (s.me.bankFmt b.val) (rowSeen s b.val (row.toNat % 128)) (128 * (row.toNat / 128) + j)) 4 s t ∧
      t.me = { s.me with v := t.me.v, lf := t.me.lf, pend := t.me.pend, strS := t.me.strS } ∧ SameBytes s t) ∧
  (∀ (s : State) (a : VReg) (b : BankNo) (row : Byte) (aux : StAux), rtBusy s = false → bankRowErr s b row = none →
    ∃ t, exec (.vst a b row aux) s = .next t ∧ WentOn ⟨s.seqs, 64, s.now, s.now + 4, 0#4, true⟩ s t ∧ OnlyMe s t ∧
      t.me.pend = withPends s.seqs s.me.pend (rowPends (s.clock + 4) s.seqs (rowLoc s b.val (row.toNat % 128))
        (storeRow (s.me.bankFmt b.val) (row.toNat / 128) aux s.me.scaleRcp (rowLanes (rdV s.me a))) [] (histOf aux (rowLanes (rdV s.me a)))) ∧
      t.me = { s.me with pend := t.me.pend, rets := t.me.rets, strS := t.me.strS } ∧ SameBytes s t) ∧
  (∀ (s : State) (due seq x ret : Nat) (cov : Option Nat) (bs : List Byte), Sound s →
    readBases (landOne ⟨due, seq, .bankRow x bs ret cov⟩ s).mem x bs.length = bs ∧
    (∀ y, (y < x ∨ x + bs.length ≤ y) → readBase (landOne ⟨due, seq, .bankRow x bs ret cov⟩ s).mem y = readBase s.mem y)) ∧
  (∀ (s : State) (due seq : Nat) (fs : List Flags) (is : List Nat), Raised fs s.me (landOne ⟨due, seq, .lf fs⟩ s).me ∧
    (landOne ⟨due, seq, .hist is⟩ s).me.hist = histCount s.me.hist is) ∧
  (∀ (s : State) (d : VReg) (b : BankNo) (row : Byte) (aux : StAux), rtBusy s = false → s.me.nbank ≤ b.val →
    exec (.vld d b row) s = .next (takeTrap ((exAcc s .s 7 0#64 .read 0xFF).on .s) s) ∧
    exec (.vst d b row aux) s = .next (takeTrap ((exAcc s .s 7 0#64 .write 0xFF).on .s) s)) ∧
  (∀ (s : State) (d : VReg) (b : BankNo) (row : Byte) (aux : StAux), rtBusy s = false → b.val < s.me.nbank →
    (s.me.bankFmt b.val = .raw ∨ s.me.isArmed b.val = true ∨ (128 ≤ row.toNat ∧ (s.me.bankFmt b.val = .fp32 ∨ s.me.bankFmt b.val = .int32))) →
    exec (.vld d b row) s = .next (takeTrap ((exIllegal s .s).on .s) s) ∧ exec (.vst d b row aux) s = .next (takeTrap ((exIllegal s .s).on .s) s)) ∧
  (∀ (s : State) (nf : Bool) (a : VReg), rtBusy s = false → ∃ t, exec (.histAdd nf a) s = .next t ∧ Ran .s 1 s t ∧ OnlyMe s t ∧ SameBytes s t ∧
    t.me = { s.me with pend := withPends s.seqs s.me.pend [(s.clock + 1, .hist ((rowLanes (rdV s.me a)).map fun x => histIdx x.ex))], strS := t.me.strS }) ∧
  (∀ (h : Vector W32 34) (i j : Fin 34), ((histBump h i.val)[j]).toNat = if j = i then min (h[i].toNat + 1) 0xFFFFFFFF else h[j].toNat) ∧
  (∀ x : Ex, histIdx x < 34 ∧ (histIdx x = 32 ↔ ∃ n e, x = .fin n 0 e) ∧ (histIdx x = 33 ↔ ∀ n m e, x ≠ .fin n m e)) ∧
  (∀ (s : State) (nf : Bool) (n : Byte), rtBusy s = false → n.toNat < 34 → (s.me.queue 5).full s.cycle = false → ∃ t, exec (.histRd nf n) s = .next t ∧ Ran .s 1 s t ∧ OnlyMe s t ∧
    t.me.queue 5 = ⟨(s.me.queue 5).ents ++ [⟨(s.me.hist.toList.getD n.toNat 0#32).setWidth 64, s.cycle⟩], (s.me.queue 5).poppedAt, (s.me.queue 5).popped⟩ ∧
    t.me = { s.me with qs := t.me.qs, strS := t.me.strS } ∧ (∀ q, q ≠ 5 → t.me.queue q = s.me.queue q) ∧ SameBytes s t) ∧
  (∀ (s : State) (nf : Bool), rtBusy s = false → ∃ t, exec (.histClr nf) s = .next t ∧ Ran .s 1 s t ∧ OnlyMe s t ∧
    t.me = { s.me with hist := Vector.replicate 34 0#32, strS := t.me.strS } ∧ SameBytes s t) ∧
  (∀ (s : State) (nf : Bool) (d : VReg), rtBusy s = false → ∃ t, exec (.flgRd nf d) s = .next t ∧ Ran .s 1 s t ∧ OnlyMe s t ∧ GetsV true d (flagRow s.me.lf) [] 1 s t ∧
    t.me = { s.me with v := t.me.v, pend := t.me.pend, strS := t.me.strS } ∧ SameBytes s t) ∧
  (∀ (s : State) (nf : Bool), rtBusy s = false → s.me.timed = false → flagsNow s = true → exec (.flgClr nf) s = .next { s with last := .waiting }) ∧
  (∀ (s : State) (nf : Bool), rtBusy s = false → (s.me.timed = true ∨ flagsNow s = false) → ∃ t, exec (.flgClr nf) s = .next t ∧ Ran .s 1 s t ∧ OnlyMe s t ∧
    (∀ j, t.me.lf.getD j 0#6 = if s.me.lfNow.1 = s.now then s.me.lfNow.2.getD j 0#6 else 0#6) ∧
    t.me = { s.me with lf := t.me.lf, strS := t.me.strS } ∧ SameBytes s t) ∧
  (∀ (s : State) (nf : Bool) (q : QNo) (v : W64), AtFront s q v → ∃ t, exec (.sclSet nf q) s = .next t ∧ Ran .s 1 s t ∧ OnlyMe s t ∧
    t.me = { popped s q with pend := withPends s.seqs s.me.pend [(s.clock + 1, .csr .scaleRcp (v &&& 0xFFFFFFFF#64))], strS := t.me.strS } ∧ SameBytes s t)

/-- Retirement (R18, R208, R217, R228 to R230): RT.ROW gives row n of the front of a handle that is not open, INT32 elements rounded under FRND, with the flags the elements carry; RT.ST issues, occupies the unit for 128 cycles, writes row n of the tile to bank row (R + n) mod 128 in cycle s + n + 4 and retires in cycle s + 131, when it counts, its rows are covered and its gives find room, each FIFO's count going up by one, or are held, behind earlier gives and until both have room; an open front is illegal. While another occupies the unit, or an array command ordered before it has not completed (log 62), a queued context waits before anything else of the instruction is looked at; a timed one finds the occupied unit illegal. A retirement not ordered after an ACC.REL reads the handle as it stood (log 65). That RT.ST reads the tile at its issue is the model's choice (log 14). -/
def Obligations.Retirements : Prop :=
  (∀ (s : State) (nf : Bool) (d : VReg) (k : KReg) (row : BitVec 7), openSeen s k = false → rtBusy s = false → rtWaits s k = false →
    ∃ t, exec (.rtRow nf d k row) s = .next t ∧ Ran .s 1 s t ∧ OnlyMe s t ∧
      GetsV nf d (rowBits fun j => rtLane (s.me.frnd.toNat / 4) (frontSeen s k).int (tileElt (frontSeen s k).tile row.toNat j))
        (rowFlags fun j => rtLane (s.me.frnd.toNat / 4) (frontSeen s k).int (tileElt (frontSeen s k).tile row.toNat j)) 4 s t ∧
      t.me = { s.me with v := t.me.v, lf := t.me.lf, pend := t.me.pend, strS := t.me.strS } ∧ SameBytes s t) ∧
  (∀ (s : State) (nf : Bool) (d : VReg) (k : KReg) (row : BitVec 7) (b : BankNo) (br : Byte) (aux : StAux), rtBusy s = false → rtWaits s k = false →
    (openSeen s k = true → exec (.rtRow nf d k row) s = .next (takeTrap ((exIllegal s .s).on .s) s)) ∧
    (openSeen s k = true → bankRowErr s b br = none → exec (.rtSt k b br aux) s = .next (takeTrap ((exIllegal s .s).on .s) s)) ∧
    (s.me.nbank ≤ b.val → exec (.rtSt k b br aux) s = .next (takeTrap ((exAcc s .s 7 0#64 .write 0xFF).on .s) s)) ∧
    (b.val < s.me.nbank → (s.me.bankFmt b.val = .raw ∨ s.me.isArmed b.val = true ∨ (128 ≤ br.toNat ∧ (s.me.bankFmt b.val = .fp32 ∨ s.me.bankFmt b.val = .int32))) →
      exec (.rtSt k b br aux) s = .next (takeTrap ((exIllegal s .s).on .s) s))) ∧
  (∀ (s : State) (nf : Bool) (d : VReg) (k : KReg) (row : BitVec 7) (b : BankNo) (br : Byte) (aux : StAux),
    ((rtBusy s = false ∧ rtWaits s k = true) ∨ (rtBusy s = true ∧ s.me.timed = false) →
      exec (.rtRow nf d k row) s = .next { s with last := .waiting } ∧ exec (.rtSt k b br aux) s = .next { s with last := .waiting }) ∧
    (rtBusy s = true → s.me.timed = true → exec (.rtRow nf d k row) s = .next (takeTrap ((exIllegal s .s).on .s) s) ∧
      exec (.rtSt k b br aux) s = .next (takeTrap ((exIllegal s .s).on .s) s))) ∧
  (∀ (s : State) (k : KReg) (b : BankNo) (row : Byte) (aux : StAux), rtBusy s = false → rtWaits s k = false → openSeen s k = false → bankRowErr s b row = none →
    ∃ t, exec (.rtSt k b row aux) s = .next t ∧ OnlyMe s t ∧
      WentOn ⟨s.seqs, if (accSeen s k).1.st = .empty then 64 else (accSeen s k).1.pair, s.now, s.now + 131, 0#4, true⟩ s t ∧ t.me.rtFree = s.now + 128 ∧
      t.me.pend = withPends s.seqs s.me.pend ((List.range 128).flatMap fun n =>
        rowPends (s.clock + (n + 4)) s.seqs (rowLoc s b.val ((row.toNat % 128 + n) % 128))
          (storeRow (s.me.bankFmt b.val) (row.toNat / 128) aux s.me.scaleRcp (tileLanes (frontSeen s k).int (frontSeen s k).tile n))
          (tileFlags (frontSeen s k).tile n) (histOf aux (tileLanes (frontSeen s k).int (frontSeen s k).tile n))) ∧
      t.me = { s.me with rets := t.me.rets, rtFree := t.me.rtFree, pend := t.me.pend, strS := t.me.strS } ∧ SameBytes s t) ∧
  (∀ (s : State) (r : Retiring), retDue s.me s.now = some r →
    let c := if r.counts then countRetired s.me.strS else s.me.strS
    let give := r.give.getLsbD 1 || r.give.getLsbD 0
    let room := s.me.strS.held.isEmpty && (!r.give.getLsbD 1 || s.me.fifoSM.room s.cycle) && (!r.give.getLsbD 0 || s.me.fifoSC.room s.cycle)
    ∃ t, exec .rtStRetire s = .next t ∧ t = { s with me := t.me, last := .event } ∧ (∀ x ∈ t.me.rets, x.id ≠ r.id) ∧ (∀ x ∈ s.me.rets, x.id ≠ r.id → x ∈ t.me.rets) ∧
      t.me.priv = s.me.priv.map (fun p => if p.src = .row r.id then { p with waited := some c.acc, waitedAt := s.now } else p) ∧
      t.me = { s.me with rets := t.me.rets, priv := t.me.priv, pend := s.me.pend.map (coverRow r.id c.acc), strS := { c with held := t.me.strS.held },
                         fifoSM := t.me.fifoSM, fifoSC := t.me.fifoSC } ∧
      ((give = false ∨ room = true) → t.me.strS.held = s.me.strS.held ∧
        t.me.fifoSM = { s.me.fifoSM with toks := s.me.fifoSM.toks ++ if r.give.getLsbD 1 then [⟨s.cycle, t.me.know .s⟩] else [] } ∧
        t.me.fifoSC = { s.me.fifoSC with toks := s.me.fifoSC.toks ++ if r.give.getLsbD 0 then [⟨s.cycle, t.me.know .s⟩] else [] }) ∧
      (give = true → room = false → t.me.strS.held = s.me.strS.held ++ [r.give] ∧ t.me.fifoSM = s.me.fifoSM ∧ t.me.fifoSC = s.me.fifoSC)) ∧
  (∀ (s : State), retDue s.me s.now = none → exec .rtStRetire s = .next { s with last := .event })


/-! ## Steps no word encodes -/

/-- Steps of a core (R18, R104, R105, R148, R334, R335, R354, R359, R361 to R363): a held give is made when there is room; a pending register result lands in its cycle and not before; the yield deadline sets its event and source once; a stopped context that is ready publishes and is archived with its registers, the next SEQ and its STOP code, its blocks written to the archive that ends with its record page's, their header naming MAGIC and SEQ, and its bank is vacant; an overrun is stopped as an urgent one is and counted, its array commands abandoned, CIX and KDEP as before the first of them; the memory processor's answer lets an awaiting context issue the faulting instruction again, or enters its handler with an access fault of QUAL 3, unless a patch slot sent a class 7 of its own there, and lets a command that waits for a page run on; a frozen bay with no handler and no condition left counts on from the next cycle. The STOP code under a request and the bytes of areas without a layout are the model's readings (log 12, log 41). -/
def Obligations.CoreSteps : Prop :=
  (∀ (s : State) (x : StreamId) (h : BitVec 4) (r : List (BitVec 4)), (s.me.strm x).held = h :: r → giveRoom s.me x h s.cycle = true →
    ∃ t, exec (.retirementTokenGive x) s = .next t ∧ t.mem = s.mem ∧ (t.me.strm x).held = r ∧ t.me.s = s.me.s ∧
      (t.me.fifo x true).toks.length = (s.me.fifo x true).toks.length + (h.getLsbD 0).toNat ∧
      (t.me.fifo x false).toks.length = (s.me.fifo x false).toks.length + (h.getLsbD 1).toNat) ∧
  (∀ (s : State) (p : Pend) (c : Ctx), s.me.pend = [p] → afterLanding p.what { s.me with pend := [] } = some c → p.due ≤ s.clock →
    landHeld s p = false → (∀ d i, p.what = .await d i → s.me.words = []) →
    ∃ t, exec .resultLanding s = .next t ∧ t = { s with me := c, last := .event }) ∧
  (∀ (s : State) (p : Pend) (c : Ctx), s.me.pend = [p] → afterLanding p.what { s.me with pend := [] } = some c → s.clock < p.due →
    exec .resultLanding s = .next { s with last := .event }) ∧
  (∀ s : State, s.me.life ≠ .vacant → s.me.dlSeen = false → s.me.yieldDl.toNat ≤ s.ptp.toNat →
    ∃ t, exec .yieldDeadline s = .next t ∧ t.me.dlSeen = true ∧ t.me.events = s.me.events ||| 2#5 ∧ t.me.irq = s.me.irq ||| 2#7 ∧
      t.me = { s.me with dlSeen := true, events := t.me.events, irq := t.me.irq, irqAt := t.me.irqAt, forcedCtr := t.me.forcedCtr } ∧
      t = { s with me := t.me, last := .event }) ∧
  (∀ (s : State) (n : Node) (k : StopKind), s.node? s.me.nodeDie s.me.nodeIdx = some n → s.me.life = .stopped → s.me.saving = some k → saveReady s = true →
    ∃ t a, t.mem = writeArchive (publishAll .dom s).mem s.rank a.ctx a.addr (archiveImage (publishAll .dom s).mem s.rank s.boot a.ctx a.addr a.seq (stopCode a.stop)) ∧
      a.addr = s.me.recPage - 0x9000 ∧ (a.ctx.gcount ≤ 48 → leNat ((headerBlock a.ctx a.seq (stopCode a.stop)).take 64) / 2 ^ 480 = 0x4C415243 ∧
        leNat ((headerBlock a.ctx a.seq (stopCode a.stop)).take 64) / 2 ^ 416 % 2 ^ 64 = a.seq % 2 ^ 64) ∧
       exec (.contextSave (recordedStop n k)) s = .next t ∧ t.archives = s.archives ++ [a] ∧ a.seq = s.saveSeq + 1 ∧ t.saveSeq = s.saveSeq + 1 ∧
      a.stop = recordedStop n k ∧ a.ctx.s = s.me.s ∧ a.ctx.g = s.me.g ∧ a.ctx.v = s.me.v ∧ a.ctx.strC = s.me.strC ∧ a.ctx.ks = s.me.ks ∧ a.ctx.launch = s.me.launch ∧
      a.ctx.priv = [] ∧ t.me.life = .vacant) ∧
  (∀ (s : State) (n : Node) (a : ACmd) (as : List ACmd), OneNode s n → n.die = s.me.nodeDie → n.idx = s.me.nodeIdx → overruns s n = true → QuietCtx s.me → Alone s →
    s.me.acmds = a :: as → (∀ b ∈ a :: as, b.kind ≠ .load) →
    ∃ t, exec .forcedStopOverrun s = .next t ∧ t.me.life = .stopped ∧ t.me.saving = some .overrun ∧ t.me.abandoned = a :: as ∧ t.me.acmds = [] ∧
      t.me.cix = a.cix ∧ t.me.kdep = a.kdep ∧ t.me.wrapped = a.wrapped ∧
      (t.node? n.die n.idx).map (·.novr) = some (n.novr + 1) ∧ t.me.s = s.me.s ∧ t.mem = s.mem) ∧
  (∀ (s : State) (f : Frame), s.me.life = .awaiting → s.me.core ≠ 9 → s.me.frame = some f → Alone s → (s.shoots.any fun x => x.1 == .answer s.me.launch []) = false →
    ∃ t, exec (.memoryProcessorAnswer s.me.launch (.mapped [])) s = .next t ∧ t.me.life = .active ∧ t.me.frame = none ∧
      t.me.status = BitVec.ofNat 2 (recField s 8 8) ∧ (∀ x, pcOf t x = BitVec.ofNat 64 (recField s (96 + 8 * StreamId.num x) 8)) ∧ t.me.strC.loops = f.loops ∧
      t.me.s = s.me.s ∧ t.mem = s.mem) ∧
  (∀ s : State, s.me.life = .awaiting → s.me.core ≠ 9 → rerouted s s.me.trapCause = false → s.me.frame.isSome = true → Alone s → s.me.trapVec ≠ defVecOf s s.me.vmid → s.me.trapCause.toNat / 2 ^ 58 = 7 →
    ∃ t, exec (.memoryProcessorAnswer s.me.launch .declined) s = .next t ∧ t.me.life = .active ∧ t.me.status = 1#2 ∧ t.me.strC.pc = s.me.trapVec ∧
      t.me.trapCause.toNat = 5 * 2 ^ 58 + s.me.trapCause.toNat / 2 ^ 56 % 4 * 2 ^ 56 + 3 * 2 ^ 52 + s.me.trapCause.toNat % 2 ^ 52 ∧ t.me.frame = s.me.frame ∧ t.me.s = s.me.s) ∧
  (∀ (s : State) (x : Cmd), s.me.life = .active → s.me.cmds = [x] → x.st = .pageWait → (s.shoots.any fun x => x.1 == .answer s.me.launch []) = false →
    ∃ t, exec (.memoryProcessorAnswer s.me.launch (.mapped [])) s = .next t ∧ t.me = { s.me with cmds := [{ x with st := .running }] } ∧ t.mem = s.mem) ∧
  (∀ (s : State) (d n : Nat), restartDue s (s.bay d n) = true →
    ∃ t, exec (.timedRestart d n) s = .next t ∧ t.bay d n = { s.bay d n with frozen := false, hold := false, restarted := s.cycle + 1 } ∧ t.me = s.me ∧ t.mem = s.mem ∧
      ∀ e k, (e ≠ d ∨ k ≠ n) → t.bay e k = s.bay e k)

/-- Steps of the scheduler (R145, R146, R328 to R333): a node that has aged counts it and its die judges again; a dispatch starts the one ready node of its die where it fits: a general node on free general cores at the address and with the argument of its entry block, a first launch of a matrix node as one instance for each place with its rank, partition, entry PC and registers; a finished node, once its writes have room, frees its index, and its successor waits for one predecessor less; an instance that ends on a general core frees it; a pre-emption request of the memory processor stands on a running queued node; a pinned range joins its partition's pins. -/
def Obligations.SchedulerSteps : Prop :=
  (∀ (s : State) (n : Node), OneNode s n → n ∈ s.nodes → agesNow s n = true →
    ∃ t, exec .priorityAging s = .next t ∧ t.me = s.me ∧ t.mem = s.mem ∧ t.node? n.die n.idx = some { n with aged := n.aged + 1 } ∧ n.die ∈ t.dispatchDue) ∧
  (∀ (s : State) (n : Node) (b : List Byte), s.nodes = [n] → n.st = .ready → n.kind = 1 → n.cset = 0 → n.v ≤ (freeGp s n.die).length → n.die < 4 → nodeRead s n n.code 16 = some b →
    ∃ t, exec (.dispatch n.die) s = .next t ∧ t.me = s.me ∧ t.mem = s.mem ∧
      t.gpCores = s.gpCores ++ ((freeGp s n.die).take n.v).map (fun k => GpCore.mk n.die k n.die n.idx (entryWord b 0) (entryWord b 1)) ∧
      t.nodes = [{ n with st := .running, launched := true, tlaunch := laterOf n.after s.ptp, launchSeq := s.seqs }]) ∧
  (∀ (s : State) (n : Node) (b : List Byte) (spots : List Spot), Sound s → s.nodes = [n] → n.st = .ready → n.kind = 0 → n.cset = 0 → n.timed = false → n.launched = false → n.range = 0 →
    (neverFits s [n] n) = none → placeEntry s [] (occOf s) [n] = some [(n, spots)] → (∀ x ∈ spots, x.core < 384) → nodeRead s n n.code 40 = some b → entryBad b = false →
    ∃ t, exec (.dispatch n.die) s = .next t ∧ (∀ y, isSeen y = false → readBase t.mem y = readBase s.mem y) ∧ t.launches = s.launches + spots.length ∧
      (t.node? n.die n.idx).map (·.live) = some ((List.range spots.length).map fun r => s.launches + 1 + r) ∧
      ∀ r x, spots[r]? = some x → ∃ c ∈ t.ring, c.launch = s.launches + 1 + r ∧ c.vrank = BitVec.ofNat 32 r ∧ c.vcount = BitVec.ofNat 32 n.v ∧ c.part = partWord n x.gb ∧
        c.strC.pc = entryWord b 0 ∧ c.strA.pc = entryWord b 1 ∧ c.strM.pc = entryWord b 2 ∧ c.strS.pc = entryWord b 3 ∧ rdS c 9 = BitVec.ofNat 64 r ∧
        rdS c 1 = (n.tods.getD 0 ⟨0, 0, 0#64⟩).ptr ∧ rdG c 8 = (n.tods.getD 7 ⟨0, 0, 0#64⟩).ptr ∧ rdS c 10 = 0#64 ∧ c.status = 0#2 ∧ c.scaleRcp = 0x3F800000#32) ∧
  (∀ (s : State) (n : Node), s.node? n.die n.idx = some n → canFinish s n = false → exec (.nodeFinish n.die n.idx) s = .next { s with last := .event }) ∧
  (∀ (s : State) (n : Node), OneNode s n → n.st = .finishing → canFinish s n = true → n.comp = 0#64 → n.succs = [] → n.decl = [] →
    ∃ t, exec (.nodeFinish n.die n.idx) s = .next t ∧ t.me = s.me ∧ t.node? n.die n.idx = none) ∧
  (∀ (s : State) (n m : Node), OneNode s n → OneNode s m → n ≠ m → n.st = .finishing → canFinish s n = true → n.comp = 0#64 → n.status = 0 → n.decl = [] → n.succs = [(m.die, m.idx)] → m.st = .waiting → m.preds ≠ 0 →
    ∃ t, exec (.nodeFinish n.die n.idx) s = .next t ∧ t.me = s.me ∧ (t.node? m.die m.idx).map (·.preds) = some (m.preds - 1) ∧ t.node? n.die n.idx = none) ∧
  (∀ (s : State) (d i : Nat) (stores : List (W64 × Byte)), (s.gpCores.any fun g => g.nd == d && g.ni == i) = true →
    ∃ t, exec (.generalInstanceEnd ⟨d, i⟩ stores) s = .next t ∧ t.me = s.me ∧ t.mem = s.mem ∧ t.gpCores.length + 1 = s.gpCores.length ∧
      (t.node? d i).map (·.ended) = (s.node? d i).map (·.ended + 1)) ∧
  (∀ (s : State) (n : Node), OneNode s n → n.st = .running → n.timed = false → n.requests = [] → s.me.life ≠ .vacant → s.me.nodeDie = n.die → s.me.nodeIdx = n.idx →
    ∃ t, exec (.memoryProcessorPreemption n.die n.idx) s = .next t ∧ t.node? n.die n.idx = some { n with requests := [⟨4, 0, false⟩] } ∧ t.me.irq = s.me.irq ||| 0x20#7 ∧
      t.me = { s.me with irq := t.me.irq, irqAt := t.me.irqAt } ∧ t.mem = s.mem) ∧
  (∀ (s : State) (p : Part) (a n : Nat), OnePart s p → ∃ t, exec (.pinRequest p.vmid a n) s = .next t ∧ t.part? p.vmid = some { p with pins := p.pins ++ [(a, n)] } ∧
    t = { s with parts := t.parts, last := .event })

/-- Steps of the memory system (R96, R247, R259, R265 to R270, R282 to R284, R300, R301, R306, R378 to R381): a parked write whose sectors are found is placed; one that is overdue leaves its command with class 8 and its partition counts it; a ballooning engine that can give nothing alerts once with the shortfall, and a block it claims reads zero; a donated range is unmapped and its blocks listed, a withdrawn one is mapped again and its blocks unlisted, another message is counted; the versions that fold leave the greatest one's bytes in the base and are freed; an answer to an alert enlarges the quota by what is asked or, if less, what every die of the partition has left; an error is logged and, uncorrectable, poisons its bytes wherever they stand and stays pinned to its stage; a lasting fault retires its granule, or its lane and leaves the link on 4 or 2; a map request over the ratio, or with a word no epoch accepts, is refused, else its page is mapped; a shootdown with nothing in its way puts its entries, one of a pinned page stays pending, and so does its migration; a page that migrates keeps its bytes at its new frame; a patch image that fails a check changes nothing, an accepted one joins the sets, and a closed transition leaves the newest and starts the shootdowns that clear X where it fails. Which versions fold, how far poison spreads and what a closed transition does to pages are the model's readings (log 38, log 71, log 75). -/
def Obligations.MemorySteps : Prop :=
  (∀ (s u : State) (part : Nat) (p : Priv), headOf (parkedIn s part) = some (s.me.launch, p) → s.foreign = [] → reserveAll p s = (u, true) → p.kind = .plain → p.src = .cs →
    p.cells ≠ [] → s.me.core ≠ 9 →
    ∃ t, exec (.parkedWritePlace part) s = .next t ∧ t.mem = s.mem ∧ t.me = { s.me with priv := t.me.priv } ∧
      t.me.priv = replacePriv .cs p.ipos p.cells (s.me.priv.filter (· != p)) ++ [{ p with parked := none }]) ∧
  (∀ (s u : State) (part : Nat) (p : Priv), headOf (parkedIn s part) = some (s.me.launch, p) → s.foreign = [] → reserveAll p s = (u, false) → exec (.parkedWritePlace part) s = .next { s with last := .event }) ∧
  (∀ (s : State) (q : Part) (p : Priv) (id tag : Nat) (x : Cmd), OnePart s q → headOf (overdueIn s q.vmid) = some (s.me.launch, p) → p.src = .cmd id tag → Mine s id x → x.id = id →
    x.tape = none → (s.me.tag x.tag).fault = none →
    ∃ t g, exec (.outOfSpaceExpiry q.vmid) s = .next t ∧ t.part? q.vmid = some { q with oos := q.oos + 1 } ∧ t.cmd? id = none ∧
      (t.me.tag x.tag).fault = some g ∧ g.fault.cls = 8 ∧ g.ptr = p.ptr ∧ t.mem = s.mem) ∧
  (∀ (s : State) (p : Part), OnePart s p → startsEngine s p = true → actsOn s p = true → needsRoom s p = true → p.balloon = [] → coldest s p = none → p.alerted = false →
    ∃ t, exec (.ballooningEngine p.vmid) s = .next t ∧ t.outbox = s.outbox ++ [.balloonAlert p.vmid (p.high - p.free)] ∧ t.part? p.vmid = some { p with alerted := true } ∧
      t.me = s.me ∧ t.mem = s.mem) ∧
  (∀ (s : State) (p : Part) (b : Nat) (r : List Nat), Sound s → OnePart s p → p.balloon = b :: r →
    (∀ i, i < 512 → readBase (claimBlock p.vmid s).mem (512 * b + i) = 0#8) ∧ (∀ y, (y < 512 * b ∨ 512 * b + 512 ≤ y) → readBase (claimBlock p.vmid s).mem y = readBase s.mem y) ∧
    ((claimBlock p.vmid s).part? p.vmid).map (·.balloon) = some r ∧ ∀ q ∈ (claimBlock p.vmid s).me.priv, ∀ x ∈ q.cells, x.loc / 512 ≠ b) ∧
  (∀ (s : State) (p : Part) (m : BitVec 63), OnePart s p → m.toNat / 2 ^ 60 % 8 ≠ 1 → m.toNat / 2 ^ 60 % 8 ≠ 2 →
    ∃ t, exec (.balloonMessage p.vmid m) s = .next t ∧ t.part? p.vmid = some { p with malformed := p.malformed + 1 } ∧ t.me = s.me ∧ t.mem = s.mem ∧
      (t.mbx (p.bmbx / 256) (p.bmbx % 256)).msgs = (s.mbx (p.bmbx / 256) (p.bmbx % 256)).msgs.drop 1) ∧
  (∀ (s : State) (p : Part) (v : Nat) (d : Donation), donationFor s p v = some d → v / 2 ^ 60 % 8 = 1 ∧ v / 2 ^ 52 % 256 = 0 ∧ v % 4096 = 0 ∧ v / 2 ^ 47 % 32 ≤ 20 ∧
    d.va = v / 2 ^ 12 % 2 ^ 35 * 4096 ∧ d.size = 2 ^ (12 + v / 2 ^ 47 % 32) ∧ d.va % d.size = 0 ∧ donationBars s p d = false) ∧
  (∀ (s : State) (p : Part) (m : BitVec 63) (d : Donation), OnePart s p → donationFor s p m.toNat = some d → NoCmds s → s.shoots = [] →
    (Change.give p.vmid d).pinned s = false → (Change.give p.vmid d).answered s = [] →
    ∃ t, exec (.balloonMessage p.vmid m) s = .next t ∧ t.mem = s.mem ∧ t.shoots = [] ∧
      (t.mbx (p.bmbx / 256) (p.bmbx % 256)).msgs = (s.mbx (p.bmbx / 256) (p.bmbx % 256)).msgs.drop 1 ∧
      t.part? p.vmid = some { d.pieces.foldl (fun q r => unmapRange (locOff r.1) r.2 q) p with
        balloon := p.balloon ++ d.blocks, donations := p.donations ++ [d], donated := p.donated + (d.blocks.map (heldBy s)).sum }) ∧
  (∀ (s : State) (p : Part) (m : BitVec 63), OnePart s p → m.toNat / 2 ^ 60 % 8 = 1 → donationFor s p m.toNat = none →
    ∃ t, exec (.balloonMessage p.vmid m) s = .next t ∧ t.part? p.vmid = some { p with malformed := p.malformed + 1 } ∧ t.me = s.me ∧ t.mem = s.mem) ∧
  (∀ (s : State) (p : Part) (m : BitVec 63) (d : Donation), OnePart s p → m.toNat / 2 ^ 60 = 2 → m.toNat / 2 ^ 52 % 256 = 0 → m.toNat % 4096 = 0 → m.toNat / 2 ^ 47 % 32 ≤ 20 →
    d.va = m.toNat / 2 ^ 12 % 2 ^ 35 * 4096 → d.size = 2 ^ (12 + m.toNat / 2 ^ 47 % 32) → d.va % d.size = 0 → p.donations = [d] →
    ∃ t q, exec (.balloonMessage p.vmid m) s = .next t ∧ t.me = s.me ∧ t.mem = s.mem ∧ t.part? p.vmid = some q ∧ q.donations = [] ∧
      q.balloon = p.balloon.filter (fun b => !d.blocks.contains b) ∧ q.pages = p.pages ++ d.pieces.map (fun r => ⟨locOff r.1, r.2, true, false⟩) ∧ q.nominal = p.nominal + d.size / 4096) ∧
  (∀ (s : State), Sound s → (s.mem.vers.map (·.id)).Nodup → (∀ v ∈ s.mem.vers, v.acc = none) → ∃ t, exec .versionFold s = .next t ∧ t.me = s.me ∧
    t.mem.vers = s.mem.vers.map (fun v => { v with cells := v.cells.filter fun x => !foldable s v x }) ∧
    (∀ y, (∀ v ∈ s.mem.vers, ∀ x ∈ v.cells, x.loc = y → foldable s v x = false) → readBase t.mem y = readBase s.mem y) ∧
    ∀ v ∈ s.mem.vers, ∀ x, cellAt x.loc v.cells = some x → foldable s v x = true →
      (∀ u ∈ s.mem.vers, u ≠ v → (∃ c ∈ u.cells, c.loc = x.loc ∧ foldable s u c = true) → verLt u v = true ∧ verLt v u = false) →
      (∀ b u, s.mem.baseVer.find? (·.1 == x.loc) = some (x.loc, b) → s.mem.ver? b = some u → verLt u v = true) → readBase t.mem x.loc = x.byte) ∧
  (∀ (s : State) (p : Part) (n : Nat), OnePart s p → exec (.quotaEnlargement p.vmid (some n)) s =
      .next { s with parts := s.parts.map (fun q => if q.vmid = p.vmid then { p with quota := p.quota + min n (unassigned s p.dies), alerted := false } else q), last := .event }) ∧
  (∀ (s : State) (l : List Nat), l ≠ [] → (∀ d ∈ l, unassigned s l ≤ dieFree s d * l.length) ∧ ∃ d ∈ l, unassigned s l = dieFree s d * l.length) ∧
  (∀ (s : State) (p : Nat), exec (.quotaEnlargement p none) s = .next { s with last := .event }) ∧
  (∀ (s : State) (e : MemErr), ∃ t l, exec (.memoryError e) s = .next t ∧ t.errors = s.errors ++ [l] ∧ l.loc = e.loc ∧ l.corrected = e.corrected ∧ l.time = s.ptp ∧
    (e.corrected = true → t = { s with errors := t.errors, fresh := t.fresh, last := .event }) ∧
    (e.corrected = false → e.len ≠ 0 → (∀ i, i < e.len → t.mem.poison.contains (unitOf (e.loc + i)) = true ∧ ((e.stage = 1 ∨ e.stage = 2) → (unitOf (e.loc + i), e.stage) ∈ t.mem.stages)) ∧
      t.mem.base = s.mem.base ∧ (∀ c ∈ t.ctxs, ∀ p ∈ c.priv, ∀ x ∈ p.cells, e.loc ≤ x.loc → x.loc < e.loc + e.len → x.poison = true) ∧
      ∀ v ∈ t.mem.vers, ∀ x ∈ v.cells, e.loc ≤ x.loc → x.loc < e.loc + e.len → x.poison = true)) ∧
  (∀ (s : State) (core g : Nat), (∀ c ∈ s.ctxs, c.life = .vacant) → ∃ t, exec (.selfTest (.granule core g) true) s = .next t ∧ core * 48 + g ∈ t.retired ∧ t.me = s.me ∧ t.mem = s.mem) ∧
  (∀ (s : State) (l : Link), s.links.find? (·.port == l.port) = some l → l.lost = false → l.faulty ≤ 5 →
    ∃ t, exec (.selfTest (.lane l.port) true) s = .next t ∧ t.me = s.me ∧ t.mem = s.mem ∧
      t.links.find? (·.port == l.port) = some { l with faulty := l.faulty + 1, lanes := if l.faulty ≤ 3 then 4 else 2 }) ∧
  (∀ (s : State) (r : MapReq) (p : Part), s.part? r.part = some p → (s.shoots.any (·.1 == .map r)) = false → overcommits p r = true → ∃ t, exec (.mapRequest r) s = .next t ∧ Says (.overcommit r.part) s t) ∧
  (∀ (s : State) (r : MapReq) (p : Part) (o : Nat) (rule : ScanRule), s.part? r.part = some p → (s.shoots.any (·.1 == .map r)) = false → overcommits p r = false → execFault s r = some (o, rule) →
    ∃ t, exec (.mapRequest r) s = .next t ∧ Says (.scanFail o rule) s t) ∧
  (∀ (s : State) (r : MapReq) (p : Part) (w : PteWrite), Sound s → OnePart s p → r.part = p.vmid → (s.shoots.any (·.1 == .map r)) = false → overcommits p r = false → execFault s r = none → r.writes = [w] → overwrites s r.writes = false →
    ∃ t q, exec (.mapRequest r) s = .next t ∧ t.part? p.vmid = some q ∧ (∃ h ∈ q.pages, h.frame ≤ r.frame ∧ r.frame + r.size ≤ h.frame + h.size) ∧
      readBases t.mem w.loc 8 = leBytes 8 w.entry.toNat ∧ (∀ y, y < w.loc ∨ w.loc + 8 ≤ y → readBase t.mem y = readBase s.mem y) ∧ t.me = s.me) ∧
  (∀ (s : State) (r : ShootReq) (w : PteWrite), Sound s → NoCmds s → (Change.shoot r).pinned s = false → (Change.shoot r).answered s = [] → s.shoots = [] → r.writes = [w] →
    ∃ t, exec (.shootdown r) s = .next t ∧ readBases t.mem w.loc 8 = leBytes 8 w.entry.toNat ∧ (∀ y, y < w.loc ∨ w.loc + 8 ≤ y → readBase t.mem y = readBase s.mem y) ∧ t.shoots = []) ∧
  (∀ (s : State) (r : ShootReq), (Change.shoot r).pinned s = true → (Change.shoot r).answered s = [] → s.shoots = [] →
    exec (.shootdown r) s = .next { s with shoots := [(.shoot r, [])], last := .event }) ∧
  (∀ (s : State) (r : MigrateReq), Sound s → NoCmds s → Alone s → (Change.move r).pinned s = false → (Change.move r).answered s = [] → s.shoots = [] → r.writes = [] → (r.oldFrame + r.size ≤ r.newFrame ∨ r.newFrame + r.size ≤ r.oldFrame) →
    ∃ t, exec (.pageMigration r) s = .next t ∧ (∀ k, k < r.size → readBase t.mem (locPa s.rank r.newFrame + k) = readBase s.mem (locPa s.rank r.oldFrame + k)) ∧
      (∀ y, y < locPa s.rank r.newFrame ∨ locPa s.rank r.newFrame + r.size ≤ y → readBase t.mem y = readBase s.mem y) ∧ t.me.s = s.me.s ∧ t.me.strC = s.me.strC) ∧
  (∀ (s : State) (r : MigrateReq), (Change.move r).pinned s = true → (Change.move r).answered s = [] → s.shoots = [] →
    exec (.pageMigration r) s = .next { s with shoots := [(.move r, [])], last := .event }) ∧
  (∀ (s : State) (b : List Byte), imageStatus s b ≠ 0 → ∃ t, exec (.patchImageLoad b) s = .next t ∧ Says (.status (imageStatus s b)) s t) ∧
  (∀ (s : State) (b : List Byte), imageStatus s b = 0 → ∃ t, exec (.patchImageLoad b) s = .next t ∧ t.outbox = s.outbox ++ [.status 0] ∧ t.mem = s.mem ∧
    t.patches = s.patches ++ [⟨imgEpoch b, (List.range (imgNslot b)).map (imgSlot b), (b.drop (64 + 32 * imgNslot b)).take (imgUlen b)⟩] ∧
    (s.me.life ≠ .vacant → s.me.patchEpoch.toNat < imgEpoch b → t.me.events = s.me.events ||| 0x10#5)) ∧
  (∀ s : State, closeDue s = true → ∃ t, exec .epochTransitionClose s = .next t ∧ (∀ p ∈ t.patches, p.epoch = newestEpoch s) ∧ t.me = s.me ∧ t.mem = s.mem ∧
    (∀ g ∈ t.scanned, g.exec = true → g.legal = [newestEpoch s]) ∧
    ∀ g ∈ s.scanned, g.exec = true → g.legal.contains (newestEpoch s) = false → ∀ r ∈ closeShoots s g, ∃ x ∈ t.shoots, x.1 = .shoot r) ∧
  (∀ s : State, closeDue s = false → exec .epochTransitionClose s = .next { s with last := .event })

/-- Links, frames, the clock, boot and attestation (R185, R284, R366, R389 to R391, R395, R396, R399, R403 to R408): a flit has its fields where R389 lays them; one whose CRC fails is discarded and negatively acknowledged, its error logged as corrected; the next good one is taken with its credits and acknowledged, another only acknowledges, and a negative acknowledge sends again from its flit on; a link retrains to 8, 4 or 2 of its lanes and is lost below 2, logged, its commands left with class 15; a frame with a bad FCS or over 9,216 bytes is counted, a pause frame changes nothing, one that matches an armed bank lands in it, another goes to the ring, of two at once the earlier first; a sent frame leaves with its time, which its descriptor gets; the clock shows what it is set to; a boot takes the flash's image before the host's, stops at its first failing stage with its code, or opens the catalogues, and keeps no earlier state; power removal keeps none; a report is the nonce, the hashes of image and firmware, zeros where the boot did not come to them, epoch, mode, three zero bytes and time, then the identity's signature; the certificates are the device's. That bare flits acknowledge on VC 1 and VC 2 waits for a collective (log 87), the match of a tagged frame and pause (log 36), what a lost link faults (log 82), the values of a context before its first launch (log 16) are the model's choices or readings. -/
def Obligations.LinksClockBoot : Prop :=
  (∀ (l : Link) (vc : Nat) (pay : List Byte), pay.length ≤ 240 → vc ≤ 2 → l.txSeq < 4096 → l.rxSeq < 4096 → let b := flitOf l vc pay
    b.length = 256 ∧ flitGood b = true ∧ leNat (b.take 2) = l.txSeq ∧ leNat ((b.drop 2).take 1) = vc ∧ leNat ((b.drop 3).take 1) = (if l.nak then 2 else 1) ∧
    leNat ((b.drop 4).take 2) = (if l.nak then l.rxSeq else (l.rxSeq + 4095) % 4096) ∧ (∀ i, i < 3 → leNat ((b.drop (6 + 2 * i)).take 2) = l.owed.getD i 0 % 2 ^ 16) ∧
    (b.drop 12).take 240 = pay ++ List.replicate (240 - pay.length) 0#8 ∧ leNat (b.drop 252) = crc32c (b.take 252)) ∧
  (∀ (s : State) (l : Link) (b : List Byte), s.link? l.port = some l → l.lost = false → l.sendQ = [] → l.replay.length < 128 → flitGood b = false →
    ∃ t e, exec (.flitReceive l.port b) s = .next t ∧ e.corrected = true ∧ e.time = s.ptp ∧ t.errors = s.errors ++ [e] ∧ t.me = s.me ∧ t.mem = s.mem ∧
      (0 < l.credits.getD 1 0 → t.outbox = s.outbox ++ [.flit l.port (flitOf { l with nak := true } 1 [])] ∧
        t.link? l.port = some { l with txSeq := (l.txSeq + 1) % 4096, credits := bump l.credits 1 (· - 1), owed := [0, 0, 0], nak := false,
                                       replay := l.replay ++ [(l.txSeq, flitOf { l with nak := true } 1 [])] }) ∧
      (l.credits.getD 1 0 = 0 → t.outbox = s.outbox ∧ t.link? l.port = some { l with nak := true, sendQ := [(1, [])] })) ∧
  (∀ (s : State) (l : Link) (b : List Byte), s.link? l.port = some l → l.lost = false → l.sendQ = [] → l.replay.length < 128 → flitGood b = true → leNat (b.take 2) = l.rxSeq →
    leNat ((b.drop 3).take 1) = 0 → leNat ((b.drop 2).take 1) = 2 → (l.received.filter (·.1 == 2)).length < 64 → 0 < l.credits.getD 1 0 →
    let k := { l with rxSeq := (l.rxSeq + 1) % 4096, credits := (List.range 3).map fun i => l.credits.getD i 0 + leNat ((b.drop (6 + 2 * i)).take 2),
                      received := l.received ++ [(2, (b.drop 12).take 240)] }
    ∃ t, exec (.flitReceive l.port b) s = .next t ∧ t.outbox = s.outbox ++ [.flit l.port (flitOf k 1 [])] ∧ t.me = s.me ∧ t.mem = s.mem ∧ t.errors = s.errors ∧
      t.link? l.port = some { k with txSeq := (l.txSeq + 1) % 4096, credits := bump k.credits 1 (· - 1), owed := [0, 0, 0], nak := false, replay := l.replay ++ [(l.txSeq, flitOf k 1 [])] }) ∧
  (∀ (s : State) (l : Link) (b : List Byte), s.link? l.port = some l → l.lost = false → l.sendQ = [] → flitGood b = true →
    (leNat (b.take 2) ≠ l.rxSeq ∨ 64 ≤ (l.received.filter (·.1 == leNat ((b.drop 2).take 1))).length) → let q := leNat ((b.drop 4).take 2) % 4096
    (leNat ((b.drop 3).take 1) = 0 → exec (.flitReceive l.port b) s = .next { s with last := .event }) ∧
    (leNat ((b.drop 3).take 1) = 1 → ∃ t, exec (.flitReceive l.port b) s = .next t ∧ t = { s with links := t.links, last := .event } ∧
      t.link? l.port = some { l with replay := l.replay.filter fun x => decide (2048 ≤ (q + 4096 - x.1) % 4096) }) ∧
    (leNat ((b.drop 3).take 1) = 2 → exec (.flitReceive l.port b) s = .next { s with
      outbox := s.outbox ++ (l.replay.filter fun x => decide ((x.1 + 4096 - q) % 4096 < 2048)).map (fun x => .flit l.port x.2), last := .event })) ∧
  (∀ (s : State) (p : Nat) (b : List Byte) (n : Nat), (∀ l, s.link? p = some l → l.lost = true) → exec (.flitReceive p b) s = .next { s with last := .event } ∧
    exec (.linkRetrain p n) s = .next { s with last := .event } ∧ exec (.linkLoss p) s = .next { s with last := .event }) ∧
  (∀ (s : State) (l : Link) (good : Nat), s.link? l.port = some l → l.lost = false → let n := min good (8 - l.faulty)
    2 ≤ n → ∃ t, exec (.linkRetrain l.port good) s = .next t ∧ t = { s with links := t.links, last := .event } ∧
      t.link? l.port = some { l with lanes := if 8 ≤ n then 8 else if 4 ≤ n then 4 else 2, faulty := 8 - n }) ∧
  (∀ (s : State) (l : Link), s.link? l.port = some l → l.lost = false → NoCmds s → (∀ c ∈ s.ctxs, c.priv = [] ∧ c.pend = []) →
    (∃ t, exec (.linkLoss l.port) s = .next t ∧ t.link? l.port = some { l with lost := true } ∧ t.errors.length = s.errors.length + 1 ∧ t.mem = s.mem) ∧
    ∀ good, min good (8 - l.faulty) < 2 → ∃ t, exec (.linkRetrain l.port good) s = .next t ∧ t.link? l.port = some { l with lost := true, faulty := 8 - min good (8 - l.faulty) } ∧
      t.errors.length = s.errors.length + 1 ∧ t.mem = s.mem) ∧
  (∀ (s : State) (l : Link) (x : Cmd), s.link? l.port = some l → l.lost = false → s.me.life ≠ .vacant → s.ring = [] → s.me.cmds = [x] → s.me.priv = [] → s.me.pend = [] → cmdBehind s l.port x = true →
    x.tape = none → (s.me.tag x.tag).fault = none →
    ∃ t g, exec (.linkLoss l.port) s = .next t ∧ t.me.cmds = [] ∧ (t.me.tag x.tag).fault = some g ∧ g.fault.cls = 15 ∧ t.mem = s.mem) ∧
  (∀ (s : State) (f : EthFrame), sameTime f s.inputs = [] →
    ((f.fcsOk = false ∨ 9216 < f.bytes.length) → exec (.frameReceive f) s = .next { s with rxDropped := s.rxDropped + 1, last := .event }) ∧
    (f.fcsOk = true → f.bytes.length ≤ 9216 → isPause f = true → exec (.frameReceive f) s = .next { s with last := .event }) ∧
    (f.fcsOk = true → f.bytes.length ≤ 9216 → isPause f = false → armedFor s f = none → exec (.frameReceive f) s = .next { s with rxRing := s.rxRing ++ [f], last := .event })) ∧
  (∀ (s : State) (f g : EthFrame), s.inputs = [.frameReceive g] → g.die = f.die → g.time < f.time → g.fcsOk = true → g.bytes.length ≤ 9216 → isPause g = false → armedFor s g = none →
    exec (.frameReceive f) s = .next { s with inputs := [.frameReceive f], rxRing := s.rxRing ++ [g], last := .event }) ∧
  (∀ (s : State) (f : EthFrame) (a : Armed), Sound s → sameTime f s.inputs = [] → f.fcsOk = true → armedFor s f = some (s.me.launch, a) → s.me.core ≠ 9 → f.bytes.length ≤ 9216 → isPause f = false →
    ∃ t, exec (.frameReceive f) s = .next t ∧ readBases t.mem (bankLoc s.rank s.me a.bank 64) f.bytes.length = f.bytes ∧
      leNat (readBases t.mem (bankLoc s.rank s.me a.bank 0) 8) = f.time.toNat ∧ leNat (readBases t.mem (bankLoc s.rank s.me a.bank 8) 2) = f.bytes.length ∧
      t.me.landed = s.me.landed ++ [a.bank] ∧ a ∉ t.me.arm ∧ t.me.events = s.me.events ||| 4#5 ∧ t.me.irq = s.me.irq ||| 4#7 ∧
      t.me = { s.me with arm := t.me.arm, landed := t.me.landed, events := t.me.events, irq := t.me.irq, irqAt := t.me.irqAt }) ∧
  (∀ (s : State) (die d : Nat) (b : List Byte), Sound s → (9216 < b.length → exec (.frameTransmit die b d) s = .next { s with last := .event }) ∧
    (b.length ≤ 9216 → ∃ t, exec (.frameTransmit die b d) s = .next t ∧ t.outbox = s.outbox ++ [.frame die b s.ptp] ∧ readBases t.mem (locPa s.rank d) 8 = leBytes 8 s.ptp.toNat ∧
      (∀ y, y < locPa s.rank d ∨ locPa s.rank d + 8 ≤ y → readBase t.mem y = readBase s.mem y) ∧ t.me = s.me)) ∧
  (∀ (s : State) (ns : Nat), ∃ t, exec (.ptpClockDiscipline ns) s = .next t ∧ t.ptp = BitVec.ofNat 64 ns ∧ t = { s with ptpBase := t.ptpBase, last := .event }) ∧
  (∀ s : State, ∃ t, exec (.resetRelease ⟨none, none⟩) s = .next t ∧ t.bootstat = BitVec.ofNat 64 (2 * 2 ^ 24 + 1 * 2 ^ 16) ∧ t.me = State.reset.me ∧ t.mem.base = [] ∧ t.nodes = [] ∧
    t.powered = true ∧ t.evidence = []) ∧
  (∀ (s : State) (b : BootImage) (h : Option BootImage), exec (.resetRelease ⟨some b, h⟩) s = exec (.resetRelease ⟨none, some b⟩) s) ∧
  (∀ b : BootImage, (Config.signatureOk rootKey b.bytes [] = false → bootFailure b = some (3, 2, 0)) ∧
    (Config.signatureOk rootKey b.bytes [] = true → ((b.formatOk = false ∨ 2 < b.mode) → bootFailure b = some (3, 3, 0)) ∧
      (b.formatOk = true → b.mode ≤ 2 → (b.partOk = false → bootFailure b = some (3, 4, 0)) ∧ (b.partOk = true → (b.firmwareOk = false → bootFailure b = some (4, 5, 0)) ∧
        (b.firmwareOk = true → (∀ d, b.badDie = some d → bootFailure b = some (5, 6, d.val)) ∧
          (b.badDie = none → bootFailure b = if b.multiDomain = true ∧ 4095 < b.rank then some (6, 3, 0) else none)))))) ∧
  (∀ (s : State) (b : BootImage) (st e d : Nat), bootFailure b = some (st, e, d) → ∃ t, exec (.resetRelease ⟨none, some b⟩) s = .next t ∧
    t.bootstat = BitVec.ofNat 64 (st * 2 ^ 24 + e * 2 ^ 16 + d * 2 ^ 14) ∧ t.parts = [] ∧ t.mem.base = [] ∧ catalogueOpen t = false ∧
    t.evidence = (if 4 ≤ st then [Config.sha512 b.bytes] else []) ++ if 5 ≤ st then [Config.sha512 (Config.firmwareOf b.bytes)] else []) ∧
  (∀ (s : State) (b : BootImage), bootFailure b = none → b.patch = none → ∃ t, exec (.resetRelease ⟨none, some b⟩) s = .next t ∧ catalogueOpen t = true ∧ t.rank = b.rank ∧
    t.ptp = BitVec.ofNat 64 b.ptp ∧ t.parts.length = (if s.lx9601 then 1 else if b.mode = 0 then 1 else if b.mode = 1 then 2 else 4) ∧ t.me = State.reset.me ∧ t.mem.base = [] ∧
    t.nodes = [] ∧ t.ring = [] ∧ t.links.length = (if s.lx9601 then 5 else 18) ∧ t.routes = b.routes.take 4608 ∧
    t.evidence = [Config.sha512 b.bytes, Config.sha512 (Config.firmwareOf b.bytes)]) ∧
  (∀ (s : State) (b : BootImage) (img : List Byte), bootFailure b = none → b.patch = some img → ∃ t, exec (.resetRelease ⟨none, some b⟩) s = .next t ∧
    (imageStatus (bootSetup b (afterReset s)) img = 0 → catalogueOpen t = true ∧ ∀ p ∈ t.patches, p.epoch = imgEpoch img) ∧
    (imageStatus (bootSetup b (afterReset s)) img ≠ 0 → catalogueOpen t = false ∧ t.bootstat.toNat / 2 ^ 16 = 0x707)) ∧
  (State.reset.me.scaleRcp = 0x3F800000#32 ∧ State.reset.me.weights = 0x0101#16 ∧ State.reset.me.kdep = 256 ∧ State.reset.me.cix = 0 ∧ (∀ r, rdS State.reset.me r = 0#64) ∧
    (∀ r, rdG State.reset.me r = 0#64) ∧ (∀ r, rdL State.reset.me r = 0#64) ∧ (∀ r, rdF State.reset.me r = 0#32) ∧ State.reset.me.status = 0#2 ∧ State.reset.me.frame = none) ∧
  (∀ s : State, ∃ t, exec .powerRemoval s = .next t ∧ t.powered = false ∧ t.mem = Mem.empty ∧ t.me = State.reset.me ∧ t.ring = [] ∧ t.nodes = []) ∧
  (∀ (s : State) (nonce : List Byte), nonce.length = 32 → (∀ e ∈ s.evidence, e.length = 64) →
    ∃ t r, exec (.attestationRequest nonce) s = .next t ∧ Says (.report r) s t ∧ r.length = 308 ∧ r.take 32 = nonce ∧
      (r.drop 32).take 64 = s.evidence.getD 0 (List.replicate 64 0#8) ∧ (r.drop 96).take 64 = s.evidence.getD 1 (List.replicate 64 0#8) ∧
      (r.drop 160).take 4 = leBytes 4 (newestEpoch s) ∧ (r.drop 164).take 4 = [BitVec.ofNat 8 s.partMode, 0#8, 0#8, 0#8] ∧ (r.drop 168).take 8 = leBytes 8 s.ptp.toNat ∧
      r.drop 176 = Config.identitySign (r.take 176)) ∧
  (∀ s : State, exec .certificateRequest s = .next { s with outbox := s.outbox ++ [.certs Config.certificate], last := .event })

/-- The host's and the general cores' side (R7, R8, R141, R142, R305, R337 to R339, R347, R384 to R388, R403): a submitted slip becomes the node of the lowest free index, which RESULT gives, else −1 with the catalogues closed or full, −2 for a bad word or slip, −3 for an ASID not registered (RESULT stands at once, log 57); a doorbell latches the HOST source of the instance it names; a host write stands as versions at device scope with its bytes, published at once (log 34) or, short of room, in turn (log 127), known to the link's later submissions; an address with no mapping in force is answered so; a confirmed revocation no longer stands; a lost host link leaves the copies and loads that need it poisoned; registers take what is written, read-only ones keep theirs, write-only ones read zero; a word with reserved bits binds nothing (log 80); SEND and RECV act as MBX.SEND and MBX.TRY, a SEND with no room or right changing nothing (log 77), and a general core but core 0 is held until the catalogues open; a journal unit commits records in sequence below its limit and replays them, the fourth read taking the record (log 35, log 114); an ASID and a communicator are registered. -/
def Obligations.HostSide : Prop :=
  (∀ (s : State) (f p : Nat) (w : W32) (i : Nat), let b := padTo 256 (s.subPort f p).slip
    catalogueOpen s = true → w.toNat / 4 % 2 ^ 14 = 0 → (partDies s (fnVmid f)).contains (w.toNat % 4) = true → (s.fnOf f).asids.contains (w.toNat / 2 ^ 16) = true →
    slipBad s.devCount b = false → i < 16384 → (∀ n ∈ s.nodes, n.die = w.toNat % 4 → n.idx ≠ i) → (∀ j, j < i → ∃ n ∈ s.nodes, n.die = w.toNat % 4 ∧ n.idx = j) →
    ∃ t n, exec (.submit f p w) s = .next t ∧ (t.subPort f p).result = BitVec.ofNat 64 i ∧ t.node? (w.toNat % 4) i = some n ∧ n.asid = w.toNat / 2 ^ 16 ∧ n.vmid = fnVmid f ∧ n.fn = f ∧
      n.code = BitVec.ofNat 64 (leNat (b.take 8)) ∧ n.port = some p ∧ t.me = s.me ∧ t.mem = s.mem) ∧
  (∀ (s : State) (f p : Nat) (w : W32), let b := padTo 256 (s.subPort f p).slip
    (catalogueOpen s = false ∨ (w.toNat / 4 % 2 ^ 14 = 0 ∧ (partDies s (fnVmid f)).contains (w.toNat % 4) = true ∧ (s.fnOf f).asids.contains (w.toNat / 2 ^ 16) = true ∧
      slipBad s.devCount b = false ∧ ∀ j, j < 16384 → ∃ n ∈ s.nodes, n.die = w.toNat % 4 ∧ n.idx = j)) →
    ∃ t, exec (.submit f p w) s = .next t ∧ (t.subPort f p).result = -1#64 ∧ t = { s with subPorts := t.subPorts, last := .event }) ∧
  (∀ (s : State) (f p : Nat) (w : W32), catalogueOpen s = true → (w.toNat / 4 % 2 ^ 14 ≠ 0 ∨ (partDies s (fnVmid f)).contains (w.toNat % 4) = false ∨
      ((s.fnOf f).asids.contains (w.toNat / 2 ^ 16) = true ∧ slipBad s.devCount (padTo 256 (s.subPort f p).slip) = true)) →
    ∃ t, exec (.submit f p w) s = .next t ∧ (t.subPort f p).result = -2#64 ∧ t = { s with subPorts := t.subPorts, last := .event }) ∧
  (∀ (s : State) (f p : Nat) (w : W32), catalogueOpen s = true → w.toNat / 4 % 2 ^ 14 = 0 → (partDies s (fnVmid f)).contains (w.toNat % 4) = true →
    (s.fnOf f).asids.contains (w.toNat / 2 ^ 16) = false → ∃ t, exec (.submit f p w) s = .next t ∧ (t.subPort f p).result = -3#64 ∧ t = { s with subPorts := t.subPorts, last := .event }) ∧
  (∀ (s : State) (f : Nat) (w : W64), (2 ^ 48 ≤ w.toNat → exec (.doorbell f w) s = .next { s with last := .event }) ∧ (w.toNat < 2 ^ 48 →
    ∃ t, exec (.doorbell f w) s = .next t ∧ t.mem = s.mem ∧
    t.me.irq = (if s.me.life ≠ .vacant ∧ s.me.vmid = f % 8 ∧ s.me.nodeDie = w.toNat / 2 ^ 14 % 4 ∧ s.me.nodeIdx = w.toNat % 2 ^ 14 ∧ s.me.vrank.toNat = w.toNat / 2 ^ 16 % 2 ^ 32
      then s.me.irq ||| 0x40#7 else s.me.irq) ∧ t.me = { s.me with irq := t.me.irq, irqAt := t.me.irqAt })) ∧
  (∀ (s : State) (f a : Nat) (p : W64) (b : List Byte), s.hostWait = [] →
    ((fnExists s f = false ∨ (s.fnOf f).asids.contains a = false ∨ spaceOf p ≠ .glb) → exec (.hostBar2Write f a p b) s = .next { s with last := .event }) ∧
    (fnExists s f = true → (s.fnOf f).asids.contains a = true → spaceOf p = .glb →
      ((unitFits (fnCtx s f a) [(p, b)] s = false ∨ overSpilled s (bar2Now f a p b s) = true) →
        exec (.hostBar2Write f a p b) s = .next { s with hostWait := [.hostBar2Write f a p b], last := .event }) ∧
      (unitFits (fnCtx s f a) [(p, b)] s = true → overSpilled s (bar2Now f a p b s) = false →
        ∃ t, exec (.hostBar2Write f a p b) s = .next t ∧ t.hostPubs = s.hostPubs ++ [(f / 8, s.stamp + 1)] ∧ t.me.s = s.me.s ∧ t.me.strC = s.me.strC ∧ t.hostWait = [] ∧
          (t.mem.pubs.any fun x => x.stamp == s.stamp + 1 && x.scope == .dev) = true ∧
          ∀ ss, s.access (fnCtx s f a) .write p b.length = .ok ss → unitMay s ss = true → (segLocs ss).Nodup → (∀ x ∈ segLocs ss, isSram x = false) →
            ∀ (i x : Nat), i < b.length → (segLocs ss)[i]? = some x →
              ∃ v ∈ t.mem.vers, v.stamp = s.stamp + 1 ∧ v.scope = .dev ∧ v.acc = none ∧ ∃ c, cellAt x v.cells = some c ∧ c.byte = b.getD i 0#8))) ∧
  (∀ (s : State) (f a : Nat) (va : W64), unifiedPlace s (fnCtx s f a) va.toNat = none →
    ∃ t, exec (.hostTranslationRequest f a va) s = .next t ∧ Says (.answer f a va false 0 0) s t) ∧
  (∀ (s : State) (f a x : Nat) (va : W64), unifiedPlace s (fnCtx s f a) va.toNat = some x →
    (∃ k r, unifiedAt s (fnCtx s f a) k va.toNat = .ok r ∧ r.loc = x) ∧
    ∃ t perm, exec (.hostTranslationRequest f a va) s = .next t ∧ t.outbox = s.outbox ++ [.answer f a va true x perm] ∧ perm < 8 ∧ t.answers = s.answers ++ [(f, a, va)] ∧
      (perm % 2 = 1 ↔ ∃ r, unifiedAt s (fnCtx s f a) .read va.toNat = .ok r) ∧ (perm / 2 % 2 = 1 ↔ ∃ r, unifiedAt s (fnCtx s f a) .write va.toNat = .ok r) ∧
      (perm / 4 = 1 ↔ ∃ r, unifiedAt s (fnCtx s f a) .exec va.toNat = .ok r)) ∧
  (∀ (s : State) (n : Nat), ∃ t, exec (.revocationConfirm n) s = .next t ∧ n ∉ t.revoking ∧ (∀ k ∈ s.revoking, k ≠ n → k ∈ t.revoking) ∧ t = { s with revoking := t.revoking, last := .event }) ∧
  (∀ (s : State) (x : Cmd), s.ring = [] → s.me.life ≠ .vacant → s.me.cmds = [x] → x.isCol = false → x.kind ≠ .cpBb → x.kind ≠ .cpFill → cmdOnHost s x = true →
    x.tape = none → (s.me.tag x.tag).fault = none →
    ∃ t g, exec (.hostLinkDown (s.me.die / 2)) s = .next t ∧ t.me.cmds = [] ∧ (t.me.tag x.tag).fault = some g ∧ g.fault.cls = 14 ∧ t.mem = s.mem) ∧
  (∀ (s : State), s.ring = [] → s.me.life ≠ .vacant → s.me.cmds = [] →
    exec (.hostLinkDown (s.me.die / 2)) s = .next { s with me := { s.me with pend := s.me.pend.map hostWord }, last := .event }) ∧
  (∀ (s : State) (n : Nat), (∀ c ∈ s.ctxs, c.die / 2 ≠ n) → exec (.hostLinkDown n) s = .next { s with last := .event }) ∧
  (∀ (s : State) (d k : Nat) (v : W64), (∃ t, exec (.registerWrite (.jlimit d k) v) s = .next t ∧ t.jrn d k = { s.jrn d k with limit := v } ∧ readReg t (.dev (.jlimit d k)) = v ∧
      t = { s with journals := t.journals, last := .event }) ∧
    (∃ t, exec (.registerWrite (.jmode d k) v) s = .next t ∧ t.jrn d k = { s.jrn d k with mode := if v.toNat % 4 = 3 then 0#2 else v.setWidth 2 } ∧ t = { s with journals := t.journals, last := .event }) ∧
    ∀ i, ∃ t, exec (.registerWrite (.jdraw d k i) v) s = .next t ∧ t = { s with journals := t.journals, last := .event } ∧
      t.jrn d k = { s.jrn d k with draw := drawClear ((s.jrn d k).draw.set i.val v) }) ∧
  (∀ draw : List W64, draw ≠ [] → ((drawClear draw).getD 0 0#64).toNat / 2 % 2 ^ 47 = 0 ∧ ((drawClear draw).getD 0 0#64).toNat / 2 ^ 48 = (draw.getD 0 0#64).toNat / 2 ^ 48 ∧
    ((drawClear draw).getD 0 0#64).toNat % 2 = (draw.getD 0 0#64).toNat % 2 ∧ (drawClear draw).drop 1 = draw.drop 1) ∧
  (∀ (s : State) (f p : Nat) (v : W64), (∃ t, exec (.registerWrite (.compvec f p) v) s = .next t ∧ t.subPort f p = { s.subPort f p with compvec := v.setWidth 6 } ∧
      t = { s with subPorts := t.subPorts, last := .event }) ∧
    (∃ t, exec (.registerWrite (.defvec f) v) s = .next t ∧ t.fnOf f = { s.fnOf f with defVec := v.setWidth 6 } ∧ t = { s with fns := t.fns, last := .event }) ∧
    ∀ o, o + 8 ≤ 256 → ∃ t, exec (.registerWrite (.slip f p o) v) s = .next t ∧ t = { s with subPorts := t.subPorts, last := .event } ∧
      ((t.subPort f p).slip.drop o).take 8 = leBytes 8 v.toNat ∧ ∀ j, j < 256 → (j < o ∨ o + 8 ≤ j) → (t.subPort f p).slip.getD j 0#8 = (s.subPort f p).slip.getD j 0#8) ∧
  (∀ (s : State) (r : DevReg) (v : W64), (match r with | .jhead _ _ | .result _ _ | .evcount _ | .bootstat => True | _ => False) → exec (.registerWrite r v) s = .next { s with last := .event }) ∧
  (∀ (s : State) (f p o d k : Nat), readReg s (.dev (.slip f p o)) = 0#64 ∧ readReg s (.submit f p) = 0#64 ∧ readReg s (.doorbell f) = 0#64 ∧ readReg s (.jbase d k) = (s.jrn d k).base ∧
    readReg s (.dev (.compvec f p)) = (s.subPort f p).compvec.setWidth 64 ∧ readReg s (.dev (.defvec f)) = (s.fnOf f).defVec.setWidth 64 ∧
    readReg s (.dev (.result f p)) = (s.subPort f p).result ∧ readReg s (.dev .bootstat) = s.bootstat) ∧
  (∀ (s : State) (d b : Nat) (w : W64), (w.toNat % 64 ≠ 0 → exec (.mailboxBind d b w) s = .next { s with last := .event }) ∧
    (w.toNat % 64 = 0 → ∃ t, exec (.mailboxBind d b w) s = .next t ∧ t.mbx d b = { s.mbx d b with binding := w } ∧ t = { s with mailboxes := t.mailboxes, last := .event })) ∧
  (∀ (s : State) (d c a b : Nat) (ws : List (W64 × Byte)) (v : W64) (m : Mbx), s.mbx (b / 256) (b % 256) = m → s.hostWait = [] →
    ((gpMaySend s d m = false ∨ gpHeld s c = true ∨ 16 ≤ m.msgs.length) → exec (.send d c a b ws v) s = .next { s with last := .event }) ∧
    (gpMaySend s d m = true → gpHeld s c = false → m.msgs.length < 16 →
      ((sendFits d c a ws s = false ∨ overSpilled s (sendNow d c a b ws v s) = true) → exec (.send d c a b ws v) s = .next { s with hostWait := [.send d c a b ws v], last := .event }) ∧
      (sendFits d c a ws s = true → overSpilled s (sendNow d c a b ws v s) = false → ∃ t, exec (.send d c a b ws v) s = .next t ∧
        (t.mbx (b / 256) (b % 256)).msgs = m.msgs ++ [v &&& 0x7FFFFFFFFFFFFFFF#64] ∧ t.hostWait = [] ∧ t.me.s = s.me.s ∧ t.me.strC = s.me.strC))) ∧
  (∀ (s : State) (d c b : Nat) (v : W64) (r : List W64), gpHeld s c = false → gpReceives s d c (s.mbx (b / 256) (b % 256)) = true → (s.mbx (b / 256) (b % 256)).msgs = v :: r →
    ∃ t, exec (.recv d c b) s = .next t ∧ t.outbox = s.outbox ++ [.mmioRead d v] ∧ (t.mbx (b / 256) (b % 256)).msgs = r ∧ t.me = s.me ∧ t.mem = s.mem) ∧
  (∀ (s : State) (d c b : Nat), (gpHeld s c = true ∨ gpReceives s d c (s.mbx (b / 256) (b % 256)) = false ∨ (s.mbx (b / 256) (b % 256)).msgs = []) →
    ∃ t, exec (.recv d c b) s = .next t ∧ Says (.mmioRead d 0x8000000000000000#64) s t) ∧
  (∀ (s : State) (c : Nat), gpHeld s c = true ↔ c ≠ 0 ∧ catalogueOpen s = false) ∧
  (∀ (s : State) (d k : Nat) (v : W64), ∃ t, exec (.jbase d k v) s = .next t ∧ t.jrn d k = { s.jrn d k with base := v, head := v, lastSeq := none } ∧ t = { s with journals := t.journals, last := .event }) ∧
  (∀ (s : State) (d k : Nat) (v : BitVec 3), ∃ t, exec (.jstat d k v) s = .next t ∧ t.jrn d k = { s.jrn d k with stat := (s.jrn d k).stat &&& ~~~v } ∧ t = { s with journals := t.journals, last := .event }) ∧
  (∀ (s : State) (d c k : Nat) (v : W64) (j : Jrn), s.jrn d k = j → let draw := drawClear (j.draw.take 3 ++ [v])
    (gpHeld s c = true → exec (.jdrawCommit ⟨d, c⟩ k v) s = .next { s with last := .event }) ∧
    (gpHeld s c = false → j.mode ≠ 1#2 → ∃ t, exec (.jdrawCommit ⟨d, c⟩ k v) s = .next t ∧ t.jrn d k = { j with draw := draw } ∧ t = { s with journals := t.journals, last := .event }) ∧
    (gpHeld s c = false → j.mode = 1#2 → (drawSeq draw ≠ nextSeq j ∨ j.limit.toNat < j.head.toNat + 32) →
      ∃ t, exec (.jdrawCommit ⟨d, c⟩ k v) s = .next t ∧ t = { s with journals := t.journals, last := .event } ∧
        t.jrn d k = { j with draw := draw, stat := j.stat ||| (if drawSeq draw ≠ nextSeq j then 4#3 else 0#3) ||| (if j.limit.toNat < j.head.toNat + 32 then 1#3 else 0#3) }) ∧
    (gpHeld s c = false → j.mode = 1#2 → drawSeq draw = nextSeq j → j.head.toNat + 32 ≤ j.limit.toNat →
      ∃ t, exec (.jdrawCommit ⟨d, c⟩ k v) s = .next t ∧ t.jrn d k = { j with draw := draw, head := j.head + 32#64, lastSeq := some (nextSeq j) } ∧
        t.jrnPend = s.jrnPend ++ [(d, c, j.head, draw.flatMap fun x => leBytes 8 x.toNat)] ∧ t.me = s.me)) ∧
  (∀ (s : State) (d k : Nat) (j : Jrn), s.jrn d k = j → j.mode = 2#2 → j.head.toNat < j.limit.toNat →
    ∃ t, exec (.jdrawReplay d ⟨k, 3⟩) s = .next t ∧ (t.jrn d k).head = j.head + 32#64 ∧ t.outbox = s.outbox ++ [.mmioRead d ((t.jrn d k).draw.getD 3 0#64)] ∧ t.me = s.me ∧ t.mem = s.mem ∧
      ∀ c bs, s.jrnPend = [(d, c, j.head, bs)] → (t.jrn d k).draw = drawClear ((List.range 4).map fun i => BitVec.ofNat 64 (leNat ((bs.drop (8 * i)).take 8)))) ∧
  (∀ (s : State) (d k : Nat) (w : Fin 4) (j : Jrn), s.jrn d k = j → (j.mode ≠ 2#2 ∨ (w ≠ 3 ∧ j.head.toNat < j.limit.toNat)) →
    ∃ t, exec (.jdrawReplay d ⟨k, w⟩) s = .next t ∧ Says (.mmioRead d (j.draw.getD w.val 0#64)) s t) ∧
  (∀ (s : State) (d k : Nat) (w : Fin 4) (j : Jrn), s.jrn d k = j → j.mode = 2#2 → j.limit.toNat ≤ j.head.toNat →
    ∃ t, exec (.jdrawReplay d ⟨k, w⟩) s = .next t ∧ (t.jrn d k).stat = j.stat ||| 2#3 ∧ t.outbox = s.outbox ++ [.mmioRead d 0#64] ∧ t.me = s.me ∧ t.mem = s.mem) ∧
  (∀ (s : State) (f a : Nat), (fnExists s f = false → exec (.asidRegistration f a) s = .next { s with last := .event }) ∧
    (fnExists s f = true → ∃ t, exec (.asidRegistration f a) s = .next t ∧ (t.fnOf f).asids.contains a = true ∧ (t.spaces.any fun x => x.asid == a && x.vmid == f % 8) = true ∧
      t = { s with fns := t.fns, spaces := t.spaces, last := .event })) ∧
  (∀ (s : State) (d e : Nat) (l : List Nat), ∃ t, exec (.communicatorTableSet d e l) s = .next t ∧ t.comm d e = l ∧ t = { s with comms := t.comms, last := .event })

/-! ## Every form completes -/


/-! ## Every form completes -/

/-- Every instruction word executes normally where the spec says it does (R18, R77, R104 to R186, R190 to R236): under the conditions of its rules on the state and the operands alone, exec answers a next state in which the instruction has retired, or, of VST and RT.ST, has issued to retire later: it has neither trapped nor waited. TRAP and BRK, whose effect is to take a trap, take it outside a handler. What the next state holds stands in the statements about each instruction; what a copy has moved and left on a differentiable page when it completes stands in CommandsMove, of LD and ST there in DifferentiableAccesses. -/
def Obligations.WordFormsComplete : Prop :=
  (∀ (i : Instr) (s : State), Fits i s → ∃ t, exec i s = .next t ∧ (t.last = .retired ∨ t.last = .issued)) ∧
  (∀ (a : SReg) (s : State), s.me.sup = false → (∃ t, exec (.trap a) s = .next t ∧ t.last = .trapped) ∧ ∃ t, exec .brk s = .next t ∧ t.last = .trapped)


/-! ## What commands move -/

/-- What copies and collectives move (R57, R159, R162 to R166, R173, R181, R307, R310 to R318). A copy moves its rows in order, element by element as the arrangement says: CP.IN, CP.GTH into the bank, CP.OUT, CP.SCT as writes of the command, CP.BB from bank to bank, a gathered or scattered row at its signed index; a collective writes the elements the canonical tree, the shares or the root give. On differentiable pages, FP32 only: a FWD CP.OUT appends a record of the old tile and then moves; a REV CP.IN accumulates each bank element into its cell; a REV CP.OUT pops its record, or keeps one it left incomplete until it is done, copies every cell into the bank and then clears every cell and restores every element; CP.GTH and CP.SCT are an access fault with QUAL 5, at issue or at the row that gets there. That all elements move in the completing step is the model's choice (log 14). -/
def Obligations.CommandsMove : Prop :=
  (∀ (s u : State) (c : Cmd) (f : Nat → State → Mv) (i : Nat) (is : List Nat), rowMove c = some f →
    mvCopy c s = mvAll f (List.range (layRows c.lay)) s ∧ (mvAll f (i :: is) s = .ok u → ∃ m, f i s = .ok m ∧ mvAll f is m = .ok u)) ∧
  (∀ (lay : W64) (f : Fmt) (e i j : Nat), (layZ lay = false → tileOff lay e i j = if layT lay then j * layStride lay + i * e else i * layStride lay + j * e) ∧
    ((layZ lay = true ∨ layT lay = true) → memRuns lay f i = (List.range (layCols lay)).map fun k => (tileOff lay (elemBytes f) i k, elemBytes f)) ∧
    (layZ lay = false → layT lay = false → memRuns lay f i = [(i * layStride lay, rowBytes f (layCols lay))])) ∧
  (∀ st : Nat, memOff true st 2 8 8 5 6 = 108 ∧ memOff true st 2 8 8 6 5 = 114) ∧
  (∀ (s : State) (c : Cmd) (base : W64) (runs : List (Nat × Nat)) (i : Nat) (cs : List PCell), Sound s → c.skip = [] → readRuns s c base runs = .ok cs → cellsPoison cs = false →
    ∃ u, inRow c base runs i s = .ok u ∧ BankHolds s u (cmdBankRow s c (c.row0 + i)) (convRow c.other c.fmt (layCols c.lay) (cs.map (·.byte)))) ∧
  (∀ (s u : State) (c : Cmd) (base : W64) (runs : List (Nat × Nat)) (i : Nat), c.row0 + i < 128 →
    let x := bankLoc s.rank s.me c.bank (512 * (c.row0 + i))
    let n := rowBytes (sideFmt c.fmt c.other) (layCols c.lay)
    poisonedRange (s.orderedCmd c).mem x n = false →
    (outRow c base runs i s = .ok u ↔ writeRuns c base runs (convRow c.fmt c.other (layCols c.lay) (readBases (s.orderedCmd c).mem x n)) s = .ok u)) ∧
  (∀ (s u : State) (c : Cmd) (base : W64) (o n : Nat) (r : List (Nat × Nat)) (bs : List Byte), writeRuns c base ((o, n) :: r) bs s = .ok u →
    ∃ m, writeRuns c base [(o, n)] (bs.take n) s = .ok m ∧ writeRuns c base r (bs.drop n) m = .ok u) ∧
  (∀ (s u : State) (c : Cmd) (base : W64) (o n : Nat) (bs : List Byte) (g : Seg), s.access s.me .write (base + BitVec.ofNat 64 o) n = .ok [g] → g.len = n →
    isSram g.tr.loc = false → inRecPage s s.me g.tr.loc = false → s.me.shadows = [] → NoLater s c → writeRuns c base [(o, n)] bs s = .ok u → WroteAt u c g.tr.loc (bs.take n)) ∧
  (∀ (s : State) (c : Cmd) (i : Nat) (t : Trans) (bs : List Byte), Sound s → c.skip = [] → cmdSrcRow s c c.xfmt i = some bs → s.scrLoc s.me c.ptr 1 = .ok t →
    let f := sideFmt c.xfmt c.fmt
    let out := convRow c.fmt c.xfmt (layCols c.lay) bs
    out.length = rowBytes f (layCols c.lay) →
    ∃ u, mvBank c i s = .ok u ∧ (layT c.lay = false → BankHolds s u (t.loc + 512 * i) out) ∧
      (layT c.lay = true → fmtScaled f = false → ∀ j, j < layCols c.lay →
        readBases u.mem (t.loc + 512 * j + i * elemBytes f) (elemBytes f) = (out.drop (j * elemBytes f)).take (elemBytes f))) ∧
  (∀ (s : State) (c : Cmd) (i : Nat), let m := (s.orderedCmd c).mem
    let x := bankLoc s.rank s.me c.xbank (512 * (c.w1 / 2 ^ 12 % 128) + 4 * i)
    let v := (BitVec.ofNat 32 (leNat (readBases m x 4))).toInt
    let p := c.ptr + BitVec.ofInt 64 (v * layStride c.lay)
    let run := [(0, rowBytes (cmdMemFmt c) (layCols c.lay))]
    poisonedRange m x 4 = false → gatherOver c v = false →
    (gatherDiff c .read v s = false → mvGather c i s = inRow c p run i s) ∧ (gatherDiff c .write v s = false → mvScatter c i s = outRow c p run i s) ∧
    (gatherDiff c .read v s = true → mvGather c i s = .fault s (cmdFault 5 5 p)) ∧ (gatherDiff c .write v s = true → mvScatter c i s = .fault s (cmdFault 5 5 p))) ∧
  (∀ (s u : State) (c : Cmd) (peers : PeerData) (nf : Bool), mvCollective c peers s = (.ok u, nf) →
    let e := elemBytes c.other
    let ranks := s.comm s.me.die c.bank
    let p := ranks.idxOf s.rank
    let others := peers.bufs.map (unpackPayload c.other e c.count)
    ∃ cs m, colOwn s c = .ok cs ∧ cellsPoison cs = false ∧ peers.mismatch = false ∧
      (let bufs := others.take p ++ wordsOf e (cs.map (·.byte)) c.count :: others.drop p
       let res := colLeaves c p ranks.length bufs
       nf = res.any (fun x => eltNonFinite c.other x.2) ∧
       writeRuns c c.ptr (res.map fun x => (x.1 * e, e)) (res.flatMap fun x => leBytes e x.2.toNat) s = .ok m ∧
       u = sendCol ranks c.other (colSends c.kind c.other c.red c.root p ranks.length c.count e bufs) m)) ∧
  (∀ (f : Fmt) (red root p m n j : Nat) (bufs : List (List W32)),
    colResult .colRed f red root p m n bufs j = some (reduceAt f red bufs j) ∧
    colResult .colRs f red root p m n bufs j = (if p * (n / m) ≤ j ∧ j < (p + 1) * (n / m) then some (reduceAt f red bufs j) else none) ∧
    colResult .colAg f red root p m n bufs j = some ((bufs.getD (j / (n / m)) []).getD j 0#32) ∧
    colResult .colBc f red root p m n bufs j = some ((bufs.getD root []).getD j 0#32)) ∧
  (∀ (a b c : List W32) (j : Nat), let x := a.getD j 0#32
    let y := b.getD j 0#32
    let z := c.getD j 0#32
    let add (v w : W32) : W32 := BitVec.ofNat 32 (addFp32 0 v w).bits
    reduceAt .fp32 0 [a, b, c] j = add (add x y) z ∧ reduceAt .int32 0 [a, b, c] j = x + y + z ∧
    reduceAt .bf16 0 [a, b] j = BitVec.ofNat 32 (convert .bf16 (decodeFp32 (add (x <<< 16) (y <<< 16))) false).bits ∧
    reduceAt .fp32 1 [a, b] j = (if isNan32 x = true ∨ isNan32 y = true then 0x7FC00000#32 else maxFp32 x y) ∧
    reduceAt .fp32 2 [a, b] j = (if isNan32 x = true ∨ isNan32 y = true then 0x7FC00000#32 else minFp32 x y)) ∧
  (∀ (s : State) (i : Instr) (k : CmdKind) (g : GReg) (b : BankNo) (l : LReg) (t : TagNo) (ser : Bool) (w : Nat) (ss : List Seg), copyOp i = some (k, g, b, l, t, ser, w) →
    (k = .cpIn ∨ k = .cpOut) → s.me.cmds.length < 128 → s.me.diffWait = false → s.me.dmode ≠ .off → segsDiff ss = true →
    let c := newCmd k g b l t ser w s
    cmdChecks s c = .ok ss →
    ((c.fmt ≠ .fp32 ∨ c.other ≠ .fp32) → exec i s = .next (takeTrap ((exIllegal s .a).on .a) s)) ∧
    (c.fmt = .fp32 → c.other = .fp32 → (s.me.timed = true → (cmdTier s c ss).isSome = true) →
      (k = .cpIn → (s.me.dmode = .rev → cellErr s c = none) →
        ∃ u x, exec i s = .next u ∧ Ran .a 2 s u ∧ JoinedAs s.me.dmode k g b l t ser w s u x ∧ x.fault = none ∧ x.blocks = [] ∧
          u = { s with me := u.me, last := u.last, seqs := u.seqs, fresh := u.fresh } ∧ u.me = { s.me with cmds := u.me.cmds, strA := u.me.strA }) ∧
      (k = .cpOut → s.me.dmode = .fwd → ∀ rs s1, runsSegs s .rmw c.ptr (cmdRuns c) = .ok rs → retriesFwd s c = none →
        tapeAppend .a (.cmd c.id c.tag) c.seen 2 (4 * c.count) c.lay c.ptr (oldTile s c) s = .ok s1 →
        ∃ u x, exec i s = .next u ∧ Ran .a 2 s u ∧ JoinedAs .fwd k g b l t ser w s u x ∧ x.tape = some s.me.tapeHead ∧ x.fault = readFault s c.ptr (oldTile s c) ∧
          u.me.tapeHead = s.me.tapeHead + BitVec.ofNat 64 (recSize (4 * c.count)) ∧ u.me.priv = s1.me.priv ∧ u.mem = s1.mem) ∧
      (k = .cpOut → s.me.dmode = .fwd → ∀ rs e, runsSegs s .rmw c.ptr (cmdRuns c) = .ok rs → retriesFwd s c = none →
        tapeAppend .a (.cmd c.id c.tag) c.seen 2 (4 * c.count) c.lay c.ptr (oldTile s c) s = .error e → exec i s = .next (takeTrap (e.on .a) s)) ∧
      (k = .cpOut → s.me.dmode = .rev → cellErr s c = none →
        (∀ e, tapePop .a 2 c.lay c.ptr (4 * c.count) s = .error e → exec i s = .next (takeTrap (e.on .a) s)) ∧
        ∀ d top s1, tapePop .a 2 c.lay c.ptr (4 * c.count) s = .ok (d, top, s1) →
          ∃ u x, exec i s = .next u ∧ Ran .a 2 s u ∧ JoinedAs .rev k g b l t ser w s u x ∧ x.tape = some (s.me.tapeHead - BitVec.ofNat 64 top.size) ∧
            x.blocks = [(0, d.map (·.byte))] ∧ x.fault = readFault s c.ptr d ∧ x.nextBlock = (if top.state = 2 then 1 else 0) ∧
            u.me.tapeHead = (if top.state = 2 then s.me.tapeHead else s.me.tapeHead - BitVec.ofNat 64 top.size) ∧ u.me.priv = s.me.priv ∧ u.mem = s.mem))) ∧
  (∀ (x : StreamId) (src : PrivSrc) (seen : List Nat) (kind dlen : Nat) (lay ptr : W64) (data : List PCell) (s s1 : State) (g : Seg),
    tapeAppend x src seen kind dlen lay ptr data s = .ok s1 → s.access s.me .write s.me.tapeHead (recSize dlen) = .ok [g] → g.len = recSize dlen → s.me.shadows = [] →
    isSram g.tr.loc = false → inRecPage s s.me g.tr.loc = false → (∀ q ∈ s.me.priv, ∀ i j t, src = .cmd i t → q.src = .cmd j t → j ≤ i) →
    s1.me.tapeHead = s.me.tapeHead + BitVec.ofNat 64 (recSize dlen) ∧
    ∃ q, (tapeEmpty s.me = true → q = 0) ∧ (tapeEmpty s.me = false → ∃ top, tapeTop s x false = .ok top ∧ q = (top.seqNo + 1) % 2 ^ 32) ∧
      ∀ k b, (recBytes kind dlen q lay ptr (data.map (·.byte)))[k]? = some b → k < recSize dlen →
        ∃ p ∈ s1.me.priv, p.src = src ∧ p.kind = .plain ∧ p.tape.isSome = true ∧ (cellAt (g.tr.loc + k) p.cells).map (·.byte) = some b) ∧
  (∀ (kind dlen q : Nat) (lay ptr : W64) (data : List Byte), data.length = dlen → dlen < 2 ^ 32 → kind < 16 →
    let r := recBytes kind dlen q lay ptr data
    r.length = recSize dlen ∧ leNat (r.take 8) = kind * 2 ^ 60 ∧ leNat ((r.drop 8).take 4) = dlen ∧ leNat ((r.drop 12).take 4) = q % 2 ^ 32 ∧
    leNat ((r.drop 16).take 8) = lay.toNat ∧ leNat ((r.drop 24).take 8) = ptr.toNat ∧ (r.drop 32).take dlen = data ∧ leNat (r.drop (recSize dlen - 8)) = recSize dlen) ∧
  (∀ (s : State) (c : Cmd), (c.kind = .cpIn → c.dmode = .rev → mvCopy c s = mvElts c (mvAccum c) s) ∧
    (c.kind = .cpOut → c.dmode = .rev → c.fault = none → c.nextBlock = 0 → ∀ s1, mvElts c (mvCell c) s = .ok s1 →
      mvCopy c s = mvElts c (mvRestore c) (s1.mapCmd c.id fun x => { x with nextBlock := 2 })) ∧
    ∀ f, mvElts c f s = mvAll (fun n s => f (n / layCols c.lay) (n % layCols c.lay) s) (List.range (layRows c.lay * layCols c.lay)) s) ∧
  (∀ (s : State) (c : Cmd) (i j : Nat) (t : Trans), let x := bankElt s c i j
    (cellPlace s .rmw (diffPtr c i j) = .ok t → poisonedRange (s.orderedCmd c).mem x 4 = false →
      ∃ u p, mvAccum c i j s = .ok u ∧ u.me.priv = s.me.priv ++ [p] ∧ u.mem = s.mem ∧ p.src = .cmd c.id c.tag ∧
        p.kind = .acc (BitVec.ofNat 32 (leNat (readBases (s.orderedCmd c).mem x 4))) ∧ p.cells = [⟨cellLoc t, 0#8, false⟩]) ∧
    (cellPlace s .read (diffPtr c i j) = .ok t → cellPoison s (cellLoc t) = false → Sound s → c.skip = [] →
      ∃ u, mvCell c i j s = .ok u ∧ BankHolds s u x (leBytes 4 (cellValue s (cellLoc t)).toNat)) ∧
    ∀ u g, cellPlace s .write (diffPtr c i j) = .ok t → s.access s.me .write (diffPtr c i j) 4 = .ok [g] → g.len = 4 → isSram g.tr.loc = false → isSram (cellLoc t) = false →
      inRecPage s s.me g.tr.loc = false → inRecPage s s.me (cellLoc t) = false → (cellLoc t + 4 ≤ g.tr.loc ∨ g.tr.loc + 4 ≤ cellLoc t) → s.me.shadows = [] → NoLater s c →
      mvRestore c i j s = .ok u → WroteAt u c (cellLoc t) [0#8, 0#8, 0#8, 0#8] ∧ WroteAt u c g.tr.loc (((c.blocks.flatMap (·.2)).drop (4 * (i * layCols c.lay + j))).take 4)) ∧
  (∀ (s : State) (i : Instr) (k : CmdKind) (g : GReg) (b : BankNo) (l : LReg) (t : TagNo) (ser : Bool) (w : Nat), copyOp i = some (k, g, b, l, t, ser, w) →
    let c := newCmd k g b l t ser w s
    (k = .cpGth ∨ k = .cpSct) → s.me.cmds.length < 128 → s.me.diffWait = false → c.bank < s.me.nbank → c.xbank < s.me.nbank → cmdIllegal s c = false → spaceOk c = true →
    c.ptr.toNat % 2 ^ layAlign c.lay = 0 → indexedDiff s c = true → exec i s = .next (takeTrap ((exAcc s .a 5 c.ptr c.accKind c.tag).on .a) s))
end

