-- ==== Sys2Proof/Laws/State.lean ====
section
/-!
SUPPORT. One lemma for each field under each named update of State and of a context: an update changes the fields it names and no other.
-/
namespace Sys2Proof.Machine

/-! ## State.withMe -/

@[simp] theorem State.withMe_powered (s : State) (c : Ctx) : (s.withMe c).powered = s.powered := rfl
@[simp] theorem State.withMe_cycle (s : State) (c : Ctx) : (s.withMe c).cycle = s.cycle := rfl
@[simp] theorem State.withMe_ptpBase (s : State) (c : Ctx) : (s.withMe c).ptpBase = s.ptpBase := rfl
@[simp] theorem State.withMe_ptpTop (s : State) (c : Ctx) : (s.withMe c).ptpTop = s.ptpTop := rfl
@[simp] theorem State.withMe_me (s : State) (c : Ctx) : (s.withMe c).me = c := rfl
@[simp] theorem State.withMe_ring (s : State) (c : Ctx) : (s.withMe c).ring = s.ring := rfl
@[simp] theorem State.withMe_slot (s : State) (c : Ctx) : (s.withMe c).slot = s.slot := rfl
@[simp] theorem State.withMe_last (s : State) (c : Ctx) : (s.withMe c).last = s.last := rfl
@[simp] theorem State.withMe_judging (s : State) (c : Ctx) : (s.withMe c).judging = s.judging := rfl
@[simp] theorem State.withMe_inputs (s : State) (c : Ctx) : (s.withMe c).inputs = s.inputs := rfl
@[simp] theorem State.withMe_hostWait (s : State) (c : Ctx) : (s.withMe c).hostWait = s.hostWait := rfl
@[simp] theorem State.withMe_outbox (s : State) (c : Ctx) : (s.withMe c).outbox = s.outbox := rfl
@[simp] theorem State.withMe_mem (s : State) (c : Ctx) : (s.withMe c).mem = s.mem := rfl
@[simp] theorem State.withMe_bays (s : State) (c : Ctx) : (s.withMe c).bays = s.bays := rfl
@[simp] theorem State.withMe_bars (s : State) (c : Ctx) : (s.withMe c).bars = s.bars := rfl
@[simp] theorem State.withMe_nodes (s : State) (c : Ctx) : (s.withMe c).nodes = s.nodes := rfl
@[simp] theorem State.withMe_dispatchDue (s : State) (c : Ctx) : (s.withMe c).dispatchDue = s.dispatchDue := rfl
@[simp] theorem State.withMe_ranges (s : State) (c : Ctx) : (s.withMe c).ranges = s.ranges := rfl
@[simp] theorem State.withMe_mailboxes (s : State) (c : Ctx) : (s.withMe c).mailboxes = s.mailboxes := rfl
@[simp] theorem State.withMe_journals (s : State) (c : Ctx) : (s.withMe c).journals = s.journals := rfl
@[simp] theorem State.withMe_blocks (s : State) (c : Ctx) : (s.withMe c).blocks = s.blocks := rfl
@[simp] theorem State.withMe_parts (s : State) (c : Ctx) : (s.withMe c).parts = s.parts := rfl
@[simp] theorem State.withMe_dieMarks (s : State) (c : Ctx) : (s.withMe c).dieMarks = s.dieMarks := rfl
@[simp] theorem State.withMe_foreign (s : State) (c : Ctx) : (s.withMe c).foreign = s.foreign := rfl
@[simp] theorem State.withMe_spaces (s : State) (c : Ctx) : (s.withMe c).spaces = s.spaces := rfl
@[simp] theorem State.withMe_comms (s : State) (c : Ctx) : (s.withMe c).comms = s.comms := rfl
@[simp] theorem State.withMe_colSeqs (s : State) (c : Ctx) : (s.withMe c).colSeqs = s.colSeqs := rfl
@[simp] theorem State.withMe_patches (s : State) (c : Ctx) : (s.withMe c).patches = s.patches := rfl
@[simp] theorem State.withMe_scanned (s : State) (c : Ctx) : (s.withMe c).scanned = s.scanned := rfl
@[simp] theorem State.withMe_links (s : State) (c : Ctx) : (s.withMe c).links = s.links := rfl
@[simp] theorem State.withMe_routes (s : State) (c : Ctx) : (s.withMe c).routes = s.routes := rfl
@[simp] theorem State.withMe_subPorts (s : State) (c : Ctx) : (s.withMe c).subPorts = s.subPorts := rfl
@[simp] theorem State.withMe_fns (s : State) (c : Ctx) : (s.withMe c).fns = s.fns := rfl
@[simp] theorem State.withMe_answers (s : State) (c : Ctx) : (s.withMe c).answers = s.answers := rfl
@[simp] theorem State.withMe_hostPubs (s : State) (c : Ctx) : (s.withMe c).hostPubs = s.hostPubs := rfl
@[simp] theorem State.withMe_gpKnown (s : State) (c : Ctx) : (s.withMe c).gpKnown = s.gpKnown := rfl
@[simp] theorem State.withMe_jrnPend (s : State) (c : Ctx) : (s.withMe c).jrnPend = s.jrnPend := rfl
@[simp] theorem State.withMe_revoking (s : State) (c : Ctx) : (s.withMe c).revoking = s.revoking := rfl
@[simp] theorem State.withMe_shoots (s : State) (c : Ctx) : (s.withMe c).shoots = s.shoots := rfl
@[simp] theorem State.withMe_rowsLost (s : State) (c : Ctx) : (s.withMe c).rowsLost = s.rowsLost := rfl
@[simp] theorem State.withMe_errors (s : State) (c : Ctx) : (s.withMe c).errors = s.errors := rfl
@[simp] theorem State.withMe_retired (s : State) (c : Ctx) : (s.withMe c).retired = s.retired := rfl
@[simp] theorem State.withMe_archives (s : State) (c : Ctx) : (s.withMe c).archives = s.archives := rfl
@[simp] theorem State.withMe_rxRing (s : State) (c : Ctx) : (s.withMe c).rxRing = s.rxRing := rfl
@[simp] theorem State.withMe_rxDropped (s : State) (c : Ctx) : (s.withMe c).rxDropped = s.rxDropped := rfl
@[simp] theorem State.withMe_rank (s : State) (c : Ctx) : (s.withMe c).rank = s.rank := rfl
@[simp] theorem State.withMe_devCount (s : State) (c : Ctx) : (s.withMe c).devCount = s.devCount := rfl
@[simp] theorem State.withMe_partMode (s : State) (c : Ctx) : (s.withMe c).partMode = s.partMode := rfl
@[simp] theorem State.withMe_lx9601 (s : State) (c : Ctx) : (s.withMe c).lx9601 = s.lx9601 := rfl
@[simp] theorem State.withMe_bootstat (s : State) (c : Ctx) : (s.withMe c).bootstat = s.bootstat := rfl
@[simp] theorem State.withMe_boot (s : State) (c : Ctx) : (s.withMe c).boot = s.boot := rfl
@[simp] theorem State.withMe_evidence (s : State) (c : Ctx) : (s.withMe c).evidence = s.evidence := rfl
@[simp] theorem State.withMe_saveSeq (s : State) (c : Ctx) : (s.withMe c).saveSeq = s.saveSeq := rfl
@[simp] theorem State.withMe_stamp (s : State) (c : Ctx) : (s.withMe c).stamp = s.stamp := rfl
@[simp] theorem State.withMe_launches (s : State) (c : Ctx) : (s.withMe c).launches = s.launches := rfl
@[simp] theorem State.withMe_seqs (s : State) (c : Ctx) : (s.withMe c).seqs = s.seqs := rfl
@[simp] theorem State.withMe_fresh (s : State) (c : Ctx) : (s.withMe c).fresh = s.fresh := rfl
@[simp] theorem State.withMe_gpCores (s : State) (c : Ctx) : (s.withMe c).gpCores = s.gpCores := rfl
@[simp] theorem State.withMe_bayServed (s : State) (c : Ctx) : (s.withMe c).bayServed = s.bayServed := rfl

/-! ## State.mapMe -/

@[simp] theorem State.mapMe_powered (s : State) (f : Ctx → Ctx) : (s.mapMe f).powered = s.powered := rfl
@[simp] theorem State.mapMe_cycle (s : State) (f : Ctx → Ctx) : (s.mapMe f).cycle = s.cycle := rfl
@[simp] theorem State.mapMe_ptpBase (s : State) (f : Ctx → Ctx) : (s.mapMe f).ptpBase = s.ptpBase := rfl
@[simp] theorem State.mapMe_ptpTop (s : State) (f : Ctx → Ctx) : (s.mapMe f).ptpTop = s.ptpTop := rfl
@[simp] theorem State.mapMe_me (s : State) (f : Ctx → Ctx) : (s.mapMe f).me = f s.me := rfl
@[simp] theorem State.mapMe_ring (s : State) (f : Ctx → Ctx) : (s.mapMe f).ring = s.ring := rfl
@[simp] theorem State.mapMe_slot (s : State) (f : Ctx → Ctx) : (s.mapMe f).slot = s.slot := rfl
@[simp] theorem State.mapMe_last (s : State) (f : Ctx → Ctx) : (s.mapMe f).last = s.last := rfl
@[simp] theorem State.mapMe_judging (s : State) (f : Ctx → Ctx) : (s.mapMe f).judging = s.judging := rfl
@[simp] theorem State.mapMe_inputs (s : State) (f : Ctx → Ctx) : (s.mapMe f).inputs = s.inputs := rfl
@[simp] theorem State.mapMe_hostWait (s : State) (f : Ctx → Ctx) : (s.mapMe f).hostWait = s.hostWait := rfl
@[simp] theorem State.mapMe_outbox (s : State) (f : Ctx → Ctx) : (s.mapMe f).outbox = s.outbox := rfl
@[simp] theorem State.mapMe_mem (s : State) (f : Ctx → Ctx) : (s.mapMe f).mem = s.mem := rfl
@[simp] theorem State.mapMe_bays (s : State) (f : Ctx → Ctx) : (s.mapMe f).bays = s.bays := rfl
@[simp] theorem State.mapMe_bars (s : State) (f : Ctx → Ctx) : (s.mapMe f).bars = s.bars := rfl
@[simp] theorem State.mapMe_nodes (s : State) (f : Ctx → Ctx) : (s.mapMe f).nodes = s.nodes := rfl
@[simp] theorem State.mapMe_dispatchDue (s : State) (f : Ctx → Ctx) : (s.mapMe f).dispatchDue = s.dispatchDue := rfl
@[simp] theorem State.mapMe_ranges (s : State) (f : Ctx → Ctx) : (s.mapMe f).ranges = s.ranges := rfl
@[simp] theorem State.mapMe_mailboxes (s : State) (f : Ctx → Ctx) : (s.mapMe f).mailboxes = s.mailboxes := rfl
@[simp] theorem State.mapMe_journals (s : State) (f : Ctx → Ctx) : (s.mapMe f).journals = s.journals := rfl
@[simp] theorem State.mapMe_blocks (s : State) (f : Ctx → Ctx) : (s.mapMe f).blocks = s.blocks := rfl
@[simp] theorem State.mapMe_parts (s : State) (f : Ctx → Ctx) : (s.mapMe f).parts = s.parts := rfl
@[simp] theorem State.mapMe_dieMarks (s : State) (f : Ctx → Ctx) : (s.mapMe f).dieMarks = s.dieMarks := rfl
@[simp] theorem State.mapMe_foreign (s : State) (f : Ctx → Ctx) : (s.mapMe f).foreign = s.foreign := rfl
@[simp] theorem State.mapMe_spaces (s : State) (f : Ctx → Ctx) : (s.mapMe f).spaces = s.spaces := rfl
@[simp] theorem State.mapMe_comms (s : State) (f : Ctx → Ctx) : (s.mapMe f).comms = s.comms := rfl
@[simp] theorem State.mapMe_colSeqs (s : State) (f : Ctx → Ctx) : (s.mapMe f).colSeqs = s.colSeqs := rfl
@[simp] theorem State.mapMe_patches (s : State) (f : Ctx → Ctx) : (s.mapMe f).patches = s.patches := rfl
@[simp] theorem State.mapMe_scanned (s : State) (f : Ctx → Ctx) : (s.mapMe f).scanned = s.scanned := rfl
@[simp] theorem State.mapMe_links (s : State) (f : Ctx → Ctx) : (s.mapMe f).links = s.links := rfl
@[simp] theorem State.mapMe_routes (s : State) (f : Ctx → Ctx) : (s.mapMe f).routes = s.routes := rfl
@[simp] theorem State.mapMe_subPorts (s : State) (f : Ctx → Ctx) : (s.mapMe f).subPorts = s.subPorts := rfl
@[simp] theorem State.mapMe_fns (s : State) (f : Ctx → Ctx) : (s.mapMe f).fns = s.fns := rfl
@[simp] theorem State.mapMe_answers (s : State) (f : Ctx → Ctx) : (s.mapMe f).answers = s.answers := rfl
@[simp] theorem State.mapMe_hostPubs (s : State) (f : Ctx → Ctx) : (s.mapMe f).hostPubs = s.hostPubs := rfl
@[simp] theorem State.mapMe_gpKnown (s : State) (f : Ctx → Ctx) : (s.mapMe f).gpKnown = s.gpKnown := rfl
@[simp] theorem State.mapMe_jrnPend (s : State) (f : Ctx → Ctx) : (s.mapMe f).jrnPend = s.jrnPend := rfl
@[simp] theorem State.mapMe_revoking (s : State) (f : Ctx → Ctx) : (s.mapMe f).revoking = s.revoking := rfl
@[simp] theorem State.mapMe_shoots (s : State) (f : Ctx → Ctx) : (s.mapMe f).shoots = s.shoots := rfl
@[simp] theorem State.mapMe_rowsLost (s : State) (f : Ctx → Ctx) : (s.mapMe f).rowsLost = s.rowsLost := rfl
@[simp] theorem State.mapMe_errors (s : State) (f : Ctx → Ctx) : (s.mapMe f).errors = s.errors := rfl
@[simp] theorem State.mapMe_retired (s : State) (f : Ctx → Ctx) : (s.mapMe f).retired = s.retired := rfl
@[simp] theorem State.mapMe_archives (s : State) (f : Ctx → Ctx) : (s.mapMe f).archives = s.archives := rfl
@[simp] theorem State.mapMe_rxRing (s : State) (f : Ctx → Ctx) : (s.mapMe f).rxRing = s.rxRing := rfl
@[simp] theorem State.mapMe_rxDropped (s : State) (f : Ctx → Ctx) : (s.mapMe f).rxDropped = s.rxDropped := rfl
@[simp] theorem State.mapMe_rank (s : State) (f : Ctx → Ctx) : (s.mapMe f).rank = s.rank := rfl
@[simp] theorem State.mapMe_devCount (s : State) (f : Ctx → Ctx) : (s.mapMe f).devCount = s.devCount := rfl
@[simp] theorem State.mapMe_partMode (s : State) (f : Ctx → Ctx) : (s.mapMe f).partMode = s.partMode := rfl
@[simp] theorem State.mapMe_lx9601 (s : State) (f : Ctx → Ctx) : (s.mapMe f).lx9601 = s.lx9601 := rfl
@[simp] theorem State.mapMe_bootstat (s : State) (f : Ctx → Ctx) : (s.mapMe f).bootstat = s.bootstat := rfl
@[simp] theorem State.mapMe_boot (s : State) (f : Ctx → Ctx) : (s.mapMe f).boot = s.boot := rfl
@[simp] theorem State.mapMe_evidence (s : State) (f : Ctx → Ctx) : (s.mapMe f).evidence = s.evidence := rfl
@[simp] theorem State.mapMe_saveSeq (s : State) (f : Ctx → Ctx) : (s.mapMe f).saveSeq = s.saveSeq := rfl
@[simp] theorem State.mapMe_stamp (s : State) (f : Ctx → Ctx) : (s.mapMe f).stamp = s.stamp := rfl
@[simp] theorem State.mapMe_launches (s : State) (f : Ctx → Ctx) : (s.mapMe f).launches = s.launches := rfl
@[simp] theorem State.mapMe_seqs (s : State) (f : Ctx → Ctx) : (s.mapMe f).seqs = s.seqs := rfl
@[simp] theorem State.mapMe_fresh (s : State) (f : Ctx → Ctx) : (s.mapMe f).fresh = s.fresh := rfl
@[simp] theorem State.mapMe_gpCores (s : State) (f : Ctx → Ctx) : (s.mapMe f).gpCores = s.gpCores := rfl
@[simp] theorem State.mapMe_bayServed (s : State) (f : Ctx → Ctx) : (s.mapMe f).bayServed = s.bayServed := rfl

/-! ## waitAt -/

@[simp] theorem waitAt_powered (s : State) : (waitAt s).powered = s.powered := rfl
@[simp] theorem waitAt_cycle (s : State) : (waitAt s).cycle = s.cycle := rfl
@[simp] theorem waitAt_ptpBase (s : State) : (waitAt s).ptpBase = s.ptpBase := rfl
@[simp] theorem waitAt_ptpTop (s : State) : (waitAt s).ptpTop = s.ptpTop := rfl
@[simp] theorem waitAt_me (s : State) : (waitAt s).me = s.me := rfl
@[simp] theorem waitAt_ring (s : State) : (waitAt s).ring = s.ring := rfl
@[simp] theorem waitAt_slot (s : State) : (waitAt s).slot = s.slot := rfl
@[simp] theorem waitAt_last (s : State) : (waitAt s).last = .waiting := rfl
@[simp] theorem waitAt_judging (s : State) : (waitAt s).judging = s.judging := rfl
@[simp] theorem waitAt_inputs (s : State) : (waitAt s).inputs = s.inputs := rfl
@[simp] theorem waitAt_hostWait (s : State) : (waitAt s).hostWait = s.hostWait := rfl
@[simp] theorem waitAt_outbox (s : State) : (waitAt s).outbox = s.outbox := rfl
@[simp] theorem waitAt_mem (s : State) : (waitAt s).mem = s.mem := rfl
@[simp] theorem waitAt_bays (s : State) : (waitAt s).bays = s.bays := rfl
@[simp] theorem waitAt_bars (s : State) : (waitAt s).bars = s.bars := rfl
@[simp] theorem waitAt_nodes (s : State) : (waitAt s).nodes = s.nodes := rfl
@[simp] theorem waitAt_dispatchDue (s : State) : (waitAt s).dispatchDue = s.dispatchDue := rfl
@[simp] theorem waitAt_ranges (s : State) : (waitAt s).ranges = s.ranges := rfl
@[simp] theorem waitAt_mailboxes (s : State) : (waitAt s).mailboxes = s.mailboxes := rfl
@[simp] theorem waitAt_journals (s : State) : (waitAt s).journals = s.journals := rfl
@[simp] theorem waitAt_blocks (s : State) : (waitAt s).blocks = s.blocks := rfl
@[simp] theorem waitAt_parts (s : State) : (waitAt s).parts = s.parts := rfl
@[simp] theorem waitAt_dieMarks (s : State) : (waitAt s).dieMarks = s.dieMarks := rfl
@[simp] theorem waitAt_foreign (s : State) : (waitAt s).foreign = s.foreign := rfl
@[simp] theorem waitAt_spaces (s : State) : (waitAt s).spaces = s.spaces := rfl
@[simp] theorem waitAt_comms (s : State) : (waitAt s).comms = s.comms := rfl
@[simp] theorem waitAt_colSeqs (s : State) : (waitAt s).colSeqs = s.colSeqs := rfl
@[simp] theorem waitAt_patches (s : State) : (waitAt s).patches = s.patches := rfl
@[simp] theorem waitAt_scanned (s : State) : (waitAt s).scanned = s.scanned := rfl
@[simp] theorem waitAt_links (s : State) : (waitAt s).links = s.links := rfl
@[simp] theorem waitAt_routes (s : State) : (waitAt s).routes = s.routes := rfl
@[simp] theorem waitAt_subPorts (s : State) : (waitAt s).subPorts = s.subPorts := rfl
@[simp] theorem waitAt_fns (s : State) : (waitAt s).fns = s.fns := rfl
@[simp] theorem waitAt_answers (s : State) : (waitAt s).answers = s.answers := rfl
@[simp] theorem waitAt_hostPubs (s : State) : (waitAt s).hostPubs = s.hostPubs := rfl
@[simp] theorem waitAt_gpKnown (s : State) : (waitAt s).gpKnown = s.gpKnown := rfl
@[simp] theorem waitAt_jrnPend (s : State) : (waitAt s).jrnPend = s.jrnPend := rfl
@[simp] theorem waitAt_revoking (s : State) : (waitAt s).revoking = s.revoking := rfl
@[simp] theorem waitAt_shoots (s : State) : (waitAt s).shoots = s.shoots := rfl
@[simp] theorem waitAt_rowsLost (s : State) : (waitAt s).rowsLost = s.rowsLost := rfl
@[simp] theorem waitAt_errors (s : State) : (waitAt s).errors = s.errors := rfl
@[simp] theorem waitAt_retired (s : State) : (waitAt s).retired = s.retired := rfl
@[simp] theorem waitAt_archives (s : State) : (waitAt s).archives = s.archives := rfl
@[simp] theorem waitAt_rxRing (s : State) : (waitAt s).rxRing = s.rxRing := rfl
@[simp] theorem waitAt_rxDropped (s : State) : (waitAt s).rxDropped = s.rxDropped := rfl
@[simp] theorem waitAt_rank (s : State) : (waitAt s).rank = s.rank := rfl
@[simp] theorem waitAt_devCount (s : State) : (waitAt s).devCount = s.devCount := rfl
@[simp] theorem waitAt_partMode (s : State) : (waitAt s).partMode = s.partMode := rfl
@[simp] theorem waitAt_lx9601 (s : State) : (waitAt s).lx9601 = s.lx9601 := rfl
@[simp] theorem waitAt_bootstat (s : State) : (waitAt s).bootstat = s.bootstat := rfl
@[simp] theorem waitAt_boot (s : State) : (waitAt s).boot = s.boot := rfl
@[simp] theorem waitAt_evidence (s : State) : (waitAt s).evidence = s.evidence := rfl
@[simp] theorem waitAt_saveSeq (s : State) : (waitAt s).saveSeq = s.saveSeq := rfl
@[simp] theorem waitAt_stamp (s : State) : (waitAt s).stamp = s.stamp := rfl
@[simp] theorem waitAt_launches (s : State) : (waitAt s).launches = s.launches := rfl
@[simp] theorem waitAt_seqs (s : State) : (waitAt s).seqs = s.seqs := rfl
@[simp] theorem waitAt_fresh (s : State) : (waitAt s).fresh = s.fresh := rfl
@[simp] theorem waitAt_gpCores (s : State) : (waitAt s).gpCores = s.gpCores := rfl
@[simp] theorem waitAt_bayServed (s : State) : (waitAt s).bayServed = s.bayServed := rfl

/-! ## pendAt -/

@[simp] theorem pendAt_powered (n : Nat) (w : Land) (s : State) : (pendAt n w s).powered = s.powered := rfl
@[simp] theorem pendAt_cycle (n : Nat) (w : Land) (s : State) : (pendAt n w s).cycle = s.cycle := rfl
@[simp] theorem pendAt_ptpBase (n : Nat) (w : Land) (s : State) : (pendAt n w s).ptpBase = s.ptpBase := rfl
@[simp] theorem pendAt_ptpTop (n : Nat) (w : Land) (s : State) : (pendAt n w s).ptpTop = s.ptpTop := rfl
@[simp] theorem pendAt_me (n : Nat) (w : Land) (s : State) : (pendAt n w s).me = { s.me with pend := insertPend ⟨n, s.seqs, w⟩ s.me.pend } := rfl
@[simp] theorem pendAt_ring (n : Nat) (w : Land) (s : State) : (pendAt n w s).ring = s.ring := rfl
@[simp] theorem pendAt_slot (n : Nat) (w : Land) (s : State) : (pendAt n w s).slot = s.slot := rfl
@[simp] theorem pendAt_last (n : Nat) (w : Land) (s : State) : (pendAt n w s).last = s.last := rfl
@[simp] theorem pendAt_judging (n : Nat) (w : Land) (s : State) : (pendAt n w s).judging = s.judging := rfl
@[simp] theorem pendAt_inputs (n : Nat) (w : Land) (s : State) : (pendAt n w s).inputs = s.inputs := rfl
@[simp] theorem pendAt_hostWait (n : Nat) (w : Land) (s : State) : (pendAt n w s).hostWait = s.hostWait := rfl
@[simp] theorem pendAt_outbox (n : Nat) (w : Land) (s : State) : (pendAt n w s).outbox = s.outbox := rfl
@[simp] theorem pendAt_mem (n : Nat) (w : Land) (s : State) : (pendAt n w s).mem = s.mem := rfl
@[simp] theorem pendAt_bays (n : Nat) (w : Land) (s : State) : (pendAt n w s).bays = s.bays := rfl
@[simp] theorem pendAt_bars (n : Nat) (w : Land) (s : State) : (pendAt n w s).bars = s.bars := rfl
@[simp] theorem pendAt_nodes (n : Nat) (w : Land) (s : State) : (pendAt n w s).nodes = s.nodes := rfl
@[simp] theorem pendAt_dispatchDue (n : Nat) (w : Land) (s : State) : (pendAt n w s).dispatchDue = s.dispatchDue := rfl
@[simp] theorem pendAt_ranges (n : Nat) (w : Land) (s : State) : (pendAt n w s).ranges = s.ranges := rfl
@[simp] theorem pendAt_mailboxes (n : Nat) (w : Land) (s : State) : (pendAt n w s).mailboxes = s.mailboxes := rfl
@[simp] theorem pendAt_journals (n : Nat) (w : Land) (s : State) : (pendAt n w s).journals = s.journals := rfl
@[simp] theorem pendAt_blocks (n : Nat) (w : Land) (s : State) : (pendAt n w s).blocks = s.blocks := rfl
@[simp] theorem pendAt_parts (n : Nat) (w : Land) (s : State) : (pendAt n w s).parts = s.parts := rfl
@[simp] theorem pendAt_dieMarks (n : Nat) (w : Land) (s : State) : (pendAt n w s).dieMarks = s.dieMarks := rfl
@[simp] theorem pendAt_foreign (n : Nat) (w : Land) (s : State) : (pendAt n w s).foreign = s.foreign := rfl
@[simp] theorem pendAt_spaces (n : Nat) (w : Land) (s : State) : (pendAt n w s).spaces = s.spaces := rfl
@[simp] theorem pendAt_comms (n : Nat) (w : Land) (s : State) : (pendAt n w s).comms = s.comms := rfl
@[simp] theorem pendAt_colSeqs (n : Nat) (w : Land) (s : State) : (pendAt n w s).colSeqs = s.colSeqs := rfl
@[simp] theorem pendAt_patches (n : Nat) (w : Land) (s : State) : (pendAt n w s).patches = s.patches := rfl
@[simp] theorem pendAt_scanned (n : Nat) (w : Land) (s : State) : (pendAt n w s).scanned = s.scanned := rfl
@[simp] theorem pendAt_links (n : Nat) (w : Land) (s : State) : (pendAt n w s).links = s.links := rfl
@[simp] theorem pendAt_routes (n : Nat) (w : Land) (s : State) : (pendAt n w s).routes = s.routes := rfl
@[simp] theorem pendAt_subPorts (n : Nat) (w : Land) (s : State) : (pendAt n w s).subPorts = s.subPorts := rfl
@[simp] theorem pendAt_fns (n : Nat) (w : Land) (s : State) : (pendAt n w s).fns = s.fns := rfl
@[simp] theorem pendAt_answers (n : Nat) (w : Land) (s : State) : (pendAt n w s).answers = s.answers := rfl
@[simp] theorem pendAt_hostPubs (n : Nat) (w : Land) (s : State) : (pendAt n w s).hostPubs = s.hostPubs := rfl
@[simp] theorem pendAt_gpKnown (n : Nat) (w : Land) (s : State) : (pendAt n w s).gpKnown = s.gpKnown := rfl
@[simp] theorem pendAt_jrnPend (n : Nat) (w : Land) (s : State) : (pendAt n w s).jrnPend = s.jrnPend := rfl
@[simp] theorem pendAt_revoking (n : Nat) (w : Land) (s : State) : (pendAt n w s).revoking = s.revoking := rfl
@[simp] theorem pendAt_shoots (n : Nat) (w : Land) (s : State) : (pendAt n w s).shoots = s.shoots := rfl
@[simp] theorem pendAt_rowsLost (n : Nat) (w : Land) (s : State) : (pendAt n w s).rowsLost = s.rowsLost := rfl
@[simp] theorem pendAt_errors (n : Nat) (w : Land) (s : State) : (pendAt n w s).errors = s.errors := rfl
@[simp] theorem pendAt_retired (n : Nat) (w : Land) (s : State) : (pendAt n w s).retired = s.retired := rfl
@[simp] theorem pendAt_archives (n : Nat) (w : Land) (s : State) : (pendAt n w s).archives = s.archives := rfl
@[simp] theorem pendAt_rxRing (n : Nat) (w : Land) (s : State) : (pendAt n w s).rxRing = s.rxRing := rfl
@[simp] theorem pendAt_rxDropped (n : Nat) (w : Land) (s : State) : (pendAt n w s).rxDropped = s.rxDropped := rfl
@[simp] theorem pendAt_rank (n : Nat) (w : Land) (s : State) : (pendAt n w s).rank = s.rank := rfl
@[simp] theorem pendAt_devCount (n : Nat) (w : Land) (s : State) : (pendAt n w s).devCount = s.devCount := rfl
@[simp] theorem pendAt_partMode (n : Nat) (w : Land) (s : State) : (pendAt n w s).partMode = s.partMode := rfl
@[simp] theorem pendAt_lx9601 (n : Nat) (w : Land) (s : State) : (pendAt n w s).lx9601 = s.lx9601 := rfl
@[simp] theorem pendAt_bootstat (n : Nat) (w : Land) (s : State) : (pendAt n w s).bootstat = s.bootstat := rfl
@[simp] theorem pendAt_boot (n : Nat) (w : Land) (s : State) : (pendAt n w s).boot = s.boot := rfl
@[simp] theorem pendAt_evidence (n : Nat) (w : Land) (s : State) : (pendAt n w s).evidence = s.evidence := rfl
@[simp] theorem pendAt_saveSeq (n : Nat) (w : Land) (s : State) : (pendAt n w s).saveSeq = s.saveSeq := rfl
@[simp] theorem pendAt_stamp (n : Nat) (w : Land) (s : State) : (pendAt n w s).stamp = s.stamp := rfl
@[simp] theorem pendAt_launches (n : Nat) (w : Land) (s : State) : (pendAt n w s).launches = s.launches := rfl
@[simp] theorem pendAt_seqs (n : Nat) (w : Land) (s : State) : (pendAt n w s).seqs = s.seqs + 1 := rfl
@[simp] theorem pendAt_fresh (n : Nat) (w : Land) (s : State) : (pendAt n w s).fresh = s.fresh := rfl
@[simp] theorem pendAt_gpCores (n : Nat) (w : Land) (s : State) : (pendAt n w s).gpCores = s.gpCores := rfl
@[simp] theorem pendAt_bayServed (n : Nat) (w : Land) (s : State) : (pendAt n w s).bayServed = s.bayServed := rfl

/-! ## retire -/

@[simp] theorem retire_powered (x : StreamId) (n : Nat) (s : State) : (retire x n s).powered = s.powered := rfl
@[simp] theorem retire_cycle (x : StreamId) (n : Nat) (s : State) : (retire x n s).cycle = s.cycle := rfl
@[simp] theorem retire_ptpBase (x : StreamId) (n : Nat) (s : State) : (retire x n s).ptpBase = s.ptpBase := rfl
@[simp] theorem retire_ptpTop (x : StreamId) (n : Nat) (s : State) : (retire x n s).ptpTop = s.ptpTop := rfl
@[simp] theorem retire_me (x : StreamId) (n : Nat) (s : State) : (retire x n s).me = s.me.mapStrm x fun t => countRetired (stepPast n s.now t) := rfl
@[simp] theorem retire_ring (x : StreamId) (n : Nat) (s : State) : (retire x n s).ring = s.ring := rfl
@[simp] theorem retire_slot (x : StreamId) (n : Nat) (s : State) : (retire x n s).slot = s.slot := rfl
@[simp] theorem retire_last (x : StreamId) (n : Nat) (s : State) : (retire x n s).last = .retired := rfl
@[simp] theorem retire_judging (x : StreamId) (n : Nat) (s : State) : (retire x n s).judging = s.judging := rfl
@[simp] theorem retire_inputs (x : StreamId) (n : Nat) (s : State) : (retire x n s).inputs = s.inputs := rfl
@[simp] theorem retire_hostWait (x : StreamId) (n : Nat) (s : State) : (retire x n s).hostWait = s.hostWait := rfl
@[simp] theorem retire_outbox (x : StreamId) (n : Nat) (s : State) : (retire x n s).outbox = s.outbox := rfl
@[simp] theorem retire_mem (x : StreamId) (n : Nat) (s : State) : (retire x n s).mem = s.mem := rfl
@[simp] theorem retire_bays (x : StreamId) (n : Nat) (s : State) : (retire x n s).bays = s.bays := rfl
@[simp] theorem retire_bars (x : StreamId) (n : Nat) (s : State) : (retire x n s).bars = s.bars := rfl
@[simp] theorem retire_nodes (x : StreamId) (n : Nat) (s : State) : (retire x n s).nodes = s.nodes := rfl
@[simp] theorem retire_dispatchDue (x : StreamId) (n : Nat) (s : State) : (retire x n s).dispatchDue = s.dispatchDue := rfl
@[simp] theorem retire_ranges (x : StreamId) (n : Nat) (s : State) : (retire x n s).ranges = s.ranges := rfl
@[simp] theorem retire_mailboxes (x : StreamId) (n : Nat) (s : State) : (retire x n s).mailboxes = s.mailboxes := rfl
@[simp] theorem retire_journals (x : StreamId) (n : Nat) (s : State) : (retire x n s).journals = s.journals := rfl
@[simp] theorem retire_blocks (x : StreamId) (n : Nat) (s : State) : (retire x n s).blocks = s.blocks := rfl
@[simp] theorem retire_parts (x : StreamId) (n : Nat) (s : State) : (retire x n s).parts = s.parts := rfl
@[simp] theorem retire_dieMarks (x : StreamId) (n : Nat) (s : State) : (retire x n s).dieMarks = s.dieMarks := rfl
@[simp] theorem retire_foreign (x : StreamId) (n : Nat) (s : State) : (retire x n s).foreign = s.foreign := rfl
@[simp] theorem retire_spaces (x : StreamId) (n : Nat) (s : State) : (retire x n s).spaces = s.spaces := rfl
@[simp] theorem retire_comms (x : StreamId) (n : Nat) (s : State) : (retire x n s).comms = s.comms := rfl
@[simp] theorem retire_colSeqs (x : StreamId) (n : Nat) (s : State) : (retire x n s).colSeqs = s.colSeqs := rfl
@[simp] theorem retire_patches (x : StreamId) (n : Nat) (s : State) : (retire x n s).patches = s.patches := rfl
@[simp] theorem retire_scanned (x : StreamId) (n : Nat) (s : State) : (retire x n s).scanned = s.scanned := rfl
@[simp] theorem retire_links (x : StreamId) (n : Nat) (s : State) : (retire x n s).links = s.links := rfl
@[simp] theorem retire_routes (x : StreamId) (n : Nat) (s : State) : (retire x n s).routes = s.routes := rfl
@[simp] theorem retire_subPorts (x : StreamId) (n : Nat) (s : State) : (retire x n s).subPorts = s.subPorts := rfl
@[simp] theorem retire_fns (x : StreamId) (n : Nat) (s : State) : (retire x n s).fns = s.fns := rfl
@[simp] theorem retire_answers (x : StreamId) (n : Nat) (s : State) : (retire x n s).answers = s.answers := rfl
@[simp] theorem retire_hostPubs (x : StreamId) (n : Nat) (s : State) : (retire x n s).hostPubs = s.hostPubs := rfl
@[simp] theorem retire_gpKnown (x : StreamId) (n : Nat) (s : State) : (retire x n s).gpKnown = s.gpKnown := rfl
@[simp] theorem retire_jrnPend (x : StreamId) (n : Nat) (s : State) : (retire x n s).jrnPend = s.jrnPend := rfl
@[simp] theorem retire_revoking (x : StreamId) (n : Nat) (s : State) : (retire x n s).revoking = s.revoking := rfl
@[simp] theorem retire_shoots (x : StreamId) (n : Nat) (s : State) : (retire x n s).shoots = s.shoots := rfl
@[simp] theorem retire_rowsLost (x : StreamId) (n : Nat) (s : State) : (retire x n s).rowsLost = s.rowsLost := rfl
@[simp] theorem retire_errors (x : StreamId) (n : Nat) (s : State) : (retire x n s).errors = s.errors := rfl
@[simp] theorem retire_retired (x : StreamId) (n : Nat) (s : State) : (retire x n s).retired = s.retired := rfl
@[simp] theorem retire_archives (x : StreamId) (n : Nat) (s : State) : (retire x n s).archives = s.archives := rfl
@[simp] theorem retire_rxRing (x : StreamId) (n : Nat) (s : State) : (retire x n s).rxRing = s.rxRing := rfl
@[simp] theorem retire_rxDropped (x : StreamId) (n : Nat) (s : State) : (retire x n s).rxDropped = s.rxDropped := rfl
@[simp] theorem retire_rank (x : StreamId) (n : Nat) (s : State) : (retire x n s).rank = s.rank := rfl
@[simp] theorem retire_devCount (x : StreamId) (n : Nat) (s : State) : (retire x n s).devCount = s.devCount := rfl
@[simp] theorem retire_partMode (x : StreamId) (n : Nat) (s : State) : (retire x n s).partMode = s.partMode := rfl
@[simp] theorem retire_lx9601 (x : StreamId) (n : Nat) (s : State) : (retire x n s).lx9601 = s.lx9601 := rfl
@[simp] theorem retire_bootstat (x : StreamId) (n : Nat) (s : State) : (retire x n s).bootstat = s.bootstat := rfl
@[simp] theorem retire_boot (x : StreamId) (n : Nat) (s : State) : (retire x n s).boot = s.boot := rfl
@[simp] theorem retire_evidence (x : StreamId) (n : Nat) (s : State) : (retire x n s).evidence = s.evidence := rfl
@[simp] theorem retire_saveSeq (x : StreamId) (n : Nat) (s : State) : (retire x n s).saveSeq = s.saveSeq := rfl
@[simp] theorem retire_stamp (x : StreamId) (n : Nat) (s : State) : (retire x n s).stamp = s.stamp := rfl
@[simp] theorem retire_launches (x : StreamId) (n : Nat) (s : State) : (retire x n s).launches = s.launches := rfl
@[simp] theorem retire_seqs (x : StreamId) (n : Nat) (s : State) : (retire x n s).seqs = s.seqs := rfl
@[simp] theorem retire_fresh (x : StreamId) (n : Nat) (s : State) : (retire x n s).fresh = s.fresh := rfl
@[simp] theorem retire_gpCores (x : StreamId) (n : Nat) (s : State) : (retire x n s).gpCores = s.gpCores := rfl
@[simp] theorem retire_bayServed (x : StreamId) (n : Nat) (s : State) : (retire x n s).bayServed = s.bayServed := rfl

/-! ## issuePast -/

@[simp] theorem issuePast_powered (x : StreamId) (n : Nat) (s : State) : (issuePast x n s).powered = s.powered := rfl
@[simp] theorem issuePast_cycle (x : StreamId) (n : Nat) (s : State) : (issuePast x n s).cycle = s.cycle := rfl
@[simp] theorem issuePast_ptpBase (x : StreamId) (n : Nat) (s : State) : (issuePast x n s).ptpBase = s.ptpBase := rfl
@[simp] theorem issuePast_ptpTop (x : StreamId) (n : Nat) (s : State) : (issuePast x n s).ptpTop = s.ptpTop := rfl
@[simp] theorem issuePast_me (x : StreamId) (n : Nat) (s : State) : (issuePast x n s).me = s.me.mapStrm x (stepPast n s.now) := rfl
@[simp] theorem issuePast_ring (x : StreamId) (n : Nat) (s : State) : (issuePast x n s).ring = s.ring := rfl
@[simp] theorem issuePast_slot (x : StreamId) (n : Nat) (s : State) : (issuePast x n s).slot = s.slot := rfl
@[simp] theorem issuePast_last (x : StreamId) (n : Nat) (s : State) : (issuePast x n s).last = .issued := rfl
@[simp] theorem issuePast_judging (x : StreamId) (n : Nat) (s : State) : (issuePast x n s).judging = s.judging := rfl
@[simp] theorem issuePast_inputs (x : StreamId) (n : Nat) (s : State) : (issuePast x n s).inputs = s.inputs := rfl
@[simp] theorem issuePast_hostWait (x : StreamId) (n : Nat) (s : State) : (issuePast x n s).hostWait = s.hostWait := rfl
@[simp] theorem issuePast_outbox (x : StreamId) (n : Nat) (s : State) : (issuePast x n s).outbox = s.outbox := rfl
@[simp] theorem issuePast_mem (x : StreamId) (n : Nat) (s : State) : (issuePast x n s).mem = s.mem := rfl
@[simp] theorem issuePast_bays (x : StreamId) (n : Nat) (s : State) : (issuePast x n s).bays = s.bays := rfl
@[simp] theorem issuePast_bars (x : StreamId) (n : Nat) (s : State) : (issuePast x n s).bars = s.bars := rfl
@[simp] theorem issuePast_nodes (x : StreamId) (n : Nat) (s : State) : (issuePast x n s).nodes = s.nodes := rfl
@[simp] theorem issuePast_dispatchDue (x : StreamId) (n : Nat) (s : State) : (issuePast x n s).dispatchDue = s.dispatchDue := rfl
@[simp] theorem issuePast_ranges (x : StreamId) (n : Nat) (s : State) : (issuePast x n s).ranges = s.ranges := rfl
@[simp] theorem issuePast_mailboxes (x : StreamId) (n : Nat) (s : State) : (issuePast x n s).mailboxes = s.mailboxes := rfl
@[simp] theorem issuePast_journals (x : StreamId) (n : Nat) (s : State) : (issuePast x n s).journals = s.journals := rfl
@[simp] theorem issuePast_blocks (x : StreamId) (n : Nat) (s : State) : (issuePast x n s).blocks = s.blocks := rfl
@[simp] theorem issuePast_parts (x : StreamId) (n : Nat) (s : State) : (issuePast x n s).parts = s.parts := rfl
@[simp] theorem issuePast_dieMarks (x : StreamId) (n : Nat) (s : State) : (issuePast x n s).dieMarks = s.dieMarks := rfl
@[simp] theorem issuePast_foreign (x : StreamId) (n : Nat) (s : State) : (issuePast x n s).foreign = s.foreign := rfl
@[simp] theorem issuePast_spaces (x : StreamId) (n : Nat) (s : State) : (issuePast x n s).spaces = s.spaces := rfl
@[simp] theorem issuePast_comms (x : StreamId) (n : Nat) (s : State) : (issuePast x n s).comms = s.comms := rfl
@[simp] theorem issuePast_colSeqs (x : StreamId) (n : Nat) (s : State) : (issuePast x n s).colSeqs = s.colSeqs := rfl
@[simp] theorem issuePast_patches (x : StreamId) (n : Nat) (s : State) : (issuePast x n s).patches = s.patches := rfl
@[simp] theorem issuePast_scanned (x : StreamId) (n : Nat) (s : State) : (issuePast x n s).scanned = s.scanned := rfl
@[simp] theorem issuePast_links (x : StreamId) (n : Nat) (s : State) : (issuePast x n s).links = s.links := rfl
@[simp] theorem issuePast_routes (x : StreamId) (n : Nat) (s : State) : (issuePast x n s).routes = s.routes := rfl
@[simp] theorem issuePast_subPorts (x : StreamId) (n : Nat) (s : State) : (issuePast x n s).subPorts = s.subPorts := rfl
@[simp] theorem issuePast_fns (x : StreamId) (n : Nat) (s : State) : (issuePast x n s).fns = s.fns := rfl
@[simp] theorem issuePast_answers (x : StreamId) (n : Nat) (s : State) : (issuePast x n s).answers = s.answers := rfl
@[simp] theorem issuePast_hostPubs (x : StreamId) (n : Nat) (s : State) : (issuePast x n s).hostPubs = s.hostPubs := rfl
@[simp] theorem issuePast_gpKnown (x : StreamId) (n : Nat) (s : State) : (issuePast x n s).gpKnown = s.gpKnown := rfl
@[simp] theorem issuePast_jrnPend (x : StreamId) (n : Nat) (s : State) : (issuePast x n s).jrnPend = s.jrnPend := rfl
@[simp] theorem issuePast_revoking (x : StreamId) (n : Nat) (s : State) : (issuePast x n s).revoking = s.revoking := rfl
@[simp] theorem issuePast_shoots (x : StreamId) (n : Nat) (s : State) : (issuePast x n s).shoots = s.shoots := rfl
@[simp] theorem issuePast_rowsLost (x : StreamId) (n : Nat) (s : State) : (issuePast x n s).rowsLost = s.rowsLost := rfl
@[simp] theorem issuePast_errors (x : StreamId) (n : Nat) (s : State) : (issuePast x n s).errors = s.errors := rfl
@[simp] theorem issuePast_retired (x : StreamId) (n : Nat) (s : State) : (issuePast x n s).retired = s.retired := rfl
@[simp] theorem issuePast_archives (x : StreamId) (n : Nat) (s : State) : (issuePast x n s).archives = s.archives := rfl
@[simp] theorem issuePast_rxRing (x : StreamId) (n : Nat) (s : State) : (issuePast x n s).rxRing = s.rxRing := rfl
@[simp] theorem issuePast_rxDropped (x : StreamId) (n : Nat) (s : State) : (issuePast x n s).rxDropped = s.rxDropped := rfl
@[simp] theorem issuePast_rank (x : StreamId) (n : Nat) (s : State) : (issuePast x n s).rank = s.rank := rfl
@[simp] theorem issuePast_devCount (x : StreamId) (n : Nat) (s : State) : (issuePast x n s).devCount = s.devCount := rfl
@[simp] theorem issuePast_partMode (x : StreamId) (n : Nat) (s : State) : (issuePast x n s).partMode = s.partMode := rfl
@[simp] theorem issuePast_lx9601 (x : StreamId) (n : Nat) (s : State) : (issuePast x n s).lx9601 = s.lx9601 := rfl
@[simp] theorem issuePast_bootstat (x : StreamId) (n : Nat) (s : State) : (issuePast x n s).bootstat = s.bootstat := rfl
@[simp] theorem issuePast_boot (x : StreamId) (n : Nat) (s : State) : (issuePast x n s).boot = s.boot := rfl
@[simp] theorem issuePast_evidence (x : StreamId) (n : Nat) (s : State) : (issuePast x n s).evidence = s.evidence := rfl
@[simp] theorem issuePast_saveSeq (x : StreamId) (n : Nat) (s : State) : (issuePast x n s).saveSeq = s.saveSeq := rfl
@[simp] theorem issuePast_stamp (x : StreamId) (n : Nat) (s : State) : (issuePast x n s).stamp = s.stamp := rfl
@[simp] theorem issuePast_launches (x : StreamId) (n : Nat) (s : State) : (issuePast x n s).launches = s.launches := rfl
@[simp] theorem issuePast_seqs (x : StreamId) (n : Nat) (s : State) : (issuePast x n s).seqs = s.seqs := rfl
@[simp] theorem issuePast_fresh (x : StreamId) (n : Nat) (s : State) : (issuePast x n s).fresh = s.fresh := rfl
@[simp] theorem issuePast_gpCores (x : StreamId) (n : Nat) (s : State) : (issuePast x n s).gpCores = s.gpCores := rfl
@[simp] theorem issuePast_bayServed (x : StreamId) (n : Nat) (s : State) : (issuePast x n s).bayServed = s.bayServed := rfl

/-! ## jump -/

@[simp] theorem jump_powered (x : StreamId) (a : W64) (s : State) : (jump x a s).powered = s.powered := rfl
@[simp] theorem jump_cycle (x : StreamId) (a : W64) (s : State) : (jump x a s).cycle = s.cycle := rfl
@[simp] theorem jump_ptpBase (x : StreamId) (a : W64) (s : State) : (jump x a s).ptpBase = s.ptpBase := rfl
@[simp] theorem jump_ptpTop (x : StreamId) (a : W64) (s : State) : (jump x a s).ptpTop = s.ptpTop := rfl
@[simp] theorem jump_me (x : StreamId) (a : W64) (s : State) : (jump x a s).me = s.me.mapStrm x fun t => countRetired { t with pc := a, loops := loopJump a t.loops, ref := s.now + 1 } := rfl
@[simp] theorem jump_ring (x : StreamId) (a : W64) (s : State) : (jump x a s).ring = s.ring := rfl
@[simp] theorem jump_slot (x : StreamId) (a : W64) (s : State) : (jump x a s).slot = s.slot := rfl
@[simp] theorem jump_last (x : StreamId) (a : W64) (s : State) : (jump x a s).last = .retired := rfl
@[simp] theorem jump_judging (x : StreamId) (a : W64) (s : State) : (jump x a s).judging = s.judging := rfl
@[simp] theorem jump_inputs (x : StreamId) (a : W64) (s : State) : (jump x a s).inputs = s.inputs := rfl
@[simp] theorem jump_hostWait (x : StreamId) (a : W64) (s : State) : (jump x a s).hostWait = s.hostWait := rfl
@[simp] theorem jump_outbox (x : StreamId) (a : W64) (s : State) : (jump x a s).outbox = s.outbox := rfl
@[simp] theorem jump_mem (x : StreamId) (a : W64) (s : State) : (jump x a s).mem = s.mem := rfl
@[simp] theorem jump_bays (x : StreamId) (a : W64) (s : State) : (jump x a s).bays = s.bays := rfl
@[simp] theorem jump_bars (x : StreamId) (a : W64) (s : State) : (jump x a s).bars = s.bars := rfl
@[simp] theorem jump_nodes (x : StreamId) (a : W64) (s : State) : (jump x a s).nodes = s.nodes := rfl
@[simp] theorem jump_dispatchDue (x : StreamId) (a : W64) (s : State) : (jump x a s).dispatchDue = s.dispatchDue := rfl
@[simp] theorem jump_ranges (x : StreamId) (a : W64) (s : State) : (jump x a s).ranges = s.ranges := rfl
@[simp] theorem jump_mailboxes (x : StreamId) (a : W64) (s : State) : (jump x a s).mailboxes = s.mailboxes := rfl
@[simp] theorem jump_journals (x : StreamId) (a : W64) (s : State) : (jump x a s).journals = s.journals := rfl
@[simp] theorem jump_blocks (x : StreamId) (a : W64) (s : State) : (jump x a s).blocks = s.blocks := rfl
@[simp] theorem jump_parts (x : StreamId) (a : W64) (s : State) : (jump x a s).parts = s.parts := rfl
@[simp] theorem jump_dieMarks (x : StreamId) (a : W64) (s : State) : (jump x a s).dieMarks = s.dieMarks := rfl
@[simp] theorem jump_foreign (x : StreamId) (a : W64) (s : State) : (jump x a s).foreign = s.foreign := rfl
@[simp] theorem jump_spaces (x : StreamId) (a : W64) (s : State) : (jump x a s).spaces = s.spaces := rfl
@[simp] theorem jump_comms (x : StreamId) (a : W64) (s : State) : (jump x a s).comms = s.comms := rfl
@[simp] theorem jump_colSeqs (x : StreamId) (a : W64) (s : State) : (jump x a s).colSeqs = s.colSeqs := rfl
@[simp] theorem jump_patches (x : StreamId) (a : W64) (s : State) : (jump x a s).patches = s.patches := rfl
@[simp] theorem jump_scanned (x : StreamId) (a : W64) (s : State) : (jump x a s).scanned = s.scanned := rfl
@[simp] theorem jump_links (x : StreamId) (a : W64) (s : State) : (jump x a s).links = s.links := rfl
@[simp] theorem jump_routes (x : StreamId) (a : W64) (s : State) : (jump x a s).routes = s.routes := rfl
@[simp] theorem jump_subPorts (x : StreamId) (a : W64) (s : State) : (jump x a s).subPorts = s.subPorts := rfl
@[simp] theorem jump_fns (x : StreamId) (a : W64) (s : State) : (jump x a s).fns = s.fns := rfl
@[simp] theorem jump_answers (x : StreamId) (a : W64) (s : State) : (jump x a s).answers = s.answers := rfl
@[simp] theorem jump_hostPubs (x : StreamId) (a : W64) (s : State) : (jump x a s).hostPubs = s.hostPubs := rfl
@[simp] theorem jump_gpKnown (x : StreamId) (a : W64) (s : State) : (jump x a s).gpKnown = s.gpKnown := rfl
@[simp] theorem jump_jrnPend (x : StreamId) (a : W64) (s : State) : (jump x a s).jrnPend = s.jrnPend := rfl
@[simp] theorem jump_revoking (x : StreamId) (a : W64) (s : State) : (jump x a s).revoking = s.revoking := rfl
@[simp] theorem jump_shoots (x : StreamId) (a : W64) (s : State) : (jump x a s).shoots = s.shoots := rfl
@[simp] theorem jump_rowsLost (x : StreamId) (a : W64) (s : State) : (jump x a s).rowsLost = s.rowsLost := rfl
@[simp] theorem jump_errors (x : StreamId) (a : W64) (s : State) : (jump x a s).errors = s.errors := rfl
@[simp] theorem jump_retired (x : StreamId) (a : W64) (s : State) : (jump x a s).retired = s.retired := rfl
@[simp] theorem jump_archives (x : StreamId) (a : W64) (s : State) : (jump x a s).archives = s.archives := rfl
@[simp] theorem jump_rxRing (x : StreamId) (a : W64) (s : State) : (jump x a s).rxRing = s.rxRing := rfl
@[simp] theorem jump_rxDropped (x : StreamId) (a : W64) (s : State) : (jump x a s).rxDropped = s.rxDropped := rfl
@[simp] theorem jump_rank (x : StreamId) (a : W64) (s : State) : (jump x a s).rank = s.rank := rfl
@[simp] theorem jump_devCount (x : StreamId) (a : W64) (s : State) : (jump x a s).devCount = s.devCount := rfl
@[simp] theorem jump_partMode (x : StreamId) (a : W64) (s : State) : (jump x a s).partMode = s.partMode := rfl
@[simp] theorem jump_lx9601 (x : StreamId) (a : W64) (s : State) : (jump x a s).lx9601 = s.lx9601 := rfl
@[simp] theorem jump_bootstat (x : StreamId) (a : W64) (s : State) : (jump x a s).bootstat = s.bootstat := rfl
@[simp] theorem jump_boot (x : StreamId) (a : W64) (s : State) : (jump x a s).boot = s.boot := rfl
@[simp] theorem jump_evidence (x : StreamId) (a : W64) (s : State) : (jump x a s).evidence = s.evidence := rfl
@[simp] theorem jump_saveSeq (x : StreamId) (a : W64) (s : State) : (jump x a s).saveSeq = s.saveSeq := rfl
@[simp] theorem jump_stamp (x : StreamId) (a : W64) (s : State) : (jump x a s).stamp = s.stamp := rfl
@[simp] theorem jump_launches (x : StreamId) (a : W64) (s : State) : (jump x a s).launches = s.launches := rfl
@[simp] theorem jump_seqs (x : StreamId) (a : W64) (s : State) : (jump x a s).seqs = s.seqs := rfl
@[simp] theorem jump_fresh (x : StreamId) (a : W64) (s : State) : (jump x a s).fresh = s.fresh := rfl
@[simp] theorem jump_gpCores (x : StreamId) (a : W64) (s : State) : (jump x a s).gpCores = s.gpCores := rfl
@[simp] theorem jump_bayServed (x : StreamId) (a : W64) (s : State) : (jump x a s).bayServed = s.bayServed := rfl

/-! ## State.emit -/

@[simp] theorem State.emit_powered (s : State) (o : Out) : (s.emit o).powered = s.powered := rfl
@[simp] theorem State.emit_cycle (s : State) (o : Out) : (s.emit o).cycle = s.cycle := rfl
@[simp] theorem State.emit_ptpBase (s : State) (o : Out) : (s.emit o).ptpBase = s.ptpBase := rfl
@[simp] theorem State.emit_ptpTop (s : State) (o : Out) : (s.emit o).ptpTop = s.ptpTop := rfl
@[simp] theorem State.emit_me (s : State) (o : Out) : (s.emit o).me = s.me := rfl
@[simp] theorem State.emit_ring (s : State) (o : Out) : (s.emit o).ring = s.ring := rfl
@[simp] theorem State.emit_slot (s : State) (o : Out) : (s.emit o).slot = s.slot := rfl
@[simp] theorem State.emit_last (s : State) (o : Out) : (s.emit o).last = s.last := rfl
@[simp] theorem State.emit_judging (s : State) (o : Out) : (s.emit o).judging = s.judging := rfl
@[simp] theorem State.emit_inputs (s : State) (o : Out) : (s.emit o).inputs = s.inputs := rfl
@[simp] theorem State.emit_hostWait (s : State) (o : Out) : (s.emit o).hostWait = s.hostWait := rfl
@[simp] theorem State.emit_outbox (s : State) (o : Out) : (s.emit o).outbox = s.outbox ++ [o] := rfl
@[simp] theorem State.emit_mem (s : State) (o : Out) : (s.emit o).mem = s.mem := rfl
@[simp] theorem State.emit_bays (s : State) (o : Out) : (s.emit o).bays = s.bays := rfl
@[simp] theorem State.emit_bars (s : State) (o : Out) : (s.emit o).bars = s.bars := rfl
@[simp] theorem State.emit_nodes (s : State) (o : Out) : (s.emit o).nodes = s.nodes := rfl
@[simp] theorem State.emit_dispatchDue (s : State) (o : Out) : (s.emit o).dispatchDue = s.dispatchDue := rfl
@[simp] theorem State.emit_ranges (s : State) (o : Out) : (s.emit o).ranges = s.ranges := rfl
@[simp] theorem State.emit_mailboxes (s : State) (o : Out) : (s.emit o).mailboxes = s.mailboxes := rfl
@[simp] theorem State.emit_journals (s : State) (o : Out) : (s.emit o).journals = s.journals := rfl
@[simp] theorem State.emit_blocks (s : State) (o : Out) : (s.emit o).blocks = s.blocks := rfl
@[simp] theorem State.emit_parts (s : State) (o : Out) : (s.emit o).parts = s.parts := rfl
@[simp] theorem State.emit_dieMarks (s : State) (o : Out) : (s.emit o).dieMarks = s.dieMarks := rfl
@[simp] theorem State.emit_foreign (s : State) (o : Out) : (s.emit o).foreign = s.foreign := rfl
@[simp] theorem State.emit_spaces (s : State) (o : Out) : (s.emit o).spaces = s.spaces := rfl
@[simp] theorem State.emit_comms (s : State) (o : Out) : (s.emit o).comms = s.comms := rfl
@[simp] theorem State.emit_colSeqs (s : State) (o : Out) : (s.emit o).colSeqs = s.colSeqs := rfl
@[simp] theorem State.emit_patches (s : State) (o : Out) : (s.emit o).patches = s.patches := rfl
@[simp] theorem State.emit_scanned (s : State) (o : Out) : (s.emit o).scanned = s.scanned := rfl
@[simp] theorem State.emit_links (s : State) (o : Out) : (s.emit o).links = s.links := rfl
@[simp] theorem State.emit_routes (s : State) (o : Out) : (s.emit o).routes = s.routes := rfl
@[simp] theorem State.emit_subPorts (s : State) (o : Out) : (s.emit o).subPorts = s.subPorts := rfl
@[simp] theorem State.emit_fns (s : State) (o : Out) : (s.emit o).fns = s.fns := rfl
@[simp] theorem State.emit_answers (s : State) (o : Out) : (s.emit o).answers = s.answers := rfl
@[simp] theorem State.emit_hostPubs (s : State) (o : Out) : (s.emit o).hostPubs = s.hostPubs := rfl
@[simp] theorem State.emit_gpKnown (s : State) (o : Out) : (s.emit o).gpKnown = s.gpKnown := rfl
@[simp] theorem State.emit_jrnPend (s : State) (o : Out) : (s.emit o).jrnPend = s.jrnPend := rfl
@[simp] theorem State.emit_revoking (s : State) (o : Out) : (s.emit o).revoking = s.revoking := rfl
@[simp] theorem State.emit_shoots (s : State) (o : Out) : (s.emit o).shoots = s.shoots := rfl
@[simp] theorem State.emit_rowsLost (s : State) (o : Out) : (s.emit o).rowsLost = s.rowsLost := rfl
@[simp] theorem State.emit_errors (s : State) (o : Out) : (s.emit o).errors = s.errors := rfl
@[simp] theorem State.emit_retired (s : State) (o : Out) : (s.emit o).retired = s.retired := rfl
@[simp] theorem State.emit_archives (s : State) (o : Out) : (s.emit o).archives = s.archives := rfl
@[simp] theorem State.emit_rxRing (s : State) (o : Out) : (s.emit o).rxRing = s.rxRing := rfl
@[simp] theorem State.emit_rxDropped (s : State) (o : Out) : (s.emit o).rxDropped = s.rxDropped := rfl
@[simp] theorem State.emit_rank (s : State) (o : Out) : (s.emit o).rank = s.rank := rfl
@[simp] theorem State.emit_devCount (s : State) (o : Out) : (s.emit o).devCount = s.devCount := rfl
@[simp] theorem State.emit_partMode (s : State) (o : Out) : (s.emit o).partMode = s.partMode := rfl
@[simp] theorem State.emit_lx9601 (s : State) (o : Out) : (s.emit o).lx9601 = s.lx9601 := rfl
@[simp] theorem State.emit_bootstat (s : State) (o : Out) : (s.emit o).bootstat = s.bootstat := rfl
@[simp] theorem State.emit_boot (s : State) (o : Out) : (s.emit o).boot = s.boot := rfl
@[simp] theorem State.emit_evidence (s : State) (o : Out) : (s.emit o).evidence = s.evidence := rfl
@[simp] theorem State.emit_saveSeq (s : State) (o : Out) : (s.emit o).saveSeq = s.saveSeq := rfl
@[simp] theorem State.emit_stamp (s : State) (o : Out) : (s.emit o).stamp = s.stamp := rfl
@[simp] theorem State.emit_launches (s : State) (o : Out) : (s.emit o).launches = s.launches := rfl
@[simp] theorem State.emit_seqs (s : State) (o : Out) : (s.emit o).seqs = s.seqs := rfl
@[simp] theorem State.emit_fresh (s : State) (o : Out) : (s.emit o).fresh = s.fresh := rfl
@[simp] theorem State.emit_gpCores (s : State) (o : Out) : (s.emit o).gpCores = s.gpCores := rfl
@[simp] theorem State.emit_bayServed (s : State) (o : Out) : (s.emit o).bayServed = s.bayServed := rfl

/-! ## State.bumpFresh -/

@[simp] theorem State.bumpFresh_powered (s : State) : s.bumpFresh.powered = s.powered := rfl
@[simp] theorem State.bumpFresh_cycle (s : State) : s.bumpFresh.cycle = s.cycle := rfl
@[simp] theorem State.bumpFresh_ptpBase (s : State) : s.bumpFresh.ptpBase = s.ptpBase := rfl
@[simp] theorem State.bumpFresh_ptpTop (s : State) : s.bumpFresh.ptpTop = s.ptpTop := rfl
@[simp] theorem State.bumpFresh_me (s : State) : s.bumpFresh.me = s.me := rfl
@[simp] theorem State.bumpFresh_ring (s : State) : s.bumpFresh.ring = s.ring := rfl
@[simp] theorem State.bumpFresh_slot (s : State) : s.bumpFresh.slot = s.slot := rfl
@[simp] theorem State.bumpFresh_last (s : State) : s.bumpFresh.last = s.last := rfl
@[simp] theorem State.bumpFresh_judging (s : State) : s.bumpFresh.judging = s.judging := rfl
@[simp] theorem State.bumpFresh_inputs (s : State) : s.bumpFresh.inputs = s.inputs := rfl
@[simp] theorem State.bumpFresh_hostWait (s : State) : s.bumpFresh.hostWait = s.hostWait := rfl
@[simp] theorem State.bumpFresh_outbox (s : State) : s.bumpFresh.outbox = s.outbox := rfl
@[simp] theorem State.bumpFresh_mem (s : State) : s.bumpFresh.mem = s.mem := rfl
@[simp] theorem State.bumpFresh_bays (s : State) : s.bumpFresh.bays = s.bays := rfl
@[simp] theorem State.bumpFresh_bars (s : State) : s.bumpFresh.bars = s.bars := rfl
@[simp] theorem State.bumpFresh_nodes (s : State) : s.bumpFresh.nodes = s.nodes := rfl
@[simp] theorem State.bumpFresh_dispatchDue (s : State) : s.bumpFresh.dispatchDue = s.dispatchDue := rfl
@[simp] theorem State.bumpFresh_ranges (s : State) : s.bumpFresh.ranges = s.ranges := rfl
@[simp] theorem State.bumpFresh_mailboxes (s : State) : s.bumpFresh.mailboxes = s.mailboxes := rfl
@[simp] theorem State.bumpFresh_journals (s : State) : s.bumpFresh.journals = s.journals := rfl
@[simp] theorem State.bumpFresh_blocks (s : State) : s.bumpFresh.blocks = s.blocks := rfl
@[simp] theorem State.bumpFresh_parts (s : State) : s.bumpFresh.parts = s.parts := rfl
@[simp] theorem State.bumpFresh_dieMarks (s : State) : s.bumpFresh.dieMarks = s.dieMarks := rfl
@[simp] theorem State.bumpFresh_foreign (s : State) : s.bumpFresh.foreign = s.foreign := rfl
@[simp] theorem State.bumpFresh_spaces (s : State) : s.bumpFresh.spaces = s.spaces := rfl
@[simp] theorem State.bumpFresh_comms (s : State) : s.bumpFresh.comms = s.comms := rfl
@[simp] theorem State.bumpFresh_colSeqs (s : State) : s.bumpFresh.colSeqs = s.colSeqs := rfl
@[simp] theorem State.bumpFresh_patches (s : State) : s.bumpFresh.patches = s.patches := rfl
@[simp] theorem State.bumpFresh_scanned (s : State) : s.bumpFresh.scanned = s.scanned := rfl
@[simp] theorem State.bumpFresh_links (s : State) : s.bumpFresh.links = s.links := rfl
@[simp] theorem State.bumpFresh_routes (s : State) : s.bumpFresh.routes = s.routes := rfl
@[simp] theorem State.bumpFresh_subPorts (s : State) : s.bumpFresh.subPorts = s.subPorts := rfl
@[simp] theorem State.bumpFresh_fns (s : State) : s.bumpFresh.fns = s.fns := rfl
@[simp] theorem State.bumpFresh_answers (s : State) : s.bumpFresh.answers = s.answers := rfl
@[simp] theorem State.bumpFresh_hostPubs (s : State) : s.bumpFresh.hostPubs = s.hostPubs := rfl
@[simp] theorem State.bumpFresh_gpKnown (s : State) : s.bumpFresh.gpKnown = s.gpKnown := rfl
@[simp] theorem State.bumpFresh_jrnPend (s : State) : s.bumpFresh.jrnPend = s.jrnPend := rfl
@[simp] theorem State.bumpFresh_revoking (s : State) : s.bumpFresh.revoking = s.revoking := rfl
@[simp] theorem State.bumpFresh_shoots (s : State) : s.bumpFresh.shoots = s.shoots := rfl
@[simp] theorem State.bumpFresh_rowsLost (s : State) : s.bumpFresh.rowsLost = s.rowsLost := rfl
@[simp] theorem State.bumpFresh_errors (s : State) : s.bumpFresh.errors = s.errors := rfl
@[simp] theorem State.bumpFresh_retired (s : State) : s.bumpFresh.retired = s.retired := rfl
@[simp] theorem State.bumpFresh_archives (s : State) : s.bumpFresh.archives = s.archives := rfl
@[simp] theorem State.bumpFresh_rxRing (s : State) : s.bumpFresh.rxRing = s.rxRing := rfl
@[simp] theorem State.bumpFresh_rxDropped (s : State) : s.bumpFresh.rxDropped = s.rxDropped := rfl
@[simp] theorem State.bumpFresh_rank (s : State) : s.bumpFresh.rank = s.rank := rfl
@[simp] theorem State.bumpFresh_devCount (s : State) : s.bumpFresh.devCount = s.devCount := rfl
@[simp] theorem State.bumpFresh_partMode (s : State) : s.bumpFresh.partMode = s.partMode := rfl
@[simp] theorem State.bumpFresh_lx9601 (s : State) : s.bumpFresh.lx9601 = s.lx9601 := rfl
@[simp] theorem State.bumpFresh_bootstat (s : State) : s.bumpFresh.bootstat = s.bootstat := rfl
@[simp] theorem State.bumpFresh_boot (s : State) : s.bumpFresh.boot = s.boot := rfl
@[simp] theorem State.bumpFresh_evidence (s : State) : s.bumpFresh.evidence = s.evidence := rfl
@[simp] theorem State.bumpFresh_saveSeq (s : State) : s.bumpFresh.saveSeq = s.saveSeq := rfl
@[simp] theorem State.bumpFresh_stamp (s : State) : s.bumpFresh.stamp = s.stamp := rfl
@[simp] theorem State.bumpFresh_launches (s : State) : s.bumpFresh.launches = s.launches := rfl
@[simp] theorem State.bumpFresh_seqs (s : State) : s.bumpFresh.seqs = s.seqs := rfl
@[simp] theorem State.bumpFresh_fresh (s : State) : s.bumpFresh.fresh = s.fresh + 1 := rfl
@[simp] theorem State.bumpFresh_gpCores (s : State) : s.bumpFresh.gpCores = s.gpCores := rfl
@[simp] theorem State.bumpFresh_bayServed (s : State) : s.bumpFresh.bayServed = s.bayServed := rfl

/-! ## State.setBay -/

@[simp] theorem State.setBay_powered (s : State) (b : Bay) : (s.setBay b).powered = s.powered := rfl
@[simp] theorem State.setBay_cycle (s : State) (b : Bay) : (s.setBay b).cycle = s.cycle := rfl
@[simp] theorem State.setBay_ptpBase (s : State) (b : Bay) : (s.setBay b).ptpBase = s.ptpBase := rfl
@[simp] theorem State.setBay_ptpTop (s : State) (b : Bay) : (s.setBay b).ptpTop = s.ptpTop := rfl
@[simp] theorem State.setBay_me (s : State) (b : Bay) : (s.setBay b).me = s.me := rfl
@[simp] theorem State.setBay_ring (s : State) (b : Bay) : (s.setBay b).ring = s.ring := rfl
@[simp] theorem State.setBay_slot (s : State) (b : Bay) : (s.setBay b).slot = s.slot := rfl
@[simp] theorem State.setBay_last (s : State) (b : Bay) : (s.setBay b).last = s.last := rfl
@[simp] theorem State.setBay_judging (s : State) (b : Bay) : (s.setBay b).judging = s.judging := rfl
@[simp] theorem State.setBay_inputs (s : State) (b : Bay) : (s.setBay b).inputs = s.inputs := rfl
@[simp] theorem State.setBay_hostWait (s : State) (b : Bay) : (s.setBay b).hostWait = s.hostWait := rfl
@[simp] theorem State.setBay_outbox (s : State) (b : Bay) : (s.setBay b).outbox = s.outbox := rfl
@[simp] theorem State.setBay_mem (s : State) (b : Bay) : (s.setBay b).mem = s.mem := rfl
@[simp] theorem State.setBay_bays (s : State) (b : Bay) : (s.setBay b).bays = b :: s.bays.filter fun x => !(x.die == b.die && x.num == b.num) := rfl
@[simp] theorem State.setBay_bars (s : State) (b : Bay) : (s.setBay b).bars = s.bars := rfl
@[simp] theorem State.setBay_nodes (s : State) (b : Bay) : (s.setBay b).nodes = s.nodes := rfl
@[simp] theorem State.setBay_dispatchDue (s : State) (b : Bay) : (s.setBay b).dispatchDue = s.dispatchDue := rfl
@[simp] theorem State.setBay_ranges (s : State) (b : Bay) : (s.setBay b).ranges = s.ranges := rfl
@[simp] theorem State.setBay_mailboxes (s : State) (b : Bay) : (s.setBay b).mailboxes = s.mailboxes := rfl
@[simp] theorem State.setBay_journals (s : State) (b : Bay) : (s.setBay b).journals = s.journals := rfl
@[simp] theorem State.setBay_blocks (s : State) (b : Bay) : (s.setBay b).blocks = s.blocks := rfl
@[simp] theorem State.setBay_parts (s : State) (b : Bay) : (s.setBay b).parts = s.parts := rfl
@[simp] theorem State.setBay_dieMarks (s : State) (b : Bay) : (s.setBay b).dieMarks = s.dieMarks := rfl
@[simp] theorem State.setBay_foreign (s : State) (b : Bay) : (s.setBay b).foreign = s.foreign := rfl
@[simp] theorem State.setBay_spaces (s : State) (b : Bay) : (s.setBay b).spaces = s.spaces := rfl
@[simp] theorem State.setBay_comms (s : State) (b : Bay) : (s.setBay b).comms = s.comms := rfl
@[simp] theorem State.setBay_colSeqs (s : State) (b : Bay) : (s.setBay b).colSeqs = s.colSeqs := rfl
@[simp] theorem State.setBay_patches (s : State) (b : Bay) : (s.setBay b).patches = s.patches := rfl
@[simp] theorem State.setBay_scanned (s : State) (b : Bay) : (s.setBay b).scanned = s.scanned := rfl
@[simp] theorem State.setBay_links (s : State) (b : Bay) : (s.setBay b).links = s.links := rfl
@[simp] theorem State.setBay_routes (s : State) (b : Bay) : (s.setBay b).routes = s.routes := rfl
@[simp] theorem State.setBay_subPorts (s : State) (b : Bay) : (s.setBay b).subPorts = s.subPorts := rfl
@[simp] theorem State.setBay_fns (s : State) (b : Bay) : (s.setBay b).fns = s.fns := rfl
@[simp] theorem State.setBay_answers (s : State) (b : Bay) : (s.setBay b).answers = s.answers := rfl
@[simp] theorem State.setBay_hostPubs (s : State) (b : Bay) : (s.setBay b).hostPubs = s.hostPubs := rfl
@[simp] theorem State.setBay_gpKnown (s : State) (b : Bay) : (s.setBay b).gpKnown = s.gpKnown := rfl
@[simp] theorem State.setBay_jrnPend (s : State) (b : Bay) : (s.setBay b).jrnPend = s.jrnPend := rfl
@[simp] theorem State.setBay_revoking (s : State) (b : Bay) : (s.setBay b).revoking = s.revoking := rfl
@[simp] theorem State.setBay_shoots (s : State) (b : Bay) : (s.setBay b).shoots = s.shoots := rfl
@[simp] theorem State.setBay_rowsLost (s : State) (b : Bay) : (s.setBay b).rowsLost = s.rowsLost := rfl
@[simp] theorem State.setBay_errors (s : State) (b : Bay) : (s.setBay b).errors = s.errors := rfl
@[simp] theorem State.setBay_retired (s : State) (b : Bay) : (s.setBay b).retired = s.retired := rfl
@[simp] theorem State.setBay_archives (s : State) (b : Bay) : (s.setBay b).archives = s.archives := rfl
@[simp] theorem State.setBay_rxRing (s : State) (b : Bay) : (s.setBay b).rxRing = s.rxRing := rfl
@[simp] theorem State.setBay_rxDropped (s : State) (b : Bay) : (s.setBay b).rxDropped = s.rxDropped := rfl
@[simp] theorem State.setBay_rank (s : State) (b : Bay) : (s.setBay b).rank = s.rank := rfl
@[simp] theorem State.setBay_devCount (s : State) (b : Bay) : (s.setBay b).devCount = s.devCount := rfl
@[simp] theorem State.setBay_partMode (s : State) (b : Bay) : (s.setBay b).partMode = s.partMode := rfl
@[simp] theorem State.setBay_lx9601 (s : State) (b : Bay) : (s.setBay b).lx9601 = s.lx9601 := rfl
@[simp] theorem State.setBay_bootstat (s : State) (b : Bay) : (s.setBay b).bootstat = s.bootstat := rfl
@[simp] theorem State.setBay_boot (s : State) (b : Bay) : (s.setBay b).boot = s.boot := rfl
@[simp] theorem State.setBay_evidence (s : State) (b : Bay) : (s.setBay b).evidence = s.evidence := rfl
@[simp] theorem State.setBay_saveSeq (s : State) (b : Bay) : (s.setBay b).saveSeq = s.saveSeq := rfl
@[simp] theorem State.setBay_stamp (s : State) (b : Bay) : (s.setBay b).stamp = s.stamp := rfl
@[simp] theorem State.setBay_launches (s : State) (b : Bay) : (s.setBay b).launches = s.launches := rfl
@[simp] theorem State.setBay_seqs (s : State) (b : Bay) : (s.setBay b).seqs = s.seqs := rfl
@[simp] theorem State.setBay_fresh (s : State) (b : Bay) : (s.setBay b).fresh = s.fresh := rfl
@[simp] theorem State.setBay_gpCores (s : State) (b : Bay) : (s.setBay b).gpCores = s.gpCores := rfl
@[simp] theorem State.setBay_bayServed (s : State) (b : Bay) : (s.setBay b).bayServed = s.bayServed := rfl

/-! ## State.setMbx -/

@[simp] theorem State.setMbx_powered (s : State) (m : Mbx) : (s.setMbx m).powered = s.powered := rfl
@[simp] theorem State.setMbx_cycle (s : State) (m : Mbx) : (s.setMbx m).cycle = s.cycle := rfl
@[simp] theorem State.setMbx_ptpBase (s : State) (m : Mbx) : (s.setMbx m).ptpBase = s.ptpBase := rfl
@[simp] theorem State.setMbx_ptpTop (s : State) (m : Mbx) : (s.setMbx m).ptpTop = s.ptpTop := rfl
@[simp] theorem State.setMbx_me (s : State) (m : Mbx) : (s.setMbx m).me = s.me := rfl
@[simp] theorem State.setMbx_ring (s : State) (m : Mbx) : (s.setMbx m).ring = s.ring := rfl
@[simp] theorem State.setMbx_slot (s : State) (m : Mbx) : (s.setMbx m).slot = s.slot := rfl
@[simp] theorem State.setMbx_last (s : State) (m : Mbx) : (s.setMbx m).last = s.last := rfl
@[simp] theorem State.setMbx_judging (s : State) (m : Mbx) : (s.setMbx m).judging = s.judging := rfl
@[simp] theorem State.setMbx_inputs (s : State) (m : Mbx) : (s.setMbx m).inputs = s.inputs := rfl
@[simp] theorem State.setMbx_hostWait (s : State) (m : Mbx) : (s.setMbx m).hostWait = s.hostWait := rfl
@[simp] theorem State.setMbx_outbox (s : State) (m : Mbx) : (s.setMbx m).outbox = s.outbox := rfl
@[simp] theorem State.setMbx_mem (s : State) (m : Mbx) : (s.setMbx m).mem = s.mem := rfl
@[simp] theorem State.setMbx_bays (s : State) (m : Mbx) : (s.setMbx m).bays = s.bays := rfl
@[simp] theorem State.setMbx_bars (s : State) (m : Mbx) : (s.setMbx m).bars = s.bars := rfl
@[simp] theorem State.setMbx_nodes (s : State) (m : Mbx) : (s.setMbx m).nodes = s.nodes := rfl
@[simp] theorem State.setMbx_dispatchDue (s : State) (m : Mbx) : (s.setMbx m).dispatchDue = s.dispatchDue := rfl
@[simp] theorem State.setMbx_ranges (s : State) (m : Mbx) : (s.setMbx m).ranges = s.ranges := rfl
@[simp] theorem State.setMbx_mailboxes (s : State) (m : Mbx) : (s.setMbx m).mailboxes = m :: s.mailboxes.filter fun x => !(x.die == m.die && x.num == m.num) := rfl
@[simp] theorem State.setMbx_journals (s : State) (m : Mbx) : (s.setMbx m).journals = s.journals := rfl
@[simp] theorem State.setMbx_blocks (s : State) (m : Mbx) : (s.setMbx m).blocks = s.blocks := rfl
@[simp] theorem State.setMbx_parts (s : State) (m : Mbx) : (s.setMbx m).parts = s.parts := rfl
@[simp] theorem State.setMbx_dieMarks (s : State) (m : Mbx) : (s.setMbx m).dieMarks = s.dieMarks := rfl
@[simp] theorem State.setMbx_foreign (s : State) (m : Mbx) : (s.setMbx m).foreign = s.foreign := rfl
@[simp] theorem State.setMbx_spaces (s : State) (m : Mbx) : (s.setMbx m).spaces = s.spaces := rfl
@[simp] theorem State.setMbx_comms (s : State) (m : Mbx) : (s.setMbx m).comms = s.comms := rfl
@[simp] theorem State.setMbx_colSeqs (s : State) (m : Mbx) : (s.setMbx m).colSeqs = s.colSeqs := rfl
@[simp] theorem State.setMbx_patches (s : State) (m : Mbx) : (s.setMbx m).patches = s.patches := rfl
@[simp] theorem State.setMbx_scanned (s : State) (m : Mbx) : (s.setMbx m).scanned = s.scanned := rfl
@[simp] theorem State.setMbx_links (s : State) (m : Mbx) : (s.setMbx m).links = s.links := rfl
@[simp] theorem State.setMbx_routes (s : State) (m : Mbx) : (s.setMbx m).routes = s.routes := rfl
@[simp] theorem State.setMbx_subPorts (s : State) (m : Mbx) : (s.setMbx m).subPorts = s.subPorts := rfl
@[simp] theorem State.setMbx_fns (s : State) (m : Mbx) : (s.setMbx m).fns = s.fns := rfl
@[simp] theorem State.setMbx_answers (s : State) (m : Mbx) : (s.setMbx m).answers = s.answers := rfl
@[simp] theorem State.setMbx_hostPubs (s : State) (m : Mbx) : (s.setMbx m).hostPubs = s.hostPubs := rfl
@[simp] theorem State.setMbx_gpKnown (s : State) (m : Mbx) : (s.setMbx m).gpKnown = s.gpKnown := rfl
@[simp] theorem State.setMbx_jrnPend (s : State) (m : Mbx) : (s.setMbx m).jrnPend = s.jrnPend := rfl
@[simp] theorem State.setMbx_revoking (s : State) (m : Mbx) : (s.setMbx m).revoking = s.revoking := rfl
@[simp] theorem State.setMbx_shoots (s : State) (m : Mbx) : (s.setMbx m).shoots = s.shoots := rfl
@[simp] theorem State.setMbx_rowsLost (s : State) (m : Mbx) : (s.setMbx m).rowsLost = s.rowsLost := rfl
@[simp] theorem State.setMbx_errors (s : State) (m : Mbx) : (s.setMbx m).errors = s.errors := rfl
@[simp] theorem State.setMbx_retired (s : State) (m : Mbx) : (s.setMbx m).retired = s.retired := rfl
@[simp] theorem State.setMbx_archives (s : State) (m : Mbx) : (s.setMbx m).archives = s.archives := rfl
@[simp] theorem State.setMbx_rxRing (s : State) (m : Mbx) : (s.setMbx m).rxRing = s.rxRing := rfl
@[simp] theorem State.setMbx_rxDropped (s : State) (m : Mbx) : (s.setMbx m).rxDropped = s.rxDropped := rfl
@[simp] theorem State.setMbx_rank (s : State) (m : Mbx) : (s.setMbx m).rank = s.rank := rfl
@[simp] theorem State.setMbx_devCount (s : State) (m : Mbx) : (s.setMbx m).devCount = s.devCount := rfl
@[simp] theorem State.setMbx_partMode (s : State) (m : Mbx) : (s.setMbx m).partMode = s.partMode := rfl
@[simp] theorem State.setMbx_lx9601 (s : State) (m : Mbx) : (s.setMbx m).lx9601 = s.lx9601 := rfl
@[simp] theorem State.setMbx_bootstat (s : State) (m : Mbx) : (s.setMbx m).bootstat = s.bootstat := rfl
@[simp] theorem State.setMbx_boot (s : State) (m : Mbx) : (s.setMbx m).boot = s.boot := rfl
@[simp] theorem State.setMbx_evidence (s : State) (m : Mbx) : (s.setMbx m).evidence = s.evidence := rfl
@[simp] theorem State.setMbx_saveSeq (s : State) (m : Mbx) : (s.setMbx m).saveSeq = s.saveSeq := rfl
@[simp] theorem State.setMbx_stamp (s : State) (m : Mbx) : (s.setMbx m).stamp = s.stamp := rfl
@[simp] theorem State.setMbx_launches (s : State) (m : Mbx) : (s.setMbx m).launches = s.launches := rfl
@[simp] theorem State.setMbx_seqs (s : State) (m : Mbx) : (s.setMbx m).seqs = s.seqs := rfl
@[simp] theorem State.setMbx_fresh (s : State) (m : Mbx) : (s.setMbx m).fresh = s.fresh := rfl
@[simp] theorem State.setMbx_gpCores (s : State) (m : Mbx) : (s.setMbx m).gpCores = s.gpCores := rfl
@[simp] theorem State.setMbx_bayServed (s : State) (m : Mbx) : (s.setMbx m).bayServed = s.bayServed := rfl

/-! ## State.setNode -/

@[simp] theorem State.setNode_powered (s : State) (n : Node) : (s.setNode n).powered = s.powered := rfl
@[simp] theorem State.setNode_cycle (s : State) (n : Node) : (s.setNode n).cycle = s.cycle := rfl
@[simp] theorem State.setNode_ptpBase (s : State) (n : Node) : (s.setNode n).ptpBase = s.ptpBase := rfl
@[simp] theorem State.setNode_ptpTop (s : State) (n : Node) : (s.setNode n).ptpTop = s.ptpTop := rfl
@[simp] theorem State.setNode_me (s : State) (n : Node) : (s.setNode n).me = s.me := rfl
@[simp] theorem State.setNode_ring (s : State) (n : Node) : (s.setNode n).ring = s.ring := rfl
@[simp] theorem State.setNode_slot (s : State) (n : Node) : (s.setNode n).slot = s.slot := rfl
@[simp] theorem State.setNode_last (s : State) (n : Node) : (s.setNode n).last = s.last := rfl
@[simp] theorem State.setNode_judging (s : State) (n : Node) : (s.setNode n).judging = s.judging := rfl
@[simp] theorem State.setNode_inputs (s : State) (n : Node) : (s.setNode n).inputs = s.inputs := rfl
@[simp] theorem State.setNode_hostWait (s : State) (n : Node) : (s.setNode n).hostWait = s.hostWait := rfl
@[simp] theorem State.setNode_outbox (s : State) (n : Node) : (s.setNode n).outbox = s.outbox := rfl
@[simp] theorem State.setNode_mem (s : State) (n : Node) : (s.setNode n).mem = s.mem := rfl
@[simp] theorem State.setNode_bays (s : State) (n : Node) : (s.setNode n).bays = s.bays := rfl
@[simp] theorem State.setNode_bars (s : State) (n : Node) : (s.setNode n).bars = s.bars := rfl
@[simp] theorem State.setNode_nodes (s : State) (n : Node) : (s.setNode n).nodes = s.nodes.map fun m => if m.die = n.die ∧ m.idx = n.idx then n else m := rfl
@[simp] theorem State.setNode_dispatchDue (s : State) (n : Node) : (s.setNode n).dispatchDue = s.dispatchDue := rfl
@[simp] theorem State.setNode_ranges (s : State) (n : Node) : (s.setNode n).ranges = s.ranges := rfl
@[simp] theorem State.setNode_mailboxes (s : State) (n : Node) : (s.setNode n).mailboxes = s.mailboxes := rfl
@[simp] theorem State.setNode_journals (s : State) (n : Node) : (s.setNode n).journals = s.journals := rfl
@[simp] theorem State.setNode_blocks (s : State) (n : Node) : (s.setNode n).blocks = s.blocks := rfl
@[simp] theorem State.setNode_parts (s : State) (n : Node) : (s.setNode n).parts = s.parts := rfl
@[simp] theorem State.setNode_dieMarks (s : State) (n : Node) : (s.setNode n).dieMarks = s.dieMarks := rfl
@[simp] theorem State.setNode_foreign (s : State) (n : Node) : (s.setNode n).foreign = s.foreign := rfl
@[simp] theorem State.setNode_spaces (s : State) (n : Node) : (s.setNode n).spaces = s.spaces := rfl
@[simp] theorem State.setNode_comms (s : State) (n : Node) : (s.setNode n).comms = s.comms := rfl
@[simp] theorem State.setNode_colSeqs (s : State) (n : Node) : (s.setNode n).colSeqs = s.colSeqs := rfl
@[simp] theorem State.setNode_patches (s : State) (n : Node) : (s.setNode n).patches = s.patches := rfl
@[simp] theorem State.setNode_scanned (s : State) (n : Node) : (s.setNode n).scanned = s.scanned := rfl
@[simp] theorem State.setNode_links (s : State) (n : Node) : (s.setNode n).links = s.links := rfl
@[simp] theorem State.setNode_routes (s : State) (n : Node) : (s.setNode n).routes = s.routes := rfl
@[simp] theorem State.setNode_subPorts (s : State) (n : Node) : (s.setNode n).subPorts = s.subPorts := rfl
@[simp] theorem State.setNode_fns (s : State) (n : Node) : (s.setNode n).fns = s.fns := rfl
@[simp] theorem State.setNode_answers (s : State) (n : Node) : (s.setNode n).answers = s.answers := rfl
@[simp] theorem State.setNode_hostPubs (s : State) (n : Node) : (s.setNode n).hostPubs = s.hostPubs := rfl
@[simp] theorem State.setNode_gpKnown (s : State) (n : Node) : (s.setNode n).gpKnown = s.gpKnown := rfl
@[simp] theorem State.setNode_jrnPend (s : State) (n : Node) : (s.setNode n).jrnPend = s.jrnPend := rfl
@[simp] theorem State.setNode_revoking (s : State) (n : Node) : (s.setNode n).revoking = s.revoking := rfl
@[simp] theorem State.setNode_shoots (s : State) (n : Node) : (s.setNode n).shoots = s.shoots := rfl
@[simp] theorem State.setNode_rowsLost (s : State) (n : Node) : (s.setNode n).rowsLost = s.rowsLost := rfl
@[simp] theorem State.setNode_errors (s : State) (n : Node) : (s.setNode n).errors = s.errors := rfl
@[simp] theorem State.setNode_retired (s : State) (n : Node) : (s.setNode n).retired = s.retired := rfl
@[simp] theorem State.setNode_archives (s : State) (n : Node) : (s.setNode n).archives = s.archives := rfl
@[simp] theorem State.setNode_rxRing (s : State) (n : Node) : (s.setNode n).rxRing = s.rxRing := rfl
@[simp] theorem State.setNode_rxDropped (s : State) (n : Node) : (s.setNode n).rxDropped = s.rxDropped := rfl
@[simp] theorem State.setNode_rank (s : State) (n : Node) : (s.setNode n).rank = s.rank := rfl
@[simp] theorem State.setNode_devCount (s : State) (n : Node) : (s.setNode n).devCount = s.devCount := rfl
@[simp] theorem State.setNode_partMode (s : State) (n : Node) : (s.setNode n).partMode = s.partMode := rfl
@[simp] theorem State.setNode_lx9601 (s : State) (n : Node) : (s.setNode n).lx9601 = s.lx9601 := rfl
@[simp] theorem State.setNode_bootstat (s : State) (n : Node) : (s.setNode n).bootstat = s.bootstat := rfl
@[simp] theorem State.setNode_boot (s : State) (n : Node) : (s.setNode n).boot = s.boot := rfl
@[simp] theorem State.setNode_evidence (s : State) (n : Node) : (s.setNode n).evidence = s.evidence := rfl
@[simp] theorem State.setNode_saveSeq (s : State) (n : Node) : (s.setNode n).saveSeq = s.saveSeq := rfl
@[simp] theorem State.setNode_stamp (s : State) (n : Node) : (s.setNode n).stamp = s.stamp := rfl
@[simp] theorem State.setNode_launches (s : State) (n : Node) : (s.setNode n).launches = s.launches := rfl
@[simp] theorem State.setNode_seqs (s : State) (n : Node) : (s.setNode n).seqs = s.seqs := rfl
@[simp] theorem State.setNode_fresh (s : State) (n : Node) : (s.setNode n).fresh = s.fresh := rfl
@[simp] theorem State.setNode_gpCores (s : State) (n : Node) : (s.setNode n).gpCores = s.gpCores := rfl
@[simp] theorem State.setNode_bayServed (s : State) (n : Node) : (s.setNode n).bayServed = s.bayServed := rfl

/-! ## State.setPart -/

@[simp] theorem State.setPart_powered (s : State) (p : Part) : (s.setPart p).powered = s.powered := rfl
@[simp] theorem State.setPart_cycle (s : State) (p : Part) : (s.setPart p).cycle = s.cycle := rfl
@[simp] theorem State.setPart_ptpBase (s : State) (p : Part) : (s.setPart p).ptpBase = s.ptpBase := rfl
@[simp] theorem State.setPart_ptpTop (s : State) (p : Part) : (s.setPart p).ptpTop = s.ptpTop := rfl
@[simp] theorem State.setPart_me (s : State) (p : Part) : (s.setPart p).me = s.me := rfl
@[simp] theorem State.setPart_ring (s : State) (p : Part) : (s.setPart p).ring = s.ring := rfl
@[simp] theorem State.setPart_slot (s : State) (p : Part) : (s.setPart p).slot = s.slot := rfl
@[simp] theorem State.setPart_last (s : State) (p : Part) : (s.setPart p).last = s.last := rfl
@[simp] theorem State.setPart_judging (s : State) (p : Part) : (s.setPart p).judging = s.judging := rfl
@[simp] theorem State.setPart_inputs (s : State) (p : Part) : (s.setPart p).inputs = s.inputs := rfl
@[simp] theorem State.setPart_hostWait (s : State) (p : Part) : (s.setPart p).hostWait = s.hostWait := rfl
@[simp] theorem State.setPart_outbox (s : State) (p : Part) : (s.setPart p).outbox = s.outbox := rfl
@[simp] theorem State.setPart_mem (s : State) (p : Part) : (s.setPart p).mem = s.mem := rfl
@[simp] theorem State.setPart_bays (s : State) (p : Part) : (s.setPart p).bays = s.bays := rfl
@[simp] theorem State.setPart_bars (s : State) (p : Part) : (s.setPart p).bars = s.bars := rfl
@[simp] theorem State.setPart_nodes (s : State) (p : Part) : (s.setPart p).nodes = s.nodes := rfl
@[simp] theorem State.setPart_dispatchDue (s : State) (p : Part) : (s.setPart p).dispatchDue = s.dispatchDue := rfl
@[simp] theorem State.setPart_ranges (s : State) (p : Part) : (s.setPart p).ranges = s.ranges := rfl
@[simp] theorem State.setPart_mailboxes (s : State) (p : Part) : (s.setPart p).mailboxes = s.mailboxes := rfl
@[simp] theorem State.setPart_journals (s : State) (p : Part) : (s.setPart p).journals = s.journals := rfl
@[simp] theorem State.setPart_blocks (s : State) (p : Part) : (s.setPart p).blocks = s.blocks := rfl
@[simp] theorem State.setPart_parts (s : State) (p : Part) : (s.setPart p).parts = s.parts.map fun q => if q.vmid = p.vmid then p else q := rfl
@[simp] theorem State.setPart_dieMarks (s : State) (p : Part) : (s.setPart p).dieMarks = s.dieMarks := rfl
@[simp] theorem State.setPart_foreign (s : State) (p : Part) : (s.setPart p).foreign = s.foreign := rfl
@[simp] theorem State.setPart_spaces (s : State) (p : Part) : (s.setPart p).spaces = s.spaces := rfl
@[simp] theorem State.setPart_comms (s : State) (p : Part) : (s.setPart p).comms = s.comms := rfl
@[simp] theorem State.setPart_colSeqs (s : State) (p : Part) : (s.setPart p).colSeqs = s.colSeqs := rfl
@[simp] theorem State.setPart_patches (s : State) (p : Part) : (s.setPart p).patches = s.patches := rfl
@[simp] theorem State.setPart_scanned (s : State) (p : Part) : (s.setPart p).scanned = s.scanned := rfl
@[simp] theorem State.setPart_links (s : State) (p : Part) : (s.setPart p).links = s.links := rfl
@[simp] theorem State.setPart_routes (s : State) (p : Part) : (s.setPart p).routes = s.routes := rfl
@[simp] theorem State.setPart_subPorts (s : State) (p : Part) : (s.setPart p).subPorts = s.subPorts := rfl
@[simp] theorem State.setPart_fns (s : State) (p : Part) : (s.setPart p).fns = s.fns := rfl
@[simp] theorem State.setPart_answers (s : State) (p : Part) : (s.setPart p).answers = s.answers := rfl
@[simp] theorem State.setPart_hostPubs (s : State) (p : Part) : (s.setPart p).hostPubs = s.hostPubs := rfl
@[simp] theorem State.setPart_gpKnown (s : State) (p : Part) : (s.setPart p).gpKnown = s.gpKnown := rfl
@[simp] theorem State.setPart_jrnPend (s : State) (p : Part) : (s.setPart p).jrnPend = s.jrnPend := rfl
@[simp] theorem State.setPart_revoking (s : State) (p : Part) : (s.setPart p).revoking = s.revoking := rfl
@[simp] theorem State.setPart_shoots (s : State) (p : Part) : (s.setPart p).shoots = s.shoots := rfl
@[simp] theorem State.setPart_rowsLost (s : State) (p : Part) : (s.setPart p).rowsLost = s.rowsLost := rfl
@[simp] theorem State.setPart_errors (s : State) (p : Part) : (s.setPart p).errors = s.errors := rfl
@[simp] theorem State.setPart_retired (s : State) (p : Part) : (s.setPart p).retired = s.retired := rfl
@[simp] theorem State.setPart_archives (s : State) (p : Part) : (s.setPart p).archives = s.archives := rfl
@[simp] theorem State.setPart_rxRing (s : State) (p : Part) : (s.setPart p).rxRing = s.rxRing := rfl
@[simp] theorem State.setPart_rxDropped (s : State) (p : Part) : (s.setPart p).rxDropped = s.rxDropped := rfl
@[simp] theorem State.setPart_rank (s : State) (p : Part) : (s.setPart p).rank = s.rank := rfl
@[simp] theorem State.setPart_devCount (s : State) (p : Part) : (s.setPart p).devCount = s.devCount := rfl
@[simp] theorem State.setPart_partMode (s : State) (p : Part) : (s.setPart p).partMode = s.partMode := rfl
@[simp] theorem State.setPart_lx9601 (s : State) (p : Part) : (s.setPart p).lx9601 = s.lx9601 := rfl
@[simp] theorem State.setPart_bootstat (s : State) (p : Part) : (s.setPart p).bootstat = s.bootstat := rfl
@[simp] theorem State.setPart_boot (s : State) (p : Part) : (s.setPart p).boot = s.boot := rfl
@[simp] theorem State.setPart_evidence (s : State) (p : Part) : (s.setPart p).evidence = s.evidence := rfl
@[simp] theorem State.setPart_saveSeq (s : State) (p : Part) : (s.setPart p).saveSeq = s.saveSeq := rfl
@[simp] theorem State.setPart_stamp (s : State) (p : Part) : (s.setPart p).stamp = s.stamp := rfl
@[simp] theorem State.setPart_launches (s : State) (p : Part) : (s.setPart p).launches = s.launches := rfl
@[simp] theorem State.setPart_seqs (s : State) (p : Part) : (s.setPart p).seqs = s.seqs := rfl
@[simp] theorem State.setPart_fresh (s : State) (p : Part) : (s.setPart p).fresh = s.fresh := rfl
@[simp] theorem State.setPart_gpCores (s : State) (p : Part) : (s.setPart p).gpCores = s.gpCores := rfl
@[simp] theorem State.setPart_bayServed (s : State) (p : Part) : (s.setPart p).bayServed = s.bayServed := rfl

/-! ## State.setBlock -/

@[simp] theorem State.setBlock_powered (s : State) (b : Block) : (s.setBlock b).powered = s.powered := rfl
@[simp] theorem State.setBlock_cycle (s : State) (b : Block) : (s.setBlock b).cycle = s.cycle := rfl
@[simp] theorem State.setBlock_ptpBase (s : State) (b : Block) : (s.setBlock b).ptpBase = s.ptpBase := rfl
@[simp] theorem State.setBlock_ptpTop (s : State) (b : Block) : (s.setBlock b).ptpTop = s.ptpTop := rfl
@[simp] theorem State.setBlock_me (s : State) (b : Block) : (s.setBlock b).me = s.me := rfl
@[simp] theorem State.setBlock_ring (s : State) (b : Block) : (s.setBlock b).ring = s.ring := rfl
@[simp] theorem State.setBlock_slot (s : State) (b : Block) : (s.setBlock b).slot = s.slot := rfl
@[simp] theorem State.setBlock_last (s : State) (b : Block) : (s.setBlock b).last = s.last := rfl
@[simp] theorem State.setBlock_judging (s : State) (b : Block) : (s.setBlock b).judging = s.judging := rfl
@[simp] theorem State.setBlock_inputs (s : State) (b : Block) : (s.setBlock b).inputs = s.inputs := rfl
@[simp] theorem State.setBlock_hostWait (s : State) (b : Block) : (s.setBlock b).hostWait = s.hostWait := rfl
@[simp] theorem State.setBlock_outbox (s : State) (b : Block) : (s.setBlock b).outbox = s.outbox := rfl
@[simp] theorem State.setBlock_mem (s : State) (b : Block) : (s.setBlock b).mem = s.mem := rfl
@[simp] theorem State.setBlock_bays (s : State) (b : Block) : (s.setBlock b).bays = s.bays := rfl
@[simp] theorem State.setBlock_bars (s : State) (b : Block) : (s.setBlock b).bars = s.bars := rfl
@[simp] theorem State.setBlock_nodes (s : State) (b : Block) : (s.setBlock b).nodes = s.nodes := rfl
@[simp] theorem State.setBlock_dispatchDue (s : State) (b : Block) : (s.setBlock b).dispatchDue = s.dispatchDue := rfl
@[simp] theorem State.setBlock_ranges (s : State) (b : Block) : (s.setBlock b).ranges = s.ranges := rfl
@[simp] theorem State.setBlock_mailboxes (s : State) (b : Block) : (s.setBlock b).mailboxes = s.mailboxes := rfl
@[simp] theorem State.setBlock_journals (s : State) (b : Block) : (s.setBlock b).journals = s.journals := rfl
@[simp] theorem State.setBlock_blocks (s : State) (b : Block) : (s.setBlock b).blocks = b :: s.blocks.filter (·.loc != b.loc) := rfl
@[simp] theorem State.setBlock_parts (s : State) (b : Block) : (s.setBlock b).parts = s.parts := rfl
@[simp] theorem State.setBlock_dieMarks (s : State) (b : Block) : (s.setBlock b).dieMarks = s.dieMarks := rfl
@[simp] theorem State.setBlock_foreign (s : State) (b : Block) : (s.setBlock b).foreign = s.foreign := rfl
@[simp] theorem State.setBlock_spaces (s : State) (b : Block) : (s.setBlock b).spaces = s.spaces := rfl
@[simp] theorem State.setBlock_comms (s : State) (b : Block) : (s.setBlock b).comms = s.comms := rfl
@[simp] theorem State.setBlock_colSeqs (s : State) (b : Block) : (s.setBlock b).colSeqs = s.colSeqs := rfl
@[simp] theorem State.setBlock_patches (s : State) (b : Block) : (s.setBlock b).patches = s.patches := rfl
@[simp] theorem State.setBlock_scanned (s : State) (b : Block) : (s.setBlock b).scanned = s.scanned := rfl
@[simp] theorem State.setBlock_links (s : State) (b : Block) : (s.setBlock b).links = s.links := rfl
@[simp] theorem State.setBlock_routes (s : State) (b : Block) : (s.setBlock b).routes = s.routes := rfl
@[simp] theorem State.setBlock_subPorts (s : State) (b : Block) : (s.setBlock b).subPorts = s.subPorts := rfl
@[simp] theorem State.setBlock_fns (s : State) (b : Block) : (s.setBlock b).fns = s.fns := rfl
@[simp] theorem State.setBlock_answers (s : State) (b : Block) : (s.setBlock b).answers = s.answers := rfl
@[simp] theorem State.setBlock_hostPubs (s : State) (b : Block) : (s.setBlock b).hostPubs = s.hostPubs := rfl
@[simp] theorem State.setBlock_gpKnown (s : State) (b : Block) : (s.setBlock b).gpKnown = s.gpKnown := rfl
@[simp] theorem State.setBlock_jrnPend (s : State) (b : Block) : (s.setBlock b).jrnPend = s.jrnPend := rfl
@[simp] theorem State.setBlock_revoking (s : State) (b : Block) : (s.setBlock b).revoking = s.revoking := rfl
@[simp] theorem State.setBlock_shoots (s : State) (b : Block) : (s.setBlock b).shoots = s.shoots := rfl
@[simp] theorem State.setBlock_rowsLost (s : State) (b : Block) : (s.setBlock b).rowsLost = s.rowsLost := rfl
@[simp] theorem State.setBlock_errors (s : State) (b : Block) : (s.setBlock b).errors = s.errors := rfl
@[simp] theorem State.setBlock_retired (s : State) (b : Block) : (s.setBlock b).retired = s.retired := rfl
@[simp] theorem State.setBlock_archives (s : State) (b : Block) : (s.setBlock b).archives = s.archives := rfl
@[simp] theorem State.setBlock_rxRing (s : State) (b : Block) : (s.setBlock b).rxRing = s.rxRing := rfl
@[simp] theorem State.setBlock_rxDropped (s : State) (b : Block) : (s.setBlock b).rxDropped = s.rxDropped := rfl
@[simp] theorem State.setBlock_rank (s : State) (b : Block) : (s.setBlock b).rank = s.rank := rfl
@[simp] theorem State.setBlock_devCount (s : State) (b : Block) : (s.setBlock b).devCount = s.devCount := rfl
@[simp] theorem State.setBlock_partMode (s : State) (b : Block) : (s.setBlock b).partMode = s.partMode := rfl
@[simp] theorem State.setBlock_lx9601 (s : State) (b : Block) : (s.setBlock b).lx9601 = s.lx9601 := rfl
@[simp] theorem State.setBlock_bootstat (s : State) (b : Block) : (s.setBlock b).bootstat = s.bootstat := rfl
@[simp] theorem State.setBlock_boot (s : State) (b : Block) : (s.setBlock b).boot = s.boot := rfl
@[simp] theorem State.setBlock_evidence (s : State) (b : Block) : (s.setBlock b).evidence = s.evidence := rfl
@[simp] theorem State.setBlock_saveSeq (s : State) (b : Block) : (s.setBlock b).saveSeq = s.saveSeq := rfl
@[simp] theorem State.setBlock_stamp (s : State) (b : Block) : (s.setBlock b).stamp = s.stamp := rfl
@[simp] theorem State.setBlock_launches (s : State) (b : Block) : (s.setBlock b).launches = s.launches := rfl
@[simp] theorem State.setBlock_seqs (s : State) (b : Block) : (s.setBlock b).seqs = s.seqs := rfl
@[simp] theorem State.setBlock_fresh (s : State) (b : Block) : (s.setBlock b).fresh = s.fresh := rfl
@[simp] theorem State.setBlock_gpCores (s : State) (b : Block) : (s.setBlock b).gpCores = s.gpCores := rfl
@[simp] theorem State.setBlock_bayServed (s : State) (b : Block) : (s.setBlock b).bayServed = s.bayServed := rfl

/-! ## bankPut -/

@[simp] theorem bankPut_powered (src : PrivSrc) (seen : List Nat) (ptr : W64) (x : Nat) (bs : List Byte) (s : State) : (bankPut src seen ptr x bs s).powered = s.powered := rfl
@[simp] theorem bankPut_cycle (src : PrivSrc) (seen : List Nat) (ptr : W64) (x : Nat) (bs : List Byte) (s : State) : (bankPut src seen ptr x bs s).cycle = s.cycle := rfl
@[simp] theorem bankPut_ptpBase (src : PrivSrc) (seen : List Nat) (ptr : W64) (x : Nat) (bs : List Byte) (s : State) : (bankPut src seen ptr x bs s).ptpBase = s.ptpBase := rfl
@[simp] theorem bankPut_ptpTop (src : PrivSrc) (seen : List Nat) (ptr : W64) (x : Nat) (bs : List Byte) (s : State) : (bankPut src seen ptr x bs s).ptpTop = s.ptpTop := rfl
@[simp] theorem bankPut_me (src : PrivSrc) (seen : List Nat) (ptr : W64) (x : Nat) (bs : List Byte) (s : State) : (bankPut src seen ptr x bs s).me = addPriv (mkPriv s src .plain (newCells s s.me (locSeen x) bs) seen ptr) s.me := rfl
@[simp] theorem bankPut_ring (src : PrivSrc) (seen : List Nat) (ptr : W64) (x : Nat) (bs : List Byte) (s : State) : (bankPut src seen ptr x bs s).ring = s.ring := rfl
@[simp] theorem bankPut_slot (src : PrivSrc) (seen : List Nat) (ptr : W64) (x : Nat) (bs : List Byte) (s : State) : (bankPut src seen ptr x bs s).slot = s.slot := rfl
@[simp] theorem bankPut_last (src : PrivSrc) (seen : List Nat) (ptr : W64) (x : Nat) (bs : List Byte) (s : State) : (bankPut src seen ptr x bs s).last = s.last := rfl
@[simp] theorem bankPut_judging (src : PrivSrc) (seen : List Nat) (ptr : W64) (x : Nat) (bs : List Byte) (s : State) : (bankPut src seen ptr x bs s).judging = s.judging := rfl
@[simp] theorem bankPut_inputs (src : PrivSrc) (seen : List Nat) (ptr : W64) (x : Nat) (bs : List Byte) (s : State) : (bankPut src seen ptr x bs s).inputs = s.inputs := rfl
@[simp] theorem bankPut_hostWait (src : PrivSrc) (seen : List Nat) (ptr : W64) (x : Nat) (bs : List Byte) (s : State) : (bankPut src seen ptr x bs s).hostWait = s.hostWait := rfl
@[simp] theorem bankPut_outbox (src : PrivSrc) (seen : List Nat) (ptr : W64) (x : Nat) (bs : List Byte) (s : State) : (bankPut src seen ptr x bs s).outbox = s.outbox := rfl
@[simp] theorem bankPut_mem (src : PrivSrc) (seen : List Nat) (ptr : W64) (x : Nat) (bs : List Byte) (s : State) : (bankPut src seen ptr x bs s).mem = writeBases s.mem x bs := rfl
@[simp] theorem bankPut_bays (src : PrivSrc) (seen : List Nat) (ptr : W64) (x : Nat) (bs : List Byte) (s : State) : (bankPut src seen ptr x bs s).bays = s.bays := rfl
@[simp] theorem bankPut_bars (src : PrivSrc) (seen : List Nat) (ptr : W64) (x : Nat) (bs : List Byte) (s : State) : (bankPut src seen ptr x bs s).bars = s.bars := rfl
@[simp] theorem bankPut_nodes (src : PrivSrc) (seen : List Nat) (ptr : W64) (x : Nat) (bs : List Byte) (s : State) : (bankPut src seen ptr x bs s).nodes = s.nodes := rfl
@[simp] theorem bankPut_dispatchDue (src : PrivSrc) (seen : List Nat) (ptr : W64) (x : Nat) (bs : List Byte) (s : State) : (bankPut src seen ptr x bs s).dispatchDue = s.dispatchDue := rfl
@[simp] theorem bankPut_ranges (src : PrivSrc) (seen : List Nat) (ptr : W64) (x : Nat) (bs : List Byte) (s : State) : (bankPut src seen ptr x bs s).ranges = s.ranges := rfl
@[simp] theorem bankPut_mailboxes (src : PrivSrc) (seen : List Nat) (ptr : W64) (x : Nat) (bs : List Byte) (s : State) : (bankPut src seen ptr x bs s).mailboxes = s.mailboxes := rfl
@[simp] theorem bankPut_journals (src : PrivSrc) (seen : List Nat) (ptr : W64) (x : Nat) (bs : List Byte) (s : State) : (bankPut src seen ptr x bs s).journals = s.journals := rfl
@[simp] theorem bankPut_blocks (src : PrivSrc) (seen : List Nat) (ptr : W64) (x : Nat) (bs : List Byte) (s : State) : (bankPut src seen ptr x bs s).blocks = s.blocks := rfl
@[simp] theorem bankPut_parts (src : PrivSrc) (seen : List Nat) (ptr : W64) (x : Nat) (bs : List Byte) (s : State) : (bankPut src seen ptr x bs s).parts = s.parts := rfl
@[simp] theorem bankPut_dieMarks (src : PrivSrc) (seen : List Nat) (ptr : W64) (x : Nat) (bs : List Byte) (s : State) : (bankPut src seen ptr x bs s).dieMarks = s.dieMarks := rfl
@[simp] theorem bankPut_foreign (src : PrivSrc) (seen : List Nat) (ptr : W64) (x : Nat) (bs : List Byte) (s : State) : (bankPut src seen ptr x bs s).foreign = s.foreign := rfl
@[simp] theorem bankPut_spaces (src : PrivSrc) (seen : List Nat) (ptr : W64) (x : Nat) (bs : List Byte) (s : State) : (bankPut src seen ptr x bs s).spaces = s.spaces := rfl
@[simp] theorem bankPut_comms (src : PrivSrc) (seen : List Nat) (ptr : W64) (x : Nat) (bs : List Byte) (s : State) : (bankPut src seen ptr x bs s).comms = s.comms := rfl
@[simp] theorem bankPut_colSeqs (src : PrivSrc) (seen : List Nat) (ptr : W64) (x : Nat) (bs : List Byte) (s : State) : (bankPut src seen ptr x bs s).colSeqs = s.colSeqs := rfl
@[simp] theorem bankPut_patches (src : PrivSrc) (seen : List Nat) (ptr : W64) (x : Nat) (bs : List Byte) (s : State) : (bankPut src seen ptr x bs s).patches = s.patches := rfl
@[simp] theorem bankPut_scanned (src : PrivSrc) (seen : List Nat) (ptr : W64) (x : Nat) (bs : List Byte) (s : State) : (bankPut src seen ptr x bs s).scanned = s.scanned := rfl
@[simp] theorem bankPut_links (src : PrivSrc) (seen : List Nat) (ptr : W64) (x : Nat) (bs : List Byte) (s : State) : (bankPut src seen ptr x bs s).links = s.links := rfl
@[simp] theorem bankPut_routes (src : PrivSrc) (seen : List Nat) (ptr : W64) (x : Nat) (bs : List Byte) (s : State) : (bankPut src seen ptr x bs s).routes = s.routes := rfl
@[simp] theorem bankPut_subPorts (src : PrivSrc) (seen : List Nat) (ptr : W64) (x : Nat) (bs : List Byte) (s : State) : (bankPut src seen ptr x bs s).subPorts = s.subPorts := rfl
@[simp] theorem bankPut_fns (src : PrivSrc) (seen : List Nat) (ptr : W64) (x : Nat) (bs : List Byte) (s : State) : (bankPut src seen ptr x bs s).fns = s.fns := rfl
@[simp] theorem bankPut_answers (src : PrivSrc) (seen : List Nat) (ptr : W64) (x : Nat) (bs : List Byte) (s : State) : (bankPut src seen ptr x bs s).answers = s.answers := rfl
@[simp] theorem bankPut_hostPubs (src : PrivSrc) (seen : List Nat) (ptr : W64) (x : Nat) (bs : List Byte) (s : State) : (bankPut src seen ptr x bs s).hostPubs = s.hostPubs := rfl
@[simp] theorem bankPut_gpKnown (src : PrivSrc) (seen : List Nat) (ptr : W64) (x : Nat) (bs : List Byte) (s : State) : (bankPut src seen ptr x bs s).gpKnown = s.gpKnown := rfl
@[simp] theorem bankPut_jrnPend (src : PrivSrc) (seen : List Nat) (ptr : W64) (x : Nat) (bs : List Byte) (s : State) : (bankPut src seen ptr x bs s).jrnPend = s.jrnPend := rfl
@[simp] theorem bankPut_revoking (src : PrivSrc) (seen : List Nat) (ptr : W64) (x : Nat) (bs : List Byte) (s : State) : (bankPut src seen ptr x bs s).revoking = s.revoking := rfl
@[simp] theorem bankPut_shoots (src : PrivSrc) (seen : List Nat) (ptr : W64) (x : Nat) (bs : List Byte) (s : State) : (bankPut src seen ptr x bs s).shoots = s.shoots := rfl
@[simp] theorem bankPut_rowsLost (src : PrivSrc) (seen : List Nat) (ptr : W64) (x : Nat) (bs : List Byte) (s : State) : (bankPut src seen ptr x bs s).rowsLost = s.rowsLost := rfl
@[simp] theorem bankPut_errors (src : PrivSrc) (seen : List Nat) (ptr : W64) (x : Nat) (bs : List Byte) (s : State) : (bankPut src seen ptr x bs s).errors = s.errors := rfl
@[simp] theorem bankPut_retired (src : PrivSrc) (seen : List Nat) (ptr : W64) (x : Nat) (bs : List Byte) (s : State) : (bankPut src seen ptr x bs s).retired = s.retired := rfl
@[simp] theorem bankPut_archives (src : PrivSrc) (seen : List Nat) (ptr : W64) (x : Nat) (bs : List Byte) (s : State) : (bankPut src seen ptr x bs s).archives = s.archives := rfl
@[simp] theorem bankPut_rxRing (src : PrivSrc) (seen : List Nat) (ptr : W64) (x : Nat) (bs : List Byte) (s : State) : (bankPut src seen ptr x bs s).rxRing = s.rxRing := rfl
@[simp] theorem bankPut_rxDropped (src : PrivSrc) (seen : List Nat) (ptr : W64) (x : Nat) (bs : List Byte) (s : State) : (bankPut src seen ptr x bs s).rxDropped = s.rxDropped := rfl
@[simp] theorem bankPut_rank (src : PrivSrc) (seen : List Nat) (ptr : W64) (x : Nat) (bs : List Byte) (s : State) : (bankPut src seen ptr x bs s).rank = s.rank := rfl
@[simp] theorem bankPut_devCount (src : PrivSrc) (seen : List Nat) (ptr : W64) (x : Nat) (bs : List Byte) (s : State) : (bankPut src seen ptr x bs s).devCount = s.devCount := rfl
@[simp] theorem bankPut_partMode (src : PrivSrc) (seen : List Nat) (ptr : W64) (x : Nat) (bs : List Byte) (s : State) : (bankPut src seen ptr x bs s).partMode = s.partMode := rfl
@[simp] theorem bankPut_lx9601 (src : PrivSrc) (seen : List Nat) (ptr : W64) (x : Nat) (bs : List Byte) (s : State) : (bankPut src seen ptr x bs s).lx9601 = s.lx9601 := rfl
@[simp] theorem bankPut_bootstat (src : PrivSrc) (seen : List Nat) (ptr : W64) (x : Nat) (bs : List Byte) (s : State) : (bankPut src seen ptr x bs s).bootstat = s.bootstat := rfl
@[simp] theorem bankPut_boot (src : PrivSrc) (seen : List Nat) (ptr : W64) (x : Nat) (bs : List Byte) (s : State) : (bankPut src seen ptr x bs s).boot = s.boot := rfl
@[simp] theorem bankPut_evidence (src : PrivSrc) (seen : List Nat) (ptr : W64) (x : Nat) (bs : List Byte) (s : State) : (bankPut src seen ptr x bs s).evidence = s.evidence := rfl
@[simp] theorem bankPut_saveSeq (src : PrivSrc) (seen : List Nat) (ptr : W64) (x : Nat) (bs : List Byte) (s : State) : (bankPut src seen ptr x bs s).saveSeq = s.saveSeq := rfl
@[simp] theorem bankPut_stamp (src : PrivSrc) (seen : List Nat) (ptr : W64) (x : Nat) (bs : List Byte) (s : State) : (bankPut src seen ptr x bs s).stamp = s.stamp := rfl
@[simp] theorem bankPut_launches (src : PrivSrc) (seen : List Nat) (ptr : W64) (x : Nat) (bs : List Byte) (s : State) : (bankPut src seen ptr x bs s).launches = s.launches := rfl
@[simp] theorem bankPut_seqs (src : PrivSrc) (seen : List Nat) (ptr : W64) (x : Nat) (bs : List Byte) (s : State) : (bankPut src seen ptr x bs s).seqs = s.seqs := rfl
@[simp] theorem bankPut_fresh (src : PrivSrc) (seen : List Nat) (ptr : W64) (x : Nat) (bs : List Byte) (s : State) : (bankPut src seen ptr x bs s).fresh = s.fresh := rfl
@[simp] theorem bankPut_gpCores (src : PrivSrc) (seen : List Nat) (ptr : W64) (x : Nat) (bs : List Byte) (s : State) : (bankPut src seen ptr x bs s).gpCores = s.gpCores := rfl
@[simp] theorem bankPut_bayServed (src : PrivSrc) (seen : List Nat) (ptr : W64) (x : Nat) (bs : List Byte) (s : State) : (bankPut src seen ptr x bs s).bayServed = s.bayServed := rfl

/-! ## putF -/

@[simp] theorem putF_life (c : Ctx) (d : FReg) (v : W32) : (putF c d v).life = c.life := rfl
@[simp] theorem putF_die (c : Ctx) (d : FReg) (v : W32) : (putF c d v).die = c.die := rfl
@[simp] theorem putF_bay (c : Ctx) (d : FReg) (v : W32) : (putF c d v).bay = c.bay := rfl
@[simp] theorem putF_core (c : Ctx) (d : FReg) (v : W32) : (putF c d v).core = c.core := rfl
@[simp] theorem putF_bank (c : Ctx) (d : FReg) (v : W32) : (putF c d v).bank = c.bank := rfl
@[simp] theorem putF_launch (c : Ctx) (d : FReg) (v : W32) : (putF c d v).launch = c.launch := rfl
@[simp] theorem putF_nodeDie (c : Ctx) (d : FReg) (v : W32) : (putF c d v).nodeDie = c.nodeDie := rfl
@[simp] theorem putF_nodeIdx (c : Ctx) (d : FReg) (v : W32) : (putF c d v).nodeIdx = c.nodeIdx := rfl
@[simp] theorem putF_turnAt (c : Ctx) (d : FReg) (v : W32) : (putF c d v).turnAt = c.turnAt := rfl
@[simp] theorem putF_timed (c : Ctx) (d : FReg) (v : W32) : (putF c d v).timed = c.timed := rfl
@[simp] theorem putF_status (c : Ctx) (d : FReg) (v : W32) : (putF c d v).status = c.status := rfl
@[simp] theorem putF_vrank (c : Ctx) (d : FReg) (v : W32) : (putF c d v).vrank = c.vrank := rfl
@[simp] theorem putF_vcount (c : Ctx) (d : FReg) (v : W32) : (putF c d v).vcount = c.vcount := rfl
@[simp] theorem putF_part (c : Ctx) (d : FReg) (v : W32) : (putF c d v).part = c.part := rfl
@[simp] theorem putF_frnd (c : Ctx) (d : FReg) (v : W32) : (putF c d v).frnd = c.frnd := rfl
@[simp] theorem putF_fflags (c : Ctx) (d : FReg) (v : W32) : (putF c d v).fflags = c.fflags := rfl
@[simp] theorem putF_scaleRcp (c : Ctx) (d : FReg) (v : W32) : (putF c d v).scaleRcp = c.scaleRcp := rfl
@[simp] theorem putF_dmode (c : Ctx) (d : FReg) (v : W32) : (putF c d v).dmode = c.dmode := rfl
@[simp] theorem putF_tapeBase (c : Ctx) (d : FReg) (v : W32) : (putF c d v).tapeBase = c.tapeBase := rfl
@[simp] theorem putF_tapeLimit (c : Ctx) (d : FReg) (v : W32) : (putF c d v).tapeLimit = c.tapeLimit := rfl
@[simp] theorem putF_tapeHead (c : Ctx) (d : FReg) (v : W32) : (putF c d v).tapeHead = c.tapeHead := rfl
@[simp] theorem putF_adjRoot (c : Ctx) (d : FReg) (v : W32) : (putF c d v).adjRoot = c.adjRoot := rfl
@[simp] theorem putF_patchEpoch (c : Ctx) (d : FReg) (v : W32) : (putF c d v).patchEpoch = c.patchEpoch := rfl
@[simp] theorem putF_yieldDl (c : Ctx) (d : FReg) (v : W32) : (putF c d v).yieldDl = c.yieldDl := rfl
@[simp] theorem putF_expStall (c : Ctx) (d : FReg) (v : W32) : (putF c d v).expStall = c.expStall := rfl
@[simp] theorem putF_trapVec (c : Ctx) (d : FReg) (v : W32) : (putF c d v).trapVec = c.trapVec := rfl
@[simp] theorem putF_trapCause (c : Ctx) (d : FReg) (v : W32) : (putF c d v).trapCause = c.trapCause := rfl
@[simp] theorem putF_s (c : Ctx) (d : FReg) (v : W32) : (putF c d v).s = c.s := rfl
@[simp] theorem putF_f (c : Ctx) (d : FReg) (v : W32) : (putF c d v).f = c.f.set d v := rfl
@[simp] theorem putF_g (c : Ctx) (d : FReg) (v : W32) : (putF c d v).g = c.g := rfl
@[simp] theorem putF_l (c : Ctx) (d : FReg) (v : W32) : (putF c d v).l = c.l := rfl
@[simp] theorem putF_v (c : Ctx) (d : FReg) (v : W32) : (putF c d v).v = c.v := rfl
@[simp] theorem putF_lf (c : Ctx) (d : FReg) (v : W32) : (putF c d v).lf = c.lf := rfl
@[simp] theorem putF_lfNow (c : Ctx) (d : FReg) (v : W32) : (putF c d v).lfNow = c.lfNow := rfl
@[simp] theorem putF_hist (c : Ctx) (d : FReg) (v : W32) : (putF c d v).hist = c.hist := rfl
@[simp] theorem putF_bf (c : Ctx) (d : FReg) (v : W32) : (putF c d v).bf = c.bf := rfl
@[simp] theorem putF_arm (c : Ctx) (d : FReg) (v : W32) : (putF c d v).arm = c.arm := rfl
@[simp] theorem putF_ms (c : Ctx) (d : FReg) (v : W32) : (putF c d v).ms = c.ms := rfl
@[simp] theorem putF_ks (c : Ctx) (d : FReg) (v : W32) : (putF c d v).ks = c.ks := rfl
@[simp] theorem putF_ps (c : Ctx) (d : FReg) (v : W32) : (putF c d v).ps = c.ps := rfl
@[simp] theorem putF_cix (c : Ctx) (d : FReg) (v : W32) : (putF c d v).cix = c.cix := rfl
@[simp] theorem putF_kdep (c : Ctx) (d : FReg) (v : W32) : (putF c d v).kdep = c.kdep := rfl
@[simp] theorem putF_wrapped (c : Ctx) (d : FReg) (v : W32) : (putF c d v).wrapped = c.wrapped := rfl
@[simp] theorem putF_bars (c : Ctx) (d : FReg) (v : W32) : (putF c d v).bars = c.bars := rfl
@[simp] theorem putF_tags (c : Ctx) (d : FReg) (v : W32) : (putF c d v).tags = c.tags := rfl
@[simp] theorem putF_strC (c : Ctx) (d : FReg) (v : W32) : (putF c d v).strC = c.strC := rfl
@[simp] theorem putF_strA (c : Ctx) (d : FReg) (v : W32) : (putF c d v).strA = c.strA := rfl
@[simp] theorem putF_strM (c : Ctx) (d : FReg) (v : W32) : (putF c d v).strM = c.strM := rfl
@[simp] theorem putF_strS (c : Ctx) (d : FReg) (v : W32) : (putF c d v).strS = c.strS := rfl
@[simp] theorem putF_fifoCA (c : Ctx) (d : FReg) (v : W32) : (putF c d v).fifoCA = c.fifoCA := rfl
@[simp] theorem putF_fifoAC (c : Ctx) (d : FReg) (v : W32) : (putF c d v).fifoAC = c.fifoAC := rfl
@[simp] theorem putF_fifoAM (c : Ctx) (d : FReg) (v : W32) : (putF c d v).fifoAM = c.fifoAM := rfl
@[simp] theorem putF_fifoMA (c : Ctx) (d : FReg) (v : W32) : (putF c d v).fifoMA = c.fifoMA := rfl
@[simp] theorem putF_fifoMS (c : Ctx) (d : FReg) (v : W32) : (putF c d v).fifoMS = c.fifoMS := rfl
@[simp] theorem putF_fifoSM (c : Ctx) (d : FReg) (v : W32) : (putF c d v).fifoSM = c.fifoSM := rfl
@[simp] theorem putF_fifoSC (c : Ctx) (d : FReg) (v : W32) : (putF c d v).fifoSC = c.fifoSC := rfl
@[simp] theorem putF_fifoCS (c : Ctx) (d : FReg) (v : W32) : (putF c d v).fifoCS = c.fifoCS := rfl
@[simp] theorem putF_qs (c : Ctx) (d : FReg) (v : W32) : (putF c d v).qs = c.qs := rfl
@[simp] theorem putF_pend (c : Ctx) (d : FReg) (v : W32) : (putF c d v).pend = c.pend := rfl
@[simp] theorem putF_words (c : Ctx) (d : FReg) (v : W32) : (putF c d v).words = c.words := rfl
@[simp] theorem putF_cmds (c : Ctx) (d : FReg) (v : W32) : (putF c d v).cmds = c.cmds := rfl
@[simp] theorem putF_acmds (c : Ctx) (d : FReg) (v : W32) : (putF c d v).acmds = c.acmds := rfl
@[simp] theorem putF_loads (c : Ctx) (d : FReg) (v : W32) : (putF c d v).loads = c.loads := rfl
@[simp] theorem putF_pathFree (c : Ctx) (d : FReg) (v : W32) : (putF c d v).pathFree = c.pathFree := rfl
@[simp] theorem putF_rets (c : Ctx) (d : FReg) (v : W32) : (putF c d v).rets = c.rets := rfl
@[simp] theorem putF_rtFree (c : Ctx) (d : FReg) (v : W32) : (putF c d v).rtFree = c.rtFree := rfl
@[simp] theorem putF_fronts (c : Ctx) (d : FReg) (v : W32) : (putF c d v).fronts = c.fronts := rfl
@[simp] theorem putF_rels (c : Ctx) (d : FReg) (v : W32) : (putF c d v).rels = c.rels := rfl
@[simp] theorem putF_freeSlots (c : Ctx) (d : FReg) (v : W32) : (putF c d v).freeSlots = c.freeSlots := rfl
@[simp] theorem putF_freePairs (c : Ctx) (d : FReg) (v : W32) : (putF c d v).freePairs = c.freePairs := rfl
@[simp] theorem putF_backSlots (c : Ctx) (d : FReg) (v : W32) : (putF c d v).backSlots = c.backSlots := rfl
@[simp] theorem putF_backPairs (c : Ctx) (d : FReg) (v : W32) : (putF c d v).backPairs = c.backPairs := rfl
@[simp] theorem putF_shadows (c : Ctx) (d : FReg) (v : W32) : (putF c d v).shadows = c.shadows := rfl
@[simp] theorem putF_buckets (c : Ctx) (d : FReg) (v : W32) : (putF c d v).buckets = c.buckets := rfl
@[simp] theorem putF_weights (c : Ctx) (d : FReg) (v : W32) : (putF c d v).weights = c.weights := rfl
@[simp] theorem putF_landed (c : Ctx) (d : FReg) (v : W32) : (putF c d v).landed = c.landed := rfl
@[simp] theorem putF_events (c : Ctx) (d : FReg) (v : W32) : (putF c d v).events = c.events := rfl
@[simp] theorem putF_irq (c : Ctx) (d : FReg) (v : W32) : (putF c d v).irq = c.irq := rfl
@[simp] theorem putF_irqAt (c : Ctx) (d : FReg) (v : W32) : (putF c d v).irqAt = c.irqAt := rfl
@[simp] theorem putF_irqNow (c : Ctx) (d : FReg) (v : W32) : (putF c d v).irqNow = c.irqNow := rfl
@[simp] theorem putF_held (c : Ctx) (d : FReg) (v : W32) : (putF c d v).held = c.held := rfl
@[simp] theorem putF_heldAt (c : Ctx) (d : FReg) (v : W32) : (putF c d v).heldAt = c.heldAt := rfl
@[simp] theorem putF_frame (c : Ctx) (d : FReg) (v : W32) : (putF c d v).frame = c.frame := rfl
@[simp] theorem putF_frameImg (c : Ctx) (d : FReg) (v : W32) : (putF c d v).frameImg = c.frameImg := rfl
@[simp] theorem putF_withdrawn (c : Ctx) (d : FReg) (v : W32) : (putF c d v).withdrawn = c.withdrawn := rfl
@[simp] theorem putF_subst (c : Ctx) (d : FReg) (v : W32) : (putF c d v).subst = c.subst := rfl
@[simp] theorem putF_trapWait (c : Ctx) (d : FReg) (v : W32) : (putF c d v).trapWait = c.trapWait := rfl
@[simp] theorem putF_report (c : Ctx) (d : FReg) (v : W32) : (putF c d v).report = c.report := rfl
@[simp] theorem putF_barWait (c : Ctx) (d : FReg) (v : W32) : (putF c d v).barWait = c.barWait := rfl
@[simp] theorem putF_diffWait (c : Ctx) (d : FReg) (v : W32) : (putF c d v).diffWait = c.diffWait := rfl
@[simp] theorem putF_roomWait (c : Ctx) (d : FReg) (v : W32) : (putF c d v).roomWait = c.roomWait := rfl
@[simp] theorem putF_saving (c : Ctx) (d : FReg) (v : W32) : (putF c d v).saving = c.saving := rfl
@[simp] theorem putF_forcedCtr (c : Ctx) (d : FReg) (v : W32) : (putF c d v).forcedCtr = c.forcedCtr := rfl
@[simp] theorem putF_dlSeen (c : Ctx) (d : FReg) (v : W32) : (putF c d v).dlSeen = c.dlSeen := rfl
@[simp] theorem putF_abandoned (c : Ctx) (d : FReg) (v : W32) : (putF c d v).abandoned = c.abandoned := rfl
@[simp] theorem putF_tagsAtStop (c : Ctx) (d : FReg) (v : W32) : (putF c d v).tagsAtStop = c.tagsAtStop := rfl
@[simp] theorem putF_priv (c : Ctx) (d : FReg) (v : W32) : (putF c d v).priv = c.priv := rfl
@[simp] theorem putF_view (c : Ctx) (d : FReg) (v : W32) : (putF c d v).view = c.view := rfl
@[simp] theorem putF_accView (c : Ctx) (d : FReg) (v : W32) : (putF c d v).accView = c.accView := rfl
@[simp] theorem putF_acq (c : Ctx) (d : FReg) (v : W32) : (putF c d v).acq = c.acq := rfl
@[simp] theorem putF_asid (c : Ctx) (d : FReg) (v : W32) : (putF c d v).asid = c.asid := rfl
@[simp] theorem putF_vmid (c : Ctx) (d : FReg) (v : W32) : (putF c d v).vmid = c.vmid := rfl
@[simp] theorem putF_s1Root (c : Ctx) (d : FReg) (v : W32) : (putF c d v).s1Root = c.s1Root := rfl
@[simp] theorem putF_s2Root (c : Ctx) (d : FReg) (v : W32) : (putF c d v).s2Root = c.s2Root := rfl
@[simp] theorem putF_uRoot (c : Ctx) (d : FReg) (v : W32) : (putF c d v).uRoot = c.uRoot := rfl
@[simp] theorem putF_locked (c : Ctx) (d : FReg) (v : W32) : (putF c d v).locked = c.locked := rfl
@[simp] theorem putF_lockedA (c : Ctx) (d : FReg) (v : W32) : (putF c d v).lockedA = c.lockedA := rfl
@[simp] theorem putF_recPage (c : Ctx) (d : FReg) (v : W32) : (putF c d v).recPage = c.recPage := rfl
@[simp] theorem putF_recVa (c : Ctx) (d : FReg) (v : W32) : (putF c d v).recVa = c.recVa := rfl
@[simp] theorem putF_lastTsc (c : Ctx) (d : FReg) (v : W32) : (putF c d v).lastTsc = c.lastTsc := rfl

/-! ## putL -/

@[simp] theorem putL_life (c : Ctx) (d : LReg) (v : W64) : (putL c d v).life = c.life := rfl
@[simp] theorem putL_die (c : Ctx) (d : LReg) (v : W64) : (putL c d v).die = c.die := rfl
@[simp] theorem putL_bay (c : Ctx) (d : LReg) (v : W64) : (putL c d v).bay = c.bay := rfl
@[simp] theorem putL_core (c : Ctx) (d : LReg) (v : W64) : (putL c d v).core = c.core := rfl
@[simp] theorem putL_bank (c : Ctx) (d : LReg) (v : W64) : (putL c d v).bank = c.bank := rfl
@[simp] theorem putL_launch (c : Ctx) (d : LReg) (v : W64) : (putL c d v).launch = c.launch := rfl
@[simp] theorem putL_nodeDie (c : Ctx) (d : LReg) (v : W64) : (putL c d v).nodeDie = c.nodeDie := rfl
@[simp] theorem putL_nodeIdx (c : Ctx) (d : LReg) (v : W64) : (putL c d v).nodeIdx = c.nodeIdx := rfl
@[simp] theorem putL_turnAt (c : Ctx) (d : LReg) (v : W64) : (putL c d v).turnAt = c.turnAt := rfl
@[simp] theorem putL_timed (c : Ctx) (d : LReg) (v : W64) : (putL c d v).timed = c.timed := rfl
@[simp] theorem putL_status (c : Ctx) (d : LReg) (v : W64) : (putL c d v).status = c.status := rfl
@[simp] theorem putL_vrank (c : Ctx) (d : LReg) (v : W64) : (putL c d v).vrank = c.vrank := rfl
@[simp] theorem putL_vcount (c : Ctx) (d : LReg) (v : W64) : (putL c d v).vcount = c.vcount := rfl
@[simp] theorem putL_part (c : Ctx) (d : LReg) (v : W64) : (putL c d v).part = c.part := rfl
@[simp] theorem putL_frnd (c : Ctx) (d : LReg) (v : W64) : (putL c d v).frnd = c.frnd := rfl
@[simp] theorem putL_fflags (c : Ctx) (d : LReg) (v : W64) : (putL c d v).fflags = c.fflags := rfl
@[simp] theorem putL_scaleRcp (c : Ctx) (d : LReg) (v : W64) : (putL c d v).scaleRcp = c.scaleRcp := rfl
@[simp] theorem putL_dmode (c : Ctx) (d : LReg) (v : W64) : (putL c d v).dmode = c.dmode := rfl
@[simp] theorem putL_tapeBase (c : Ctx) (d : LReg) (v : W64) : (putL c d v).tapeBase = c.tapeBase := rfl
@[simp] theorem putL_tapeLimit (c : Ctx) (d : LReg) (v : W64) : (putL c d v).tapeLimit = c.tapeLimit := rfl
@[simp] theorem putL_tapeHead (c : Ctx) (d : LReg) (v : W64) : (putL c d v).tapeHead = c.tapeHead := rfl
@[simp] theorem putL_adjRoot (c : Ctx) (d : LReg) (v : W64) : (putL c d v).adjRoot = c.adjRoot := rfl
@[simp] theorem putL_patchEpoch (c : Ctx) (d : LReg) (v : W64) : (putL c d v).patchEpoch = c.patchEpoch := rfl
@[simp] theorem putL_yieldDl (c : Ctx) (d : LReg) (v : W64) : (putL c d v).yieldDl = c.yieldDl := rfl
@[simp] theorem putL_expStall (c : Ctx) (d : LReg) (v : W64) : (putL c d v).expStall = c.expStall := rfl
@[simp] theorem putL_trapVec (c : Ctx) (d : LReg) (v : W64) : (putL c d v).trapVec = c.trapVec := rfl
@[simp] theorem putL_trapCause (c : Ctx) (d : LReg) (v : W64) : (putL c d v).trapCause = c.trapCause := rfl
@[simp] theorem putL_s (c : Ctx) (d : LReg) (v : W64) : (putL c d v).s = c.s := rfl
@[simp] theorem putL_f (c : Ctx) (d : LReg) (v : W64) : (putL c d v).f = c.f := rfl
@[simp] theorem putL_g (c : Ctx) (d : LReg) (v : W64) : (putL c d v).g = c.g := rfl
@[simp] theorem putL_l (c : Ctx) (d : LReg) (v : W64) : (putL c d v).l = c.l.set d v := rfl
@[simp] theorem putL_v (c : Ctx) (d : LReg) (v : W64) : (putL c d v).v = c.v := rfl
@[simp] theorem putL_lf (c : Ctx) (d : LReg) (v : W64) : (putL c d v).lf = c.lf := rfl
@[simp] theorem putL_lfNow (c : Ctx) (d : LReg) (v : W64) : (putL c d v).lfNow = c.lfNow := rfl
@[simp] theorem putL_hist (c : Ctx) (d : LReg) (v : W64) : (putL c d v).hist = c.hist := rfl
@[simp] theorem putL_bf (c : Ctx) (d : LReg) (v : W64) : (putL c d v).bf = c.bf := rfl
@[simp] theorem putL_arm (c : Ctx) (d : LReg) (v : W64) : (putL c d v).arm = c.arm := rfl
@[simp] theorem putL_ms (c : Ctx) (d : LReg) (v : W64) : (putL c d v).ms = c.ms := rfl
@[simp] theorem putL_ks (c : Ctx) (d : LReg) (v : W64) : (putL c d v).ks = c.ks := rfl
@[simp] theorem putL_ps (c : Ctx) (d : LReg) (v : W64) : (putL c d v).ps = c.ps := rfl
@[simp] theorem putL_cix (c : Ctx) (d : LReg) (v : W64) : (putL c d v).cix = c.cix := rfl
@[simp] theorem putL_kdep (c : Ctx) (d : LReg) (v : W64) : (putL c d v).kdep = c.kdep := rfl
@[simp] theorem putL_wrapped (c : Ctx) (d : LReg) (v : W64) : (putL c d v).wrapped = c.wrapped := rfl
@[simp] theorem putL_bars (c : Ctx) (d : LReg) (v : W64) : (putL c d v).bars = c.bars := rfl
@[simp] theorem putL_tags (c : Ctx) (d : LReg) (v : W64) : (putL c d v).tags = c.tags := rfl
@[simp] theorem putL_strC (c : Ctx) (d : LReg) (v : W64) : (putL c d v).strC = c.strC := rfl
@[simp] theorem putL_strA (c : Ctx) (d : LReg) (v : W64) : (putL c d v).strA = c.strA := rfl
@[simp] theorem putL_strM (c : Ctx) (d : LReg) (v : W64) : (putL c d v).strM = c.strM := rfl
@[simp] theorem putL_strS (c : Ctx) (d : LReg) (v : W64) : (putL c d v).strS = c.strS := rfl
@[simp] theorem putL_fifoCA (c : Ctx) (d : LReg) (v : W64) : (putL c d v).fifoCA = c.fifoCA := rfl
@[simp] theorem putL_fifoAC (c : Ctx) (d : LReg) (v : W64) : (putL c d v).fifoAC = c.fifoAC := rfl
@[simp] theorem putL_fifoAM (c : Ctx) (d : LReg) (v : W64) : (putL c d v).fifoAM = c.fifoAM := rfl
@[simp] theorem putL_fifoMA (c : Ctx) (d : LReg) (v : W64) : (putL c d v).fifoMA = c.fifoMA := rfl
@[simp] theorem putL_fifoMS (c : Ctx) (d : LReg) (v : W64) : (putL c d v).fifoMS = c.fifoMS := rfl
@[simp] theorem putL_fifoSM (c : Ctx) (d : LReg) (v : W64) : (putL c d v).fifoSM = c.fifoSM := rfl
@[simp] theorem putL_fifoSC (c : Ctx) (d : LReg) (v : W64) : (putL c d v).fifoSC = c.fifoSC := rfl
@[simp] theorem putL_fifoCS (c : Ctx) (d : LReg) (v : W64) : (putL c d v).fifoCS = c.fifoCS := rfl
@[simp] theorem putL_qs (c : Ctx) (d : LReg) (v : W64) : (putL c d v).qs = c.qs := rfl
@[simp] theorem putL_pend (c : Ctx) (d : LReg) (v : W64) : (putL c d v).pend = c.pend := rfl
@[simp] theorem putL_words (c : Ctx) (d : LReg) (v : W64) : (putL c d v).words = c.words := rfl
@[simp] theorem putL_cmds (c : Ctx) (d : LReg) (v : W64) : (putL c d v).cmds = c.cmds := rfl
@[simp] theorem putL_acmds (c : Ctx) (d : LReg) (v : W64) : (putL c d v).acmds = c.acmds := rfl
@[simp] theorem putL_loads (c : Ctx) (d : LReg) (v : W64) : (putL c d v).loads = c.loads := rfl
@[simp] theorem putL_pathFree (c : Ctx) (d : LReg) (v : W64) : (putL c d v).pathFree = c.pathFree := rfl
@[simp] theorem putL_rets (c : Ctx) (d : LReg) (v : W64) : (putL c d v).rets = c.rets := rfl
@[simp] theorem putL_rtFree (c : Ctx) (d : LReg) (v : W64) : (putL c d v).rtFree = c.rtFree := rfl
@[simp] theorem putL_fronts (c : Ctx) (d : LReg) (v : W64) : (putL c d v).fronts = c.fronts := rfl
@[simp] theorem putL_rels (c : Ctx) (d : LReg) (v : W64) : (putL c d v).rels = c.rels := rfl
@[simp] theorem putL_freeSlots (c : Ctx) (d : LReg) (v : W64) : (putL c d v).freeSlots = c.freeSlots := rfl
@[simp] theorem putL_freePairs (c : Ctx) (d : LReg) (v : W64) : (putL c d v).freePairs = c.freePairs := rfl
@[simp] theorem putL_backSlots (c : Ctx) (d : LReg) (v : W64) : (putL c d v).backSlots = c.backSlots := rfl
@[simp] theorem putL_backPairs (c : Ctx) (d : LReg) (v : W64) : (putL c d v).backPairs = c.backPairs := rfl
@[simp] theorem putL_shadows (c : Ctx) (d : LReg) (v : W64) : (putL c d v).shadows = c.shadows := rfl
@[simp] theorem putL_buckets (c : Ctx) (d : LReg) (v : W64) : (putL c d v).buckets = c.buckets := rfl
@[simp] theorem putL_weights (c : Ctx) (d : LReg) (v : W64) : (putL c d v).weights = c.weights := rfl
@[simp] theorem putL_landed (c : Ctx) (d : LReg) (v : W64) : (putL c d v).landed = c.landed := rfl
@[simp] theorem putL_events (c : Ctx) (d : LReg) (v : W64) : (putL c d v).events = c.events := rfl
@[simp] theorem putL_irq (c : Ctx) (d : LReg) (v : W64) : (putL c d v).irq = c.irq := rfl
@[simp] theorem putL_irqAt (c : Ctx) (d : LReg) (v : W64) : (putL c d v).irqAt = c.irqAt := rfl
@[simp] theorem putL_irqNow (c : Ctx) (d : LReg) (v : W64) : (putL c d v).irqNow = c.irqNow := rfl
@[simp] theorem putL_held (c : Ctx) (d : LReg) (v : W64) : (putL c d v).held = c.held := rfl
@[simp] theorem putL_heldAt (c : Ctx) (d : LReg) (v : W64) : (putL c d v).heldAt = c.heldAt := rfl
@[simp] theorem putL_frame (c : Ctx) (d : LReg) (v : W64) : (putL c d v).frame = c.frame := rfl
@[simp] theorem putL_frameImg (c : Ctx) (d : LReg) (v : W64) : (putL c d v).frameImg = c.frameImg := rfl
@[simp] theorem putL_withdrawn (c : Ctx) (d : LReg) (v : W64) : (putL c d v).withdrawn = c.withdrawn := rfl
@[simp] theorem putL_subst (c : Ctx) (d : LReg) (v : W64) : (putL c d v).subst = c.subst := rfl
@[simp] theorem putL_trapWait (c : Ctx) (d : LReg) (v : W64) : (putL c d v).trapWait = c.trapWait := rfl
@[simp] theorem putL_report (c : Ctx) (d : LReg) (v : W64) : (putL c d v).report = c.report := rfl
@[simp] theorem putL_barWait (c : Ctx) (d : LReg) (v : W64) : (putL c d v).barWait = c.barWait := rfl
@[simp] theorem putL_diffWait (c : Ctx) (d : LReg) (v : W64) : (putL c d v).diffWait = c.diffWait := rfl
@[simp] theorem putL_roomWait (c : Ctx) (d : LReg) (v : W64) : (putL c d v).roomWait = c.roomWait := rfl
@[simp] theorem putL_saving (c : Ctx) (d : LReg) (v : W64) : (putL c d v).saving = c.saving := rfl
@[simp] theorem putL_forcedCtr (c : Ctx) (d : LReg) (v : W64) : (putL c d v).forcedCtr = c.forcedCtr := rfl
@[simp] theorem putL_dlSeen (c : Ctx) (d : LReg) (v : W64) : (putL c d v).dlSeen = c.dlSeen := rfl
@[simp] theorem putL_abandoned (c : Ctx) (d : LReg) (v : W64) : (putL c d v).abandoned = c.abandoned := rfl
@[simp] theorem putL_tagsAtStop (c : Ctx) (d : LReg) (v : W64) : (putL c d v).tagsAtStop = c.tagsAtStop := rfl
@[simp] theorem putL_priv (c : Ctx) (d : LReg) (v : W64) : (putL c d v).priv = c.priv := rfl
@[simp] theorem putL_view (c : Ctx) (d : LReg) (v : W64) : (putL c d v).view = c.view := rfl
@[simp] theorem putL_accView (c : Ctx) (d : LReg) (v : W64) : (putL c d v).accView = c.accView := rfl
@[simp] theorem putL_acq (c : Ctx) (d : LReg) (v : W64) : (putL c d v).acq = c.acq := rfl
@[simp] theorem putL_asid (c : Ctx) (d : LReg) (v : W64) : (putL c d v).asid = c.asid := rfl
@[simp] theorem putL_vmid (c : Ctx) (d : LReg) (v : W64) : (putL c d v).vmid = c.vmid := rfl
@[simp] theorem putL_s1Root (c : Ctx) (d : LReg) (v : W64) : (putL c d v).s1Root = c.s1Root := rfl
@[simp] theorem putL_s2Root (c : Ctx) (d : LReg) (v : W64) : (putL c d v).s2Root = c.s2Root := rfl
@[simp] theorem putL_uRoot (c : Ctx) (d : LReg) (v : W64) : (putL c d v).uRoot = c.uRoot := rfl
@[simp] theorem putL_locked (c : Ctx) (d : LReg) (v : W64) : (putL c d v).locked = c.locked := rfl
@[simp] theorem putL_lockedA (c : Ctx) (d : LReg) (v : W64) : (putL c d v).lockedA = c.lockedA := rfl
@[simp] theorem putL_recPage (c : Ctx) (d : LReg) (v : W64) : (putL c d v).recPage = c.recPage := rfl
@[simp] theorem putL_recVa (c : Ctx) (d : LReg) (v : W64) : (putL c d v).recVa = c.recVa := rfl
@[simp] theorem putL_lastTsc (c : Ctx) (d : LReg) (v : W64) : (putL c d v).lastTsc = c.lastTsc := rfl

/-! ## putV -/

@[simp] theorem putV_life (c : Ctx) (d : VReg) (v : Row) : (putV c d v).life = c.life := rfl
@[simp] theorem putV_die (c : Ctx) (d : VReg) (v : Row) : (putV c d v).die = c.die := rfl
@[simp] theorem putV_bay (c : Ctx) (d : VReg) (v : Row) : (putV c d v).bay = c.bay := rfl
@[simp] theorem putV_core (c : Ctx) (d : VReg) (v : Row) : (putV c d v).core = c.core := rfl
@[simp] theorem putV_bank (c : Ctx) (d : VReg) (v : Row) : (putV c d v).bank = c.bank := rfl
@[simp] theorem putV_launch (c : Ctx) (d : VReg) (v : Row) : (putV c d v).launch = c.launch := rfl
@[simp] theorem putV_nodeDie (c : Ctx) (d : VReg) (v : Row) : (putV c d v).nodeDie = c.nodeDie := rfl
@[simp] theorem putV_nodeIdx (c : Ctx) (d : VReg) (v : Row) : (putV c d v).nodeIdx = c.nodeIdx := rfl
@[simp] theorem putV_turnAt (c : Ctx) (d : VReg) (v : Row) : (putV c d v).turnAt = c.turnAt := rfl
@[simp] theorem putV_timed (c : Ctx) (d : VReg) (v : Row) : (putV c d v).timed = c.timed := rfl
@[simp] theorem putV_status (c : Ctx) (d : VReg) (v : Row) : (putV c d v).status = c.status := rfl
@[simp] theorem putV_vrank (c : Ctx) (d : VReg) (v : Row) : (putV c d v).vrank = c.vrank := rfl
@[simp] theorem putV_vcount (c : Ctx) (d : VReg) (v : Row) : (putV c d v).vcount = c.vcount := rfl
@[simp] theorem putV_part (c : Ctx) (d : VReg) (v : Row) : (putV c d v).part = c.part := rfl
@[simp] theorem putV_frnd (c : Ctx) (d : VReg) (v : Row) : (putV c d v).frnd = c.frnd := rfl
@[simp] theorem putV_fflags (c : Ctx) (d : VReg) (v : Row) : (putV c d v).fflags = c.fflags := rfl
@[simp] theorem putV_scaleRcp (c : Ctx) (d : VReg) (v : Row) : (putV c d v).scaleRcp = c.scaleRcp := rfl
@[simp] theorem putV_dmode (c : Ctx) (d : VReg) (v : Row) : (putV c d v).dmode = c.dmode := rfl
@[simp] theorem putV_tapeBase (c : Ctx) (d : VReg) (v : Row) : (putV c d v).tapeBase = c.tapeBase := rfl
@[simp] theorem putV_tapeLimit (c : Ctx) (d : VReg) (v : Row) : (putV c d v).tapeLimit = c.tapeLimit := rfl
@[simp] theorem putV_tapeHead (c : Ctx) (d : VReg) (v : Row) : (putV c d v).tapeHead = c.tapeHead := rfl
@[simp] theorem putV_adjRoot (c : Ctx) (d : VReg) (v : Row) : (putV c d v).adjRoot = c.adjRoot := rfl
@[simp] theorem putV_patchEpoch (c : Ctx) (d : VReg) (v : Row) : (putV c d v).patchEpoch = c.patchEpoch := rfl
@[simp] theorem putV_yieldDl (c : Ctx) (d : VReg) (v : Row) : (putV c d v).yieldDl = c.yieldDl := rfl
@[simp] theorem putV_expStall (c : Ctx) (d : VReg) (v : Row) : (putV c d v).expStall = c.expStall := rfl
@[simp] theorem putV_trapVec (c : Ctx) (d : VReg) (v : Row) : (putV c d v).trapVec = c.trapVec := rfl
@[simp] theorem putV_trapCause (c : Ctx) (d : VReg) (v : Row) : (putV c d v).trapCause = c.trapCause := rfl
@[simp] theorem putV_s (c : Ctx) (d : VReg) (v : Row) : (putV c d v).s = c.s := rfl
@[simp] theorem putV_f (c : Ctx) (d : VReg) (v : Row) : (putV c d v).f = c.f := rfl
@[simp] theorem putV_g (c : Ctx) (d : VReg) (v : Row) : (putV c d v).g = c.g := rfl
@[simp] theorem putV_l (c : Ctx) (d : VReg) (v : Row) : (putV c d v).l = c.l := rfl
@[simp] theorem putV_v (c : Ctx) (d : VReg) (v : Row) : (putV c d v).v = c.v.set d v := rfl
@[simp] theorem putV_lf (c : Ctx) (d : VReg) (v : Row) : (putV c d v).lf = c.lf := rfl
@[simp] theorem putV_lfNow (c : Ctx) (d : VReg) (v : Row) : (putV c d v).lfNow = c.lfNow := rfl
@[simp] theorem putV_hist (c : Ctx) (d : VReg) (v : Row) : (putV c d v).hist = c.hist := rfl
@[simp] theorem putV_bf (c : Ctx) (d : VReg) (v : Row) : (putV c d v).bf = c.bf := rfl
@[simp] theorem putV_arm (c : Ctx) (d : VReg) (v : Row) : (putV c d v).arm = c.arm := rfl
@[simp] theorem putV_ms (c : Ctx) (d : VReg) (v : Row) : (putV c d v).ms = c.ms := rfl
@[simp] theorem putV_ks (c : Ctx) (d : VReg) (v : Row) : (putV c d v).ks = c.ks := rfl
@[simp] theorem putV_ps (c : Ctx) (d : VReg) (v : Row) : (putV c d v).ps = c.ps := rfl
@[simp] theorem putV_cix (c : Ctx) (d : VReg) (v : Row) : (putV c d v).cix = c.cix := rfl
@[simp] theorem putV_kdep (c : Ctx) (d : VReg) (v : Row) : (putV c d v).kdep = c.kdep := rfl
@[simp] theorem putV_wrapped (c : Ctx) (d : VReg) (v : Row) : (putV c d v).wrapped = c.wrapped := rfl
@[simp] theorem putV_bars (c : Ctx) (d : VReg) (v : Row) : (putV c d v).bars = c.bars := rfl
@[simp] theorem putV_tags (c : Ctx) (d : VReg) (v : Row) : (putV c d v).tags = c.tags := rfl
@[simp] theorem putV_strC (c : Ctx) (d : VReg) (v : Row) : (putV c d v).strC = c.strC := rfl
@[simp] theorem putV_strA (c : Ctx) (d : VReg) (v : Row) : (putV c d v).strA = c.strA := rfl
@[simp] theorem putV_strM (c : Ctx) (d : VReg) (v : Row) : (putV c d v).strM = c.strM := rfl
@[simp] theorem putV_strS (c : Ctx) (d : VReg) (v : Row) : (putV c d v).strS = c.strS := rfl
@[simp] theorem putV_fifoCA (c : Ctx) (d : VReg) (v : Row) : (putV c d v).fifoCA = c.fifoCA := rfl
@[simp] theorem putV_fifoAC (c : Ctx) (d : VReg) (v : Row) : (putV c d v).fifoAC = c.fifoAC := rfl
@[simp] theorem putV_fifoAM (c : Ctx) (d : VReg) (v : Row) : (putV c d v).fifoAM = c.fifoAM := rfl
@[simp] theorem putV_fifoMA (c : Ctx) (d : VReg) (v : Row) : (putV c d v).fifoMA = c.fifoMA := rfl
@[simp] theorem putV_fifoMS (c : Ctx) (d : VReg) (v : Row) : (putV c d v).fifoMS = c.fifoMS := rfl
@[simp] theorem putV_fifoSM (c : Ctx) (d : VReg) (v : Row) : (putV c d v).fifoSM = c.fifoSM := rfl
@[simp] theorem putV_fifoSC (c : Ctx) (d : VReg) (v : Row) : (putV c d v).fifoSC = c.fifoSC := rfl
@[simp] theorem putV_fifoCS (c : Ctx) (d : VReg) (v : Row) : (putV c d v).fifoCS = c.fifoCS := rfl
@[simp] theorem putV_qs (c : Ctx) (d : VReg) (v : Row) : (putV c d v).qs = c.qs := rfl
@[simp] theorem putV_pend (c : Ctx) (d : VReg) (v : Row) : (putV c d v).pend = c.pend := rfl
@[simp] theorem putV_words (c : Ctx) (d : VReg) (v : Row) : (putV c d v).words = c.words := rfl
@[simp] theorem putV_cmds (c : Ctx) (d : VReg) (v : Row) : (putV c d v).cmds = c.cmds := rfl
@[simp] theorem putV_acmds (c : Ctx) (d : VReg) (v : Row) : (putV c d v).acmds = c.acmds := rfl
@[simp] theorem putV_loads (c : Ctx) (d : VReg) (v : Row) : (putV c d v).loads = c.loads := rfl
@[simp] theorem putV_pathFree (c : Ctx) (d : VReg) (v : Row) : (putV c d v).pathFree = c.pathFree := rfl
@[simp] theorem putV_rets (c : Ctx) (d : VReg) (v : Row) : (putV c d v).rets = c.rets := rfl
@[simp] theorem putV_rtFree (c : Ctx) (d : VReg) (v : Row) : (putV c d v).rtFree = c.rtFree := rfl
@[simp] theorem putV_fronts (c : Ctx) (d : VReg) (v : Row) : (putV c d v).fronts = c.fronts := rfl
@[simp] theorem putV_rels (c : Ctx) (d : VReg) (v : Row) : (putV c d v).rels = c.rels := rfl
@[simp] theorem putV_freeSlots (c : Ctx) (d : VReg) (v : Row) : (putV c d v).freeSlots = c.freeSlots := rfl
@[simp] theorem putV_freePairs (c : Ctx) (d : VReg) (v : Row) : (putV c d v).freePairs = c.freePairs := rfl
@[simp] theorem putV_backSlots (c : Ctx) (d : VReg) (v : Row) : (putV c d v).backSlots = c.backSlots := rfl
@[simp] theorem putV_backPairs (c : Ctx) (d : VReg) (v : Row) : (putV c d v).backPairs = c.backPairs := rfl
@[simp] theorem putV_shadows (c : Ctx) (d : VReg) (v : Row) : (putV c d v).shadows = c.shadows := rfl
@[simp] theorem putV_buckets (c : Ctx) (d : VReg) (v : Row) : (putV c d v).buckets = c.buckets := rfl
@[simp] theorem putV_weights (c : Ctx) (d : VReg) (v : Row) : (putV c d v).weights = c.weights := rfl
@[simp] theorem putV_landed (c : Ctx) (d : VReg) (v : Row) : (putV c d v).landed = c.landed := rfl
@[simp] theorem putV_events (c : Ctx) (d : VReg) (v : Row) : (putV c d v).events = c.events := rfl
@[simp] theorem putV_irq (c : Ctx) (d : VReg) (v : Row) : (putV c d v).irq = c.irq := rfl
@[simp] theorem putV_irqAt (c : Ctx) (d : VReg) (v : Row) : (putV c d v).irqAt = c.irqAt := rfl
@[simp] theorem putV_irqNow (c : Ctx) (d : VReg) (v : Row) : (putV c d v).irqNow = c.irqNow := rfl
@[simp] theorem putV_held (c : Ctx) (d : VReg) (v : Row) : (putV c d v).held = c.held := rfl
@[simp] theorem putV_heldAt (c : Ctx) (d : VReg) (v : Row) : (putV c d v).heldAt = c.heldAt := rfl
@[simp] theorem putV_frame (c : Ctx) (d : VReg) (v : Row) : (putV c d v).frame = c.frame := rfl
@[simp] theorem putV_frameImg (c : Ctx) (d : VReg) (v : Row) : (putV c d v).frameImg = c.frameImg := rfl
@[simp] theorem putV_withdrawn (c : Ctx) (d : VReg) (v : Row) : (putV c d v).withdrawn = c.withdrawn := rfl
@[simp] theorem putV_subst (c : Ctx) (d : VReg) (v : Row) : (putV c d v).subst = c.subst := rfl
@[simp] theorem putV_trapWait (c : Ctx) (d : VReg) (v : Row) : (putV c d v).trapWait = c.trapWait := rfl
@[simp] theorem putV_report (c : Ctx) (d : VReg) (v : Row) : (putV c d v).report = c.report := rfl
@[simp] theorem putV_barWait (c : Ctx) (d : VReg) (v : Row) : (putV c d v).barWait = c.barWait := rfl
@[simp] theorem putV_diffWait (c : Ctx) (d : VReg) (v : Row) : (putV c d v).diffWait = c.diffWait := rfl
@[simp] theorem putV_roomWait (c : Ctx) (d : VReg) (v : Row) : (putV c d v).roomWait = c.roomWait := rfl
@[simp] theorem putV_saving (c : Ctx) (d : VReg) (v : Row) : (putV c d v).saving = c.saving := rfl
@[simp] theorem putV_forcedCtr (c : Ctx) (d : VReg) (v : Row) : (putV c d v).forcedCtr = c.forcedCtr := rfl
@[simp] theorem putV_dlSeen (c : Ctx) (d : VReg) (v : Row) : (putV c d v).dlSeen = c.dlSeen := rfl
@[simp] theorem putV_abandoned (c : Ctx) (d : VReg) (v : Row) : (putV c d v).abandoned = c.abandoned := rfl
@[simp] theorem putV_tagsAtStop (c : Ctx) (d : VReg) (v : Row) : (putV c d v).tagsAtStop = c.tagsAtStop := rfl
@[simp] theorem putV_priv (c : Ctx) (d : VReg) (v : Row) : (putV c d v).priv = c.priv := rfl
@[simp] theorem putV_view (c : Ctx) (d : VReg) (v : Row) : (putV c d v).view = c.view := rfl
@[simp] theorem putV_accView (c : Ctx) (d : VReg) (v : Row) : (putV c d v).accView = c.accView := rfl
@[simp] theorem putV_acq (c : Ctx) (d : VReg) (v : Row) : (putV c d v).acq = c.acq := rfl
@[simp] theorem putV_asid (c : Ctx) (d : VReg) (v : Row) : (putV c d v).asid = c.asid := rfl
@[simp] theorem putV_vmid (c : Ctx) (d : VReg) (v : Row) : (putV c d v).vmid = c.vmid := rfl
@[simp] theorem putV_s1Root (c : Ctx) (d : VReg) (v : Row) : (putV c d v).s1Root = c.s1Root := rfl
@[simp] theorem putV_s2Root (c : Ctx) (d : VReg) (v : Row) : (putV c d v).s2Root = c.s2Root := rfl
@[simp] theorem putV_uRoot (c : Ctx) (d : VReg) (v : Row) : (putV c d v).uRoot = c.uRoot := rfl
@[simp] theorem putV_locked (c : Ctx) (d : VReg) (v : Row) : (putV c d v).locked = c.locked := rfl
@[simp] theorem putV_lockedA (c : Ctx) (d : VReg) (v : Row) : (putV c d v).lockedA = c.lockedA := rfl
@[simp] theorem putV_recPage (c : Ctx) (d : VReg) (v : Row) : (putV c d v).recPage = c.recPage := rfl
@[simp] theorem putV_recVa (c : Ctx) (d : VReg) (v : Row) : (putV c d v).recVa = c.recVa := rfl
@[simp] theorem putV_lastTsc (c : Ctx) (d : VReg) (v : Row) : (putV c d v).lastTsc = c.lastTsc := rfl

/-! ## orFflags -/

@[simp] theorem orFflags_life (c : Ctx) (x : Flags) : (orFflags c x).life = c.life := rfl
@[simp] theorem orFflags_die (c : Ctx) (x : Flags) : (orFflags c x).die = c.die := rfl
@[simp] theorem orFflags_bay (c : Ctx) (x : Flags) : (orFflags c x).bay = c.bay := rfl
@[simp] theorem orFflags_core (c : Ctx) (x : Flags) : (orFflags c x).core = c.core := rfl
@[simp] theorem orFflags_bank (c : Ctx) (x : Flags) : (orFflags c x).bank = c.bank := rfl
@[simp] theorem orFflags_launch (c : Ctx) (x : Flags) : (orFflags c x).launch = c.launch := rfl
@[simp] theorem orFflags_nodeDie (c : Ctx) (x : Flags) : (orFflags c x).nodeDie = c.nodeDie := rfl
@[simp] theorem orFflags_nodeIdx (c : Ctx) (x : Flags) : (orFflags c x).nodeIdx = c.nodeIdx := rfl
@[simp] theorem orFflags_turnAt (c : Ctx) (x : Flags) : (orFflags c x).turnAt = c.turnAt := rfl
@[simp] theorem orFflags_timed (c : Ctx) (x : Flags) : (orFflags c x).timed = c.timed := rfl
@[simp] theorem orFflags_status (c : Ctx) (x : Flags) : (orFflags c x).status = c.status := rfl
@[simp] theorem orFflags_vrank (c : Ctx) (x : Flags) : (orFflags c x).vrank = c.vrank := rfl
@[simp] theorem orFflags_vcount (c : Ctx) (x : Flags) : (orFflags c x).vcount = c.vcount := rfl
@[simp] theorem orFflags_part (c : Ctx) (x : Flags) : (orFflags c x).part = c.part := rfl
@[simp] theorem orFflags_frnd (c : Ctx) (x : Flags) : (orFflags c x).frnd = c.frnd := rfl
@[simp] theorem orFflags_fflags (c : Ctx) (x : Flags) : (orFflags c x).fflags = c.fflags ||| fflagsOf x := rfl
@[simp] theorem orFflags_scaleRcp (c : Ctx) (x : Flags) : (orFflags c x).scaleRcp = c.scaleRcp := rfl
@[simp] theorem orFflags_dmode (c : Ctx) (x : Flags) : (orFflags c x).dmode = c.dmode := rfl
@[simp] theorem orFflags_tapeBase (c : Ctx) (x : Flags) : (orFflags c x).tapeBase = c.tapeBase := rfl
@[simp] theorem orFflags_tapeLimit (c : Ctx) (x : Flags) : (orFflags c x).tapeLimit = c.tapeLimit := rfl
@[simp] theorem orFflags_tapeHead (c : Ctx) (x : Flags) : (orFflags c x).tapeHead = c.tapeHead := rfl
@[simp] theorem orFflags_adjRoot (c : Ctx) (x : Flags) : (orFflags c x).adjRoot = c.adjRoot := rfl
@[simp] theorem orFflags_patchEpoch (c : Ctx) (x : Flags) : (orFflags c x).patchEpoch = c.patchEpoch := rfl
@[simp] theorem orFflags_yieldDl (c : Ctx) (x : Flags) : (orFflags c x).yieldDl = c.yieldDl := rfl
@[simp] theorem orFflags_expStall (c : Ctx) (x : Flags) : (orFflags c x).expStall = c.expStall := rfl
@[simp] theorem orFflags_trapVec (c : Ctx) (x : Flags) : (orFflags c x).trapVec = c.trapVec := rfl
@[simp] theorem orFflags_trapCause (c : Ctx) (x : Flags) : (orFflags c x).trapCause = c.trapCause := rfl
@[simp] theorem orFflags_s (c : Ctx) (x : Flags) : (orFflags c x).s = c.s := rfl
@[simp] theorem orFflags_f (c : Ctx) (x : Flags) : (orFflags c x).f = c.f := rfl
@[simp] theorem orFflags_g (c : Ctx) (x : Flags) : (orFflags c x).g = c.g := rfl
@[simp] theorem orFflags_l (c : Ctx) (x : Flags) : (orFflags c x).l = c.l := rfl
@[simp] theorem orFflags_v (c : Ctx) (x : Flags) : (orFflags c x).v = c.v := rfl
@[simp] theorem orFflags_lf (c : Ctx) (x : Flags) : (orFflags c x).lf = c.lf := rfl
@[simp] theorem orFflags_lfNow (c : Ctx) (x : Flags) : (orFflags c x).lfNow = c.lfNow := rfl
@[simp] theorem orFflags_hist (c : Ctx) (x : Flags) : (orFflags c x).hist = c.hist := rfl
@[simp] theorem orFflags_bf (c : Ctx) (x : Flags) : (orFflags c x).bf = c.bf := rfl
@[simp] theorem orFflags_arm (c : Ctx) (x : Flags) : (orFflags c x).arm = c.arm := rfl
@[simp] theorem orFflags_ms (c : Ctx) (x : Flags) : (orFflags c x).ms = c.ms := rfl
@[simp] theorem orFflags_ks (c : Ctx) (x : Flags) : (orFflags c x).ks = c.ks := rfl
@[simp] theorem orFflags_ps (c : Ctx) (x : Flags) : (orFflags c x).ps = c.ps := rfl
@[simp] theorem orFflags_cix (c : Ctx) (x : Flags) : (orFflags c x).cix = c.cix := rfl
@[simp] theorem orFflags_kdep (c : Ctx) (x : Flags) : (orFflags c x).kdep = c.kdep := rfl
@[simp] theorem orFflags_wrapped (c : Ctx) (x : Flags) : (orFflags c x).wrapped = c.wrapped := rfl
@[simp] theorem orFflags_bars (c : Ctx) (x : Flags) : (orFflags c x).bars = c.bars := rfl
@[simp] theorem orFflags_tags (c : Ctx) (x : Flags) : (orFflags c x).tags = c.tags := rfl
@[simp] theorem orFflags_strC (c : Ctx) (x : Flags) : (orFflags c x).strC = c.strC := rfl
@[simp] theorem orFflags_strA (c : Ctx) (x : Flags) : (orFflags c x).strA = c.strA := rfl
@[simp] theorem orFflags_strM (c : Ctx) (x : Flags) : (orFflags c x).strM = c.strM := rfl
@[simp] theorem orFflags_strS (c : Ctx) (x : Flags) : (orFflags c x).strS = c.strS := rfl
@[simp] theorem orFflags_fifoCA (c : Ctx) (x : Flags) : (orFflags c x).fifoCA = c.fifoCA := rfl
@[simp] theorem orFflags_fifoAC (c : Ctx) (x : Flags) : (orFflags c x).fifoAC = c.fifoAC := rfl
@[simp] theorem orFflags_fifoAM (c : Ctx) (x : Flags) : (orFflags c x).fifoAM = c.fifoAM := rfl
@[simp] theorem orFflags_fifoMA (c : Ctx) (x : Flags) : (orFflags c x).fifoMA = c.fifoMA := rfl
@[simp] theorem orFflags_fifoMS (c : Ctx) (x : Flags) : (orFflags c x).fifoMS = c.fifoMS := rfl
@[simp] theorem orFflags_fifoSM (c : Ctx) (x : Flags) : (orFflags c x).fifoSM = c.fifoSM := rfl
@[simp] theorem orFflags_fifoSC (c : Ctx) (x : Flags) : (orFflags c x).fifoSC = c.fifoSC := rfl
@[simp] theorem orFflags_fifoCS (c : Ctx) (x : Flags) : (orFflags c x).fifoCS = c.fifoCS := rfl
@[simp] theorem orFflags_qs (c : Ctx) (x : Flags) : (orFflags c x).qs = c.qs := rfl
@[simp] theorem orFflags_pend (c : Ctx) (x : Flags) : (orFflags c x).pend = c.pend := rfl
@[simp] theorem orFflags_words (c : Ctx) (x : Flags) : (orFflags c x).words = c.words := rfl
@[simp] theorem orFflags_cmds (c : Ctx) (x : Flags) : (orFflags c x).cmds = c.cmds := rfl
@[simp] theorem orFflags_acmds (c : Ctx) (x : Flags) : (orFflags c x).acmds = c.acmds := rfl
@[simp] theorem orFflags_loads (c : Ctx) (x : Flags) : (orFflags c x).loads = c.loads := rfl
@[simp] theorem orFflags_pathFree (c : Ctx) (x : Flags) : (orFflags c x).pathFree = c.pathFree := rfl
@[simp] theorem orFflags_rets (c : Ctx) (x : Flags) : (orFflags c x).rets = c.rets := rfl
@[simp] theorem orFflags_rtFree (c : Ctx) (x : Flags) : (orFflags c x).rtFree = c.rtFree := rfl
@[simp] theorem orFflags_fronts (c : Ctx) (x : Flags) : (orFflags c x).fronts = c.fronts := rfl
@[simp] theorem orFflags_rels (c : Ctx) (x : Flags) : (orFflags c x).rels = c.rels := rfl
@[simp] theorem orFflags_freeSlots (c : Ctx) (x : Flags) : (orFflags c x).freeSlots = c.freeSlots := rfl
@[simp] theorem orFflags_freePairs (c : Ctx) (x : Flags) : (orFflags c x).freePairs = c.freePairs := rfl
@[simp] theorem orFflags_backSlots (c : Ctx) (x : Flags) : (orFflags c x).backSlots = c.backSlots := rfl
@[simp] theorem orFflags_backPairs (c : Ctx) (x : Flags) : (orFflags c x).backPairs = c.backPairs := rfl
@[simp] theorem orFflags_shadows (c : Ctx) (x : Flags) : (orFflags c x).shadows = c.shadows := rfl
@[simp] theorem orFflags_buckets (c : Ctx) (x : Flags) : (orFflags c x).buckets = c.buckets := rfl
@[simp] theorem orFflags_weights (c : Ctx) (x : Flags) : (orFflags c x).weights = c.weights := rfl
@[simp] theorem orFflags_landed (c : Ctx) (x : Flags) : (orFflags c x).landed = c.landed := rfl
@[simp] theorem orFflags_events (c : Ctx) (x : Flags) : (orFflags c x).events = c.events := rfl
@[simp] theorem orFflags_irq (c : Ctx) (x : Flags) : (orFflags c x).irq = c.irq := rfl
@[simp] theorem orFflags_irqAt (c : Ctx) (x : Flags) : (orFflags c x).irqAt = c.irqAt := rfl
@[simp] theorem orFflags_irqNow (c : Ctx) (x : Flags) : (orFflags c x).irqNow = c.irqNow := rfl
@[simp] theorem orFflags_held (c : Ctx) (x : Flags) : (orFflags c x).held = c.held := rfl
@[simp] theorem orFflags_heldAt (c : Ctx) (x : Flags) : (orFflags c x).heldAt = c.heldAt := rfl
@[simp] theorem orFflags_frame (c : Ctx) (x : Flags) : (orFflags c x).frame = c.frame := rfl
@[simp] theorem orFflags_frameImg (c : Ctx) (x : Flags) : (orFflags c x).frameImg = c.frameImg := rfl
@[simp] theorem orFflags_withdrawn (c : Ctx) (x : Flags) : (orFflags c x).withdrawn = c.withdrawn := rfl
@[simp] theorem orFflags_subst (c : Ctx) (x : Flags) : (orFflags c x).subst = c.subst := rfl
@[simp] theorem orFflags_trapWait (c : Ctx) (x : Flags) : (orFflags c x).trapWait = c.trapWait := rfl
@[simp] theorem orFflags_report (c : Ctx) (x : Flags) : (orFflags c x).report = c.report := rfl
@[simp] theorem orFflags_barWait (c : Ctx) (x : Flags) : (orFflags c x).barWait = c.barWait := rfl
@[simp] theorem orFflags_diffWait (c : Ctx) (x : Flags) : (orFflags c x).diffWait = c.diffWait := rfl
@[simp] theorem orFflags_roomWait (c : Ctx) (x : Flags) : (orFflags c x).roomWait = c.roomWait := rfl
@[simp] theorem orFflags_saving (c : Ctx) (x : Flags) : (orFflags c x).saving = c.saving := rfl
@[simp] theorem orFflags_forcedCtr (c : Ctx) (x : Flags) : (orFflags c x).forcedCtr = c.forcedCtr := rfl
@[simp] theorem orFflags_dlSeen (c : Ctx) (x : Flags) : (orFflags c x).dlSeen = c.dlSeen := rfl
@[simp] theorem orFflags_abandoned (c : Ctx) (x : Flags) : (orFflags c x).abandoned = c.abandoned := rfl
@[simp] theorem orFflags_tagsAtStop (c : Ctx) (x : Flags) : (orFflags c x).tagsAtStop = c.tagsAtStop := rfl
@[simp] theorem orFflags_priv (c : Ctx) (x : Flags) : (orFflags c x).priv = c.priv := rfl
@[simp] theorem orFflags_view (c : Ctx) (x : Flags) : (orFflags c x).view = c.view := rfl
@[simp] theorem orFflags_accView (c : Ctx) (x : Flags) : (orFflags c x).accView = c.accView := rfl
@[simp] theorem orFflags_acq (c : Ctx) (x : Flags) : (orFflags c x).acq = c.acq := rfl
@[simp] theorem orFflags_asid (c : Ctx) (x : Flags) : (orFflags c x).asid = c.asid := rfl
@[simp] theorem orFflags_vmid (c : Ctx) (x : Flags) : (orFflags c x).vmid = c.vmid := rfl
@[simp] theorem orFflags_s1Root (c : Ctx) (x : Flags) : (orFflags c x).s1Root = c.s1Root := rfl
@[simp] theorem orFflags_s2Root (c : Ctx) (x : Flags) : (orFflags c x).s2Root = c.s2Root := rfl
@[simp] theorem orFflags_uRoot (c : Ctx) (x : Flags) : (orFflags c x).uRoot = c.uRoot := rfl
@[simp] theorem orFflags_locked (c : Ctx) (x : Flags) : (orFflags c x).locked = c.locked := rfl
@[simp] theorem orFflags_lockedA (c : Ctx) (x : Flags) : (orFflags c x).lockedA = c.lockedA := rfl
@[simp] theorem orFflags_recPage (c : Ctx) (x : Flags) : (orFflags c x).recPage = c.recPage := rfl
@[simp] theorem orFflags_recVa (c : Ctx) (x : Flags) : (orFflags c x).recVa = c.recVa := rfl
@[simp] theorem orFflags_lastTsc (c : Ctx) (x : Flags) : (orFflags c x).lastTsc = c.lastTsc := rfl

/-! ## Ctx.setQueue -/

@[simp] theorem Ctx.setQueue_life (c : Ctx) (q : QNo) (x : Queue) : (c.setQueue q x).life = c.life := rfl
@[simp] theorem Ctx.setQueue_die (c : Ctx) (q : QNo) (x : Queue) : (c.setQueue q x).die = c.die := rfl
@[simp] theorem Ctx.setQueue_bay (c : Ctx) (q : QNo) (x : Queue) : (c.setQueue q x).bay = c.bay := rfl
@[simp] theorem Ctx.setQueue_core (c : Ctx) (q : QNo) (x : Queue) : (c.setQueue q x).core = c.core := rfl
@[simp] theorem Ctx.setQueue_bank (c : Ctx) (q : QNo) (x : Queue) : (c.setQueue q x).bank = c.bank := rfl
@[simp] theorem Ctx.setQueue_launch (c : Ctx) (q : QNo) (x : Queue) : (c.setQueue q x).launch = c.launch := rfl
@[simp] theorem Ctx.setQueue_nodeDie (c : Ctx) (q : QNo) (x : Queue) : (c.setQueue q x).nodeDie = c.nodeDie := rfl
@[simp] theorem Ctx.setQueue_nodeIdx (c : Ctx) (q : QNo) (x : Queue) : (c.setQueue q x).nodeIdx = c.nodeIdx := rfl
@[simp] theorem Ctx.setQueue_turnAt (c : Ctx) (q : QNo) (x : Queue) : (c.setQueue q x).turnAt = c.turnAt := rfl
@[simp] theorem Ctx.setQueue_timed (c : Ctx) (q : QNo) (x : Queue) : (c.setQueue q x).timed = c.timed := rfl
@[simp] theorem Ctx.setQueue_status (c : Ctx) (q : QNo) (x : Queue) : (c.setQueue q x).status = c.status := rfl
@[simp] theorem Ctx.setQueue_vrank (c : Ctx) (q : QNo) (x : Queue) : (c.setQueue q x).vrank = c.vrank := rfl
@[simp] theorem Ctx.setQueue_vcount (c : Ctx) (q : QNo) (x : Queue) : (c.setQueue q x).vcount = c.vcount := rfl
@[simp] theorem Ctx.setQueue_part (c : Ctx) (q : QNo) (x : Queue) : (c.setQueue q x).part = c.part := rfl
@[simp] theorem Ctx.setQueue_frnd (c : Ctx) (q : QNo) (x : Queue) : (c.setQueue q x).frnd = c.frnd := rfl
@[simp] theorem Ctx.setQueue_fflags (c : Ctx) (q : QNo) (x : Queue) : (c.setQueue q x).fflags = c.fflags := rfl
@[simp] theorem Ctx.setQueue_scaleRcp (c : Ctx) (q : QNo) (x : Queue) : (c.setQueue q x).scaleRcp = c.scaleRcp := rfl
@[simp] theorem Ctx.setQueue_dmode (c : Ctx) (q : QNo) (x : Queue) : (c.setQueue q x).dmode = c.dmode := rfl
@[simp] theorem Ctx.setQueue_tapeBase (c : Ctx) (q : QNo) (x : Queue) : (c.setQueue q x).tapeBase = c.tapeBase := rfl
@[simp] theorem Ctx.setQueue_tapeLimit (c : Ctx) (q : QNo) (x : Queue) : (c.setQueue q x).tapeLimit = c.tapeLimit := rfl
@[simp] theorem Ctx.setQueue_tapeHead (c : Ctx) (q : QNo) (x : Queue) : (c.setQueue q x).tapeHead = c.tapeHead := rfl
@[simp] theorem Ctx.setQueue_adjRoot (c : Ctx) (q : QNo) (x : Queue) : (c.setQueue q x).adjRoot = c.adjRoot := rfl
@[simp] theorem Ctx.setQueue_patchEpoch (c : Ctx) (q : QNo) (x : Queue) : (c.setQueue q x).patchEpoch = c.patchEpoch := rfl
@[simp] theorem Ctx.setQueue_yieldDl (c : Ctx) (q : QNo) (x : Queue) : (c.setQueue q x).yieldDl = c.yieldDl := rfl
@[simp] theorem Ctx.setQueue_expStall (c : Ctx) (q : QNo) (x : Queue) : (c.setQueue q x).expStall = c.expStall := rfl
@[simp] theorem Ctx.setQueue_trapVec (c : Ctx) (q : QNo) (x : Queue) : (c.setQueue q x).trapVec = c.trapVec := rfl
@[simp] theorem Ctx.setQueue_trapCause (c : Ctx) (q : QNo) (x : Queue) : (c.setQueue q x).trapCause = c.trapCause := rfl
@[simp] theorem Ctx.setQueue_s (c : Ctx) (q : QNo) (x : Queue) : (c.setQueue q x).s = c.s := rfl
@[simp] theorem Ctx.setQueue_f (c : Ctx) (q : QNo) (x : Queue) : (c.setQueue q x).f = c.f := rfl
@[simp] theorem Ctx.setQueue_g (c : Ctx) (q : QNo) (x : Queue) : (c.setQueue q x).g = c.g := rfl
@[simp] theorem Ctx.setQueue_l (c : Ctx) (q : QNo) (x : Queue) : (c.setQueue q x).l = c.l := rfl
@[simp] theorem Ctx.setQueue_v (c : Ctx) (q : QNo) (x : Queue) : (c.setQueue q x).v = c.v := rfl
@[simp] theorem Ctx.setQueue_lf (c : Ctx) (q : QNo) (x : Queue) : (c.setQueue q x).lf = c.lf := rfl
@[simp] theorem Ctx.setQueue_lfNow (c : Ctx) (q : QNo) (x : Queue) : (c.setQueue q x).lfNow = c.lfNow := rfl
@[simp] theorem Ctx.setQueue_hist (c : Ctx) (q : QNo) (x : Queue) : (c.setQueue q x).hist = c.hist := rfl
@[simp] theorem Ctx.setQueue_bf (c : Ctx) (q : QNo) (x : Queue) : (c.setQueue q x).bf = c.bf := rfl
@[simp] theorem Ctx.setQueue_arm (c : Ctx) (q : QNo) (x : Queue) : (c.setQueue q x).arm = c.arm := rfl
@[simp] theorem Ctx.setQueue_ms (c : Ctx) (q : QNo) (x : Queue) : (c.setQueue q x).ms = c.ms := rfl
@[simp] theorem Ctx.setQueue_ks (c : Ctx) (q : QNo) (x : Queue) : (c.setQueue q x).ks = c.ks := rfl
@[simp] theorem Ctx.setQueue_ps (c : Ctx) (q : QNo) (x : Queue) : (c.setQueue q x).ps = c.ps := rfl
@[simp] theorem Ctx.setQueue_cix (c : Ctx) (q : QNo) (x : Queue) : (c.setQueue q x).cix = c.cix := rfl
@[simp] theorem Ctx.setQueue_kdep (c : Ctx) (q : QNo) (x : Queue) : (c.setQueue q x).kdep = c.kdep := rfl
@[simp] theorem Ctx.setQueue_wrapped (c : Ctx) (q : QNo) (x : Queue) : (c.setQueue q x).wrapped = c.wrapped := rfl
@[simp] theorem Ctx.setQueue_bars (c : Ctx) (q : QNo) (x : Queue) : (c.setQueue q x).bars = c.bars := rfl
@[simp] theorem Ctx.setQueue_tags (c : Ctx) (q : QNo) (x : Queue) : (c.setQueue q x).tags = c.tags := rfl
@[simp] theorem Ctx.setQueue_strC (c : Ctx) (q : QNo) (x : Queue) : (c.setQueue q x).strC = c.strC := rfl
@[simp] theorem Ctx.setQueue_strA (c : Ctx) (q : QNo) (x : Queue) : (c.setQueue q x).strA = c.strA := rfl
@[simp] theorem Ctx.setQueue_strM (c : Ctx) (q : QNo) (x : Queue) : (c.setQueue q x).strM = c.strM := rfl
@[simp] theorem Ctx.setQueue_strS (c : Ctx) (q : QNo) (x : Queue) : (c.setQueue q x).strS = c.strS := rfl
@[simp] theorem Ctx.setQueue_fifoCA (c : Ctx) (q : QNo) (x : Queue) : (c.setQueue q x).fifoCA = c.fifoCA := rfl
@[simp] theorem Ctx.setQueue_fifoAC (c : Ctx) (q : QNo) (x : Queue) : (c.setQueue q x).fifoAC = c.fifoAC := rfl
@[simp] theorem Ctx.setQueue_fifoAM (c : Ctx) (q : QNo) (x : Queue) : (c.setQueue q x).fifoAM = c.fifoAM := rfl
@[simp] theorem Ctx.setQueue_fifoMA (c : Ctx) (q : QNo) (x : Queue) : (c.setQueue q x).fifoMA = c.fifoMA := rfl
@[simp] theorem Ctx.setQueue_fifoMS (c : Ctx) (q : QNo) (x : Queue) : (c.setQueue q x).fifoMS = c.fifoMS := rfl
@[simp] theorem Ctx.setQueue_fifoSM (c : Ctx) (q : QNo) (x : Queue) : (c.setQueue q x).fifoSM = c.fifoSM := rfl
@[simp] theorem Ctx.setQueue_fifoSC (c : Ctx) (q : QNo) (x : Queue) : (c.setQueue q x).fifoSC = c.fifoSC := rfl
@[simp] theorem Ctx.setQueue_fifoCS (c : Ctx) (q : QNo) (x : Queue) : (c.setQueue q x).fifoCS = c.fifoCS := rfl
@[simp] theorem Ctx.setQueue_qs (c : Ctx) (q : QNo) (x : Queue) : (c.setQueue q x).qs = c.qs.set q x := rfl
@[simp] theorem Ctx.setQueue_pend (c : Ctx) (q : QNo) (x : Queue) : (c.setQueue q x).pend = c.pend := rfl
@[simp] theorem Ctx.setQueue_words (c : Ctx) (q : QNo) (x : Queue) : (c.setQueue q x).words = c.words := rfl
@[simp] theorem Ctx.setQueue_cmds (c : Ctx) (q : QNo) (x : Queue) : (c.setQueue q x).cmds = c.cmds := rfl
@[simp] theorem Ctx.setQueue_acmds (c : Ctx) (q : QNo) (x : Queue) : (c.setQueue q x).acmds = c.acmds := rfl
@[simp] theorem Ctx.setQueue_loads (c : Ctx) (q : QNo) (x : Queue) : (c.setQueue q x).loads = c.loads := rfl
@[simp] theorem Ctx.setQueue_pathFree (c : Ctx) (q : QNo) (x : Queue) : (c.setQueue q x).pathFree = c.pathFree := rfl
@[simp] theorem Ctx.setQueue_rets (c : Ctx) (q : QNo) (x : Queue) : (c.setQueue q x).rets = c.rets := rfl
@[simp] theorem Ctx.setQueue_rtFree (c : Ctx) (q : QNo) (x : Queue) : (c.setQueue q x).rtFree = c.rtFree := rfl
@[simp] theorem Ctx.setQueue_fronts (c : Ctx) (q : QNo) (x : Queue) : (c.setQueue q x).fronts = c.fronts := rfl
@[simp] theorem Ctx.setQueue_rels (c : Ctx) (q : QNo) (x : Queue) : (c.setQueue q x).rels = c.rels := rfl
@[simp] theorem Ctx.setQueue_freeSlots (c : Ctx) (q : QNo) (x : Queue) : (c.setQueue q x).freeSlots = c.freeSlots := rfl
@[simp] theorem Ctx.setQueue_freePairs (c : Ctx) (q : QNo) (x : Queue) : (c.setQueue q x).freePairs = c.freePairs := rfl
@[simp] theorem Ctx.setQueue_backSlots (c : Ctx) (q : QNo) (x : Queue) : (c.setQueue q x).backSlots = c.backSlots := rfl
@[simp] theorem Ctx.setQueue_backPairs (c : Ctx) (q : QNo) (x : Queue) : (c.setQueue q x).backPairs = c.backPairs := rfl
@[simp] theorem Ctx.setQueue_shadows (c : Ctx) (q : QNo) (x : Queue) : (c.setQueue q x).shadows = c.shadows := rfl
@[simp] theorem Ctx.setQueue_buckets (c : Ctx) (q : QNo) (x : Queue) : (c.setQueue q x).buckets = c.buckets := rfl
@[simp] theorem Ctx.setQueue_weights (c : Ctx) (q : QNo) (x : Queue) : (c.setQueue q x).weights = c.weights := rfl
@[simp] theorem Ctx.setQueue_landed (c : Ctx) (q : QNo) (x : Queue) : (c.setQueue q x).landed = c.landed := rfl
@[simp] theorem Ctx.setQueue_events (c : Ctx) (q : QNo) (x : Queue) : (c.setQueue q x).events = c.events := rfl
@[simp] theorem Ctx.setQueue_irq (c : Ctx) (q : QNo) (x : Queue) : (c.setQueue q x).irq = c.irq := rfl
@[simp] theorem Ctx.setQueue_irqAt (c : Ctx) (q : QNo) (x : Queue) : (c.setQueue q x).irqAt = c.irqAt := rfl
@[simp] theorem Ctx.setQueue_irqNow (c : Ctx) (q : QNo) (x : Queue) : (c.setQueue q x).irqNow = c.irqNow := rfl
@[simp] theorem Ctx.setQueue_held (c : Ctx) (q : QNo) (x : Queue) : (c.setQueue q x).held = c.held := rfl
@[simp] theorem Ctx.setQueue_heldAt (c : Ctx) (q : QNo) (x : Queue) : (c.setQueue q x).heldAt = c.heldAt := rfl
@[simp] theorem Ctx.setQueue_frame (c : Ctx) (q : QNo) (x : Queue) : (c.setQueue q x).frame = c.frame := rfl
@[simp] theorem Ctx.setQueue_frameImg (c : Ctx) (q : QNo) (x : Queue) : (c.setQueue q x).frameImg = c.frameImg := rfl
@[simp] theorem Ctx.setQueue_withdrawn (c : Ctx) (q : QNo) (x : Queue) : (c.setQueue q x).withdrawn = c.withdrawn := rfl
@[simp] theorem Ctx.setQueue_subst (c : Ctx) (q : QNo) (x : Queue) : (c.setQueue q x).subst = c.subst := rfl
@[simp] theorem Ctx.setQueue_trapWait (c : Ctx) (q : QNo) (x : Queue) : (c.setQueue q x).trapWait = c.trapWait := rfl
@[simp] theorem Ctx.setQueue_report (c : Ctx) (q : QNo) (x : Queue) : (c.setQueue q x).report = c.report := rfl
@[simp] theorem Ctx.setQueue_barWait (c : Ctx) (q : QNo) (x : Queue) : (c.setQueue q x).barWait = c.barWait := rfl
@[simp] theorem Ctx.setQueue_diffWait (c : Ctx) (q : QNo) (x : Queue) : (c.setQueue q x).diffWait = c.diffWait := rfl
@[simp] theorem Ctx.setQueue_roomWait (c : Ctx) (q : QNo) (x : Queue) : (c.setQueue q x).roomWait = c.roomWait := rfl
@[simp] theorem Ctx.setQueue_saving (c : Ctx) (q : QNo) (x : Queue) : (c.setQueue q x).saving = c.saving := rfl
@[simp] theorem Ctx.setQueue_forcedCtr (c : Ctx) (q : QNo) (x : Queue) : (c.setQueue q x).forcedCtr = c.forcedCtr := rfl
@[simp] theorem Ctx.setQueue_dlSeen (c : Ctx) (q : QNo) (x : Queue) : (c.setQueue q x).dlSeen = c.dlSeen := rfl
@[simp] theorem Ctx.setQueue_abandoned (c : Ctx) (q : QNo) (x : Queue) : (c.setQueue q x).abandoned = c.abandoned := rfl
@[simp] theorem Ctx.setQueue_tagsAtStop (c : Ctx) (q : QNo) (x : Queue) : (c.setQueue q x).tagsAtStop = c.tagsAtStop := rfl
@[simp] theorem Ctx.setQueue_priv (c : Ctx) (q : QNo) (x : Queue) : (c.setQueue q x).priv = c.priv := rfl
@[simp] theorem Ctx.setQueue_view (c : Ctx) (q : QNo) (x : Queue) : (c.setQueue q x).view = c.view := rfl
@[simp] theorem Ctx.setQueue_accView (c : Ctx) (q : QNo) (x : Queue) : (c.setQueue q x).accView = c.accView := rfl
@[simp] theorem Ctx.setQueue_acq (c : Ctx) (q : QNo) (x : Queue) : (c.setQueue q x).acq = c.acq := rfl
@[simp] theorem Ctx.setQueue_asid (c : Ctx) (q : QNo) (x : Queue) : (c.setQueue q x).asid = c.asid := rfl
@[simp] theorem Ctx.setQueue_vmid (c : Ctx) (q : QNo) (x : Queue) : (c.setQueue q x).vmid = c.vmid := rfl
@[simp] theorem Ctx.setQueue_s1Root (c : Ctx) (q : QNo) (x : Queue) : (c.setQueue q x).s1Root = c.s1Root := rfl
@[simp] theorem Ctx.setQueue_s2Root (c : Ctx) (q : QNo) (x : Queue) : (c.setQueue q x).s2Root = c.s2Root := rfl
@[simp] theorem Ctx.setQueue_uRoot (c : Ctx) (q : QNo) (x : Queue) : (c.setQueue q x).uRoot = c.uRoot := rfl
@[simp] theorem Ctx.setQueue_locked (c : Ctx) (q : QNo) (x : Queue) : (c.setQueue q x).locked = c.locked := rfl
@[simp] theorem Ctx.setQueue_lockedA (c : Ctx) (q : QNo) (x : Queue) : (c.setQueue q x).lockedA = c.lockedA := rfl
@[simp] theorem Ctx.setQueue_recPage (c : Ctx) (q : QNo) (x : Queue) : (c.setQueue q x).recPage = c.recPage := rfl
@[simp] theorem Ctx.setQueue_recVa (c : Ctx) (q : QNo) (x : Queue) : (c.setQueue q x).recVa = c.recVa := rfl
@[simp] theorem Ctx.setQueue_lastTsc (c : Ctx) (q : QNo) (x : Queue) : (c.setQueue q x).lastTsc = c.lastTsc := rfl

/-! ## Ctx.setTag -/

@[simp] theorem Ctx.setTag_life (c : Ctx) (t : Nat) (x : TagSt) : (c.setTag t x).life = c.life := rfl
@[simp] theorem Ctx.setTag_die (c : Ctx) (t : Nat) (x : TagSt) : (c.setTag t x).die = c.die := rfl
@[simp] theorem Ctx.setTag_bay (c : Ctx) (t : Nat) (x : TagSt) : (c.setTag t x).bay = c.bay := rfl
@[simp] theorem Ctx.setTag_core (c : Ctx) (t : Nat) (x : TagSt) : (c.setTag t x).core = c.core := rfl
@[simp] theorem Ctx.setTag_bank (c : Ctx) (t : Nat) (x : TagSt) : (c.setTag t x).bank = c.bank := rfl
@[simp] theorem Ctx.setTag_launch (c : Ctx) (t : Nat) (x : TagSt) : (c.setTag t x).launch = c.launch := rfl
@[simp] theorem Ctx.setTag_nodeDie (c : Ctx) (t : Nat) (x : TagSt) : (c.setTag t x).nodeDie = c.nodeDie := rfl
@[simp] theorem Ctx.setTag_nodeIdx (c : Ctx) (t : Nat) (x : TagSt) : (c.setTag t x).nodeIdx = c.nodeIdx := rfl
@[simp] theorem Ctx.setTag_turnAt (c : Ctx) (t : Nat) (x : TagSt) : (c.setTag t x).turnAt = c.turnAt := rfl
@[simp] theorem Ctx.setTag_timed (c : Ctx) (t : Nat) (x : TagSt) : (c.setTag t x).timed = c.timed := rfl
@[simp] theorem Ctx.setTag_status (c : Ctx) (t : Nat) (x : TagSt) : (c.setTag t x).status = c.status := rfl
@[simp] theorem Ctx.setTag_vrank (c : Ctx) (t : Nat) (x : TagSt) : (c.setTag t x).vrank = c.vrank := rfl
@[simp] theorem Ctx.setTag_vcount (c : Ctx) (t : Nat) (x : TagSt) : (c.setTag t x).vcount = c.vcount := rfl
@[simp] theorem Ctx.setTag_part (c : Ctx) (t : Nat) (x : TagSt) : (c.setTag t x).part = c.part := rfl
@[simp] theorem Ctx.setTag_frnd (c : Ctx) (t : Nat) (x : TagSt) : (c.setTag t x).frnd = c.frnd := rfl
@[simp] theorem Ctx.setTag_fflags (c : Ctx) (t : Nat) (x : TagSt) : (c.setTag t x).fflags = c.fflags := rfl
@[simp] theorem Ctx.setTag_scaleRcp (c : Ctx) (t : Nat) (x : TagSt) : (c.setTag t x).scaleRcp = c.scaleRcp := rfl
@[simp] theorem Ctx.setTag_dmode (c : Ctx) (t : Nat) (x : TagSt) : (c.setTag t x).dmode = c.dmode := rfl
@[simp] theorem Ctx.setTag_tapeBase (c : Ctx) (t : Nat) (x : TagSt) : (c.setTag t x).tapeBase = c.tapeBase := rfl
@[simp] theorem Ctx.setTag_tapeLimit (c : Ctx) (t : Nat) (x : TagSt) : (c.setTag t x).tapeLimit = c.tapeLimit := rfl
@[simp] theorem Ctx.setTag_tapeHead (c : Ctx) (t : Nat) (x : TagSt) : (c.setTag t x).tapeHead = c.tapeHead := rfl
@[simp] theorem Ctx.setTag_adjRoot (c : Ctx) (t : Nat) (x : TagSt) : (c.setTag t x).adjRoot = c.adjRoot := rfl
@[simp] theorem Ctx.setTag_patchEpoch (c : Ctx) (t : Nat) (x : TagSt) : (c.setTag t x).patchEpoch = c.patchEpoch := rfl
@[simp] theorem Ctx.setTag_yieldDl (c : Ctx) (t : Nat) (x : TagSt) : (c.setTag t x).yieldDl = c.yieldDl := rfl
@[simp] theorem Ctx.setTag_expStall (c : Ctx) (t : Nat) (x : TagSt) : (c.setTag t x).expStall = c.expStall := rfl
@[simp] theorem Ctx.setTag_trapVec (c : Ctx) (t : Nat) (x : TagSt) : (c.setTag t x).trapVec = c.trapVec := rfl
@[simp] theorem Ctx.setTag_trapCause (c : Ctx) (t : Nat) (x : TagSt) : (c.setTag t x).trapCause = c.trapCause := rfl
@[simp] theorem Ctx.setTag_s (c : Ctx) (t : Nat) (x : TagSt) : (c.setTag t x).s = c.s := rfl
@[simp] theorem Ctx.setTag_f (c : Ctx) (t : Nat) (x : TagSt) : (c.setTag t x).f = c.f := rfl
@[simp] theorem Ctx.setTag_g (c : Ctx) (t : Nat) (x : TagSt) : (c.setTag t x).g = c.g := rfl
@[simp] theorem Ctx.setTag_l (c : Ctx) (t : Nat) (x : TagSt) : (c.setTag t x).l = c.l := rfl
@[simp] theorem Ctx.setTag_v (c : Ctx) (t : Nat) (x : TagSt) : (c.setTag t x).v = c.v := rfl
@[simp] theorem Ctx.setTag_lf (c : Ctx) (t : Nat) (x : TagSt) : (c.setTag t x).lf = c.lf := rfl
@[simp] theorem Ctx.setTag_lfNow (c : Ctx) (t : Nat) (x : TagSt) : (c.setTag t x).lfNow = c.lfNow := rfl
@[simp] theorem Ctx.setTag_hist (c : Ctx) (t : Nat) (x : TagSt) : (c.setTag t x).hist = c.hist := rfl
@[simp] theorem Ctx.setTag_bf (c : Ctx) (t : Nat) (x : TagSt) : (c.setTag t x).bf = c.bf := rfl
@[simp] theorem Ctx.setTag_arm (c : Ctx) (t : Nat) (x : TagSt) : (c.setTag t x).arm = c.arm := rfl
@[simp] theorem Ctx.setTag_ms (c : Ctx) (t : Nat) (x : TagSt) : (c.setTag t x).ms = c.ms := rfl
@[simp] theorem Ctx.setTag_ks (c : Ctx) (t : Nat) (x : TagSt) : (c.setTag t x).ks = c.ks := rfl
@[simp] theorem Ctx.setTag_ps (c : Ctx) (t : Nat) (x : TagSt) : (c.setTag t x).ps = c.ps := rfl
@[simp] theorem Ctx.setTag_cix (c : Ctx) (t : Nat) (x : TagSt) : (c.setTag t x).cix = c.cix := rfl
@[simp] theorem Ctx.setTag_kdep (c : Ctx) (t : Nat) (x : TagSt) : (c.setTag t x).kdep = c.kdep := rfl
@[simp] theorem Ctx.setTag_wrapped (c : Ctx) (t : Nat) (x : TagSt) : (c.setTag t x).wrapped = c.wrapped := rfl
@[simp] theorem Ctx.setTag_bars (c : Ctx) (t : Nat) (x : TagSt) : (c.setTag t x).bars = c.bars := rfl
@[simp] theorem Ctx.setTag_tags (c : Ctx) (t : Nat) (x : TagSt) : (c.setTag t x).tags = (t, x) :: c.tags.filter (·.1 != t) := rfl
@[simp] theorem Ctx.setTag_strC (c : Ctx) (t : Nat) (x : TagSt) : (c.setTag t x).strC = c.strC := rfl
@[simp] theorem Ctx.setTag_strA (c : Ctx) (t : Nat) (x : TagSt) : (c.setTag t x).strA = c.strA := rfl
@[simp] theorem Ctx.setTag_strM (c : Ctx) (t : Nat) (x : TagSt) : (c.setTag t x).strM = c.strM := rfl
@[simp] theorem Ctx.setTag_strS (c : Ctx) (t : Nat) (x : TagSt) : (c.setTag t x).strS = c.strS := rfl
@[simp] theorem Ctx.setTag_fifoCA (c : Ctx) (t : Nat) (x : TagSt) : (c.setTag t x).fifoCA = c.fifoCA := rfl
@[simp] theorem Ctx.setTag_fifoAC (c : Ctx) (t : Nat) (x : TagSt) : (c.setTag t x).fifoAC = c.fifoAC := rfl
@[simp] theorem Ctx.setTag_fifoAM (c : Ctx) (t : Nat) (x : TagSt) : (c.setTag t x).fifoAM = c.fifoAM := rfl
@[simp] theorem Ctx.setTag_fifoMA (c : Ctx) (t : Nat) (x : TagSt) : (c.setTag t x).fifoMA = c.fifoMA := rfl
@[simp] theorem Ctx.setTag_fifoMS (c : Ctx) (t : Nat) (x : TagSt) : (c.setTag t x).fifoMS = c.fifoMS := rfl
@[simp] theorem Ctx.setTag_fifoSM (c : Ctx) (t : Nat) (x : TagSt) : (c.setTag t x).fifoSM = c.fifoSM := rfl
@[simp] theorem Ctx.setTag_fifoSC (c : Ctx) (t : Nat) (x : TagSt) : (c.setTag t x).fifoSC = c.fifoSC := rfl
@[simp] theorem Ctx.setTag_fifoCS (c : Ctx) (t : Nat) (x : TagSt) : (c.setTag t x).fifoCS = c.fifoCS := rfl
@[simp] theorem Ctx.setTag_qs (c : Ctx) (t : Nat) (x : TagSt) : (c.setTag t x).qs = c.qs := rfl
@[simp] theorem Ctx.setTag_pend (c : Ctx) (t : Nat) (x : TagSt) : (c.setTag t x).pend = c.pend := rfl
@[simp] theorem Ctx.setTag_words (c : Ctx) (t : Nat) (x : TagSt) : (c.setTag t x).words = c.words := rfl
@[simp] theorem Ctx.setTag_cmds (c : Ctx) (t : Nat) (x : TagSt) : (c.setTag t x).cmds = c.cmds := rfl
@[simp] theorem Ctx.setTag_acmds (c : Ctx) (t : Nat) (x : TagSt) : (c.setTag t x).acmds = c.acmds := rfl
@[simp] theorem Ctx.setTag_loads (c : Ctx) (t : Nat) (x : TagSt) : (c.setTag t x).loads = c.loads := rfl
@[simp] theorem Ctx.setTag_pathFree (c : Ctx) (t : Nat) (x : TagSt) : (c.setTag t x).pathFree = c.pathFree := rfl
@[simp] theorem Ctx.setTag_rets (c : Ctx) (t : Nat) (x : TagSt) : (c.setTag t x).rets = c.rets := rfl
@[simp] theorem Ctx.setTag_rtFree (c : Ctx) (t : Nat) (x : TagSt) : (c.setTag t x).rtFree = c.rtFree := rfl
@[simp] theorem Ctx.setTag_fronts (c : Ctx) (t : Nat) (x : TagSt) : (c.setTag t x).fronts = c.fronts := rfl
@[simp] theorem Ctx.setTag_rels (c : Ctx) (t : Nat) (x : TagSt) : (c.setTag t x).rels = c.rels := rfl
@[simp] theorem Ctx.setTag_freeSlots (c : Ctx) (t : Nat) (x : TagSt) : (c.setTag t x).freeSlots = c.freeSlots := rfl
@[simp] theorem Ctx.setTag_freePairs (c : Ctx) (t : Nat) (x : TagSt) : (c.setTag t x).freePairs = c.freePairs := rfl
@[simp] theorem Ctx.setTag_backSlots (c : Ctx) (t : Nat) (x : TagSt) : (c.setTag t x).backSlots = c.backSlots := rfl
@[simp] theorem Ctx.setTag_backPairs (c : Ctx) (t : Nat) (x : TagSt) : (c.setTag t x).backPairs = c.backPairs := rfl
@[simp] theorem Ctx.setTag_shadows (c : Ctx) (t : Nat) (x : TagSt) : (c.setTag t x).shadows = c.shadows := rfl
@[simp] theorem Ctx.setTag_buckets (c : Ctx) (t : Nat) (x : TagSt) : (c.setTag t x).buckets = c.buckets := rfl
@[simp] theorem Ctx.setTag_weights (c : Ctx) (t : Nat) (x : TagSt) : (c.setTag t x).weights = c.weights := rfl
@[simp] theorem Ctx.setTag_landed (c : Ctx) (t : Nat) (x : TagSt) : (c.setTag t x).landed = c.landed := rfl
@[simp] theorem Ctx.setTag_events (c : Ctx) (t : Nat) (x : TagSt) : (c.setTag t x).events = c.events := rfl
@[simp] theorem Ctx.setTag_irq (c : Ctx) (t : Nat) (x : TagSt) : (c.setTag t x).irq = c.irq := rfl
@[simp] theorem Ctx.setTag_irqAt (c : Ctx) (t : Nat) (x : TagSt) : (c.setTag t x).irqAt = c.irqAt := rfl
@[simp] theorem Ctx.setTag_irqNow (c : Ctx) (t : Nat) (x : TagSt) : (c.setTag t x).irqNow = c.irqNow := rfl
@[simp] theorem Ctx.setTag_held (c : Ctx) (t : Nat) (x : TagSt) : (c.setTag t x).held = c.held := rfl
@[simp] theorem Ctx.setTag_heldAt (c : Ctx) (t : Nat) (x : TagSt) : (c.setTag t x).heldAt = c.heldAt := rfl
@[simp] theorem Ctx.setTag_frame (c : Ctx) (t : Nat) (x : TagSt) : (c.setTag t x).frame = c.frame := rfl
@[simp] theorem Ctx.setTag_frameImg (c : Ctx) (t : Nat) (x : TagSt) : (c.setTag t x).frameImg = c.frameImg := rfl
@[simp] theorem Ctx.setTag_withdrawn (c : Ctx) (t : Nat) (x : TagSt) : (c.setTag t x).withdrawn = c.withdrawn := rfl
@[simp] theorem Ctx.setTag_subst (c : Ctx) (t : Nat) (x : TagSt) : (c.setTag t x).subst = c.subst := rfl
@[simp] theorem Ctx.setTag_trapWait (c : Ctx) (t : Nat) (x : TagSt) : (c.setTag t x).trapWait = c.trapWait := rfl
@[simp] theorem Ctx.setTag_report (c : Ctx) (t : Nat) (x : TagSt) : (c.setTag t x).report = c.report := rfl
@[simp] theorem Ctx.setTag_barWait (c : Ctx) (t : Nat) (x : TagSt) : (c.setTag t x).barWait = c.barWait := rfl
@[simp] theorem Ctx.setTag_diffWait (c : Ctx) (t : Nat) (x : TagSt) : (c.setTag t x).diffWait = c.diffWait := rfl
@[simp] theorem Ctx.setTag_roomWait (c : Ctx) (t : Nat) (x : TagSt) : (c.setTag t x).roomWait = c.roomWait := rfl
@[simp] theorem Ctx.setTag_saving (c : Ctx) (t : Nat) (x : TagSt) : (c.setTag t x).saving = c.saving := rfl
@[simp] theorem Ctx.setTag_forcedCtr (c : Ctx) (t : Nat) (x : TagSt) : (c.setTag t x).forcedCtr = c.forcedCtr := rfl
@[simp] theorem Ctx.setTag_dlSeen (c : Ctx) (t : Nat) (x : TagSt) : (c.setTag t x).dlSeen = c.dlSeen := rfl
@[simp] theorem Ctx.setTag_abandoned (c : Ctx) (t : Nat) (x : TagSt) : (c.setTag t x).abandoned = c.abandoned := rfl
@[simp] theorem Ctx.setTag_tagsAtStop (c : Ctx) (t : Nat) (x : TagSt) : (c.setTag t x).tagsAtStop = c.tagsAtStop := rfl
@[simp] theorem Ctx.setTag_priv (c : Ctx) (t : Nat) (x : TagSt) : (c.setTag t x).priv = c.priv := rfl
@[simp] theorem Ctx.setTag_view (c : Ctx) (t : Nat) (x : TagSt) : (c.setTag t x).view = c.view := rfl
@[simp] theorem Ctx.setTag_accView (c : Ctx) (t : Nat) (x : TagSt) : (c.setTag t x).accView = c.accView := rfl
@[simp] theorem Ctx.setTag_acq (c : Ctx) (t : Nat) (x : TagSt) : (c.setTag t x).acq = c.acq := rfl
@[simp] theorem Ctx.setTag_asid (c : Ctx) (t : Nat) (x : TagSt) : (c.setTag t x).asid = c.asid := rfl
@[simp] theorem Ctx.setTag_vmid (c : Ctx) (t : Nat) (x : TagSt) : (c.setTag t x).vmid = c.vmid := rfl
@[simp] theorem Ctx.setTag_s1Root (c : Ctx) (t : Nat) (x : TagSt) : (c.setTag t x).s1Root = c.s1Root := rfl
@[simp] theorem Ctx.setTag_s2Root (c : Ctx) (t : Nat) (x : TagSt) : (c.setTag t x).s2Root = c.s2Root := rfl
@[simp] theorem Ctx.setTag_uRoot (c : Ctx) (t : Nat) (x : TagSt) : (c.setTag t x).uRoot = c.uRoot := rfl
@[simp] theorem Ctx.setTag_locked (c : Ctx) (t : Nat) (x : TagSt) : (c.setTag t x).locked = c.locked := rfl
@[simp] theorem Ctx.setTag_lockedA (c : Ctx) (t : Nat) (x : TagSt) : (c.setTag t x).lockedA = c.lockedA := rfl
@[simp] theorem Ctx.setTag_recPage (c : Ctx) (t : Nat) (x : TagSt) : (c.setTag t x).recPage = c.recPage := rfl
@[simp] theorem Ctx.setTag_recVa (c : Ctx) (t : Nat) (x : TagSt) : (c.setTag t x).recVa = c.recVa := rfl
@[simp] theorem Ctx.setTag_lastTsc (c : Ctx) (t : Nat) (x : TagSt) : (c.setTag t x).lastTsc = c.lastTsc := rfl

/-! ## Ctx.setBar -/

@[simp] theorem Ctx.setBar_life (c : Ctx) (b : Nat) (x : BarSt) : (c.setBar b x).life = c.life := rfl
@[simp] theorem Ctx.setBar_die (c : Ctx) (b : Nat) (x : BarSt) : (c.setBar b x).die = c.die := rfl
@[simp] theorem Ctx.setBar_bay (c : Ctx) (b : Nat) (x : BarSt) : (c.setBar b x).bay = c.bay := rfl
@[simp] theorem Ctx.setBar_core (c : Ctx) (b : Nat) (x : BarSt) : (c.setBar b x).core = c.core := rfl
@[simp] theorem Ctx.setBar_bank (c : Ctx) (b : Nat) (x : BarSt) : (c.setBar b x).bank = c.bank := rfl
@[simp] theorem Ctx.setBar_launch (c : Ctx) (b : Nat) (x : BarSt) : (c.setBar b x).launch = c.launch := rfl
@[simp] theorem Ctx.setBar_nodeDie (c : Ctx) (b : Nat) (x : BarSt) : (c.setBar b x).nodeDie = c.nodeDie := rfl
@[simp] theorem Ctx.setBar_nodeIdx (c : Ctx) (b : Nat) (x : BarSt) : (c.setBar b x).nodeIdx = c.nodeIdx := rfl
@[simp] theorem Ctx.setBar_turnAt (c : Ctx) (b : Nat) (x : BarSt) : (c.setBar b x).turnAt = c.turnAt := rfl
@[simp] theorem Ctx.setBar_timed (c : Ctx) (b : Nat) (x : BarSt) : (c.setBar b x).timed = c.timed := rfl
@[simp] theorem Ctx.setBar_status (c : Ctx) (b : Nat) (x : BarSt) : (c.setBar b x).status = c.status := rfl
@[simp] theorem Ctx.setBar_vrank (c : Ctx) (b : Nat) (x : BarSt) : (c.setBar b x).vrank = c.vrank := rfl
@[simp] theorem Ctx.setBar_vcount (c : Ctx) (b : Nat) (x : BarSt) : (c.setBar b x).vcount = c.vcount := rfl
@[simp] theorem Ctx.setBar_part (c : Ctx) (b : Nat) (x : BarSt) : (c.setBar b x).part = c.part := rfl
@[simp] theorem Ctx.setBar_frnd (c : Ctx) (b : Nat) (x : BarSt) : (c.setBar b x).frnd = c.frnd := rfl
@[simp] theorem Ctx.setBar_fflags (c : Ctx) (b : Nat) (x : BarSt) : (c.setBar b x).fflags = c.fflags := rfl
@[simp] theorem Ctx.setBar_scaleRcp (c : Ctx) (b : Nat) (x : BarSt) : (c.setBar b x).scaleRcp = c.scaleRcp := rfl
@[simp] theorem Ctx.setBar_dmode (c : Ctx) (b : Nat) (x : BarSt) : (c.setBar b x).dmode = c.dmode := rfl
@[simp] theorem Ctx.setBar_tapeBase (c : Ctx) (b : Nat) (x : BarSt) : (c.setBar b x).tapeBase = c.tapeBase := rfl
@[simp] theorem Ctx.setBar_tapeLimit (c : Ctx) (b : Nat) (x : BarSt) : (c.setBar b x).tapeLimit = c.tapeLimit := rfl
@[simp] theorem Ctx.setBar_tapeHead (c : Ctx) (b : Nat) (x : BarSt) : (c.setBar b x).tapeHead = c.tapeHead := rfl
@[simp] theorem Ctx.setBar_adjRoot (c : Ctx) (b : Nat) (x : BarSt) : (c.setBar b x).adjRoot = c.adjRoot := rfl
@[simp] theorem Ctx.setBar_patchEpoch (c : Ctx) (b : Nat) (x : BarSt) : (c.setBar b x).patchEpoch = c.patchEpoch := rfl
@[simp] theorem Ctx.setBar_yieldDl (c : Ctx) (b : Nat) (x : BarSt) : (c.setBar b x).yieldDl = c.yieldDl := rfl
@[simp] theorem Ctx.setBar_expStall (c : Ctx) (b : Nat) (x : BarSt) : (c.setBar b x).expStall = c.expStall := rfl
@[simp] theorem Ctx.setBar_trapVec (c : Ctx) (b : Nat) (x : BarSt) : (c.setBar b x).trapVec = c.trapVec := rfl
@[simp] theorem Ctx.setBar_trapCause (c : Ctx) (b : Nat) (x : BarSt) : (c.setBar b x).trapCause = c.trapCause := rfl
@[simp] theorem Ctx.setBar_s (c : Ctx) (b : Nat) (x : BarSt) : (c.setBar b x).s = c.s := rfl
@[simp] theorem Ctx.setBar_f (c : Ctx) (b : Nat) (x : BarSt) : (c.setBar b x).f = c.f := rfl
@[simp] theorem Ctx.setBar_g (c : Ctx) (b : Nat) (x : BarSt) : (c.setBar b x).g = c.g := rfl
@[simp] theorem Ctx.setBar_l (c : Ctx) (b : Nat) (x : BarSt) : (c.setBar b x).l = c.l := rfl
@[simp] theorem Ctx.setBar_v (c : Ctx) (b : Nat) (x : BarSt) : (c.setBar b x).v = c.v := rfl
@[simp] theorem Ctx.setBar_lf (c : Ctx) (b : Nat) (x : BarSt) : (c.setBar b x).lf = c.lf := rfl
@[simp] theorem Ctx.setBar_lfNow (c : Ctx) (b : Nat) (x : BarSt) : (c.setBar b x).lfNow = c.lfNow := rfl
@[simp] theorem Ctx.setBar_hist (c : Ctx) (b : Nat) (x : BarSt) : (c.setBar b x).hist = c.hist := rfl
@[simp] theorem Ctx.setBar_bf (c : Ctx) (b : Nat) (x : BarSt) : (c.setBar b x).bf = c.bf := rfl
@[simp] theorem Ctx.setBar_arm (c : Ctx) (b : Nat) (x : BarSt) : (c.setBar b x).arm = c.arm := rfl
@[simp] theorem Ctx.setBar_ms (c : Ctx) (b : Nat) (x : BarSt) : (c.setBar b x).ms = c.ms := rfl
@[simp] theorem Ctx.setBar_ks (c : Ctx) (b : Nat) (x : BarSt) : (c.setBar b x).ks = c.ks := rfl
@[simp] theorem Ctx.setBar_ps (c : Ctx) (b : Nat) (x : BarSt) : (c.setBar b x).ps = c.ps := rfl
@[simp] theorem Ctx.setBar_cix (c : Ctx) (b : Nat) (x : BarSt) : (c.setBar b x).cix = c.cix := rfl
@[simp] theorem Ctx.setBar_kdep (c : Ctx) (b : Nat) (x : BarSt) : (c.setBar b x).kdep = c.kdep := rfl
@[simp] theorem Ctx.setBar_wrapped (c : Ctx) (b : Nat) (x : BarSt) : (c.setBar b x).wrapped = c.wrapped := rfl
@[simp] theorem Ctx.setBar_bars (c : Ctx) (b : Nat) (x : BarSt) : (c.setBar b x).bars = (b, x) :: c.bars.filter (·.1 != b) := rfl
@[simp] theorem Ctx.setBar_tags (c : Ctx) (b : Nat) (x : BarSt) : (c.setBar b x).tags = c.tags := rfl
@[simp] theorem Ctx.setBar_strC (c : Ctx) (b : Nat) (x : BarSt) : (c.setBar b x).strC = c.strC := rfl
@[simp] theorem Ctx.setBar_strA (c : Ctx) (b : Nat) (x : BarSt) : (c.setBar b x).strA = c.strA := rfl
@[simp] theorem Ctx.setBar_strM (c : Ctx) (b : Nat) (x : BarSt) : (c.setBar b x).strM = c.strM := rfl
@[simp] theorem Ctx.setBar_strS (c : Ctx) (b : Nat) (x : BarSt) : (c.setBar b x).strS = c.strS := rfl
@[simp] theorem Ctx.setBar_fifoCA (c : Ctx) (b : Nat) (x : BarSt) : (c.setBar b x).fifoCA = c.fifoCA := rfl
@[simp] theorem Ctx.setBar_fifoAC (c : Ctx) (b : Nat) (x : BarSt) : (c.setBar b x).fifoAC = c.fifoAC := rfl
@[simp] theorem Ctx.setBar_fifoAM (c : Ctx) (b : Nat) (x : BarSt) : (c.setBar b x).fifoAM = c.fifoAM := rfl
@[simp] theorem Ctx.setBar_fifoMA (c : Ctx) (b : Nat) (x : BarSt) : (c.setBar b x).fifoMA = c.fifoMA := rfl
@[simp] theorem Ctx.setBar_fifoMS (c : Ctx) (b : Nat) (x : BarSt) : (c.setBar b x).fifoMS = c.fifoMS := rfl
@[simp] theorem Ctx.setBar_fifoSM (c : Ctx) (b : Nat) (x : BarSt) : (c.setBar b x).fifoSM = c.fifoSM := rfl
@[simp] theorem Ctx.setBar_fifoSC (c : Ctx) (b : Nat) (x : BarSt) : (c.setBar b x).fifoSC = c.fifoSC := rfl
@[simp] theorem Ctx.setBar_fifoCS (c : Ctx) (b : Nat) (x : BarSt) : (c.setBar b x).fifoCS = c.fifoCS := rfl
@[simp] theorem Ctx.setBar_qs (c : Ctx) (b : Nat) (x : BarSt) : (c.setBar b x).qs = c.qs := rfl
@[simp] theorem Ctx.setBar_pend (c : Ctx) (b : Nat) (x : BarSt) : (c.setBar b x).pend = c.pend := rfl
@[simp] theorem Ctx.setBar_words (c : Ctx) (b : Nat) (x : BarSt) : (c.setBar b x).words = c.words := rfl
@[simp] theorem Ctx.setBar_cmds (c : Ctx) (b : Nat) (x : BarSt) : (c.setBar b x).cmds = c.cmds := rfl
@[simp] theorem Ctx.setBar_acmds (c : Ctx) (b : Nat) (x : BarSt) : (c.setBar b x).acmds = c.acmds := rfl
@[simp] theorem Ctx.setBar_loads (c : Ctx) (b : Nat) (x : BarSt) : (c.setBar b x).loads = c.loads := rfl
@[simp] theorem Ctx.setBar_pathFree (c : Ctx) (b : Nat) (x : BarSt) : (c.setBar b x).pathFree = c.pathFree := rfl
@[simp] theorem Ctx.setBar_rets (c : Ctx) (b : Nat) (x : BarSt) : (c.setBar b x).rets = c.rets := rfl
@[simp] theorem Ctx.setBar_rtFree (c : Ctx) (b : Nat) (x : BarSt) : (c.setBar b x).rtFree = c.rtFree := rfl
@[simp] theorem Ctx.setBar_fronts (c : Ctx) (b : Nat) (x : BarSt) : (c.setBar b x).fronts = c.fronts := rfl
@[simp] theorem Ctx.setBar_rels (c : Ctx) (b : Nat) (x : BarSt) : (c.setBar b x).rels = c.rels := rfl
@[simp] theorem Ctx.setBar_freeSlots (c : Ctx) (b : Nat) (x : BarSt) : (c.setBar b x).freeSlots = c.freeSlots := rfl
@[simp] theorem Ctx.setBar_freePairs (c : Ctx) (b : Nat) (x : BarSt) : (c.setBar b x).freePairs = c.freePairs := rfl
@[simp] theorem Ctx.setBar_backSlots (c : Ctx) (b : Nat) (x : BarSt) : (c.setBar b x).backSlots = c.backSlots := rfl
@[simp] theorem Ctx.setBar_backPairs (c : Ctx) (b : Nat) (x : BarSt) : (c.setBar b x).backPairs = c.backPairs := rfl
@[simp] theorem Ctx.setBar_shadows (c : Ctx) (b : Nat) (x : BarSt) : (c.setBar b x).shadows = c.shadows := rfl
@[simp] theorem Ctx.setBar_buckets (c : Ctx) (b : Nat) (x : BarSt) : (c.setBar b x).buckets = c.buckets := rfl
@[simp] theorem Ctx.setBar_weights (c : Ctx) (b : Nat) (x : BarSt) : (c.setBar b x).weights = c.weights := rfl
@[simp] theorem Ctx.setBar_landed (c : Ctx) (b : Nat) (x : BarSt) : (c.setBar b x).landed = c.landed := rfl
@[simp] theorem Ctx.setBar_events (c : Ctx) (b : Nat) (x : BarSt) : (c.setBar b x).events = c.events := rfl
@[simp] theorem Ctx.setBar_irq (c : Ctx) (b : Nat) (x : BarSt) : (c.setBar b x).irq = c.irq := rfl
@[simp] theorem Ctx.setBar_irqAt (c : Ctx) (b : Nat) (x : BarSt) : (c.setBar b x).irqAt = c.irqAt := rfl
@[simp] theorem Ctx.setBar_irqNow (c : Ctx) (b : Nat) (x : BarSt) : (c.setBar b x).irqNow = c.irqNow := rfl
@[simp] theorem Ctx.setBar_held (c : Ctx) (b : Nat) (x : BarSt) : (c.setBar b x).held = c.held := rfl
@[simp] theorem Ctx.setBar_heldAt (c : Ctx) (b : Nat) (x : BarSt) : (c.setBar b x).heldAt = c.heldAt := rfl
@[simp] theorem Ctx.setBar_frame (c : Ctx) (b : Nat) (x : BarSt) : (c.setBar b x).frame = c.frame := rfl
@[simp] theorem Ctx.setBar_frameImg (c : Ctx) (b : Nat) (x : BarSt) : (c.setBar b x).frameImg = c.frameImg := rfl
@[simp] theorem Ctx.setBar_withdrawn (c : Ctx) (b : Nat) (x : BarSt) : (c.setBar b x).withdrawn = c.withdrawn := rfl
@[simp] theorem Ctx.setBar_subst (c : Ctx) (b : Nat) (x : BarSt) : (c.setBar b x).subst = c.subst := rfl
@[simp] theorem Ctx.setBar_trapWait (c : Ctx) (b : Nat) (x : BarSt) : (c.setBar b x).trapWait = c.trapWait := rfl
@[simp] theorem Ctx.setBar_report (c : Ctx) (b : Nat) (x : BarSt) : (c.setBar b x).report = c.report := rfl
@[simp] theorem Ctx.setBar_barWait (c : Ctx) (b : Nat) (x : BarSt) : (c.setBar b x).barWait = c.barWait := rfl
@[simp] theorem Ctx.setBar_diffWait (c : Ctx) (b : Nat) (x : BarSt) : (c.setBar b x).diffWait = c.diffWait := rfl
@[simp] theorem Ctx.setBar_roomWait (c : Ctx) (b : Nat) (x : BarSt) : (c.setBar b x).roomWait = c.roomWait := rfl
@[simp] theorem Ctx.setBar_saving (c : Ctx) (b : Nat) (x : BarSt) : (c.setBar b x).saving = c.saving := rfl
@[simp] theorem Ctx.setBar_forcedCtr (c : Ctx) (b : Nat) (x : BarSt) : (c.setBar b x).forcedCtr = c.forcedCtr := rfl
@[simp] theorem Ctx.setBar_dlSeen (c : Ctx) (b : Nat) (x : BarSt) : (c.setBar b x).dlSeen = c.dlSeen := rfl
@[simp] theorem Ctx.setBar_abandoned (c : Ctx) (b : Nat) (x : BarSt) : (c.setBar b x).abandoned = c.abandoned := rfl
@[simp] theorem Ctx.setBar_tagsAtStop (c : Ctx) (b : Nat) (x : BarSt) : (c.setBar b x).tagsAtStop = c.tagsAtStop := rfl
@[simp] theorem Ctx.setBar_priv (c : Ctx) (b : Nat) (x : BarSt) : (c.setBar b x).priv = c.priv := rfl
@[simp] theorem Ctx.setBar_view (c : Ctx) (b : Nat) (x : BarSt) : (c.setBar b x).view = c.view := rfl
@[simp] theorem Ctx.setBar_accView (c : Ctx) (b : Nat) (x : BarSt) : (c.setBar b x).accView = c.accView := rfl
@[simp] theorem Ctx.setBar_acq (c : Ctx) (b : Nat) (x : BarSt) : (c.setBar b x).acq = c.acq := rfl
@[simp] theorem Ctx.setBar_asid (c : Ctx) (b : Nat) (x : BarSt) : (c.setBar b x).asid = c.asid := rfl
@[simp] theorem Ctx.setBar_vmid (c : Ctx) (b : Nat) (x : BarSt) : (c.setBar b x).vmid = c.vmid := rfl
@[simp] theorem Ctx.setBar_s1Root (c : Ctx) (b : Nat) (x : BarSt) : (c.setBar b x).s1Root = c.s1Root := rfl
@[simp] theorem Ctx.setBar_s2Root (c : Ctx) (b : Nat) (x : BarSt) : (c.setBar b x).s2Root = c.s2Root := rfl
@[simp] theorem Ctx.setBar_uRoot (c : Ctx) (b : Nat) (x : BarSt) : (c.setBar b x).uRoot = c.uRoot := rfl
@[simp] theorem Ctx.setBar_locked (c : Ctx) (b : Nat) (x : BarSt) : (c.setBar b x).locked = c.locked := rfl
@[simp] theorem Ctx.setBar_lockedA (c : Ctx) (b : Nat) (x : BarSt) : (c.setBar b x).lockedA = c.lockedA := rfl
@[simp] theorem Ctx.setBar_recPage (c : Ctx) (b : Nat) (x : BarSt) : (c.setBar b x).recPage = c.recPage := rfl
@[simp] theorem Ctx.setBar_recVa (c : Ctx) (b : Nat) (x : BarSt) : (c.setBar b x).recVa = c.recVa := rfl
@[simp] theorem Ctx.setBar_lastTsc (c : Ctx) (b : Nat) (x : BarSt) : (c.setBar b x).lastTsc = c.lastTsc := rfl

/-! ## putS -/

@[simp] theorem putS_life (c : Ctx) (d : SReg) (v : W64) : (putS c d v).life = c.life := by unfold putS; split <;> rfl
@[simp] theorem putS_die (c : Ctx) (d : SReg) (v : W64) : (putS c d v).die = c.die := by unfold putS; split <;> rfl
@[simp] theorem putS_bay (c : Ctx) (d : SReg) (v : W64) : (putS c d v).bay = c.bay := by unfold putS; split <;> rfl
@[simp] theorem putS_core (c : Ctx) (d : SReg) (v : W64) : (putS c d v).core = c.core := by unfold putS; split <;> rfl
@[simp] theorem putS_bank (c : Ctx) (d : SReg) (v : W64) : (putS c d v).bank = c.bank := by unfold putS; split <;> rfl
@[simp] theorem putS_launch (c : Ctx) (d : SReg) (v : W64) : (putS c d v).launch = c.launch := by unfold putS; split <;> rfl
@[simp] theorem putS_nodeDie (c : Ctx) (d : SReg) (v : W64) : (putS c d v).nodeDie = c.nodeDie := by unfold putS; split <;> rfl
@[simp] theorem putS_nodeIdx (c : Ctx) (d : SReg) (v : W64) : (putS c d v).nodeIdx = c.nodeIdx := by unfold putS; split <;> rfl
@[simp] theorem putS_turnAt (c : Ctx) (d : SReg) (v : W64) : (putS c d v).turnAt = c.turnAt := by unfold putS; split <;> rfl
@[simp] theorem putS_timed (c : Ctx) (d : SReg) (v : W64) : (putS c d v).timed = c.timed := by unfold putS; split <;> rfl
@[simp] theorem putS_status (c : Ctx) (d : SReg) (v : W64) : (putS c d v).status = c.status := by unfold putS; split <;> rfl
@[simp] theorem putS_vrank (c : Ctx) (d : SReg) (v : W64) : (putS c d v).vrank = c.vrank := by unfold putS; split <;> rfl
@[simp] theorem putS_vcount (c : Ctx) (d : SReg) (v : W64) : (putS c d v).vcount = c.vcount := by unfold putS; split <;> rfl
@[simp] theorem putS_part (c : Ctx) (d : SReg) (v : W64) : (putS c d v).part = c.part := by unfold putS; split <;> rfl
@[simp] theorem putS_frnd (c : Ctx) (d : SReg) (v : W64) : (putS c d v).frnd = c.frnd := by unfold putS; split <;> rfl
@[simp] theorem putS_fflags (c : Ctx) (d : SReg) (v : W64) : (putS c d v).fflags = c.fflags := by unfold putS; split <;> rfl
@[simp] theorem putS_scaleRcp (c : Ctx) (d : SReg) (v : W64) : (putS c d v).scaleRcp = c.scaleRcp := by unfold putS; split <;> rfl
@[simp] theorem putS_dmode (c : Ctx) (d : SReg) (v : W64) : (putS c d v).dmode = c.dmode := by unfold putS; split <;> rfl
@[simp] theorem putS_tapeBase (c : Ctx) (d : SReg) (v : W64) : (putS c d v).tapeBase = c.tapeBase := by unfold putS; split <;> rfl
@[simp] theorem putS_tapeLimit (c : Ctx) (d : SReg) (v : W64) : (putS c d v).tapeLimit = c.tapeLimit := by unfold putS; split <;> rfl
@[simp] theorem putS_tapeHead (c : Ctx) (d : SReg) (v : W64) : (putS c d v).tapeHead = c.tapeHead := by unfold putS; split <;> rfl
@[simp] theorem putS_adjRoot (c : Ctx) (d : SReg) (v : W64) : (putS c d v).adjRoot = c.adjRoot := by unfold putS; split <;> rfl
@[simp] theorem putS_patchEpoch (c : Ctx) (d : SReg) (v : W64) : (putS c d v).patchEpoch = c.patchEpoch := by unfold putS; split <;> rfl
@[simp] theorem putS_yieldDl (c : Ctx) (d : SReg) (v : W64) : (putS c d v).yieldDl = c.yieldDl := by unfold putS; split <;> rfl
@[simp] theorem putS_expStall (c : Ctx) (d : SReg) (v : W64) : (putS c d v).expStall = c.expStall := by unfold putS; split <;> rfl
@[simp] theorem putS_trapVec (c : Ctx) (d : SReg) (v : W64) : (putS c d v).trapVec = c.trapVec := by unfold putS; split <;> rfl
@[simp] theorem putS_trapCause (c : Ctx) (d : SReg) (v : W64) : (putS c d v).trapCause = c.trapCause := by unfold putS; split <;> rfl
@[simp] theorem putS_f (c : Ctx) (d : SReg) (v : W64) : (putS c d v).f = c.f := by unfold putS; split <;> rfl
@[simp] theorem putS_g (c : Ctx) (d : SReg) (v : W64) : (putS c d v).g = c.g := by unfold putS; split <;> rfl
@[simp] theorem putS_l (c : Ctx) (d : SReg) (v : W64) : (putS c d v).l = c.l := by unfold putS; split <;> rfl
@[simp] theorem putS_v (c : Ctx) (d : SReg) (v : W64) : (putS c d v).v = c.v := by unfold putS; split <;> rfl
@[simp] theorem putS_lf (c : Ctx) (d : SReg) (v : W64) : (putS c d v).lf = c.lf := by unfold putS; split <;> rfl
@[simp] theorem putS_lfNow (c : Ctx) (d : SReg) (v : W64) : (putS c d v).lfNow = c.lfNow := by unfold putS; split <;> rfl
@[simp] theorem putS_hist (c : Ctx) (d : SReg) (v : W64) : (putS c d v).hist = c.hist := by unfold putS; split <;> rfl
@[simp] theorem putS_bf (c : Ctx) (d : SReg) (v : W64) : (putS c d v).bf = c.bf := by unfold putS; split <;> rfl
@[simp] theorem putS_arm (c : Ctx) (d : SReg) (v : W64) : (putS c d v).arm = c.arm := by unfold putS; split <;> rfl
@[simp] theorem putS_ms (c : Ctx) (d : SReg) (v : W64) : (putS c d v).ms = c.ms := by unfold putS; split <;> rfl
@[simp] theorem putS_ks (c : Ctx) (d : SReg) (v : W64) : (putS c d v).ks = c.ks := by unfold putS; split <;> rfl
@[simp] theorem putS_ps (c : Ctx) (d : SReg) (v : W64) : (putS c d v).ps = c.ps := by unfold putS; split <;> rfl
@[simp] theorem putS_cix (c : Ctx) (d : SReg) (v : W64) : (putS c d v).cix = c.cix := by unfold putS; split <;> rfl
@[simp] theorem putS_kdep (c : Ctx) (d : SReg) (v : W64) : (putS c d v).kdep = c.kdep := by unfold putS; split <;> rfl
@[simp] theorem putS_wrapped (c : Ctx) (d : SReg) (v : W64) : (putS c d v).wrapped = c.wrapped := by unfold putS; split <;> rfl
@[simp] theorem putS_bars (c : Ctx) (d : SReg) (v : W64) : (putS c d v).bars = c.bars := by unfold putS; split <;> rfl
@[simp] theorem putS_tags (c : Ctx) (d : SReg) (v : W64) : (putS c d v).tags = c.tags := by unfold putS; split <;> rfl
@[simp] theorem putS_strC (c : Ctx) (d : SReg) (v : W64) : (putS c d v).strC = c.strC := by unfold putS; split <;> rfl
@[simp] theorem putS_strA (c : Ctx) (d : SReg) (v : W64) : (putS c d v).strA = c.strA := by unfold putS; split <;> rfl
@[simp] theorem putS_strM (c : Ctx) (d : SReg) (v : W64) : (putS c d v).strM = c.strM := by unfold putS; split <;> rfl
@[simp] theorem putS_strS (c : Ctx) (d : SReg) (v : W64) : (putS c d v).strS = c.strS := by unfold putS; split <;> rfl
@[simp] theorem putS_fifoCA (c : Ctx) (d : SReg) (v : W64) : (putS c d v).fifoCA = c.fifoCA := by unfold putS; split <;> rfl
@[simp] theorem putS_fifoAC (c : Ctx) (d : SReg) (v : W64) : (putS c d v).fifoAC = c.fifoAC := by unfold putS; split <;> rfl
@[simp] theorem putS_fifoAM (c : Ctx) (d : SReg) (v : W64) : (putS c d v).fifoAM = c.fifoAM := by unfold putS; split <;> rfl
@[simp] theorem putS_fifoMA (c : Ctx) (d : SReg) (v : W64) : (putS c d v).fifoMA = c.fifoMA := by unfold putS; split <;> rfl
@[simp] theorem putS_fifoMS (c : Ctx) (d : SReg) (v : W64) : (putS c d v).fifoMS = c.fifoMS := by unfold putS; split <;> rfl
@[simp] theorem putS_fifoSM (c : Ctx) (d : SReg) (v : W64) : (putS c d v).fifoSM = c.fifoSM := by unfold putS; split <;> rfl
@[simp] theorem putS_fifoSC (c : Ctx) (d : SReg) (v : W64) : (putS c d v).fifoSC = c.fifoSC := by unfold putS; split <;> rfl
@[simp] theorem putS_fifoCS (c : Ctx) (d : SReg) (v : W64) : (putS c d v).fifoCS = c.fifoCS := by unfold putS; split <;> rfl
@[simp] theorem putS_qs (c : Ctx) (d : SReg) (v : W64) : (putS c d v).qs = c.qs := by unfold putS; split <;> rfl
@[simp] theorem putS_pend (c : Ctx) (d : SReg) (v : W64) : (putS c d v).pend = c.pend := by unfold putS; split <;> rfl
@[simp] theorem putS_words (c : Ctx) (d : SReg) (v : W64) : (putS c d v).words = c.words := by unfold putS; split <;> rfl
@[simp] theorem putS_cmds (c : Ctx) (d : SReg) (v : W64) : (putS c d v).cmds = c.cmds := by unfold putS; split <;> rfl
@[simp] theorem putS_acmds (c : Ctx) (d : SReg) (v : W64) : (putS c d v).acmds = c.acmds := by unfold putS; split <;> rfl
@[simp] theorem putS_loads (c : Ctx) (d : SReg) (v : W64) : (putS c d v).loads = c.loads := by unfold putS; split <;> rfl
@[simp] theorem putS_pathFree (c : Ctx) (d : SReg) (v : W64) : (putS c d v).pathFree = c.pathFree := by unfold putS; split <;> rfl
@[simp] theorem putS_rets (c : Ctx) (d : SReg) (v : W64) : (putS c d v).rets = c.rets := by unfold putS; split <;> rfl
@[simp] theorem putS_rtFree (c : Ctx) (d : SReg) (v : W64) : (putS c d v).rtFree = c.rtFree := by unfold putS; split <;> rfl
@[simp] theorem putS_fronts (c : Ctx) (d : SReg) (v : W64) : (putS c d v).fronts = c.fronts := by unfold putS; split <;> rfl
@[simp] theorem putS_rels (c : Ctx) (d : SReg) (v : W64) : (putS c d v).rels = c.rels := by unfold putS; split <;> rfl
@[simp] theorem putS_freeSlots (c : Ctx) (d : SReg) (v : W64) : (putS c d v).freeSlots = c.freeSlots := by unfold putS; split <;> rfl
@[simp] theorem putS_freePairs (c : Ctx) (d : SReg) (v : W64) : (putS c d v).freePairs = c.freePairs := by unfold putS; split <;> rfl
@[simp] theorem putS_backSlots (c : Ctx) (d : SReg) (v : W64) : (putS c d v).backSlots = c.backSlots := by unfold putS; split <;> rfl
@[simp] theorem putS_backPairs (c : Ctx) (d : SReg) (v : W64) : (putS c d v).backPairs = c.backPairs := by unfold putS; split <;> rfl
@[simp] theorem putS_shadows (c : Ctx) (d : SReg) (v : W64) : (putS c d v).shadows = c.shadows := by unfold putS; split <;> rfl
@[simp] theorem putS_buckets (c : Ctx) (d : SReg) (v : W64) : (putS c d v).buckets = c.buckets := by unfold putS; split <;> rfl
@[simp] theorem putS_weights (c : Ctx) (d : SReg) (v : W64) : (putS c d v).weights = c.weights := by unfold putS; split <;> rfl
@[simp] theorem putS_landed (c : Ctx) (d : SReg) (v : W64) : (putS c d v).landed = c.landed := by unfold putS; split <;> rfl
@[simp] theorem putS_events (c : Ctx) (d : SReg) (v : W64) : (putS c d v).events = c.events := by unfold putS; split <;> rfl
@[simp] theorem putS_irq (c : Ctx) (d : SReg) (v : W64) : (putS c d v).irq = c.irq := by unfold putS; split <;> rfl
@[simp] theorem putS_irqAt (c : Ctx) (d : SReg) (v : W64) : (putS c d v).irqAt = c.irqAt := by unfold putS; split <;> rfl
@[simp] theorem putS_irqNow (c : Ctx) (d : SReg) (v : W64) : (putS c d v).irqNow = c.irqNow := by unfold putS; split <;> rfl
@[simp] theorem putS_held (c : Ctx) (d : SReg) (v : W64) : (putS c d v).held = c.held := by unfold putS; split <;> rfl
@[simp] theorem putS_heldAt (c : Ctx) (d : SReg) (v : W64) : (putS c d v).heldAt = c.heldAt := by unfold putS; split <;> rfl
@[simp] theorem putS_frame (c : Ctx) (d : SReg) (v : W64) : (putS c d v).frame = c.frame := by unfold putS; split <;> rfl
@[simp] theorem putS_frameImg (c : Ctx) (d : SReg) (v : W64) : (putS c d v).frameImg = c.frameImg := by unfold putS; split <;> rfl
@[simp] theorem putS_withdrawn (c : Ctx) (d : SReg) (v : W64) : (putS c d v).withdrawn = c.withdrawn := by unfold putS; split <;> rfl
@[simp] theorem putS_subst (c : Ctx) (d : SReg) (v : W64) : (putS c d v).subst = c.subst := by unfold putS; split <;> rfl
@[simp] theorem putS_trapWait (c : Ctx) (d : SReg) (v : W64) : (putS c d v).trapWait = c.trapWait := by unfold putS; split <;> rfl
@[simp] theorem putS_report (c : Ctx) (d : SReg) (v : W64) : (putS c d v).report = c.report := by unfold putS; split <;> rfl
@[simp] theorem putS_barWait (c : Ctx) (d : SReg) (v : W64) : (putS c d v).barWait = c.barWait := by unfold putS; split <;> rfl
@[simp] theorem putS_diffWait (c : Ctx) (d : SReg) (v : W64) : (putS c d v).diffWait = c.diffWait := by unfold putS; split <;> rfl
@[simp] theorem putS_roomWait (c : Ctx) (d : SReg) (v : W64) : (putS c d v).roomWait = c.roomWait := by unfold putS; split <;> rfl
@[simp] theorem putS_saving (c : Ctx) (d : SReg) (v : W64) : (putS c d v).saving = c.saving := by unfold putS; split <;> rfl
@[simp] theorem putS_forcedCtr (c : Ctx) (d : SReg) (v : W64) : (putS c d v).forcedCtr = c.forcedCtr := by unfold putS; split <;> rfl
@[simp] theorem putS_dlSeen (c : Ctx) (d : SReg) (v : W64) : (putS c d v).dlSeen = c.dlSeen := by unfold putS; split <;> rfl
@[simp] theorem putS_abandoned (c : Ctx) (d : SReg) (v : W64) : (putS c d v).abandoned = c.abandoned := by unfold putS; split <;> rfl
@[simp] theorem putS_tagsAtStop (c : Ctx) (d : SReg) (v : W64) : (putS c d v).tagsAtStop = c.tagsAtStop := by unfold putS; split <;> rfl
@[simp] theorem putS_priv (c : Ctx) (d : SReg) (v : W64) : (putS c d v).priv = c.priv := by unfold putS; split <;> rfl
@[simp] theorem putS_view (c : Ctx) (d : SReg) (v : W64) : (putS c d v).view = c.view := by unfold putS; split <;> rfl
@[simp] theorem putS_accView (c : Ctx) (d : SReg) (v : W64) : (putS c d v).accView = c.accView := by unfold putS; split <;> rfl
@[simp] theorem putS_acq (c : Ctx) (d : SReg) (v : W64) : (putS c d v).acq = c.acq := by unfold putS; split <;> rfl
@[simp] theorem putS_asid (c : Ctx) (d : SReg) (v : W64) : (putS c d v).asid = c.asid := by unfold putS; split <;> rfl
@[simp] theorem putS_vmid (c : Ctx) (d : SReg) (v : W64) : (putS c d v).vmid = c.vmid := by unfold putS; split <;> rfl
@[simp] theorem putS_s1Root (c : Ctx) (d : SReg) (v : W64) : (putS c d v).s1Root = c.s1Root := by unfold putS; split <;> rfl
@[simp] theorem putS_s2Root (c : Ctx) (d : SReg) (v : W64) : (putS c d v).s2Root = c.s2Root := by unfold putS; split <;> rfl
@[simp] theorem putS_uRoot (c : Ctx) (d : SReg) (v : W64) : (putS c d v).uRoot = c.uRoot := by unfold putS; split <;> rfl
@[simp] theorem putS_locked (c : Ctx) (d : SReg) (v : W64) : (putS c d v).locked = c.locked := by unfold putS; split <;> rfl
@[simp] theorem putS_lockedA (c : Ctx) (d : SReg) (v : W64) : (putS c d v).lockedA = c.lockedA := by unfold putS; split <;> rfl
@[simp] theorem putS_recPage (c : Ctx) (d : SReg) (v : W64) : (putS c d v).recPage = c.recPage := by unfold putS; split <;> rfl
@[simp] theorem putS_recVa (c : Ctx) (d : SReg) (v : W64) : (putS c d v).recVa = c.recVa := by unfold putS; split <;> rfl
@[simp] theorem putS_lastTsc (c : Ctx) (d : SReg) (v : W64) : (putS c d v).lastTsc = c.lastTsc := by unfold putS; split <;> rfl

/-! ## putG -/

@[simp] theorem putG_life (c : Ctx) (d : GReg) (v : W64) : (putG c d v).life = c.life := by unfold putG; split <;> rfl
@[simp] theorem putG_die (c : Ctx) (d : GReg) (v : W64) : (putG c d v).die = c.die := by unfold putG; split <;> rfl
@[simp] theorem putG_bay (c : Ctx) (d : GReg) (v : W64) : (putG c d v).bay = c.bay := by unfold putG; split <;> rfl
@[simp] theorem putG_core (c : Ctx) (d : GReg) (v : W64) : (putG c d v).core = c.core := by unfold putG; split <;> rfl
@[simp] theorem putG_bank (c : Ctx) (d : GReg) (v : W64) : (putG c d v).bank = c.bank := by unfold putG; split <;> rfl
@[simp] theorem putG_launch (c : Ctx) (d : GReg) (v : W64) : (putG c d v).launch = c.launch := by unfold putG; split <;> rfl
@[simp] theorem putG_nodeDie (c : Ctx) (d : GReg) (v : W64) : (putG c d v).nodeDie = c.nodeDie := by unfold putG; split <;> rfl
@[simp] theorem putG_nodeIdx (c : Ctx) (d : GReg) (v : W64) : (putG c d v).nodeIdx = c.nodeIdx := by unfold putG; split <;> rfl
@[simp] theorem putG_turnAt (c : Ctx) (d : GReg) (v : W64) : (putG c d v).turnAt = c.turnAt := by unfold putG; split <;> rfl
@[simp] theorem putG_timed (c : Ctx) (d : GReg) (v : W64) : (putG c d v).timed = c.timed := by unfold putG; split <;> rfl
@[simp] theorem putG_status (c : Ctx) (d : GReg) (v : W64) : (putG c d v).status = c.status := by unfold putG; split <;> rfl
@[simp] theorem putG_vrank (c : Ctx) (d : GReg) (v : W64) : (putG c d v).vrank = c.vrank := by unfold putG; split <;> rfl
@[simp] theorem putG_vcount (c : Ctx) (d : GReg) (v : W64) : (putG c d v).vcount = c.vcount := by unfold putG; split <;> rfl
@[simp] theorem putG_part (c : Ctx) (d : GReg) (v : W64) : (putG c d v).part = c.part := by unfold putG; split <;> rfl
@[simp] theorem putG_frnd (c : Ctx) (d : GReg) (v : W64) : (putG c d v).frnd = c.frnd := by unfold putG; split <;> rfl
@[simp] theorem putG_fflags (c : Ctx) (d : GReg) (v : W64) : (putG c d v).fflags = c.fflags := by unfold putG; split <;> rfl
@[simp] theorem putG_scaleRcp (c : Ctx) (d : GReg) (v : W64) : (putG c d v).scaleRcp = c.scaleRcp := by unfold putG; split <;> rfl
@[simp] theorem putG_dmode (c : Ctx) (d : GReg) (v : W64) : (putG c d v).dmode = c.dmode := by unfold putG; split <;> rfl
@[simp] theorem putG_tapeBase (c : Ctx) (d : GReg) (v : W64) : (putG c d v).tapeBase = c.tapeBase := by unfold putG; split <;> rfl
@[simp] theorem putG_tapeLimit (c : Ctx) (d : GReg) (v : W64) : (putG c d v).tapeLimit = c.tapeLimit := by unfold putG; split <;> rfl
@[simp] theorem putG_tapeHead (c : Ctx) (d : GReg) (v : W64) : (putG c d v).tapeHead = c.tapeHead := by unfold putG; split <;> rfl
@[simp] theorem putG_adjRoot (c : Ctx) (d : GReg) (v : W64) : (putG c d v).adjRoot = c.adjRoot := by unfold putG; split <;> rfl
@[simp] theorem putG_patchEpoch (c : Ctx) (d : GReg) (v : W64) : (putG c d v).patchEpoch = c.patchEpoch := by unfold putG; split <;> rfl
@[simp] theorem putG_yieldDl (c : Ctx) (d : GReg) (v : W64) : (putG c d v).yieldDl = c.yieldDl := by unfold putG; split <;> rfl
@[simp] theorem putG_expStall (c : Ctx) (d : GReg) (v : W64) : (putG c d v).expStall = c.expStall := by unfold putG; split <;> rfl
@[simp] theorem putG_trapVec (c : Ctx) (d : GReg) (v : W64) : (putG c d v).trapVec = c.trapVec := by unfold putG; split <;> rfl
@[simp] theorem putG_trapCause (c : Ctx) (d : GReg) (v : W64) : (putG c d v).trapCause = c.trapCause := by unfold putG; split <;> rfl
@[simp] theorem putG_s (c : Ctx) (d : GReg) (v : W64) : (putG c d v).s = c.s := by unfold putG; split <;> rfl
@[simp] theorem putG_f (c : Ctx) (d : GReg) (v : W64) : (putG c d v).f = c.f := by unfold putG; split <;> rfl
@[simp] theorem putG_l (c : Ctx) (d : GReg) (v : W64) : (putG c d v).l = c.l := by unfold putG; split <;> rfl
@[simp] theorem putG_v (c : Ctx) (d : GReg) (v : W64) : (putG c d v).v = c.v := by unfold putG; split <;> rfl
@[simp] theorem putG_lf (c : Ctx) (d : GReg) (v : W64) : (putG c d v).lf = c.lf := by unfold putG; split <;> rfl
@[simp] theorem putG_lfNow (c : Ctx) (d : GReg) (v : W64) : (putG c d v).lfNow = c.lfNow := by unfold putG; split <;> rfl
@[simp] theorem putG_hist (c : Ctx) (d : GReg) (v : W64) : (putG c d v).hist = c.hist := by unfold putG; split <;> rfl
@[simp] theorem putG_bf (c : Ctx) (d : GReg) (v : W64) : (putG c d v).bf = c.bf := by unfold putG; split <;> rfl
@[simp] theorem putG_arm (c : Ctx) (d : GReg) (v : W64) : (putG c d v).arm = c.arm := by unfold putG; split <;> rfl
@[simp] theorem putG_ms (c : Ctx) (d : GReg) (v : W64) : (putG c d v).ms = c.ms := by unfold putG; split <;> rfl
@[simp] theorem putG_ks (c : Ctx) (d : GReg) (v : W64) : (putG c d v).ks = c.ks := by unfold putG; split <;> rfl
@[simp] theorem putG_ps (c : Ctx) (d : GReg) (v : W64) : (putG c d v).ps = c.ps := by unfold putG; split <;> rfl
@[simp] theorem putG_cix (c : Ctx) (d : GReg) (v : W64) : (putG c d v).cix = c.cix := by unfold putG; split <;> rfl
@[simp] theorem putG_kdep (c : Ctx) (d : GReg) (v : W64) : (putG c d v).kdep = c.kdep := by unfold putG; split <;> rfl
@[simp] theorem putG_wrapped (c : Ctx) (d : GReg) (v : W64) : (putG c d v).wrapped = c.wrapped := by unfold putG; split <;> rfl
@[simp] theorem putG_bars (c : Ctx) (d : GReg) (v : W64) : (putG c d v).bars = c.bars := by unfold putG; split <;> rfl
@[simp] theorem putG_tags (c : Ctx) (d : GReg) (v : W64) : (putG c d v).tags = c.tags := by unfold putG; split <;> rfl
@[simp] theorem putG_strC (c : Ctx) (d : GReg) (v : W64) : (putG c d v).strC = c.strC := by unfold putG; split <;> rfl
@[simp] theorem putG_strA (c : Ctx) (d : GReg) (v : W64) : (putG c d v).strA = c.strA := by unfold putG; split <;> rfl
@[simp] theorem putG_strM (c : Ctx) (d : GReg) (v : W64) : (putG c d v).strM = c.strM := by unfold putG; split <;> rfl
@[simp] theorem putG_strS (c : Ctx) (d : GReg) (v : W64) : (putG c d v).strS = c.strS := by unfold putG; split <;> rfl
@[simp] theorem putG_fifoCA (c : Ctx) (d : GReg) (v : W64) : (putG c d v).fifoCA = c.fifoCA := by unfold putG; split <;> rfl
@[simp] theorem putG_fifoAC (c : Ctx) (d : GReg) (v : W64) : (putG c d v).fifoAC = c.fifoAC := by unfold putG; split <;> rfl
@[simp] theorem putG_fifoAM (c : Ctx) (d : GReg) (v : W64) : (putG c d v).fifoAM = c.fifoAM := by unfold putG; split <;> rfl
@[simp] theorem putG_fifoMA (c : Ctx) (d : GReg) (v : W64) : (putG c d v).fifoMA = c.fifoMA := by unfold putG; split <;> rfl
@[simp] theorem putG_fifoMS (c : Ctx) (d : GReg) (v : W64) : (putG c d v).fifoMS = c.fifoMS := by unfold putG; split <;> rfl
@[simp] theorem putG_fifoSM (c : Ctx) (d : GReg) (v : W64) : (putG c d v).fifoSM = c.fifoSM := by unfold putG; split <;> rfl
@[simp] theorem putG_fifoSC (c : Ctx) (d : GReg) (v : W64) : (putG c d v).fifoSC = c.fifoSC := by unfold putG; split <;> rfl
@[simp] theorem putG_fifoCS (c : Ctx) (d : GReg) (v : W64) : (putG c d v).fifoCS = c.fifoCS := by unfold putG; split <;> rfl
@[simp] theorem putG_qs (c : Ctx) (d : GReg) (v : W64) : (putG c d v).qs = c.qs := by unfold putG; split <;> rfl
@[simp] theorem putG_pend (c : Ctx) (d : GReg) (v : W64) : (putG c d v).pend = c.pend := by unfold putG; split <;> rfl
@[simp] theorem putG_words (c : Ctx) (d : GReg) (v : W64) : (putG c d v).words = c.words := by unfold putG; split <;> rfl
@[simp] theorem putG_cmds (c : Ctx) (d : GReg) (v : W64) : (putG c d v).cmds = c.cmds := by unfold putG; split <;> rfl
@[simp] theorem putG_acmds (c : Ctx) (d : GReg) (v : W64) : (putG c d v).acmds = c.acmds := by unfold putG; split <;> rfl
@[simp] theorem putG_loads (c : Ctx) (d : GReg) (v : W64) : (putG c d v).loads = c.loads := by unfold putG; split <;> rfl
@[simp] theorem putG_pathFree (c : Ctx) (d : GReg) (v : W64) : (putG c d v).pathFree = c.pathFree := by unfold putG; split <;> rfl
@[simp] theorem putG_rets (c : Ctx) (d : GReg) (v : W64) : (putG c d v).rets = c.rets := by unfold putG; split <;> rfl
@[simp] theorem putG_rtFree (c : Ctx) (d : GReg) (v : W64) : (putG c d v).rtFree = c.rtFree := by unfold putG; split <;> rfl
@[simp] theorem putG_fronts (c : Ctx) (d : GReg) (v : W64) : (putG c d v).fronts = c.fronts := by unfold putG; split <;> rfl
@[simp] theorem putG_rels (c : Ctx) (d : GReg) (v : W64) : (putG c d v).rels = c.rels := by unfold putG; split <;> rfl
@[simp] theorem putG_freeSlots (c : Ctx) (d : GReg) (v : W64) : (putG c d v).freeSlots = c.freeSlots := by unfold putG; split <;> rfl
@[simp] theorem putG_freePairs (c : Ctx) (d : GReg) (v : W64) : (putG c d v).freePairs = c.freePairs := by unfold putG; split <;> rfl
@[simp] theorem putG_backSlots (c : Ctx) (d : GReg) (v : W64) : (putG c d v).backSlots = c.backSlots := by unfold putG; split <;> rfl
@[simp] theorem putG_backPairs (c : Ctx) (d : GReg) (v : W64) : (putG c d v).backPairs = c.backPairs := by unfold putG; split <;> rfl
@[simp] theorem putG_shadows (c : Ctx) (d : GReg) (v : W64) : (putG c d v).shadows = c.shadows := by unfold putG; split <;> rfl
@[simp] theorem putG_buckets (c : Ctx) (d : GReg) (v : W64) : (putG c d v).buckets = c.buckets := by unfold putG; split <;> rfl
@[simp] theorem putG_weights (c : Ctx) (d : GReg) (v : W64) : (putG c d v).weights = c.weights := by unfold putG; split <;> rfl
@[simp] theorem putG_landed (c : Ctx) (d : GReg) (v : W64) : (putG c d v).landed = c.landed := by unfold putG; split <;> rfl
@[simp] theorem putG_events (c : Ctx) (d : GReg) (v : W64) : (putG c d v).events = c.events := by unfold putG; split <;> rfl
@[simp] theorem putG_irq (c : Ctx) (d : GReg) (v : W64) : (putG c d v).irq = c.irq := by unfold putG; split <;> rfl
@[simp] theorem putG_irqAt (c : Ctx) (d : GReg) (v : W64) : (putG c d v).irqAt = c.irqAt := by unfold putG; split <;> rfl
@[simp] theorem putG_irqNow (c : Ctx) (d : GReg) (v : W64) : (putG c d v).irqNow = c.irqNow := by unfold putG; split <;> rfl
@[simp] theorem putG_held (c : Ctx) (d : GReg) (v : W64) : (putG c d v).held = c.held := by unfold putG; split <;> rfl
@[simp] theorem putG_heldAt (c : Ctx) (d : GReg) (v : W64) : (putG c d v).heldAt = c.heldAt := by unfold putG; split <;> rfl
@[simp] theorem putG_frame (c : Ctx) (d : GReg) (v : W64) : (putG c d v).frame = c.frame := by unfold putG; split <;> rfl
@[simp] theorem putG_frameImg (c : Ctx) (d : GReg) (v : W64) : (putG c d v).frameImg = c.frameImg := by unfold putG; split <;> rfl
@[simp] theorem putG_withdrawn (c : Ctx) (d : GReg) (v : W64) : (putG c d v).withdrawn = c.withdrawn := by unfold putG; split <;> rfl
@[simp] theorem putG_subst (c : Ctx) (d : GReg) (v : W64) : (putG c d v).subst = c.subst := by unfold putG; split <;> rfl
@[simp] theorem putG_trapWait (c : Ctx) (d : GReg) (v : W64) : (putG c d v).trapWait = c.trapWait := by unfold putG; split <;> rfl
@[simp] theorem putG_report (c : Ctx) (d : GReg) (v : W64) : (putG c d v).report = c.report := by unfold putG; split <;> rfl
@[simp] theorem putG_barWait (c : Ctx) (d : GReg) (v : W64) : (putG c d v).barWait = c.barWait := by unfold putG; split <;> rfl
@[simp] theorem putG_diffWait (c : Ctx) (d : GReg) (v : W64) : (putG c d v).diffWait = c.diffWait := by unfold putG; split <;> rfl
@[simp] theorem putG_roomWait (c : Ctx) (d : GReg) (v : W64) : (putG c d v).roomWait = c.roomWait := by unfold putG; split <;> rfl
@[simp] theorem putG_saving (c : Ctx) (d : GReg) (v : W64) : (putG c d v).saving = c.saving := by unfold putG; split <;> rfl
@[simp] theorem putG_forcedCtr (c : Ctx) (d : GReg) (v : W64) : (putG c d v).forcedCtr = c.forcedCtr := by unfold putG; split <;> rfl
@[simp] theorem putG_dlSeen (c : Ctx) (d : GReg) (v : W64) : (putG c d v).dlSeen = c.dlSeen := by unfold putG; split <;> rfl
@[simp] theorem putG_abandoned (c : Ctx) (d : GReg) (v : W64) : (putG c d v).abandoned = c.abandoned := by unfold putG; split <;> rfl
@[simp] theorem putG_tagsAtStop (c : Ctx) (d : GReg) (v : W64) : (putG c d v).tagsAtStop = c.tagsAtStop := by unfold putG; split <;> rfl
@[simp] theorem putG_priv (c : Ctx) (d : GReg) (v : W64) : (putG c d v).priv = c.priv := by unfold putG; split <;> rfl
@[simp] theorem putG_view (c : Ctx) (d : GReg) (v : W64) : (putG c d v).view = c.view := by unfold putG; split <;> rfl
@[simp] theorem putG_accView (c : Ctx) (d : GReg) (v : W64) : (putG c d v).accView = c.accView := by unfold putG; split <;> rfl
@[simp] theorem putG_acq (c : Ctx) (d : GReg) (v : W64) : (putG c d v).acq = c.acq := by unfold putG; split <;> rfl
@[simp] theorem putG_asid (c : Ctx) (d : GReg) (v : W64) : (putG c d v).asid = c.asid := by unfold putG; split <;> rfl
@[simp] theorem putG_vmid (c : Ctx) (d : GReg) (v : W64) : (putG c d v).vmid = c.vmid := by unfold putG; split <;> rfl
@[simp] theorem putG_s1Root (c : Ctx) (d : GReg) (v : W64) : (putG c d v).s1Root = c.s1Root := by unfold putG; split <;> rfl
@[simp] theorem putG_s2Root (c : Ctx) (d : GReg) (v : W64) : (putG c d v).s2Root = c.s2Root := by unfold putG; split <;> rfl
@[simp] theorem putG_uRoot (c : Ctx) (d : GReg) (v : W64) : (putG c d v).uRoot = c.uRoot := by unfold putG; split <;> rfl
@[simp] theorem putG_locked (c : Ctx) (d : GReg) (v : W64) : (putG c d v).locked = c.locked := by unfold putG; split <;> rfl
@[simp] theorem putG_lockedA (c : Ctx) (d : GReg) (v : W64) : (putG c d v).lockedA = c.lockedA := by unfold putG; split <;> rfl
@[simp] theorem putG_recPage (c : Ctx) (d : GReg) (v : W64) : (putG c d v).recPage = c.recPage := by unfold putG; split <;> rfl
@[simp] theorem putG_recVa (c : Ctx) (d : GReg) (v : W64) : (putG c d v).recVa = c.recVa := by unfold putG; split <;> rfl
@[simp] theorem putG_lastTsc (c : Ctx) (d : GReg) (v : W64) : (putG c d v).lastTsc = c.lastTsc := by unfold putG; split <;> rfl

/-! ## Ctx.setStrm -/

@[simp] theorem Ctx.setStrm_life (c : Ctx) (x : StreamId) (t : Strm) : (c.setStrm x t).life = c.life := by cases x <;> rfl
@[simp] theorem Ctx.setStrm_die (c : Ctx) (x : StreamId) (t : Strm) : (c.setStrm x t).die = c.die := by cases x <;> rfl
@[simp] theorem Ctx.setStrm_bay (c : Ctx) (x : StreamId) (t : Strm) : (c.setStrm x t).bay = c.bay := by cases x <;> rfl
@[simp] theorem Ctx.setStrm_core (c : Ctx) (x : StreamId) (t : Strm) : (c.setStrm x t).core = c.core := by cases x <;> rfl
@[simp] theorem Ctx.setStrm_bank (c : Ctx) (x : StreamId) (t : Strm) : (c.setStrm x t).bank = c.bank := by cases x <;> rfl
@[simp] theorem Ctx.setStrm_launch (c : Ctx) (x : StreamId) (t : Strm) : (c.setStrm x t).launch = c.launch := by cases x <;> rfl
@[simp] theorem Ctx.setStrm_nodeDie (c : Ctx) (x : StreamId) (t : Strm) : (c.setStrm x t).nodeDie = c.nodeDie := by cases x <;> rfl
@[simp] theorem Ctx.setStrm_nodeIdx (c : Ctx) (x : StreamId) (t : Strm) : (c.setStrm x t).nodeIdx = c.nodeIdx := by cases x <;> rfl
@[simp] theorem Ctx.setStrm_turnAt (c : Ctx) (x : StreamId) (t : Strm) : (c.setStrm x t).turnAt = c.turnAt := by cases x <;> rfl
@[simp] theorem Ctx.setStrm_timed (c : Ctx) (x : StreamId) (t : Strm) : (c.setStrm x t).timed = c.timed := by cases x <;> rfl
@[simp] theorem Ctx.setStrm_status (c : Ctx) (x : StreamId) (t : Strm) : (c.setStrm x t).status = c.status := by cases x <;> rfl
@[simp] theorem Ctx.setStrm_vrank (c : Ctx) (x : StreamId) (t : Strm) : (c.setStrm x t).vrank = c.vrank := by cases x <;> rfl
@[simp] theorem Ctx.setStrm_vcount (c : Ctx) (x : StreamId) (t : Strm) : (c.setStrm x t).vcount = c.vcount := by cases x <;> rfl
@[simp] theorem Ctx.setStrm_part (c : Ctx) (x : StreamId) (t : Strm) : (c.setStrm x t).part = c.part := by cases x <;> rfl
@[simp] theorem Ctx.setStrm_frnd (c : Ctx) (x : StreamId) (t : Strm) : (c.setStrm x t).frnd = c.frnd := by cases x <;> rfl
@[simp] theorem Ctx.setStrm_fflags (c : Ctx) (x : StreamId) (t : Strm) : (c.setStrm x t).fflags = c.fflags := by cases x <;> rfl
@[simp] theorem Ctx.setStrm_scaleRcp (c : Ctx) (x : StreamId) (t : Strm) : (c.setStrm x t).scaleRcp = c.scaleRcp := by cases x <;> rfl
@[simp] theorem Ctx.setStrm_dmode (c : Ctx) (x : StreamId) (t : Strm) : (c.setStrm x t).dmode = c.dmode := by cases x <;> rfl
@[simp] theorem Ctx.setStrm_tapeBase (c : Ctx) (x : StreamId) (t : Strm) : (c.setStrm x t).tapeBase = c.tapeBase := by cases x <;> rfl
@[simp] theorem Ctx.setStrm_tapeLimit (c : Ctx) (x : StreamId) (t : Strm) : (c.setStrm x t).tapeLimit = c.tapeLimit := by cases x <;> rfl
@[simp] theorem Ctx.setStrm_tapeHead (c : Ctx) (x : StreamId) (t : Strm) : (c.setStrm x t).tapeHead = c.tapeHead := by cases x <;> rfl
@[simp] theorem Ctx.setStrm_adjRoot (c : Ctx) (x : StreamId) (t : Strm) : (c.setStrm x t).adjRoot = c.adjRoot := by cases x <;> rfl
@[simp] theorem Ctx.setStrm_patchEpoch (c : Ctx) (x : StreamId) (t : Strm) : (c.setStrm x t).patchEpoch = c.patchEpoch := by cases x <;> rfl
@[simp] theorem Ctx.setStrm_yieldDl (c : Ctx) (x : StreamId) (t : Strm) : (c.setStrm x t).yieldDl = c.yieldDl := by cases x <;> rfl
@[simp] theorem Ctx.setStrm_expStall (c : Ctx) (x : StreamId) (t : Strm) : (c.setStrm x t).expStall = c.expStall := by cases x <;> rfl
@[simp] theorem Ctx.setStrm_trapVec (c : Ctx) (x : StreamId) (t : Strm) : (c.setStrm x t).trapVec = c.trapVec := by cases x <;> rfl
@[simp] theorem Ctx.setStrm_trapCause (c : Ctx) (x : StreamId) (t : Strm) : (c.setStrm x t).trapCause = c.trapCause := by cases x <;> rfl
@[simp] theorem Ctx.setStrm_s (c : Ctx) (x : StreamId) (t : Strm) : (c.setStrm x t).s = c.s := by cases x <;> rfl
@[simp] theorem Ctx.setStrm_f (c : Ctx) (x : StreamId) (t : Strm) : (c.setStrm x t).f = c.f := by cases x <;> rfl
@[simp] theorem Ctx.setStrm_g (c : Ctx) (x : StreamId) (t : Strm) : (c.setStrm x t).g = c.g := by cases x <;> rfl
@[simp] theorem Ctx.setStrm_l (c : Ctx) (x : StreamId) (t : Strm) : (c.setStrm x t).l = c.l := by cases x <;> rfl
@[simp] theorem Ctx.setStrm_v (c : Ctx) (x : StreamId) (t : Strm) : (c.setStrm x t).v = c.v := by cases x <;> rfl
@[simp] theorem Ctx.setStrm_lf (c : Ctx) (x : StreamId) (t : Strm) : (c.setStrm x t).lf = c.lf := by cases x <;> rfl
@[simp] theorem Ctx.setStrm_lfNow (c : Ctx) (x : StreamId) (t : Strm) : (c.setStrm x t).lfNow = c.lfNow := by cases x <;> rfl
@[simp] theorem Ctx.setStrm_hist (c : Ctx) (x : StreamId) (t : Strm) : (c.setStrm x t).hist = c.hist := by cases x <;> rfl
@[simp] theorem Ctx.setStrm_bf (c : Ctx) (x : StreamId) (t : Strm) : (c.setStrm x t).bf = c.bf := by cases x <;> rfl
@[simp] theorem Ctx.setStrm_arm (c : Ctx) (x : StreamId) (t : Strm) : (c.setStrm x t).arm = c.arm := by cases x <;> rfl
@[simp] theorem Ctx.setStrm_ms (c : Ctx) (x : StreamId) (t : Strm) : (c.setStrm x t).ms = c.ms := by cases x <;> rfl
@[simp] theorem Ctx.setStrm_ks (c : Ctx) (x : StreamId) (t : Strm) : (c.setStrm x t).ks = c.ks := by cases x <;> rfl
@[simp] theorem Ctx.setStrm_ps (c : Ctx) (x : StreamId) (t : Strm) : (c.setStrm x t).ps = c.ps := by cases x <;> rfl
@[simp] theorem Ctx.setStrm_cix (c : Ctx) (x : StreamId) (t : Strm) : (c.setStrm x t).cix = c.cix := by cases x <;> rfl
@[simp] theorem Ctx.setStrm_kdep (c : Ctx) (x : StreamId) (t : Strm) : (c.setStrm x t).kdep = c.kdep := by cases x <;> rfl
@[simp] theorem Ctx.setStrm_wrapped (c : Ctx) (x : StreamId) (t : Strm) : (c.setStrm x t).wrapped = c.wrapped := by cases x <;> rfl
@[simp] theorem Ctx.setStrm_bars (c : Ctx) (x : StreamId) (t : Strm) : (c.setStrm x t).bars = c.bars := by cases x <;> rfl
@[simp] theorem Ctx.setStrm_tags (c : Ctx) (x : StreamId) (t : Strm) : (c.setStrm x t).tags = c.tags := by cases x <;> rfl
@[simp] theorem Ctx.setStrm_fifoCA (c : Ctx) (x : StreamId) (t : Strm) : (c.setStrm x t).fifoCA = c.fifoCA := by cases x <;> rfl
@[simp] theorem Ctx.setStrm_fifoAC (c : Ctx) (x : StreamId) (t : Strm) : (c.setStrm x t).fifoAC = c.fifoAC := by cases x <;> rfl
@[simp] theorem Ctx.setStrm_fifoAM (c : Ctx) (x : StreamId) (t : Strm) : (c.setStrm x t).fifoAM = c.fifoAM := by cases x <;> rfl
@[simp] theorem Ctx.setStrm_fifoMA (c : Ctx) (x : StreamId) (t : Strm) : (c.setStrm x t).fifoMA = c.fifoMA := by cases x <;> rfl
@[simp] theorem Ctx.setStrm_fifoMS (c : Ctx) (x : StreamId) (t : Strm) : (c.setStrm x t).fifoMS = c.fifoMS := by cases x <;> rfl
@[simp] theorem Ctx.setStrm_fifoSM (c : Ctx) (x : StreamId) (t : Strm) : (c.setStrm x t).fifoSM = c.fifoSM := by cases x <;> rfl
@[simp] theorem Ctx.setStrm_fifoSC (c : Ctx) (x : StreamId) (t : Strm) : (c.setStrm x t).fifoSC = c.fifoSC := by cases x <;> rfl
@[simp] theorem Ctx.setStrm_fifoCS (c : Ctx) (x : StreamId) (t : Strm) : (c.setStrm x t).fifoCS = c.fifoCS := by cases x <;> rfl
@[simp] theorem Ctx.setStrm_qs (c : Ctx) (x : StreamId) (t : Strm) : (c.setStrm x t).qs = c.qs := by cases x <;> rfl
@[simp] theorem Ctx.setStrm_pend (c : Ctx) (x : StreamId) (t : Strm) : (c.setStrm x t).pend = c.pend := by cases x <;> rfl
@[simp] theorem Ctx.setStrm_words (c : Ctx) (x : StreamId) (t : Strm) : (c.setStrm x t).words = c.words := by cases x <;> rfl
@[simp] theorem Ctx.setStrm_cmds (c : Ctx) (x : StreamId) (t : Strm) : (c.setStrm x t).cmds = c.cmds := by cases x <;> rfl
@[simp] theorem Ctx.setStrm_acmds (c : Ctx) (x : StreamId) (t : Strm) : (c.setStrm x t).acmds = c.acmds := by cases x <;> rfl
@[simp] theorem Ctx.setStrm_loads (c : Ctx) (x : StreamId) (t : Strm) : (c.setStrm x t).loads = c.loads := by cases x <;> rfl
@[simp] theorem Ctx.setStrm_pathFree (c : Ctx) (x : StreamId) (t : Strm) : (c.setStrm x t).pathFree = c.pathFree := by cases x <;> rfl
@[simp] theorem Ctx.setStrm_rets (c : Ctx) (x : StreamId) (t : Strm) : (c.setStrm x t).rets = c.rets := by cases x <;> rfl
@[simp] theorem Ctx.setStrm_rtFree (c : Ctx) (x : StreamId) (t : Strm) : (c.setStrm x t).rtFree = c.rtFree := by cases x <;> rfl
@[simp] theorem Ctx.setStrm_fronts (c : Ctx) (x : StreamId) (t : Strm) : (c.setStrm x t).fronts = c.fronts := by cases x <;> rfl
@[simp] theorem Ctx.setStrm_rels (c : Ctx) (x : StreamId) (t : Strm) : (c.setStrm x t).rels = c.rels := by cases x <;> rfl
@[simp] theorem Ctx.setStrm_freeSlots (c : Ctx) (x : StreamId) (t : Strm) : (c.setStrm x t).freeSlots = c.freeSlots := by cases x <;> rfl
@[simp] theorem Ctx.setStrm_freePairs (c : Ctx) (x : StreamId) (t : Strm) : (c.setStrm x t).freePairs = c.freePairs := by cases x <;> rfl
@[simp] theorem Ctx.setStrm_backSlots (c : Ctx) (x : StreamId) (t : Strm) : (c.setStrm x t).backSlots = c.backSlots := by cases x <;> rfl
@[simp] theorem Ctx.setStrm_backPairs (c : Ctx) (x : StreamId) (t : Strm) : (c.setStrm x t).backPairs = c.backPairs := by cases x <;> rfl
@[simp] theorem Ctx.setStrm_shadows (c : Ctx) (x : StreamId) (t : Strm) : (c.setStrm x t).shadows = c.shadows := by cases x <;> rfl
@[simp] theorem Ctx.setStrm_buckets (c : Ctx) (x : StreamId) (t : Strm) : (c.setStrm x t).buckets = c.buckets := by cases x <;> rfl
@[simp] theorem Ctx.setStrm_weights (c : Ctx) (x : StreamId) (t : Strm) : (c.setStrm x t).weights = c.weights := by cases x <;> rfl
@[simp] theorem Ctx.setStrm_landed (c : Ctx) (x : StreamId) (t : Strm) : (c.setStrm x t).landed = c.landed := by cases x <;> rfl
@[simp] theorem Ctx.setStrm_events (c : Ctx) (x : StreamId) (t : Strm) : (c.setStrm x t).events = c.events := by cases x <;> rfl
@[simp] theorem Ctx.setStrm_irq (c : Ctx) (x : StreamId) (t : Strm) : (c.setStrm x t).irq = c.irq := by cases x <;> rfl
@[simp] theorem Ctx.setStrm_irqAt (c : Ctx) (x : StreamId) (t : Strm) : (c.setStrm x t).irqAt = c.irqAt := by cases x <;> rfl
@[simp] theorem Ctx.setStrm_irqNow (c : Ctx) (x : StreamId) (t : Strm) : (c.setStrm x t).irqNow = c.irqNow := by cases x <;> rfl
@[simp] theorem Ctx.setStrm_held (c : Ctx) (x : StreamId) (t : Strm) : (c.setStrm x t).held = c.held := by cases x <;> rfl
@[simp] theorem Ctx.setStrm_heldAt (c : Ctx) (x : StreamId) (t : Strm) : (c.setStrm x t).heldAt = c.heldAt := by cases x <;> rfl
@[simp] theorem Ctx.setStrm_frame (c : Ctx) (x : StreamId) (t : Strm) : (c.setStrm x t).frame = c.frame := by cases x <;> rfl
@[simp] theorem Ctx.setStrm_frameImg (c : Ctx) (x : StreamId) (t : Strm) : (c.setStrm x t).frameImg = c.frameImg := by cases x <;> rfl
@[simp] theorem Ctx.setStrm_withdrawn (c : Ctx) (x : StreamId) (t : Strm) : (c.setStrm x t).withdrawn = c.withdrawn := by cases x <;> rfl
@[simp] theorem Ctx.setStrm_subst (c : Ctx) (x : StreamId) (t : Strm) : (c.setStrm x t).subst = c.subst := by cases x <;> rfl
@[simp] theorem Ctx.setStrm_trapWait (c : Ctx) (x : StreamId) (t : Strm) : (c.setStrm x t).trapWait = c.trapWait := by cases x <;> rfl
@[simp] theorem Ctx.setStrm_report (c : Ctx) (x : StreamId) (t : Strm) : (c.setStrm x t).report = c.report := by cases x <;> rfl
@[simp] theorem Ctx.setStrm_barWait (c : Ctx) (x : StreamId) (t : Strm) : (c.setStrm x t).barWait = c.barWait := by cases x <;> rfl
@[simp] theorem Ctx.setStrm_diffWait (c : Ctx) (x : StreamId) (t : Strm) : (c.setStrm x t).diffWait = c.diffWait := by cases x <;> rfl
@[simp] theorem Ctx.setStrm_roomWait (c : Ctx) (x : StreamId) (t : Strm) : (c.setStrm x t).roomWait = c.roomWait := by cases x <;> rfl
@[simp] theorem Ctx.setStrm_saving (c : Ctx) (x : StreamId) (t : Strm) : (c.setStrm x t).saving = c.saving := by cases x <;> rfl
@[simp] theorem Ctx.setStrm_forcedCtr (c : Ctx) (x : StreamId) (t : Strm) : (c.setStrm x t).forcedCtr = c.forcedCtr := by cases x <;> rfl
@[simp] theorem Ctx.setStrm_dlSeen (c : Ctx) (x : StreamId) (t : Strm) : (c.setStrm x t).dlSeen = c.dlSeen := by cases x <;> rfl
@[simp] theorem Ctx.setStrm_abandoned (c : Ctx) (x : StreamId) (t : Strm) : (c.setStrm x t).abandoned = c.abandoned := by cases x <;> rfl
@[simp] theorem Ctx.setStrm_tagsAtStop (c : Ctx) (x : StreamId) (t : Strm) : (c.setStrm x t).tagsAtStop = c.tagsAtStop := by cases x <;> rfl
@[simp] theorem Ctx.setStrm_priv (c : Ctx) (x : StreamId) (t : Strm) : (c.setStrm x t).priv = c.priv := by cases x <;> rfl
@[simp] theorem Ctx.setStrm_view (c : Ctx) (x : StreamId) (t : Strm) : (c.setStrm x t).view = c.view := by cases x <;> rfl
@[simp] theorem Ctx.setStrm_accView (c : Ctx) (x : StreamId) (t : Strm) : (c.setStrm x t).accView = c.accView := by cases x <;> rfl
@[simp] theorem Ctx.setStrm_acq (c : Ctx) (x : StreamId) (t : Strm) : (c.setStrm x t).acq = c.acq := by cases x <;> rfl
@[simp] theorem Ctx.setStrm_asid (c : Ctx) (x : StreamId) (t : Strm) : (c.setStrm x t).asid = c.asid := by cases x <;> rfl
@[simp] theorem Ctx.setStrm_vmid (c : Ctx) (x : StreamId) (t : Strm) : (c.setStrm x t).vmid = c.vmid := by cases x <;> rfl
@[simp] theorem Ctx.setStrm_s1Root (c : Ctx) (x : StreamId) (t : Strm) : (c.setStrm x t).s1Root = c.s1Root := by cases x <;> rfl
@[simp] theorem Ctx.setStrm_s2Root (c : Ctx) (x : StreamId) (t : Strm) : (c.setStrm x t).s2Root = c.s2Root := by cases x <;> rfl
@[simp] theorem Ctx.setStrm_uRoot (c : Ctx) (x : StreamId) (t : Strm) : (c.setStrm x t).uRoot = c.uRoot := by cases x <;> rfl
@[simp] theorem Ctx.setStrm_locked (c : Ctx) (x : StreamId) (t : Strm) : (c.setStrm x t).locked = c.locked := by cases x <;> rfl
@[simp] theorem Ctx.setStrm_lockedA (c : Ctx) (x : StreamId) (t : Strm) : (c.setStrm x t).lockedA = c.lockedA := by cases x <;> rfl
@[simp] theorem Ctx.setStrm_recPage (c : Ctx) (x : StreamId) (t : Strm) : (c.setStrm x t).recPage = c.recPage := by cases x <;> rfl
@[simp] theorem Ctx.setStrm_recVa (c : Ctx) (x : StreamId) (t : Strm) : (c.setStrm x t).recVa = c.recVa := by cases x <;> rfl
@[simp] theorem Ctx.setStrm_lastTsc (c : Ctx) (x : StreamId) (t : Strm) : (c.setStrm x t).lastTsc = c.lastTsc := by cases x <;> rfl

/-! ## Ctx.mapStrm -/

@[simp] theorem Ctx.mapStrm_life (c : Ctx) (x : StreamId) (f : Strm → Strm) : (c.mapStrm x f).life = c.life := by cases x <;> rfl
@[simp] theorem Ctx.mapStrm_die (c : Ctx) (x : StreamId) (f : Strm → Strm) : (c.mapStrm x f).die = c.die := by cases x <;> rfl
@[simp] theorem Ctx.mapStrm_bay (c : Ctx) (x : StreamId) (f : Strm → Strm) : (c.mapStrm x f).bay = c.bay := by cases x <;> rfl
@[simp] theorem Ctx.mapStrm_core (c : Ctx) (x : StreamId) (f : Strm → Strm) : (c.mapStrm x f).core = c.core := by cases x <;> rfl
@[simp] theorem Ctx.mapStrm_bank (c : Ctx) (x : StreamId) (f : Strm → Strm) : (c.mapStrm x f).bank = c.bank := by cases x <;> rfl
@[simp] theorem Ctx.mapStrm_launch (c : Ctx) (x : StreamId) (f : Strm → Strm) : (c.mapStrm x f).launch = c.launch := by cases x <;> rfl
@[simp] theorem Ctx.mapStrm_nodeDie (c : Ctx) (x : StreamId) (f : Strm → Strm) : (c.mapStrm x f).nodeDie = c.nodeDie := by cases x <;> rfl
@[simp] theorem Ctx.mapStrm_nodeIdx (c : Ctx) (x : StreamId) (f : Strm → Strm) : (c.mapStrm x f).nodeIdx = c.nodeIdx := by cases x <;> rfl
@[simp] theorem Ctx.mapStrm_turnAt (c : Ctx) (x : StreamId) (f : Strm → Strm) : (c.mapStrm x f).turnAt = c.turnAt := by cases x <;> rfl
@[simp] theorem Ctx.mapStrm_timed (c : Ctx) (x : StreamId) (f : Strm → Strm) : (c.mapStrm x f).timed = c.timed := by cases x <;> rfl
@[simp] theorem Ctx.mapStrm_status (c : Ctx) (x : StreamId) (f : Strm → Strm) : (c.mapStrm x f).status = c.status := by cases x <;> rfl
@[simp] theorem Ctx.mapStrm_vrank (c : Ctx) (x : StreamId) (f : Strm → Strm) : (c.mapStrm x f).vrank = c.vrank := by cases x <;> rfl
@[simp] theorem Ctx.mapStrm_vcount (c : Ctx) (x : StreamId) (f : Strm → Strm) : (c.mapStrm x f).vcount = c.vcount := by cases x <;> rfl
@[simp] theorem Ctx.mapStrm_part (c : Ctx) (x : StreamId) (f : Strm → Strm) : (c.mapStrm x f).part = c.part := by cases x <;> rfl
@[simp] theorem Ctx.mapStrm_frnd (c : Ctx) (x : StreamId) (f : Strm → Strm) : (c.mapStrm x f).frnd = c.frnd := by cases x <;> rfl
@[simp] theorem Ctx.mapStrm_fflags (c : Ctx) (x : StreamId) (f : Strm → Strm) : (c.mapStrm x f).fflags = c.fflags := by cases x <;> rfl
@[simp] theorem Ctx.mapStrm_scaleRcp (c : Ctx) (x : StreamId) (f : Strm → Strm) : (c.mapStrm x f).scaleRcp = c.scaleRcp := by cases x <;> rfl
@[simp] theorem Ctx.mapStrm_dmode (c : Ctx) (x : StreamId) (f : Strm → Strm) : (c.mapStrm x f).dmode = c.dmode := by cases x <;> rfl
@[simp] theorem Ctx.mapStrm_tapeBase (c : Ctx) (x : StreamId) (f : Strm → Strm) : (c.mapStrm x f).tapeBase = c.tapeBase := by cases x <;> rfl
@[simp] theorem Ctx.mapStrm_tapeLimit (c : Ctx) (x : StreamId) (f : Strm → Strm) : (c.mapStrm x f).tapeLimit = c.tapeLimit := by cases x <;> rfl
@[simp] theorem Ctx.mapStrm_tapeHead (c : Ctx) (x : StreamId) (f : Strm → Strm) : (c.mapStrm x f).tapeHead = c.tapeHead := by cases x <;> rfl
@[simp] theorem Ctx.mapStrm_adjRoot (c : Ctx) (x : StreamId) (f : Strm → Strm) : (c.mapStrm x f).adjRoot = c.adjRoot := by cases x <;> rfl
@[simp] theorem Ctx.mapStrm_patchEpoch (c : Ctx) (x : StreamId) (f : Strm → Strm) : (c.mapStrm x f).patchEpoch = c.patchEpoch := by cases x <;> rfl
@[simp] theorem Ctx.mapStrm_yieldDl (c : Ctx) (x : StreamId) (f : Strm → Strm) : (c.mapStrm x f).yieldDl = c.yieldDl := by cases x <;> rfl
@[simp] theorem Ctx.mapStrm_expStall (c : Ctx) (x : StreamId) (f : Strm → Strm) : (c.mapStrm x f).expStall = c.expStall := by cases x <;> rfl
@[simp] theorem Ctx.mapStrm_trapVec (c : Ctx) (x : StreamId) (f : Strm → Strm) : (c.mapStrm x f).trapVec = c.trapVec := by cases x <;> rfl
@[simp] theorem Ctx.mapStrm_trapCause (c : Ctx) (x : StreamId) (f : Strm → Strm) : (c.mapStrm x f).trapCause = c.trapCause := by cases x <;> rfl
@[simp] theorem Ctx.mapStrm_s (c : Ctx) (x : StreamId) (f : Strm → Strm) : (c.mapStrm x f).s = c.s := by cases x <;> rfl
@[simp] theorem Ctx.mapStrm_f (c : Ctx) (x : StreamId) (f : Strm → Strm) : (c.mapStrm x f).f = c.f := by cases x <;> rfl
@[simp] theorem Ctx.mapStrm_g (c : Ctx) (x : StreamId) (f : Strm → Strm) : (c.mapStrm x f).g = c.g := by cases x <;> rfl
@[simp] theorem Ctx.mapStrm_l (c : Ctx) (x : StreamId) (f : Strm → Strm) : (c.mapStrm x f).l = c.l := by cases x <;> rfl
@[simp] theorem Ctx.mapStrm_v (c : Ctx) (x : StreamId) (f : Strm → Strm) : (c.mapStrm x f).v = c.v := by cases x <;> rfl
@[simp] theorem Ctx.mapStrm_lf (c : Ctx) (x : StreamId) (f : Strm → Strm) : (c.mapStrm x f).lf = c.lf := by cases x <;> rfl
@[simp] theorem Ctx.mapStrm_lfNow (c : Ctx) (x : StreamId) (f : Strm → Strm) : (c.mapStrm x f).lfNow = c.lfNow := by cases x <;> rfl
@[simp] theorem Ctx.mapStrm_hist (c : Ctx) (x : StreamId) (f : Strm → Strm) : (c.mapStrm x f).hist = c.hist := by cases x <;> rfl
@[simp] theorem Ctx.mapStrm_bf (c : Ctx) (x : StreamId) (f : Strm → Strm) : (c.mapStrm x f).bf = c.bf := by cases x <;> rfl
@[simp] theorem Ctx.mapStrm_arm (c : Ctx) (x : StreamId) (f : Strm → Strm) : (c.mapStrm x f).arm = c.arm := by cases x <;> rfl
@[simp] theorem Ctx.mapStrm_ms (c : Ctx) (x : StreamId) (f : Strm → Strm) : (c.mapStrm x f).ms = c.ms := by cases x <;> rfl
@[simp] theorem Ctx.mapStrm_ks (c : Ctx) (x : StreamId) (f : Strm → Strm) : (c.mapStrm x f).ks = c.ks := by cases x <;> rfl
@[simp] theorem Ctx.mapStrm_ps (c : Ctx) (x : StreamId) (f : Strm → Strm) : (c.mapStrm x f).ps = c.ps := by cases x <;> rfl
@[simp] theorem Ctx.mapStrm_cix (c : Ctx) (x : StreamId) (f : Strm → Strm) : (c.mapStrm x f).cix = c.cix := by cases x <;> rfl
@[simp] theorem Ctx.mapStrm_kdep (c : Ctx) (x : StreamId) (f : Strm → Strm) : (c.mapStrm x f).kdep = c.kdep := by cases x <;> rfl
@[simp] theorem Ctx.mapStrm_wrapped (c : Ctx) (x : StreamId) (f : Strm → Strm) : (c.mapStrm x f).wrapped = c.wrapped := by cases x <;> rfl
@[simp] theorem Ctx.mapStrm_bars (c : Ctx) (x : StreamId) (f : Strm → Strm) : (c.mapStrm x f).bars = c.bars := by cases x <;> rfl
@[simp] theorem Ctx.mapStrm_tags (c : Ctx) (x : StreamId) (f : Strm → Strm) : (c.mapStrm x f).tags = c.tags := by cases x <;> rfl
@[simp] theorem Ctx.mapStrm_fifoCA (c : Ctx) (x : StreamId) (f : Strm → Strm) : (c.mapStrm x f).fifoCA = c.fifoCA := by cases x <;> rfl
@[simp] theorem Ctx.mapStrm_fifoAC (c : Ctx) (x : StreamId) (f : Strm → Strm) : (c.mapStrm x f).fifoAC = c.fifoAC := by cases x <;> rfl
@[simp] theorem Ctx.mapStrm_fifoAM (c : Ctx) (x : StreamId) (f : Strm → Strm) : (c.mapStrm x f).fifoAM = c.fifoAM := by cases x <;> rfl
@[simp] theorem Ctx.mapStrm_fifoMA (c : Ctx) (x : StreamId) (f : Strm → Strm) : (c.mapStrm x f).fifoMA = c.fifoMA := by cases x <;> rfl
@[simp] theorem Ctx.mapStrm_fifoMS (c : Ctx) (x : StreamId) (f : Strm → Strm) : (c.mapStrm x f).fifoMS = c.fifoMS := by cases x <;> rfl
@[simp] theorem Ctx.mapStrm_fifoSM (c : Ctx) (x : StreamId) (f : Strm → Strm) : (c.mapStrm x f).fifoSM = c.fifoSM := by cases x <;> rfl
@[simp] theorem Ctx.mapStrm_fifoSC (c : Ctx) (x : StreamId) (f : Strm → Strm) : (c.mapStrm x f).fifoSC = c.fifoSC := by cases x <;> rfl
@[simp] theorem Ctx.mapStrm_fifoCS (c : Ctx) (x : StreamId) (f : Strm → Strm) : (c.mapStrm x f).fifoCS = c.fifoCS := by cases x <;> rfl
@[simp] theorem Ctx.mapStrm_qs (c : Ctx) (x : StreamId) (f : Strm → Strm) : (c.mapStrm x f).qs = c.qs := by cases x <;> rfl
@[simp] theorem Ctx.mapStrm_pend (c : Ctx) (x : StreamId) (f : Strm → Strm) : (c.mapStrm x f).pend = c.pend := by cases x <;> rfl
@[simp] theorem Ctx.mapStrm_words (c : Ctx) (x : StreamId) (f : Strm → Strm) : (c.mapStrm x f).words = c.words := by cases x <;> rfl
@[simp] theorem Ctx.mapStrm_cmds (c : Ctx) (x : StreamId) (f : Strm → Strm) : (c.mapStrm x f).cmds = c.cmds := by cases x <;> rfl
@[simp] theorem Ctx.mapStrm_acmds (c : Ctx) (x : StreamId) (f : Strm → Strm) : (c.mapStrm x f).acmds = c.acmds := by cases x <;> rfl
@[simp] theorem Ctx.mapStrm_loads (c : Ctx) (x : StreamId) (f : Strm → Strm) : (c.mapStrm x f).loads = c.loads := by cases x <;> rfl
@[simp] theorem Ctx.mapStrm_pathFree (c : Ctx) (x : StreamId) (f : Strm → Strm) : (c.mapStrm x f).pathFree = c.pathFree := by cases x <;> rfl
@[simp] theorem Ctx.mapStrm_rets (c : Ctx) (x : StreamId) (f : Strm → Strm) : (c.mapStrm x f).rets = c.rets := by cases x <;> rfl
@[simp] theorem Ctx.mapStrm_rtFree (c : Ctx) (x : StreamId) (f : Strm → Strm) : (c.mapStrm x f).rtFree = c.rtFree := by cases x <;> rfl
@[simp] theorem Ctx.mapStrm_fronts (c : Ctx) (x : StreamId) (f : Strm → Strm) : (c.mapStrm x f).fronts = c.fronts := by cases x <;> rfl
@[simp] theorem Ctx.mapStrm_rels (c : Ctx) (x : StreamId) (f : Strm → Strm) : (c.mapStrm x f).rels = c.rels := by cases x <;> rfl
@[simp] theorem Ctx.mapStrm_freeSlots (c : Ctx) (x : StreamId) (f : Strm → Strm) : (c.mapStrm x f).freeSlots = c.freeSlots := by cases x <;> rfl
@[simp] theorem Ctx.mapStrm_freePairs (c : Ctx) (x : StreamId) (f : Strm → Strm) : (c.mapStrm x f).freePairs = c.freePairs := by cases x <;> rfl
@[simp] theorem Ctx.mapStrm_backSlots (c : Ctx) (x : StreamId) (f : Strm → Strm) : (c.mapStrm x f).backSlots = c.backSlots := by cases x <;> rfl
@[simp] theorem Ctx.mapStrm_backPairs (c : Ctx) (x : StreamId) (f : Strm → Strm) : (c.mapStrm x f).backPairs = c.backPairs := by cases x <;> rfl
@[simp] theorem Ctx.mapStrm_shadows (c : Ctx) (x : StreamId) (f : Strm → Strm) : (c.mapStrm x f).shadows = c.shadows := by cases x <;> rfl
@[simp] theorem Ctx.mapStrm_buckets (c : Ctx) (x : StreamId) (f : Strm → Strm) : (c.mapStrm x f).buckets = c.buckets := by cases x <;> rfl
@[simp] theorem Ctx.mapStrm_weights (c : Ctx) (x : StreamId) (f : Strm → Strm) : (c.mapStrm x f).weights = c.weights := by cases x <;> rfl
@[simp] theorem Ctx.mapStrm_landed (c : Ctx) (x : StreamId) (f : Strm → Strm) : (c.mapStrm x f).landed = c.landed := by cases x <;> rfl
@[simp] theorem Ctx.mapStrm_events (c : Ctx) (x : StreamId) (f : Strm → Strm) : (c.mapStrm x f).events = c.events := by cases x <;> rfl
@[simp] theorem Ctx.mapStrm_irq (c : Ctx) (x : StreamId) (f : Strm → Strm) : (c.mapStrm x f).irq = c.irq := by cases x <;> rfl
@[simp] theorem Ctx.mapStrm_irqAt (c : Ctx) (x : StreamId) (f : Strm → Strm) : (c.mapStrm x f).irqAt = c.irqAt := by cases x <;> rfl
@[simp] theorem Ctx.mapStrm_irqNow (c : Ctx) (x : StreamId) (f : Strm → Strm) : (c.mapStrm x f).irqNow = c.irqNow := by cases x <;> rfl
@[simp] theorem Ctx.mapStrm_held (c : Ctx) (x : StreamId) (f : Strm → Strm) : (c.mapStrm x f).held = c.held := by cases x <;> rfl
@[simp] theorem Ctx.mapStrm_heldAt (c : Ctx) (x : StreamId) (f : Strm → Strm) : (c.mapStrm x f).heldAt = c.heldAt := by cases x <;> rfl
@[simp] theorem Ctx.mapStrm_frame (c : Ctx) (x : StreamId) (f : Strm → Strm) : (c.mapStrm x f).frame = c.frame := by cases x <;> rfl
@[simp] theorem Ctx.mapStrm_frameImg (c : Ctx) (x : StreamId) (f : Strm → Strm) : (c.mapStrm x f).frameImg = c.frameImg := by cases x <;> rfl
@[simp] theorem Ctx.mapStrm_withdrawn (c : Ctx) (x : StreamId) (f : Strm → Strm) : (c.mapStrm x f).withdrawn = c.withdrawn := by cases x <;> rfl
@[simp] theorem Ctx.mapStrm_subst (c : Ctx) (x : StreamId) (f : Strm → Strm) : (c.mapStrm x f).subst = c.subst := by cases x <;> rfl
@[simp] theorem Ctx.mapStrm_trapWait (c : Ctx) (x : StreamId) (f : Strm → Strm) : (c.mapStrm x f).trapWait = c.trapWait := by cases x <;> rfl
@[simp] theorem Ctx.mapStrm_report (c : Ctx) (x : StreamId) (f : Strm → Strm) : (c.mapStrm x f).report = c.report := by cases x <;> rfl
@[simp] theorem Ctx.mapStrm_barWait (c : Ctx) (x : StreamId) (f : Strm → Strm) : (c.mapStrm x f).barWait = c.barWait := by cases x <;> rfl
@[simp] theorem Ctx.mapStrm_diffWait (c : Ctx) (x : StreamId) (f : Strm → Strm) : (c.mapStrm x f).diffWait = c.diffWait := by cases x <;> rfl
@[simp] theorem Ctx.mapStrm_roomWait (c : Ctx) (x : StreamId) (f : Strm → Strm) : (c.mapStrm x f).roomWait = c.roomWait := by cases x <;> rfl
@[simp] theorem Ctx.mapStrm_saving (c : Ctx) (x : StreamId) (f : Strm → Strm) : (c.mapStrm x f).saving = c.saving := by cases x <;> rfl
@[simp] theorem Ctx.mapStrm_forcedCtr (c : Ctx) (x : StreamId) (f : Strm → Strm) : (c.mapStrm x f).forcedCtr = c.forcedCtr := by cases x <;> rfl
@[simp] theorem Ctx.mapStrm_dlSeen (c : Ctx) (x : StreamId) (f : Strm → Strm) : (c.mapStrm x f).dlSeen = c.dlSeen := by cases x <;> rfl
@[simp] theorem Ctx.mapStrm_abandoned (c : Ctx) (x : StreamId) (f : Strm → Strm) : (c.mapStrm x f).abandoned = c.abandoned := by cases x <;> rfl
@[simp] theorem Ctx.mapStrm_tagsAtStop (c : Ctx) (x : StreamId) (f : Strm → Strm) : (c.mapStrm x f).tagsAtStop = c.tagsAtStop := by cases x <;> rfl
@[simp] theorem Ctx.mapStrm_priv (c : Ctx) (x : StreamId) (f : Strm → Strm) : (c.mapStrm x f).priv = c.priv := by cases x <;> rfl
@[simp] theorem Ctx.mapStrm_view (c : Ctx) (x : StreamId) (f : Strm → Strm) : (c.mapStrm x f).view = c.view := by cases x <;> rfl
@[simp] theorem Ctx.mapStrm_accView (c : Ctx) (x : StreamId) (f : Strm → Strm) : (c.mapStrm x f).accView = c.accView := by cases x <;> rfl
@[simp] theorem Ctx.mapStrm_acq (c : Ctx) (x : StreamId) (f : Strm → Strm) : (c.mapStrm x f).acq = c.acq := by cases x <;> rfl
@[simp] theorem Ctx.mapStrm_asid (c : Ctx) (x : StreamId) (f : Strm → Strm) : (c.mapStrm x f).asid = c.asid := by cases x <;> rfl
@[simp] theorem Ctx.mapStrm_vmid (c : Ctx) (x : StreamId) (f : Strm → Strm) : (c.mapStrm x f).vmid = c.vmid := by cases x <;> rfl
@[simp] theorem Ctx.mapStrm_s1Root (c : Ctx) (x : StreamId) (f : Strm → Strm) : (c.mapStrm x f).s1Root = c.s1Root := by cases x <;> rfl
@[simp] theorem Ctx.mapStrm_s2Root (c : Ctx) (x : StreamId) (f : Strm → Strm) : (c.mapStrm x f).s2Root = c.s2Root := by cases x <;> rfl
@[simp] theorem Ctx.mapStrm_uRoot (c : Ctx) (x : StreamId) (f : Strm → Strm) : (c.mapStrm x f).uRoot = c.uRoot := by cases x <;> rfl
@[simp] theorem Ctx.mapStrm_locked (c : Ctx) (x : StreamId) (f : Strm → Strm) : (c.mapStrm x f).locked = c.locked := by cases x <;> rfl
@[simp] theorem Ctx.mapStrm_lockedA (c : Ctx) (x : StreamId) (f : Strm → Strm) : (c.mapStrm x f).lockedA = c.lockedA := by cases x <;> rfl
@[simp] theorem Ctx.mapStrm_recPage (c : Ctx) (x : StreamId) (f : Strm → Strm) : (c.mapStrm x f).recPage = c.recPage := by cases x <;> rfl
@[simp] theorem Ctx.mapStrm_recVa (c : Ctx) (x : StreamId) (f : Strm → Strm) : (c.mapStrm x f).recVa = c.recVa := by cases x <;> rfl
@[simp] theorem Ctx.mapStrm_lastTsc (c : Ctx) (x : StreamId) (f : Strm → Strm) : (c.mapStrm x f).lastTsc = c.lastTsc := by cases x <;> rfl

/-! ## Registers and streams read back -/

@[simp] theorem Ctx.strm_setStrm_same (c : Ctx) (x : StreamId) (t : Strm) : (c.setStrm x t).strm x = t := by cases x <;> rfl
theorem Ctx.strm_setStrm_ne (c : Ctx) {x y : StreamId} (t : Strm) (h : y ≠ x) : (c.setStrm x t).strm y = c.strm y := by
  cases x <;> cases y <;> first | rfl | exact absurd rfl h
@[simp] theorem Ctx.strm_mapStrm_same (c : Ctx) (x : StreamId) (f : Strm → Strm) : (c.mapStrm x f).strm x = f (c.strm x) := by cases x <;> rfl
theorem Ctx.strm_mapStrm_ne (c : Ctx) {x y : StreamId} (f : Strm → Strm) (h : y ≠ x) : (c.mapStrm x f).strm y = c.strm y := by
  cases x <;> cases y <;> first | rfl | exact absurd rfl h

@[simp] theorem rdS_zero (c : Ctx) : rdS c 0 = 0#64 := rfl
@[simp] theorem rdG_zero (c : Ctx) : rdG c 0 = 0#64 := rfl

/-- An s register reads as it was written; s0 reads as zero; the others keep their values. -/
theorem rdS_putS (c : Ctx) (d r : SReg) (v : W64) : rdS (putS c d v) r = if r = d ∧ d ≠ 0 then v else rdS c r := by
  unfold rdS putS
  by_cases hd : d = 0
  · simp [hd]
  · by_cases hr : r = 0
    · have : ¬ r = d := fun h => hd (h ▸ hr)
      simp_all
    · by_cases h : r = d
      · simp_all
      · have hv : d.val ≠ r.val := fun e => h (Fin.ext e.symm)
        simp [h, hr, hd, Vector.getElem_set_ne, hv]

theorem rdG_putG (c : Ctx) (d r : GReg) (v : W64) : rdG (putG c d v) r = if r = d ∧ d ≠ 0 then v else rdG c r := by
  unfold rdG putG
  by_cases hd : d = 0
  · simp [hd]
  · by_cases hr : r = 0
    · have : ¬ r = d := fun h => hd (h ▸ hr)
      simp_all
    · by_cases h : r = d
      · simp_all
      · have hv : d.val ≠ r.val := fun e => h (Fin.ext e.symm)
        simp [h, hr, hd, Vector.getElem_set_ne, hv]

theorem rdF_putF (c : Ctx) (d r : FReg) (v : W32) : rdF (putF c d v) r = if r = d then v else rdF c r := by
  unfold rdF putF
  by_cases h : r = d
  · simp [h]
  · have hv : d.val ≠ r.val := fun e => h (Fin.ext e.symm)
    simp [h, Vector.getElem_set_ne, hv]

theorem rdL_putL (c : Ctx) (d r : LReg) (v : W64) : rdL (putL c d v) r = if r = d then v else rdL c r := by
  unfold rdL putL
  by_cases h : r = d
  · simp [h]
  · have hv : d.val ≠ r.val := fun e => h (Fin.ext e.symm)
    simp [h, Vector.getElem_set_ne, hv]

theorem rdV_putV (c : Ctx) (d r : VReg) (v : Row) : rdV (putV c d v) r = if r = d then v else rdV c r := by
  unfold rdV putV
  by_cases h : r = d
  · simp [h]
  · have hv : d.val ≠ r.val := fun e => h (Fin.ext e.symm)
    simp [h, Vector.getElem_set_ne, hv]

end Sys2Proof.Machine
end

