-- ==== Sys2Proof/Laws/Frame.lean ====
section
/-!
SUPPORT. When every byte reads as before: a step that changes only registers, streams, queues or pending results of the context whose turn it is.
-/
namespace Sys2Proof.Machine

open Sys2Proof.Safety

/-- What a context's reads of memory depend on. -/
def SameReader (c d : Ctx) : Prop :=
  d.priv = c.priv ∧ d.view = c.view ∧ d.accView = c.accView ∧ d.vrank = c.vrank ∧ d.nodeIdx = c.nodeIdx ∧ d.nodeDie = c.nodeDie ∧ d.vmid = c.vmid ∧
  d.strC.ord.a = c.strC.ord.a ∧ d.launch = c.launch

theorem plainCell_congr {m : Mem} {c d : Ctx} (h : SameReader c d) (vis : List Priv) (x : Nat) :
    plainCell m d vis x = plainCell m c vis x := by
  obtain ⟨_, h2, _, _, _, _, _, _, h9⟩ := h
  have hc : viewCell m d x = viewCell m c x := by unfold viewCell; rw [h2]
  have hv : viewVer d x = viewVer c x := by unfold viewVer; rw [h2]
  have ho : outdated m d x = outdated m c x := by funext p; unfold outdated viewPos; rw [hv, h9]
  unfold plainCell viewSeen
  rw [hc, hv, ho]

theorem pubAccs_congr {m : Mem} {c d : Ctx} (h : SameReader c d) (cell : Nat) (seen : List Nat) :
    pubAccs m d cell seen = pubAccs m c cell seen := by
  obtain ⟨_, _, h3, _⟩ := h
  simp only [pubAccs, h3]

theorem privAccs_congr {s t : State} {c d : Ctx} (hr : t.rank = s.rank) (h : SameReader c d) (vis : List Priv) (cell : Nat) :
    privAccs t d vis cell = privAccs s c vis cell := by
  obtain ⟨_, _, _, h4, h5, h6, _⟩ := h
  simp only [privAccs, hr, h4, h5, h6]

theorem accsOf_congr {s t : State} {c d : Ctx} (hm : t.mem = s.mem) (hr : t.rank = s.rank) (h : SameReader c d) (vis : List Priv) (cell : Nat) :
    accsOf t d vis cell = accsOf s c vis cell := by
  unfold accsOf
  rw [hm, plainCell_congr h, pubAccs_congr h, privAccs_congr hr h]

theorem parkedMe_congr {c d : Ctx} (h : SameReader c d) (r : List Ctx) (v : Nat) :
    (((d :: r).filter (·.vmid == v)).flatMap fun e => e.priv.filter (·.parked.isSome)).length =
    (((c :: r).filter (·.vmid == v)).flatMap fun e => e.priv.filter (·.parked.isSome)).length := by
  obtain ⟨h1, _, _, _, _, _, h7, _⟩ := h
  simp only [List.filter, h7]
  split <;> simp [h1]

theorem compRecord_congr {s t : State} (ho : OnlyMe s t) (h : SameReader s.me t.me) (p : Part) : compRecord t p = compRecord s p := by
  have hc : t.ctxs = t.me :: s.ring := by rw [ho]; rfl
  have hb : demotedOf t p = demotedOf s p := by rw [ho]; rfl
  have hk : t.rank = s.rank := by rw [ho]
  have hf : t.foreign = s.foreign := by rw [ho]
  have hd : dieFree t (p.dies.headD 0) = dieFree s (p.dies.headD 0) := by rw [ho]; rfl
  have hs : s.ctxs = s.me :: s.ring := rfl
  simp only [compRecord, hc, hb, hk, hd, hf, hs, parkedMe_congr h s.ring p.vmid]

theorem recordByte_congr {s t : State} (ho : OnlyMe s t) (h : SameReader s.me t.me) (x : Nat) : recordByte t x = recordByte s x := by
  have hp : ∀ v, t.part? v = s.part? v := fun v => by rw [ho]; rfl
  unfold recordByte
  rw [hp]
  split
  · rfl
  · rw [compRecord_congr ho h]

theorem readCell_congr {s t : State} (ho : OnlyMe s t) (h : SameReader s.me t.me) (vis : List Priv) (x : Nat) :
    readCell t t.me vis x = readCell s s.me vis x := by
  have hm : t.mem = s.mem := by rw [ho]
  have hk : t.rank = s.rank := by rw [ho]
  have ha : ∀ k, accsOf t t.me vis k = accsOf s s.me vis k := fun k => accsOf_congr hm hk h vis k
  have hq : ∀ y, plainCell t.mem t.me vis y = plainCell s.mem s.me vis y := fun y => by rw [hm, plainCell_congr h]
  unfold readCell
  simp only [recordByte_congr ho h, ha, hq]

/-- A step that changes nothing but registers, streams, queues and pending results of its context changes no byte. -/
theorem sameBytes_of_onlyMe {s t : State} (ho : OnlyMe s t) (h : SameReader s.me t.me) : SameBytes s t := by
  intro x
  refine ⟨by rw [ho], ?_⟩
  have hv : visC t.me = visC s.me := by
    obtain ⟨h1, _, _, _, _, _, _, h8, _⟩ := h
    unfold visC; rw [h1, h8]
  rw [hv, readCell_congr ho h]

end Sys2Proof.Machine
end

