-- ==== Sys2Proof/Laws/Mem.lean ====
section
/-!
SUPPORT. Laws of base memory: reading after writing, and that every operation on it keeps the canonical form.
-/
namespace Sys2Proof.Machine

/-! ## The canonical form -/

theorem above_mono {x y : Nat} (h : x ≤ y) : ∀ {l : List Host.Cell}, above y l = true → above x l = true
  | [], _ => rfl
  | (a, _) :: r, hl => by
    simp only [above, Bool.and_eq_true, decide_eq_true_eq] at hl ⊢
    exact ⟨by omega, above_mono h hl.2⟩

theorem above_putCell {x y : Nat} {b : Byte} (h : x < y) :
    ∀ {l : List Host.Cell}, above x l = true → above x (putCell y b l) = true
  | [], _ => by simp only [putCell]; split <;> simp [above, h]
  | (a, c) :: r, hl => by
    simp only [above, Bool.and_eq_true, decide_eq_true_eq] at hl
    simp only [putCell]
    split
    · split <;> simp [above, h, hl.1, hl.2]
    · split
      · split
        · exact hl.2
        · simp [above, h, hl.2]
      · simp [above, hl.1, above_putCell h hl.2]

theorem cellsOk_putCell (x : Nat) (b : Byte) :
    ∀ {l : List Host.Cell}, cellsOk l = true → cellsOk (putCell x b l) = true
  | [], _ => by simp only [putCell]; split <;> simp_all [cellsOk, above]
  | (a, c) :: r, hl => by
    simp only [cellsOk, Bool.and_eq_true] at hl
    obtain ⟨⟨hc, ha⟩, hr⟩ := hl
    simp only [putCell]
    split
    · rename_i hx
      split
      · simp [cellsOk, hc, ha, hr]
      · simp_all [cellsOk, above, above_mono (Nat.le_of_lt hx) ha]
    · split
      · rename_i hx
        split
        · exact hr
        · simp_all [cellsOk]
      · have hax : a < x := by omega
        simp [cellsOk, hc, above_putCell hax ha, cellsOk_putCell x b hr]

theorem cellsOk_putCells : ∀ (bs : List Byte) (x : Nat) {l : List Host.Cell},
    cellsOk l = true → cellsOk (putCells l x bs) = true
  | [], _, _, h => h
  | b :: bs, x, _, h => cellsOk_putCells bs (x + 1) (cellsOk_putCell x b h)

theorem above_filter (x : Nat) (p : Host.Cell → Bool) : ∀ {l : List Host.Cell}, above x l = true → above x (l.filter p) = true
  | [], _ => rfl
  | (a, b) :: r, h => by
    simp only [above, Bool.and_eq_true, decide_eq_true_eq] at h
    simp only [List.filter]
    split
    · simp [above, h.1, above_filter x p h.2]
    · exact above_filter x p h.2

theorem cellsOk_filter (p : Host.Cell → Bool) : ∀ {l : List Host.Cell}, cellsOk l = true → cellsOk (l.filter p) = true
  | [], _ => rfl
  | (a, b) :: r, h => by
    simp only [cellsOk, Bool.and_eq_true] at h
    simp only [List.filter]
    split
    · simp [cellsOk, h.1.1, above_filter a p h.1.2, cellsOk_filter p h.2]
    · exact cellsOk_filter p h.2

/-- Cells put one after another keep the canonical form. -/
theorem cellsOk_foldPut {α : Type} (f : α → Nat) (g : α → Byte) : ∀ (xs : List α) {l : List Host.Cell},
    cellsOk l = true → cellsOk (xs.foldl (fun l a => putCell (f a) (g a) l) l) = true
  | [], _, h => h
  | a :: xs, _, h => cellsOk_foldPut f g xs (cellsOk_putCell (f a) (g a) h)

/-! ## Reading after writing -/

theorem getCell_above {x : Nat} : ∀ {l : List Host.Cell}, above x l = true → getCell x l = 0#8
  | [], _ => rfl
  | (a, b) :: r, h => by
    simp only [above, Bool.and_eq_true, decide_eq_true_eq] at h
    have : a ≠ x := by omega
    simp [getCell, this, getCell_above h.2]

/-- A byte reads as it was last written. -/
theorem getCell_putCell_same (x : Nat) (b : Byte) : ∀ {l : List Host.Cell}, cellsOk l = true → getCell x (putCell x b l) = b
  | [], _ => by simp only [putCell]; split <;> simp_all [getCell]
  | (a, c) :: r, h => by
    simp only [cellsOk, Bool.and_eq_true] at h
    obtain ⟨⟨_, ha⟩, hr⟩ := h
    simp only [putCell]
    split
    · rename_i hx
      split
      · have : a ≠ x := by omega
        simp_all [getCell, getCell_above (above_mono (Nat.le_of_lt hx) ha)]
      · simp [getCell]
    · split
      · rename_i hx
        subst hx
        split
        · simp_all [getCell_above ha]
        · simp [getCell]
      · have : a ≠ x := by omega
        simp [getCell, this, getCell_putCell_same x b hr]

/-- A write of one byte leaves every other byte as it was. -/
theorem getCell_putCell_ne {x y : Nat} (b : Byte) (h : y ≠ x) : ∀ (l : List Host.Cell), getCell y (putCell x b l) = getCell y l
  | [] => by simp only [putCell]; split <;> simp [getCell, h.symm]
  | (a, c) :: r => by
    simp only [putCell]
    split
    · split <;> simp [getCell, h.symm]
    · split
      · rename_i hx
        subst hx
        split <;> simp [getCell, h.symm]
      · simp [getCell, getCell_putCell_ne b h r]

/-- Bytes outside a written range are as they were. -/
theorem getCell_putCells_out {y : Nat} : ∀ (bs : List Byte) (x : Nat) (l : List Host.Cell),
    y < x ∨ x + bs.length ≤ y → getCell y (putCells l x bs) = getCell y l
  | [], _, _, _ => rfl
  | b :: bs, x, l, h => by
    simp only [List.length_cons] at h
    rw [putCells, getCell_putCells_out bs (x + 1) _ (by omega), getCell_putCell_ne b (by omega)]

/-- Bytes inside a written range are those written. -/
theorem getCell_putCells_in {y : Nat} : ∀ (bs : List Byte) (x : Nat) {l : List Host.Cell}, cellsOk l = true →
    x ≤ y → y < x + bs.length → getCell y (putCells l x bs) = bs.getD (y - x) 0#8
  | [], x, _, _, h1, h2 => by simp at h2; omega
  | b :: bs, x, l, hl, h1, h2 => by
    simp only [List.length_cons] at h2
    rw [putCells]
    by_cases hy : y = x
    · subst hy
      rw [getCell_putCells_out bs (y + 1) _ (by omega), getCell_putCell_same y b hl]
      simp
    · rw [getCell_putCells_in bs (x + 1) (cellsOk_putCell x b hl) (by omega) (by omega)]
      obtain ⟨k, hk⟩ : ∃ k, y - x = k + 1 := ⟨y - x - 1, by omega⟩
      have : y - (x + 1) = k := by omega
      rw [hk, this]
      simp

/-! ## The operations on memory -/

theorem wf_writeBases {m : Mem} (x : Nat) (bs : List Byte) (h : m.wf = true) : (writeBases m x bs).wf = true :=
  cellsOk_putCells bs x h

theorem wf_poisonRange {m : Mem} (x n : Nat) (h : m.wf = true) : (poisonRange m x n).wf = true := h

theorem wf_writeEntry {m : Mem} (rank pa : Nat) (e : W64) (h : m.wf = true) : (writeEntry m rank pa e).wf = true :=
  wf_writeBases _ _ h

/-- Writes one after another keep the canonical form. -/
theorem wf_foldWrites {α : Type} (f : Mem → α → Mem) (hf : ∀ m a, m.wf = true → (f m a).wf = true) :
    ∀ (xs : List α) {m : Mem}, m.wf = true → (xs.foldl f m).wf = true
  | [], _, h => h
  | a :: xs, m, h => wf_foldWrites f hf xs (hf m a h)

theorem readBase_writeBases_out {m : Mem} {x y : Nat} {bs : List Byte} (h : y < x ∨ x + bs.length ≤ y) :
    readBase (writeBases m x bs) y = readBase m y := getCell_putCells_out bs x m.base h

theorem readBase_writeBases_in {m : Mem} {x y : Nat} {bs : List Byte} (hm : m.wf = true) (h1 : x ≤ y) (h2 : y < x + bs.length) :
    readBase (writeBases m x bs) y = bs.getD (y - x) 0#8 := getCell_putCells_in bs x hm h1 h2

/-- A range reads back as it was written. -/
theorem readBases_writeBases {m : Mem} (x : Nat) (bs : List Byte) (hm : m.wf = true) :
    readBases (writeBases m x bs) x bs.length = bs := by
  apply List.ext_getElem
  · simp [readBases, readCells]
  · intro i h1 h2
    simp only [readBases, readCells, List.getElem_map, List.getElem_range]
    have := readBase_writeBases_in (bs := bs) (x := x) (y := x + i) hm (by omega) (by omega)
    simp only [readBase] at this
    simp [this, h2]

/-- Bytes of a number, read back. -/
theorem leNat_leBytes : ∀ (n x : Nat), leNat (leBytes n x) = x % 256 ^ n
  | 0, x => by simp [leBytes, leNat, Nat.mod_one]
  | n + 1, x => by
    simp only [leBytes, leNat, leNat_leBytes n, BitVec.toNat_ofNat]
    rw [show 256 ^ (n + 1) = 256 * 256 ^ n by rw [Nat.pow_succ, Nat.mul_comm], Nat.mod_mul]

theorem length_leBytes : ∀ (n x : Nat), (leBytes n x).length = n
  | 0, _ => rfl
  | n + 1, x => by simp [leBytes, length_leBytes n]

end Sys2Proof.Machine
end

