-- ==== Sys2Proof/Laws/Ops.lean ====
section
/-!
SUPPORT. One lemma for each shared operation that says all it can do: results, retiring, transfers, queues, loops, traps.
-/
namespace Sys2Proof.Machine

open Sys2Proof.Safety

/-! ## Results and retiring -/

/-- What an instruction with one register result leaves: it retired, nothing outside its context changed, every byte reads as before. -/
theorem sameBytes_regs {s t : State} (ho : OnlyMe s t)
    (h : t.me.priv = s.me.priv ∧ t.me.view = s.me.view ∧ t.me.accView = s.me.accView ∧ t.me.vrank = s.me.vrank ∧ t.me.nodeIdx = s.me.nodeIdx ∧
      t.me.nodeDie = s.me.nodeDie ∧ t.me.vmid = s.me.vmid ∧ t.me.strC.ord.a = s.me.strC.ord.a ∧ t.me.launch = s.me.launch) : SameBytes s t := sameBytes_of_onlyMe ho h

/-- What changes only its own context may follow what does. -/
theorem onlyMe_trans {s t u : State} (h : OnlyMe s t) (k : OnlyMe t u) : OnlyMe s u := by
  unfold OnlyMe at h k ⊢; rw [k, h]

theorem onlyMe_pendAt (due : Nat) (w : Land) (s : State) : OnlyMe s (pendAt due w s) := rfl

theorem onlyMe_retire (x : StreamId) (n : Nat) (s : State) : OnlyMe s (retire x n s) := rfl

theorem retire_spec (x : StreamId) (n : Nat) (s : State) :
    Ran x n s (retire x n s) ∧ OnlyMe s (retire x n s) ∧ (retire x n s).seqs = s.seqs ∧ ButStream x s.me (retire x n s).me ∧ SameBytes s (retire x n s) := by
  have ho := onlyMe_retire x n s
  refine ⟨⟨rfl, by cases x <;> rfl⟩, ho, rfl, by cases x <;> rfl, sameBytes_regs ho ?_⟩
  cases x <;> exact ⟨rfl, rfl, rfl, rfl, rfl, rfl, rfl, rfl, rfl⟩

/-- A jump: the target, and the loops whose bodies hold it. -/
theorem jump_spec (x : StreamId) (a : W64) (s : State) :
    Went x a s (jump x a s) ∧ OnlyMe s (jump x a s) ∧ (jump x a s).seqs = s.seqs ∧ ButStream x s.me (jump x a s).me ∧ SameBytes s (jump x a s) := by
  have ho : OnlyMe s (jump x a s) := rfl
  refine ⟨?_, ho, rfl, by cases x <;> rfl, sameBytes_regs ho ?_⟩
  · cases x <;> exact ⟨rfl, rfl, rfl, rfl, rfl, rfl, rfl⟩
  · cases x <;> exact ⟨rfl, rfl, rfl, rfl, rfl, rfl, rfl, rfl, rfl⟩

/-- An instruction whose one effect is a result that is to land in a general register of the C stream. -/
theorem retire_wrS_spec (d : SReg) (v : W64) (lat n : Nat) (s : State) :
    Ran .c n s (retire .c n (wrS d v lat s)) ∧ GetsS d v lat s (retire .c n (wrS d v lat s)) ∧ OnlyMe s (retire .c n (wrS d v lat s)) ∧
    (retire .c n (wrS d v lat s)).me = { s.me with
      s := (retire .c n (wrS d v lat s)).me.s, pend := (retire .c n (wrS d v lat s)).me.pend, strC := (retire .c n (wrS d v lat s)).me.strC } ∧
    SameBytes s (retire .c n (wrS d v lat s)) := by
  have ho : OnlyMe s (retire .c n (wrS d v lat s)) := onlyMe_trans (onlyMe_pendAt _ _ s) (onlyMe_retire .c n _)
  have hb := sameBytes_regs ho ⟨rfl, rfl, rfl, rfl, rfl, rfl, rfl, rfl, rfl⟩
  refine ⟨⟨rfl, rfl⟩, ⟨rfl, ?_⟩, ho, rfl, hb⟩
  unfold wrS
  rfl

/-- An instruction whose one effect is a result that is to land in a general register of the A stream. -/
theorem retire_wrG_spec (d : GReg) (v : W64) (lat n : Nat) (s : State) :
    Ran .a n s (retire .a n (wrG d v lat s)) ∧ GetsG d v lat s (retire .a n (wrG d v lat s)) ∧ OnlyMe s (retire .a n (wrG d v lat s)) ∧
    (retire .a n (wrG d v lat s)).me = { s.me with
      g := (retire .a n (wrG d v lat s)).me.g, pend := (retire .a n (wrG d v lat s)).me.pend, strA := (retire .a n (wrG d v lat s)).me.strA } ∧
    SameBytes s (retire .a n (wrG d v lat s)) := by
  have ho : OnlyMe s (retire .a n (wrG d v lat s)) := onlyMe_trans (onlyMe_pendAt _ _ s) (onlyMe_retire .a n _)
  have hb := sameBytes_regs ho ⟨rfl, rfl, rfl, rfl, rfl, rfl, rfl, rfl, rfl⟩
  refine ⟨⟨rfl, rfl⟩, ⟨rfl, ?_⟩, ho, rfl, hb⟩
  unfold wrG
  rfl

/-- Flags of the C stream are to land, or with nf nothing changes (R110). -/
theorem raiseC_spec (nf : Bool) (f : Flags) (lat : Nat) (s : State) :
    raiseC nf f lat s = if nf then s else pendAt (s.clock + lat) (.fflags f) s := rfl

/-- A result that lands: the register gets it, s0 and g0 discard it, FFLAGS gather flags (R23, R104, R105). -/
theorem landOne_spec (due seq : Nat) (s : State) :
    (∀ d v, landOne ⟨due, seq, .s d v⟩ s = s.withMe (putS s.me d v)) ∧ (∀ d v, landOne ⟨due, seq, .g d v⟩ s = s.withMe (putG s.me d v)) ∧
    (∀ d v, landOne ⟨due, seq, .f d v⟩ s = s.withMe (putF s.me d v)) ∧ (∀ d v, landOne ⟨due, seq, .v d v⟩ s = s.withMe (putV s.me d v)) ∧
    ∀ f, landOne ⟨due, seq, .fflags f⟩ s = s.withMe (orFflags s.me f) := ⟨fun _ _ => rfl, fun _ _ => rfl, fun _ _ => rfl, fun _ _ => rfl, fun _ => rfl⟩

/-! ## Queues -/

/-- A push: appended, or the queue is full (R21, R126). -/
theorem pushTo_spec (x : StreamId) (q : QNo) (v : W64) (s : State) :
    pushTo x q v s = if (s.me.queue q).full s.cycle = true then queueBlocked x s
      else .next (retire x 1 (s.withMe (s.me.setQueue q ((s.me.queue q).push v s.cycle)))) := rfl

/-- A blocked queue: a wait in a queued context, an illegal dynamic combination in a timed one (R126). -/
theorem queueBlocked_spec (x : StreamId) (s : State) :
    (s.me.timed = true → queueBlocked x s = .next (takeTrap ((exIllegal s x).on x) s)) ∧
    (s.me.timed = false → queueBlocked x s = .next { s with last := .waiting }) := by
  constructor <;> intro h <;> unfold queueBlocked <;> rw [h] <;> rfl

/-- What pops goes on with the oldest entry when it can be popped, else the queue blocks (R21). -/
theorem withFront_spec (x : StreamId) (q : QNo) (f : W64 → State → Ans) (s : State) :
    (∀ v, AtFront s q v → withFront x q f s = f v (s.withMe (popped s q))) ∧
    ((s.me.queue q).front? s.cycle = none → withFront x q f s = queueBlocked x s) := by
  constructor
  · intro v h; unfold withFront; rw [show (s.me.queue q).front? s.cycle = some v from h]; rfl
  · intro h; unfold withFront; rw [h]

/-! ## Transfers and loops -/

/-- A conditional branch is the jump or the retirement (R114). -/
theorem branchIf_spec (x : StreamId) (c : Bool) (a : W64) (s : State) :
    branchIf x c a s = .next (if c then jump x a s else retire x 1 s) := rfl

/-- A loop instruction: a fifth loop, passed over, or opened (R116). -/
theorem loopWith_spec (x : StreamId) (n : W64) (o : BitVec 12) (s : State) :
    (4 ≤ (s.me.strm x).loops.length → loopWith x n o s = .next (takeTrap ((exIllegal s x).on x) s)) ∧
    ((s.me.strm x).loops.length < 4 → n = 0#64 → loopWith x n o s = .next (skipLoop x (target12 (pcOf s x) o) s)) ∧
    ((s.me.strm x).loops.length < 4 → n ≠ 0#64 → loopWith x n o s = .next (openLoop x (target12 (pcOf s x) o) n s)) := by
  refine ⟨fun h => ?_, fun h k => ?_, fun h k => ?_⟩
  · unfold loopWith; dsimp only; rw [if_pos h]; rfl
  · unfold loopWith; dsimp only; rw [if_neg (by omega), if_pos k]
  · unfold loopWith; dsimp only; rw [if_neg (by omega), if_neg k]

/-! ## Traps -/

/-- Outside a handler a drain never ends the node: no fault of a landing is a double trap there (R348). -/
theorem drainOut_user {s : State} (h : s.me.sup = false) : drainOut s = drain s := by
  have hf : handlerFault s = none := by unfold handlerFault; rw [h]; rfl
  unfold drainOut; rw [hf]

/-- Taking a trap: while another turn is judged it waits in its context; in a handler it is a double trap, but for an interrupt; else the context drains and enters, or waits for what holds the drain; a drain that ends the node enters nothing (R345, R347, R348, R353). -/
theorem takeTrap_spec (t : TrapReq) (s : State) :
    (s.judging = true → takeTrap t s = { s with me := { s.me with trapWait := some t }, last := .trapped }) ∧
    (s.judging = false → (s.me.sup && t.cls != 16) = true → takeTrap t s = { doubleTrap t s with last := .trapped }) ∧
    ∀ e, e = (if s.me.timed then s else drainOut s) → s.judging = false → (s.me.sup && t.cls != 16) = false →
      (e.me.life = .vacant → takeTrap t s = { e with last := .trapped }) ∧
      (e.me.life ≠ .vacant → (!s.me.timed && workLeft e.me) = true →
        takeTrap t s = { e with me := { e.me with trapWait := some t }, last := .trapped }) ∧
      (e.me.life ≠ .vacant → (!s.me.timed && workLeft e.me) = false → takeTrap t s = { enterTrap t e with last := .trapped }) := by
  have hq : ∀ e, (if s.me.timed then s else drainOut s) = e → takeTrap t s =
      if s.judging then { s with me := { s.me with trapWait := some t }, last := .trapped }
      else if s.me.sup && t.cls != 16 then { doubleTrap t s with last := .trapped }
      else if e.me.life = .vacant then { e with last := .trapped }
      else if !s.me.timed && workLeft e.me then { e with me := { e.me with trapWait := some t }, last := .trapped }
      else { enterTrap t e with last := .trapped } := by
    rintro e rfl; rfl
  refine ⟨fun h => ?_, fun h1 h2 => ?_, fun e he h1 h2 => ⟨fun h3 => ?_, fun h3 h4 => ?_, fun h3 h4 => ?_⟩⟩
  · rw [hq _ rfl, if_pos h]
  · rw [hq _ rfl, if_neg (by rw [h1]; decide), if_pos h2]
  · rw [hq e he.symm, if_neg (by rw [h1]; decide), if_neg (by rw [h2]; decide), if_pos h3]
  · rw [hq e he.symm, if_neg (by rw [h1]; decide), if_neg (by rw [h2]; decide), if_neg h3, if_pos h4]
  · rw [hq e he.symm, if_neg (by rw [h1]; decide), if_neg (by rw [h2]; decide), if_neg h3, if_neg (by rw [h4]; decide)]

/-- A drain with nothing in flight leaves the context as it is. -/
theorem drain_quiet {s : State} (h : QuietCtx s.me) (ha : s.me.acmds = []) : drain s = s := by
  obtain ⟨h1, h2, h3, h4, h5⟩ := h
  have hr : finishRets s = s := by unfold finishRets; rw [h2]; rfl
  have hs : serveAll s = s := by unfold serveAll; rw [h5]; rfl
  have hl : landAll s = s := by
    have hq : landAll s = (serveAll s).me.pend.foldl (fun s p => landOne p s) { serveAll s with me := { (serveAll s).me with pend := [] } } := rfl
    rw [hq, hs, h3]
    have hk : ∀ c : Ctx, c.pend = [] → { c with pend := [] } = c := by rintro ⟨⟩ hc; cases hc; rfl
    rw [hk _ h3]
    rfl
  have hc : completeAllA s = s := by
    unfold completeAllA; rw [ha]
    show { s with me := { s.me with loads := [] } } = s
    have hk : ∀ c : Ctx, c.loads = [] → { c with loads := [] } = c := by rintro ⟨⟩ hc; cases hc; rfl
    rw [hk _ h4]
  have hd : drainCmds s = s := by unfold drainCmds; rw [h1]; rfl
  unfold drain
  rw [hr, hl, hc, hl, hd]

/-! ## Mailboxes, bays, nodes, partitions: what is stored is what is read -/

theorem mbx_setMbx (s : State) (m : Mbx) : (s.setMbx m).mbx m.die m.num = m := by
  unfold State.mbx State.setMbx; simp

theorem bay_setBay (s : State) (b : Bay) : (s.setBay b).bay b.die b.num = b := by
  unfold State.bay State.setBay; simp

theorem bay_setBay_ne (s : State) (b : Bay) {d n : Nat} (h : d ≠ b.die ∨ n ≠ b.num) : (s.setBay b).bay d n = s.bay d n := by
  have hb : (b.die == d && b.num == n) = false := by
    rcases h with h | h
    · simp [Ne.symm h]
    · simp [Ne.symm h]
  unfold State.bay State.setBay
  simp only [List.find?_cons, hb, List.find?_filter]
  congr 2
  funext x
  by_cases hx : (x.die == d && x.num == n) = true
  · simp only [Bool.and_eq_true, beq_iff_eq] at hx
    rcases h with h | h
    · simp [hx.1, hx.2, h]
    · simp [hx.1, hx.2, h]
  · simp [hx]

end Sys2Proof.Machine
end

