-- ==== Sys2Proof/Laws/Wf.lean ====
section
/-!
SUPPORT. Every operation that writes memory keeps its canonical form, and the state after reset has it.
-/
namespace Sys2Proof.Machine

theorem reset_wf : State.reset.mem.wf = true := rfl

/-- A fold over states keeps the form when each step does. -/
theorem foldl_wf {α : Type} (f : State → α → State) (hf : ∀ s a, s.mem.wf = true → (f s a).mem.wf = true) :
    ∀ (xs : List α) {s : State}, s.mem.wf = true → (xs.foldl f s).mem.wf = true
  | [], _, h => h
  | a :: r, _, h => foldl_wf f hf r (hf _ a h)

/-! ## Operations that leave memory's base as it is -/

theorem wrS_mem (d : SReg) (v : W64) (lat : Nat) (s : State) : (wrS d v lat s).mem = s.mem := by
  unfold wrS; exact pendAt_mem _ _ _
theorem wrF_mem (d : FReg) (v : W32) (lat : Nat) (s : State) : (wrF d v lat s).mem = s.mem := by
  unfold wrF; exact pendAt_mem _ _ _
theorem wrG_mem (d : GReg) (v : W64) (lat : Nat) (s : State) : (wrG d v lat s).mem = s.mem := by
  unfold wrG; exact pendAt_mem _ _ _
theorem wrL_mem (d : LReg) (v : W64) (s : State) : (wrL d v s).mem = s.mem := by
  unfold wrL; exact pendAt_mem _ _ _
theorem wrV_mem (d : VReg) (v : Row) (lat : Nat) (s : State) : (wrV d v lat s).mem = s.mem := by
  unfold wrV; exact pendAt_mem _ _ _
theorem raiseC_mem (nf : Bool) (f : Flags) (lat : Nat) (s : State) : (raiseC nf f lat s).mem = s.mem := by
  unfold raiseC; split
  · rfl
  · exact pendAt_mem _ _ _
theorem raiseR_mem (nf : Bool) (fs : List Flags) (lat : Nat) (s : State) : (raiseR nf fs lat s).mem = s.mem := by
  unfold raiseR; split
  · rfl
  · exact pendAt_mem _ _ _

theorem giveOrHold_mem (x : StreamId) (h : BitVec 4) (s : State) : (giveOrHold x h s).mem = s.mem := rfl

theorem finish_mem (l : Nat) (x : StreamId) (w g : BitVec 4) (k : Bool) (o : Ord) (s : State) : (finish l x w g k o s).mem = s.mem := by
  unfold finish
  split
  · rfl
  · split <;> rfl

theorem reserveFor_mem (v b : Nat) (bs : List Byte) (s : State) : (reserveFor v b bs s).1.mem = s.mem := by
  unfold reserveFor
  dsimp only
  generalize (if (s.blockOf b).demoted = true then 0 else (s.blockOf b).sectors) = held
  split
  · rfl
  · split
    · rfl
    · split <;> rfl

theorem reserveBlock_mem (v b : Nat) (s : State) : (reserveBlock v b s).1.mem = s.mem := reserveFor_mem v b _ s

theorem foldReserve_mem (g : State × Bool → Nat → Bool) (v : Nat) : ∀ (bs : List Nat) (a : State × Bool),
    (bs.foldl (fun a b => if g a b then reserveBlock v b a.1 else (a.1, false)) a).1.mem = a.1.mem
  | [], _ => rfl
  | b :: r, a => by
    rw [List.foldl_cons, foldReserve_mem g v r]
    split
    · exact reserveBlock_mem v b a.1
    · rfl

theorem placePriv_mem (comp : Bool) (p : Priv) (s : State) : (placePriv comp p s).mem = s.mem := by
  unfold placePriv
  dsimp only
  split
  · rfl
  · split
    · exact (foldReserve_mem (fun a b => a.2 && !blockParked a.1 b) s.me.vmid _ _).trans rfl
    · rfl

theorem settleShadow_mem (p : Priv) (s : State) : (settleShadow p s).mem = s.mem := by
  unfold settleShadow; split <;> rfl

theorem settleLast_mem (p : Priv) (s : State) : (settleLast p s).mem = s.mem := by
  unfold settleLast; split
  · rfl
  · split
    · exact settleShadow_mem _ _
    · rfl

theorem placeWrite_mem (comp : Bool) (p : Priv) (s : State) : (placeWrite comp p s).mem = s.mem := by
  unfold placeWrite
  rw [settleLast_mem, placePriv_mem]

theorem touchAt_mem (p : W64) (n : Nat) (s : State) : (touchAt p n s).mem = s.mem := by
  unfold touchAt; split <;> rfl

theorem tapeBytes_mem (src : PrivSrc) (a : W64) (n : Nat) (bad : List Nat) (s : State) : (tapeBytes src a n bad s).mem = s.mem := rfl

theorem foldPlace_mem (src : PrivSrc) (seen : List Nat) (ptr : W64) (comp : Bool) : ∀ (ps : List (Nat × List Byte)) (s : State),
    (ps.foldl (fun s (x, part) => placeWrite comp (mkPriv s src .plain (newCells s s.me x part) seen ptr) s) s).mem = s.mem
  | [], _ => rfl
  | (x, part) :: r, s => by rw [List.foldl_cons, foldPlace_mem src seen ptr comp r, placeWrite_mem]

theorem publishSel_base (sc : Scope) (x : StreamId) (sel : Prov → Bool) (s : State) : (publishSel sc x sel s).mem.base = s.mem.base := rfl

/-! ## Writes -/

theorem bankPut_wf (src : PrivSrc) (seen : List Nat) (ptr : W64) (x : Nat) (bs : List Byte) {s : State} (h : s.mem.wf = true) :
    (bankPut src seen ptr x bs s).mem.wf = true := wf_writeBases x bs h

theorem homeWrite_wf (x : Nat) (bs : List Byte) {s : State} (h : s.mem.wf = true) : (homeWrite x bs s).mem.wf = true := by
  unfold homeWrite; split
  · exact wf_writeBases x bs h
  · exact h

theorem performAtomic_wf (r : AtomReq) {s : State} (h : s.mem.wf = true) : (performAtomic r s).2.2.2.mem.wf = true := by
  unfold performAtomic
  dsimp only
  generalize hn : (if r.w32 = true then 4 else 8) = n
  split
  · exact h
  · exact homeWrite_wf _ _ h

theorem publishSel_wf (sc : Scope) (x : StreamId) (sel : Prov → Bool) {s : State} (h : s.mem.wf = true) : (publishSel sc x sel s).mem.wf = true := h
theorem publish_wf (sc : Scope) (x : StreamId) {s : State} (h : s.mem.wf = true) : (publish sc x s).mem.wf = true := h
theorem refresh_wf (sc : Scope) {s : State} (h : s.mem.wf = true) : (refresh sc s).mem.wf = true := h

theorem recStore_wf (x : Nat) (bs : List Byte) {s : State} (h : s.mem.wf = true) : (recStore s x bs).mem.wf = true :=
  wf_foldWrites _ (fun _ _ hm => wf_writeBases _ _ hm) _ h

theorem cmdPut_wf (c : Cmd) (x : Nat) (bs : List Byte) {s : State} (h : s.mem.wf = true) : (cmdPut c x bs s).mem.wf = true := by
  unfold cmdPut
  dsimp only
  rw [State.mapMe_mem]
  split
  · exact bankPut_wf _ _ _ x bs h
  · exact foldl_wf _ (fun s p hs => by split; exact hs; exact bankPut_wf _ _ _ _ _ hs) _ h

theorem bankWrite_wf (src : PrivSrc) (seen : List Nat) (ptr : W64) (x : Nat) (bs : List Byte) {s : State} (h : s.mem.wf = true) :
    (bankWrite src seen ptr x bs s).mem.wf = true := by
  unfold bankWrite
  split
  · split
    · exact cmdPut_wf _ _ _ h
    · exact bankPut_wf _ _ _ _ _ h
  · exact bankPut_wf _ _ _ _ _ h
  · exact bankPut_wf _ _ _ _ _ h

theorem writeAt_wf (src : PrivSrc) (seen : List Nat) (ptr : W64) (t : Trans) (bs : List Byte) {s : State} (h : s.mem.wf = true) :
    (writeAt src seen ptr t bs s).mem.wf = true := by
  unfold writeAt
  split
  · exact bankWrite_wf _ _ _ _ _ h
  · split
    · exact recStore_wf _ _ h
    · rw [foldPlace_mem]; exact h

theorem writeSegs_wf (src : PrivSrc) (seen : List Nat) (ptr : W64) : ∀ (gs : List Seg) (bs : List Byte) {s : State},
    s.mem.wf = true → (writeSegs src seen ptr gs bs s).mem.wf = true
  | [], _, _, h => h
  | g :: gs, bs, _, h => writeSegs_wf src seen ptr gs _ (writeAt_wf src seen ptr g.tr _ h)

theorem clearCell_wf (src : PrivSrc) (seen : List Nat) (ptr : W64) (t : Trans) {s : State} (h : s.mem.wf = true) :
    (clearCell src seen ptr t s).mem.wf = true := writeAt_wf _ _ _ _ _ h

theorem putRuns_wf (c : Cmd) (base : Nat) : ∀ (rs : List (Nat × Nat)) (bs : List Byte) {s : State},
    s.mem.wf = true → (putRuns c base rs bs s).mem.wf = true
  | [], _, _, h => h
  | (o, n) :: r, bs, _, h => putRuns_wf c base r _ (cmdPut_wf c _ _ h)

theorem writeRuns_wf (c : Cmd) (base : W64) : ∀ (rs : List (Nat × Nat)) (bs : List Byte) {s t : State},
    s.mem.wf = true → writeRuns c base rs bs s = .ok t → t.mem.wf = true
  | [], _, s, t, h, e => by simp only [writeRuns, Except.ok.injEq] at e; exact e ▸ h
  | (o, n) :: r, bs, s, t, h, e => by
    simp only [writeRuns] at e
    split at e
    · cases e
    · split at e
      · cases e
      · split at e
        · cases e
        · exact writeRuns_wf c base r _ (writeSegs_wf _ _ _ _ _ h) e

theorem tapeMark_wf (src : PrivSrc) (seen : List Nat) (p : W64) (k st : Nat) {s : State} (h : s.mem.wf = true) :
    (tapeMark src seen p k st s).mem.wf = true := by
  unfold tapeMark; split
  · exact h
  · exact writeSegs_wf _ _ _ _ _ (s := { s with seqs := s.seqs + 1 }) h

theorem tapeAppend_wf (x : StreamId) (src : PrivSrc) (seen : List Nat) (k n : Nat) (lay ptr : W64) (d : List PCell) {s t : State}
    (h : s.mem.wf = true) (e : tapeAppend x src seen k n lay ptr d s = .ok t) : t.mem.wf = true := by
  unfold tapeAppend at e
  dsimp only at e
  repeat' split at e
  all_goals first
    | cases e; done
    | (simp only [Except.ok.injEq] at e
       subst e
       rw [State.mapMe_mem, tapeBytes_mem]
       refine writeSegs_wf _ _ _ _ _ ?_
       first
         | exact h
         | (rw [touchAt_mem]; exact h))

theorem tapePop_wf (x : StreamId) (k : Nat) (lay ptr : W64) (n : Nat) {s : State} {r : List PCell × TapeTop × State}
    (h : s.mem.wf = true) (e : tapePop x k lay ptr n s = .ok r) : r.2.2.mem.wf = true := by
  unfold tapePop at e
  dsimp only at e
  repeat' split at e
  all_goals first
    | cases e; done
    | (simp only [Except.ok.injEq] at e; subst e; rw [State.mapMe_mem, touchAt_mem]; exact h)

/-! ## Moves of commands -/

/-- The state in which a move ends keeps the form. -/
def Mv.Wf : Mv → Prop
  | .ok s => s.mem.wf = true
  | .fault s _ => s.mem.wf = true
  | .page s _ _ => s.mem.wf = true

theorem touch_wf (gs : List Seg) {s : State} (h : s.mem.wf = true) : (s.touch gs).mem.wf = true := h

theorem touchRuns_wf (p : W64) (rs : List (Nat × Nat)) {s : State} (h : s.mem.wf = true) : (touchRuns p rs s).mem.wf = true :=
  foldl_wf _ (fun s r hs => by split <;> exact hs) _ h

theorem mvErr_wf (c : Cmd) (k : AccKind) (p : W64) (e : PErr) {s : State} (h : s.mem.wf = true) : (mvErr s c k p e).Wf := by
  unfold mvErr; split
  · exact h
  · split <;> exact h

theorem mvAll_wf (f : Nat → State → Mv) (hf : ∀ i s, s.mem.wf = true → (f i s).Wf) : ∀ (is : List Nat) {s : State},
    s.mem.wf = true → (mvAll f is s).Wf
  | [], _, h => h
  | i :: is, s, h => by
    unfold mvAll
    have := hf i s h
    cases hm : f i s with
    | ok s' => exact mvAll_wf f hf is (by rw [hm] at this; exact this)
    | fault s' g => rw [hm] at this; exact this
    | page s' d r => rw [hm] at this; exact this

theorem inRow_wf (c : Cmd) (base : W64) (runs : List (Nat × Nat)) (i : Nat) {s : State} (h : s.mem.wf = true) : (inRow c base runs i s).Wf := by
  unfold inRow; split
  · exact mvErr_wf _ _ _ _ h
  · split
    · exact h
    · exact cmdPut_wf _ _ _ (touchRuns_wf _ _ h)

theorem outRow_wf (c : Cmd) (base : W64) (runs : List (Nat × Nat)) (i : Nat) {s : State} (h : s.mem.wf = true) : (outRow c base runs i s).Wf := by
  unfold outRow; split
  · exact h
  · split
    · exact mvErr_wf _ _ _ _ h
    · rename_i e; exact writeRuns_wf c base runs _ h e

theorem mvIndexed_wf (c : Cmd) (k : AccKind) (row : W64 → State → Mv) (i : Nat) {s : State} (h : s.mem.wf = true)
    (hr : ∀ p, (row p s).Wf) : (mvIndexed c k row i s).Wf := by
  unfold mvIndexed; split
  · exact h
  · split
    · exact h
    · split
      · exact h
      · exact hr _

theorem mvBank_wf (c : Cmd) (i : Nat) {s : State} (h : s.mem.wf = true) : (mvBank c i s).Wf := by
  unfold mvBank; split
  · exact h
  · exact mvErr_wf _ _ _ _ h
  · exact putRuns_wf _ _ _ _ h

theorem expRows_wf (c : Cmd) (w : Bool) (bs : List Byte) {s : State} (h : s.mem.wf = true) : (expRows c w bs s).mem.wf = true := by
  unfold expRows
  exact foldl_wf _ (fun s i hs => by dsimp only; split; exact hs; exact cmdPut_wf _ _ _ hs) _ h

theorem mvExpand_wf (c : Cmd) {s : State} (h : s.mem.wf = true) : (mvExpand c s).Wf := by
  unfold mvExpand; dsimp only; split <;> exact expRows_wf _ _ _ h

theorem mvElts_wf (c : Cmd) (f : Nat → Nat → State → Mv) (hf : ∀ i j s, s.mem.wf = true → (f i j s).Wf) {s : State} (h : s.mem.wf = true) :
    (mvElts c f s).Wf := mvAll_wf _ (fun _ s hs => hf _ _ s hs) _ h

theorem accumulate_wf (src : PrivSrc) (seen : List Nat) (ptr : W64) (comp : Bool) (loc : Nat) (v : W32) {s : State} (h : s.mem.wf = true) :
    (accumulate src seen ptr comp loc v s).mem.wf = true := by
  unfold accumulate; rw [placePriv_mem]; exact h

theorem mvAccum_wf (c : Cmd) (i j : Nat) {s : State} (h : s.mem.wf = true) : (mvAccum c i j s).Wf := by
  unfold mvAccum; dsimp only; split
  · exact mvErr_wf _ _ _ _ h
  · split
    · exact h
    · exact accumulate_wf _ _ _ _ _ _ h

theorem mvCell_wf (c : Cmd) (i j : Nat) {s : State} (h : s.mem.wf = true) : (mvCell c i j s).Wf := by
  unfold mvCell; split
  · exact mvErr_wf _ _ _ _ h
  · split
    · exact h
    · exact cmdPut_wf _ _ _ h

theorem mvRestore_wf (c : Cmd) (i j : Nat) {s : State} (h : s.mem.wf = true) : (mvRestore c i j s).Wf := by
  unfold mvRestore; split
  · exact mvErr_wf _ _ _ _ h
  · have h1 := fun t => clearCell_wf (.cmd c.id c.tag) c.seen (adjPtr (diffPtr c i j)) t h
    dsimp only; split
    · exact mvErr_wf _ _ _ _ (h1 _)
    · rename_i e; exact writeRuns_wf c _ _ _ (h1 _) e

theorem mvRevOut_wf (c : Cmd) {s : State} (h : s.mem.wf = true) : (mvRevOut c s).Wf := by
  unfold mvRevOut
  have h1 : (if c.nextBlock % 2 = 1 then Mv.ok s else mvElts c (mvCell c) s).Wf := by
    split
    · exact h
    · exact mvElts_wf c _ (fun i j s hs => mvCell_wf c i j hs) h
  split
  · rename_i e; rw [e] at h1; split
    · exact h1
    · exact mvElts_wf c _ (fun i j s hs => mvRestore_wf c i j hs) h1
  · exact h1

theorem mvCopy_wf (c : Cmd) {s : State} (h : s.mem.wf = true) : (mvCopy c s).Wf := by
  unfold mvCopy; dsimp only; split
  · split
    · exact h
    · exact mvAll_wf _ (fun i s hs => outRow_wf _ _ _ _ hs) _ h
  · exact mvElts_wf c _ (fun i j s hs => mvAccum_wf c i j hs) h
  · exact mvRevOut_wf c h
  · split
    · exact mvAll_wf _ (fun i s hs => inRow_wf _ _ _ _ hs) _ h
    · exact mvExpand_wf c h
  · exact mvAll_wf _ (fun i s hs => outRow_wf _ _ _ _ hs) _ h
  · exact mvAll_wf _ (fun i s hs => mvBank_wf _ _ hs) _ h
  · exact mvAll_wf _ (fun i s hs => mvIndexed_wf _ _ _ _ hs fun p => inRow_wf _ _ _ _ hs) _ h
  · exact mvAll_wf _ (fun i s hs => mvIndexed_wf _ _ _ _ hs fun p => outRow_wf _ _ _ _ hs) _ h
  · exact mvAll_wf _ (fun i s hs => by exact cmdPut_wf _ _ _ hs) _ h
  · exact h

theorem faultCmd_wf (c : Cmd) (f : CmdFault) {s : State} (h : s.mem.wf = true) : (faultCmd c f s).mem.wf = true := by
  have h1 : ∀ g, ((s.dropCmd c.id).mapMe g).mem.wf = true := fun _ => h
  unfold faultCmd; dsimp only; split
  · exact tapeMark_wf _ _ _ _ _ (h1 _)
  · rw [State.mapMe_mem]; split
    · exact h1 _
    · exact tapeMark_wf _ _ _ _ _ (h1 _)
  · exact h1 _

theorem endMove_wf (c : Cmd) (b : Bool) {s0 : State} {m : Mv} (h0 : s0.mem.wf = true) (h : m.Wf) : (endMove c b s0 m).mem.wf = true := by
  cases m with
  | ok s => unfold endMove; dsimp only; split <;> exact h
  | fault s f => exact faultCmd_wf _ f h
  | page s d r => exact h0

theorem completeCopy_wf (c : Cmd) {s : State} (h : s.mem.wf = true) : (completeCopy c s).mem.wf = true :=
  endMove_wf c false h (mvCopy_wf c h)

/-! ## Flits and blocks change no memory -/

theorem pump_mem (p : Nat) : ∀ (n : Nat) (s : State), (pump p n s).mem = s.mem
  | 0, _ => rfl
  | n + 1, s => by
    unfold pump
    split
    · rfl
    · split
      · rfl
      · dsimp only; split
        · rfl
        · rw [pump_mem p n]; rfl

theorem sendOn_mem (p v : Nat) (bs : List Byte) (s : State) : (sendOn p v bs s).mem = s.mem := by
  unfold sendOn; split
  · rfl
  · exact pump_mem _ _ _

theorem sendTo_mem (r v : Nat) (bs : List Byte) (s : State) : (sendTo r v bs s).mem = s.mem := by
  unfold sendTo; split
  · rfl
  · exact sendOn_mem _ _ _ _

theorem sendCol_mem (rs : List Nat) (f : Fmt) : ∀ (l : List (Nat × Nat × List W32)) (s : State), (sendCol rs f l s).mem = s.mem
  | [], _ => rfl
  | x :: r, s => by
    show (sendCol rs f r (sendTo (rs.getD x.1 s.rank) 2 (packPayload f x.2.1 x.2.2) s)).mem = s.mem
    rw [sendCol_mem rs f r, sendTo_mem]

theorem touchRuns_mem (p : W64) : ∀ (rs : List (Nat × Nat)) (s : State), (touchRuns p rs s).mem = s.mem
  | [], _ => rfl
  | r :: rs, s => by
    have h1 : ∀ t : State, t.mem = s.mem → (touchRuns p rs t).mem = s.mem := fun t ht => (touchRuns_mem p rs t).trans ht
    show (touchRuns p rs _).mem = s.mem
    apply h1
    dsimp only
    split <;> rfl

theorem mvCollective_wf (c : Cmd) (p : PeerData) {s : State} (h : s.mem.wf = true) : (mvCollective c p s).1.Wf := by
  unfold mvCollective; dsimp only; split
  · exact h
  · split
    · exact h
    · exact mvErr_wf _ _ _ _ h
    · split
      · exact h
      · split
        · exact mvErr_wf _ _ _ _ h
        · rename_i e
          show Mem.wf (sendCol _ _ _ _).mem = true
          rw [sendCol_mem]
          exact writeRuns_wf _ _ _ _ h e

theorem completeCollective_wf (c : Cmd) (p : PeerData) {s : State} (h : s.mem.wf = true) : (completeCollective c p s).mem.wf = true :=
  endMove_wf c _ (touchRuns_wf _ _ h) (mvCollective_wf c p (touchRuns_wf _ _ h))

theorem decodeNext_mem (c : Cmd) (s : State) : (decodeNext c s).mem = s.mem := by
  have ht : (touchNext c s).mem = s.mem := touchRuns_mem _ _ _
  unfold decodeNext
  split
  · rfl
  · split
    · rfl
    · split
      · exact ht
      · exact ht

theorem decodeAll_mem : ∀ (n id : Nat) (s : State), (decodeAll n id s).mem = s.mem
  | 0, _, _ => rfl
  | n + 1, id, s => by
    unfold decodeAll; split
    · rfl
    · split
      · rfl
      · rw [decodeAll_mem n, decodeNext_mem]

/-! ## Word accesses that were let through -/

theorem keepWord_mem (w : WordReq) (l : Option WordReq) (s : State) : (keepWord w l s).mem = s.mem := rfl

theorem markReply_mem (w : WordReq) (s : State) : (markReply w s).mem = s.mem := by
  unfold markReply; split <;> rfl

theorem arrive_mem (t : Bool) (id : Nat) (what : Land) (f : Flags) (due : Nat) (s : State) : (arrive t id what f due s).mem = s.mem := by
  unfold arrive; split
  · rfl
  · dsimp only; split <;> rfl

theorem serveWord_wf (pre : State) (w : WordReq) {s : State} (h : s.mem.wf = true) : (serveWord pre w s).mem.wf = true := by
  unfold serveWord
  split
  · dsimp only; split
    · exact h
    · rw [markReply_mem, arrive_mem, keepWord_mem]; exact h
  · have h1 : ∀ x bs, ({ s with mem := writeBases s.mem x bs } : State).mem.wf = true := fun x bs => wf_writeBases x bs h
    dsimp only; split
    · exact h1 _ _
    · rw [markReply_mem]; exact h1 _ _
  · dsimp only
    rw [markReply_mem, arrive_mem, keepWord_mem]
    split
    · exact h
    · exact homeWrite_wf _ _ h

theorem serveUpTo_wf (id : Nat) : ∀ (n : Nat) {s : State}, s.mem.wf = true → (serveUpTo id n s).mem.wf = true
  | 0, _, h => h
  | n + 1, s, h => by
    unfold serveUpTo
    split
    · exact h
    · split
      · exact serveUpTo_wf id n (serveWord_wf _ _ h)
      · exact h

theorem serveAll_wf {s : State} (h : s.mem.wf = true) : (serveAll s).mem.wf = true := serveUpTo_wf _ _ h

theorem fillNow_wf (p : Pend) {s : State} (h : s.mem.wf = true) : (fillNow p s).mem.wf = true := by
  unfold fillNow
  split
  · exact serveUpTo_wf _ _ h
  · exact h

/-! ## Landing, draining, traps -/

theorem putRow_wf (x : Nat) (bs : List Byte) (r : Nat) (n : Option Nat) {s : State} (h : s.mem.wf = true) : (putRow x bs r n s).mem.wf = true := by
  have h1 := bankPut_wf (.row r) (s.me.knownBy .s s.now) 0#64 x bs h
  unfold putRow; dsimp only; split <;> exact h1

theorem landOne_wf (p : Pend) {s : State} (h : s.mem.wf = true) : (landOne p s).mem.wf = true := by
  unfold landOne
  cases p.what
  case bankRow x bs r n => exact putRow_wf _ _ _ _ h
  case mbxTry => dsimp only; split <;> exact h
  case faulted => dsimp only; split <;> exact h
  all_goals exact h

end Sys2Proof.Machine
end

