-- ==== Sys2Proof/Laws/WfSteps.lean ====
section
/-!
SUPPORT. Landing, draining, taking a trap, and the memory system's own steps keep memory's canonical form.
-/
namespace Sys2Proof.Machine

/-! ## Landing and draining -/

theorem landDue_wf (u : Nat) : ∀ (n : Nat) {s : State}, s.mem.wf = true → (landDue u n s).1.mem.wf = true
  | 0, _, h => h
  | n + 1, s, h => by
    unfold landDue
    split
    · exact h
    · rename_i q _ _
      have h0 := fillNow_wf q h
      split
      · exact h
      · dsimp only
        split
        · exact h0
        · rename_i p r _
          have h1 : ∀ g, (landOne p ((fillNow q s).mapMe g)).mem.wf = true := fun g => landOne_wf p (s := (fillNow q s).mapMe g) h0
          split
          · exact h0
          · split
            · exact h1 _
            · exact landDue_wf u n (h1 _)

theorem landAll_wf {s : State} (h : s.mem.wf = true) : (landAll s).mem.wf = true :=
  foldl_wf (fun s p => landOne p s) (fun _ p hs => landOne_wf p hs) _ (s := (serveAll s).mapMe fun c => { c with pend := [] }) (serveAll_wf h)

theorem landEarlier_wf {s : State} (h : s.mem.wf = true) : (landEarlier s).mem.wf = true := by
  unfold landEarlier; split
  · exact h
  · exact landDue_wf _ _ h

theorem completeAllA_wf {s : State} (h : s.mem.wf = true) : (completeAllA s).mem.wf = true :=
  foldl_wf (fun s a => completeACmd a s) (fun _ _ hs => hs) _ h

theorem finishRets_wf {s : State} (h : s.mem.wf = true) : (finishRets s).mem.wf = true :=
  foldl_wf (fun s r => finishRet r s) (fun _ _ hs => hs) _ h

theorem drainCmd_wf (id : Nat) {s : State} (h : s.mem.wf = true) : (drainCmd id s).mem.wf = true := by
  unfold drainCmd
  split
  · exact h
  · rename_i c _
    split
    · exact h
    · have h1 : (if c.isExp = true then decodeAll (2 ^ 20) id s else s).mem.wf = true := by
        split
        · rw [decodeAll_mem]; exact h
        · exact h
      dsimp only; split
      · exact h1
      · exact completeCopy_wf _ h1

theorem drainCmds_wf {s : State} (h : s.mem.wf = true) : (drainCmds s).mem.wf = true :=
  foldl_wf (fun s i => drainCmd i s) (fun _ _ hs => drainCmd_wf _ hs) _ h

theorem drain_wf {s : State} (h : s.mem.wf = true) : (drain s).mem.wf = true :=
  drainCmds_wf (landAll_wf (completeAllA_wf (landAll_wf (finishRets_wf h))))

/-! ## Taking a trap -/

theorem endLease_mem (l : Nat) (s : State) : (endLease l s).mem = s.mem := rfl
theorem vacate_mem (l : Nat) (s : State) : (vacate l s).mem = s.mem := rfl

theorem wakeOther_mem (s : State) (c : Ctx) : (wakeOther s c).mem = s.mem := by
  unfold wakeOther; split <;> rfl

theorem wakeDie_mem (d : Nat) (s : State) : (wakeDie d s).mem = s.mem := by
  unfold wakeDie; split <;> rfl

theorem wakeReady_mem (s : State) : (wakeReady s).mem = s.mem := by
  have h : ∀ (ds : List Nat) (t : State), (ds.foldl (fun t d => if t.nodes.any fun n => n.die == d && n.st == .ready then wakeDie d t else t) t).mem = t.mem := by
    intro ds
    induction ds with
    | nil => exact fun _ => rfl
    | cons d r ih =>
      intro t
      rw [List.foldl_cons, ih]; split
      · exact wakeDie_mem d t
      · rfl
  exact h _ s

theorem endGang_mem (d i st xr : Nat) (s : State) : (endGang d i st xr s).mem = s.mem := by
  have h1 : ∀ (ls : List Ctx) (s : State), (ls.foldl (fun s c => wakeDie c.die (wakeOther (vacate c.launch s) c)) s).mem = s.mem := by
    intro ls
    induction ls with
    | nil => exact fun _ => rfl
    | cons c r ih => exact fun s => by rw [List.foldl_cons, ih, wakeDie_mem, wakeOther_mem, vacate_mem]
  have h2 : ∀ (ls : List Ctx) (s : State), (wakeReady (ls.foldl (fun s c => wakeDie c.die (wakeOther (vacate c.launch s) c)) s)).mem = s.mem :=
    fun ls s => (wakeReady_mem _).trans (h1 ls s)
  have h3 := h2 (s.ctxs.filter fun c => c.life != .vacant && c.nodeDie == d && c.nodeIdx == i) s
  unfold endGang
  dsimp only
  revert h3
  generalize wakeReady _ = u
  intro h3
  cases u.node? d i <;> exact h3

theorem writeRecord_wf (c : W64) (i r : List Byte) {s : State} (h : s.mem.wf = true) : (writeRecord c i r s).mem.wf = true := by
  unfold writeRecord; split
  · exact h
  · exact wf_writeBases _ _ h

theorem logTrap_mem (t : TrapReq) (s : State) : (logTrap t s).mem = s.mem := by
  unfold logTrap; dsimp only; split
  · rfl
  · split <;> rfl

theorem freezeBay_mem (s : State) : (freezeBay s).mem = s.mem := by
  unfold freezeBay; split <;> rfl

theorem enterHandler_mem (v : W64) (s : State) : (enterHandler v s).mem = s.mem := by
  unfold enterHandler; split
  · exact endGang_mem _ _ _ _ _
  · rfl

theorem enterTrap_wf (t : TrapReq) {s : State} (h : s.mem.wf = true) : (enterTrap t s).mem.wf = true := by
  have h0 : (if s.me.timed then landEarlier s else s).mem.wf = true := by
    split
    · exact landEarlier_wf h
    · exact h
  unfold enterTrap
  revert h0
  generalize (if s.me.timed then landEarlier s else s) = u
  intro h0
  have h1 : ∀ c i r, (writeRecord c i r (logTrap t u)).mem.wf = true := fun c i r => writeRecord_wf c i r (by rw [logTrap_mem]; exact h0)
  have h2 : ∀ c i r g k, ((freezeBay ((writeRecord c i r (logTrap t u)).mapMe g)).mapMe k).mem.wf = true := by
    intro c i r g k
    rw [State.mapMe_mem, freezeBay_mem]; exact h1 _ _ _
  have h3 : ∀ v c i r g, (enterHandler v (freezeBay ((writeRecord c i r (logTrap t u)).mapMe g))).mem.wf = true := by
    intro v c i r g
    rw [enterHandler_mem, freezeBay_mem]; exact h1 _ _ _
  dsimp only
  cases winTrap u u.me (trapStream t) t.cls with
  | none =>
    dsimp only
    split
    · rw [wakeOther_mem, endLease_mem]; exact h2 _ _ _ _ id
    · exact h3 _ _ _ _ _
  | some d =>
    dsimp only
    split
    · rw [wakeOther_mem, endLease_mem]; exact h2 _ _ _ _ id
    · exact h3 _ _ _ _ _

theorem doubleTrap_wf (t : TrapReq) {s : State} (h : s.mem.wf = true) : (doubleTrap t s).mem.wf = true := by
  unfold doubleTrap
  dsimp only
  rw [endGang_mem]
  exact writeRecord_wf _ _ _ (s := logError 0 s.me.coreIdx s) h

theorem drainOut_wf {s : State} (h : s.mem.wf = true) : (drainOut s).mem.wf = true := by
  unfold drainOut; split
  · exact doubleTrap_wf _ h
  · exact drain_wf h

theorem takeTrap_wf (t : TrapReq) {s : State} (h : s.mem.wf = true) : (takeTrap t s).mem.wf = true := by
  have hw : ∀ e, e = (if s.me.timed then s else drainOut s) → e.mem.wf = true := by
    rintro e rfl
    split
    · exact h
    · exact drainOut_wf h
  obtain ⟨p1, p2, p3⟩ := takeTrap_spec t s
  have p3 := p3 _ rfl
  have hw := hw _ rfl
  generalize (if s.me.timed then s else drainOut s) = e at *
  have he := enterTrap_wf t hw
  have hd := doubleTrap_wf t h
  generalize doubleTrap t s = a at *
  generalize enterTrap t e = b at *
  rcases Bool.eq_false_or_eq_true s.judging with hj | hj
  · rw [p1 hj]; exact h
  rcases Bool.eq_false_or_eq_true (s.me.sup && t.cls != 16) with hs | hs
  · rw [p2 hj hs]; exact hd
  obtain ⟨q1, q2, q3⟩ := p3 hj hs
  by_cases hv : e.me.life = .vacant
  · rw [q1 hv]; exact hw
  rcases Bool.eq_false_or_eq_true (!s.me.timed && workLeft e.me) with hl | hl
  · rw [q2 hv hl]; exact hw
  · rw [q3 hv hl]; exact he

theorem consumePoison_wf (x : StreamId) (l : Nat) (p : W64) {s : State} (h : s.mem.wf = true) : (consumePoison x l p s).mem.wf = true := by
  have hd := doubleTrap_wf ⟨14, .c, 0, poisonInfo s.mem (s.me.strm x).pc l p 0xFF⟩ h
  unfold consumePoison
  dsimp only
  revert hd
  generalize doubleTrap _ s = a
  intro hd
  split
  · exact hd
  · exact h

/-! ## Acting as another context -/

theorem onLaunch_wf (n : Nat) (f : State → State) (hf : ∀ s, s.mem.wf = true → (f s).mem.wf = true) {s : State} (h : s.mem.wf = true) :
    (s.onLaunch n f).mem.wf = true := by
  unfold State.onLaunch
  split
  · exact hf s h
  · split
    · exact h
    · dsimp only
      split <;> exact hf _ h

theorem asUnit_wf (c : Ctx) (f : State → State) (hf : ∀ s, s.mem.wf = true → (f s).mem.wf = true) {s : State} (h : s.mem.wf = true) :
    (asUnit c f s).mem.wf = true := by
  unfold asUnit
  dsimp only
  split <;> exact hf _ h

theorem unitReserve_mem (cs : List PCell) (s : State) : (unitReserve cs s).1.mem = s.mem := by
  unfold unitReserve
  have h : ∀ (bs : List Nat) (a : State × Bool), (bs.foldl (fun (acc : State × Bool) b => match compPart acc.1 (b * 512) with
      | none => acc
      | some p =>
        if acc.2 && !blockParked acc.1 b then reserveFor p.vmid b (overlay b cs (blockContent acc.1 b)) acc.1 else (acc.1, false)) a).1.mem = a.1.mem := by
    intro bs
    induction bs with
    | nil => exact fun _ => rfl
    | cons b r ih =>
      intro a
      rw [List.foldl_cons, ih]
      split
      · rfl
      · split
        · exact reserveFor_mem _ _ _ _
        · rfl
  exact h _ _

theorem unitWrite_wf (k : List Nat) (p : W64) (ss : List Seg) (bs : List Byte) {s : State} (h : s.mem.wf = true) :
    (unitWrite k p ss bs s).mem.wf = true := by
  unfold unitWrite
  refine writeSegs_wf _ _ _ _ _ ?_
  split
  · rw [unitReserve_mem]; exact h
  · exact h

theorem unitWrites_wf (c : Ctx) (k : List Nat) (ws : List (W64 × List Byte)) {s : State} (h : s.mem.wf = true) :
    (unitWrites c k ws s).mem.wf = true := by
  refine asUnit_wf _ _ (fun t ht => ?_) h
  refine publishSel_wf _ _ _ (foldl_wf _ (fun u w hu => ?_) ws ht)
  split
  · exact hu
  · split
    · exact unitWrite_wf _ _ _ _ hu
    · exact hu

/-! ## The memory system -/

theorem foldByte_wf (v : Ver) (x : PCell) {m : Mem} (h : m.wf = true) : (foldByte v x m).wf = true := cellsOk_putCell x.loc x.byte h

theorem foldVersions_wf {s : State} (h : s.mem.wf = true) : (foldVersions s).mem.wf = true := by
  unfold foldVersions
  dsimp only
  refine wf_foldWrites _ (fun m v hm => ?_) _ h
  split
  · exact hm
  · refine (wf_foldWrites _ (fun q x hq => ?_) _ hm : Mem.wf _ = true)
    repeat' split
    all_goals first
      | exact hq
      | exact foldByte_wf _ _ hq

theorem foldCell_wf (e : Nat × Nat) {s : State} (h : s.mem.wf = true) : (foldCell s e).mem.wf = true := by
  unfold foldCell
  dsimp only
  show cellsOk (if e.2 = 0 then _ else s.mem : Mem).base = true
  split
  · exact cellsOk_putCells _ _ h
  · exact h

theorem foldAccs_wf {s : State} (h : s.mem.wf = true) : (foldAccs s).mem.wf = true :=
  foldl_wf foldCell (fun _ e hs => foldCell_wf e hs) _ h

theorem discardBlock_wf (b : Nat) {m : Mem} (h : m.wf = true) : (discardBlock b m).wf = true := by
  unfold discardBlock Mem.wf
  dsimp only
  generalize List.replicate 512 0#8 = l
  exact cellsOk_putCells l _ h

theorem claimBlock_wf (p : Nat) {s : State} (h : s.mem.wf = true) : (claimBlock p s).mem.wf = true := by
  unfold claimBlock
  split
  · exact h
  · split
    · exact h
    · exact discardBlock_wf _ h

theorem writePtes_wf (ws : List PteWrite) {s : State} (h : s.mem.wf = true) : (writePtes ws s).mem.wf = true :=
  wf_foldWrites _ (fun _ _ hm => wf_writeBases _ _ hm) ws h

theorem settleCmd_wf (id : Nat) {s : State} (h : s.mem.wf = true) : (settleCmd id s).mem.wf = true := by
  unfold settleCmd
  split
  · exact h
  · rename_i c _
    split
    · exact h
    · have h1 : (if c.isExp = true then decodeAll (2 ^ 20) id s else s).mem.wf = true := by
        split
        · rw [decodeAll_mem]; exact h
        · exact h
      dsimp only; split
      · exact h1
      · exact completeCopy_wf _ h1

theorem settle_wf (ch : Change) {s : State} (h : s.mem.wf = true) : (ch.settle s).mem.wf = true :=
  foldl_wf _ (fun _ c hs => onLaunch_wf c.launch _ (fun _ ht => foldl_wf _ (fun _ i hu => settleCmd_wf i hu) _ ht) hs) _ h

theorem revoke_mem (ch : Change) (s : State) : (ch.revoke s).mem = s.mem := by
  unfold Change.revoke; split <;> rfl

theorem await_wf (ch : Change) (done : State → State) (hd : ∀ s, s.mem.wf = true → (done s).mem.wf = true) {s : State} (h : s.mem.wf = true) :
    (ch.await done s).mem.wf = true := by
  have h1 : (ch.revoke (if s.shoots.any (·.1 == ch) then s else { s with shoots := s.shoots ++ [(ch, [])] })).mem.wf = true := by
    rw [revoke_mem]; split <;> exact h
  unfold Change.await
  dsimp only
  revert h1
  generalize ch.revoke _ = t
  intro h1
  split
  · exact h1
  · split
    · exact hd _ (settle_wf ch h1)
    · exact h1

theorem donate_mem (p : Nat) (d : Donation) (s : State) : (donate p d s).mem = s.mem := by
  unfold donate; split <;> rfl

theorem withdraw_mem (p : Part) (d : Donation) (s : State) : (withdraw p d s).mem = s.mem := rfl

theorem moveMem_wf (old new n : Nat) {m : Mem} (h : m.wf = true) : (moveMem old new n m).wf = true :=
  cellsOk_foldPut (fun x : Host.Cell => moved old new n x.1) (fun x => x.2) _ (cellsOk_filter _ h)

theorem movePage_wf (r : MigrateReq) {s : State} (h : s.mem.wf = true) : (movePage r s).mem.wf = true := moveMem_wf _ _ _ h

theorem retable_wf (v : Nat) (ws : List PteWrite) {s : State} (h : s.mem.wf = true) : (retable v ws s).mem.wf = true := by
  have h1 := writePtes_wf ws h
  unfold retable; dsimp only; split <;> exact h1

theorem mapPage_wf (r : MapReq) {s : State} (h : s.mem.wf = true) : (mapPage r s).mem.wf = true := by
  have h1 := retable_wf r.part r.writes h
  unfold mapPage
  dsimp only
  generalize retable r.part r.writes s = t at h1 ⊢
  cases t.part? r.part <;> cases r.exec <;> exact h1

theorem poisonData_wf (st x n : Nat) {s : State} (h : s.mem.wf = true) : (poisonData st x n s).mem.wf = true := by
  unfold poisonData; dsimp only; split <;> exact h

/-! ## Banks and archives -/

theorem bankLand_wf (x : Nat) (bs : List Byte) {s : State} (h : s.mem.wf = true) : (bankLand x bs s).mem.wf = true :=
  wf_writeBases _ _ (wf_writeBases _ _ h)

theorem settleSeen_wf (x n : Nat) {s : State} (h : s.mem.wf = true) : (settleSeen x n s).mem.wf = true := by
  have hz : ∀ (p : Host.Cell → Bool) (cs : List Host.Cell) {l : List Host.Cell}, cellsOk l = true →
      cellsOk (cs.foldl (fun l c => if p c then putCell c.1 0#8 l else l) l) = true := by
    intro p cs
    induction cs with
    | nil => exact fun h => h
    | cons c r ih =>
      intro l h
      rw [List.foldl_cons]
      refine ih ?_
      split
      · exact cellsOk_putCell _ _ h
      · exact h
  exact cellsOk_foldPut (fun c : Host.Cell => locSeen c.1) (fun c => c.2) _ (hz _ _ h)

/-- Every cell of a list lies below an address. -/
def cellsBelow (x : Nat) (l : List Host.Cell) : Prop := ∀ e ∈ l, e.1 < x

theorem above_iff (x : Nat) : ∀ (l : List Host.Cell), above x l = true ↔ ∀ e ∈ l, x < e.1
  | [] => by simp [above]
  | (a, b) :: r => by simp [above, above_iff x r]

/-- Two canonical lists one below the other make a canonical list. -/
theorem cellsOk_append {x : Nat} : ∀ {l r : List Host.Cell}, cellsOk l = true → cellsOk r = true → cellsBelow x l → (∀ e ∈ r, x ≤ e.1) → cellsOk (l ++ r) = true
  | [], _, _, hr, _, _ => hr
  | (a, b) :: l, r, hl, hr, hb, ha => by
    simp only [cellsOk, Bool.and_eq_true] at hl
    have hx : a < x := hb (a, b) (by simp)
    simp only [List.cons_append, cellsOk, Bool.and_eq_true]
    refine ⟨⟨hl.1.1, (above_iff a _).2 fun e he => ?_⟩, cellsOk_append hl.2 hr (fun e he => hb e (List.mem_cons_of_mem _ he)) ha⟩
    rcases List.mem_append.1 he with h | h
    · exact (above_iff a _).1 hl.1.2 e h
    · exact Nat.lt_of_lt_of_le hx (ha e h)

theorem cellsOk_replaceRange {x n : Nat} {cs l : List Host.Cell} (hc : cellsOk cs = true) (hl : cellsOk l = true)
    (h : ∀ e ∈ cs, x ≤ e.1 ∧ e.1 < x + n) : cellsOk (replaceRange x n cs l) = true := by
  unfold replaceRange
  rw [List.append_assoc]
  refine cellsOk_append (x := x) (cellsOk_filter _ hl) (cellsOk_append (x := x + n) hc (cellsOk_filter _ hl) (fun e he => (h e he).2) ?_) ?_ ?_
  · exact fun e he => by simpa using (List.mem_filter.1 he).2
  · exact fun e he => by simpa using (List.mem_filter.1 he).2
  · intro e he
    rcases List.mem_append.1 he with h1 | h1
    · exact (h e h1).1
    · have h2 : x + n ≤ e.1 := by simpa using (List.mem_filter.1 h1).2
      omega

theorem cellsFrom_range : ∀ (bs : List Byte) (x : Nat), ∀ e ∈ cellsFrom x bs, x ≤ e.1 ∧ e.1 < x + bs.length
  | [], _, _, h => by simp [cellsFrom] at h
  | b :: r, x, e, h => by
    simp only [cellsFrom] at h
    rw [List.length_cons]
    split at h
    · have := cellsFrom_range r (x + 1) e h; omega
    · rcases List.mem_cons.1 h with h | h
      · subst h; dsimp only; omega
      · have := cellsFrom_range r (x + 1) e h; omega

theorem cellsOk_cellsFrom : ∀ (bs : List Byte) (x : Nat), cellsOk (cellsFrom x bs) = true
  | [], _ => rfl
  | b :: r, x => by
    simp only [cellsFrom]
    split
    · exact cellsOk_cellsFrom r (x + 1)
    · rename_i hb
      simp only [cellsOk, Bool.and_eq_true, bne_iff_ne, ne_eq]
      exact ⟨⟨hb, (above_iff x _).2 fun e he => Nat.lt_of_succ_le (cellsFrom_range r (x + 1) e he).1⟩, cellsOk_cellsFrom r (x + 1)⟩

theorem writeBlock_wf (x : Nat) (bs : List Byte) {m : Mem} (h : m.wf = true) : (writeBlock m x bs).wf = true :=
  cellsOk_replaceRange (cellsOk_cellsFrom bs x) h (cellsFrom_range bs x)

theorem writeArchive_wf (rank : Nat) (c : Ctx) (a : Nat) (bs : List (List Byte)) {m : Mem} (h : m.wf = true) :
    (writeArchive m rank c a bs).wf = true := by
  show cellsOk (Mem.base (List.foldl _ m _)) = true
  refine wf_foldWrites _ (fun n e hn => ?_) _ h
  dsimp only
  split
  · exact hn
  · exact writeBlock_wf _ _ hn

/-- Cells moved from one range to another keep their order. -/
theorem cellsOk_shift {a x : Nat} : ∀ {l : List Host.Cell}, cellsOk l = true → (∀ e ∈ l, a ≤ e.1) → cellsOk (l.map fun e => (e.1 - a + x, e.2)) = true
  | [], _, _ => rfl
  | (y, b) :: r, h, ha => by
    simp only [cellsOk, Bool.and_eq_true] at h
    have hy : a ≤ y := ha (y, b) (by simp)
    simp only [List.map_cons, cellsOk, Bool.and_eq_true]
    refine ⟨⟨h.1.1, (above_iff _ _).2 fun e he => ?_⟩, cellsOk_shift h.2 fun e he => ha e (List.mem_cons_of_mem _ he)⟩
    obtain ⟨z, hz, rfl⟩ := List.mem_map.1 he
    have := (above_iff y _).1 h.1.2 z hz
    dsimp only
    omega

theorem readArchive_wf (rank : Nat) (c : Ctx) (addr core gb : Nat) {m : Mem} (h : m.wf = true) : (readArchive m rank c addr core gb).wf = true := by
  have hp : ∀ e ∈ m.base.filter (fun e => decide (locPa rank (addr + 0x10000) + 65536 * bankGranule c ≤ e.1) && decide (e.1 < locPa rank (addr + 0x10000) + 65536 * c.gcount)),
      locPa rank (addr + 0x10000) ≤ e.1 ∧ e.1 < locPa rank (addr + 0x10000) + 65536 * c.gcount := by
    intro e he
    have := (List.mem_filter.1 he).2
    simp only [Bool.and_eq_true, decide_eq_true_eq] at this
    omega
  refine cellsOk_replaceRange (cellsOk_shift (cellsOk_filter _ h) fun e he => (hp e he).1) h fun e he => ?_
  obtain ⟨z, hz, rfl⟩ := List.mem_map.1 he
  have := hp z hz
  dsimp only
  omega

theorem restoreBanks_wf (a : Archive) (x : Spot) {s : State} (h : s.mem.wf = true) : (restoreBanks a x s).mem.wf = true :=
  settleSeen_wf _ _ (s := { s with mem := readArchive s.mem s.rank a.ctx a.addr x.core x.gb }) (readArchive_wf _ _ _ _ _ h)

theorem rewriteRecord_wf (c : W64) (r : List Byte) {s : State} (h : s.mem.wf = true) : (rewriteRecord c r s).mem.wf = true := by
  unfold rewriteRecord
  split
  · exact h
  · exact wf_writeBases _ _ (wf_writeBases _ _ h)

theorem landFrame_wf (f : EthFrame) (a : Armed) {s : State} (h : s.mem.wf = true) : (landFrame f a s).mem.wf = true :=
  bankLand_wf _ _ h

end Sys2Proof.Machine
end

