-- ==== Sys2Proof/Tests/Slice0.lean ====
section
/-!
SUPPORT. Tests: ill-formed terms, one word of every instruction, one-step values, and for every statement a state and operands that meet its premises.
-/
set_option Elab.async false
open Sys2Proof Sys2Proof.Machine Sys2Proof.Safety
namespace Sys2Proof.Tests

/-! ## Ill-formed terms, one for each check of WellFormed.lean -/

theorem test_wf_loop_offsets : (Instr.loop 1 0#12).wf = false ∧ (Instr.loop 1 2048#12).wf = false ∧ (Instr.gloop 1 0#12).wf = false ∧
    (Instr.mloop 2 2048#12).wf = false ∧ (Instr.sloop 4 0#12).wf = false ∧ (Instr.sloop 4 2047#12).wf = true := by decide

theorem test_wf_queues : (Instr.qpush 1 1).wf = false ∧ (Instr.qpop 1 0).wf = false ∧ (Instr.qcnt 1 6).wf = false ∧ (Instr.gpop 1 1).wf = false ∧
    (Instr.gpush 0 1).wf = false ∧ (Instr.cixSetQ 4).wf = false ∧ (Instr.mbQNz 4 0#12).wf = false ∧ (Instr.mbQZ 0 0#12).wf = false ∧ (Instr.mloop 7 1#12).wf = false ∧
    (Instr.vbc false 1 2).wf = false ∧ (Instr.sbQNz 2 0#12).wf = false ∧ (Instr.sbQZ 5 0#12).wf = false ∧ (Instr.sloop 6 1#12).wf = false ∧
    (Instr.sclSet false 6).wf = false := by decide

theorem test_wf_registers_and_codes : (Instr.rngNext 0).wf = false ∧ (Instr.rngNext 31).wf = false ∧ (Instr.vcvt false 1 2 false .fp32).wf = false ∧
    (Instr.vcvt false 1 2 false .raw).wf = false ∧ (Instr.vcvt false 1 2 true .e4m3s).wf = false ∧ (Instr.histRd false 34#8).wf = false ∧ (Instr.ldsSp 1 2 3#8 0#3).wf = false := by decide

theorem test_wf_patterns : (Instr.patSet 1 (.ident 0x80#8)).wf = false ∧ (Instr.patSet 1 (.perm 4)).wf = false ∧ (Instr.patSet 1 (.band 0#4 1#4)).wf = false ∧
    (Instr.patSet 1 (.band 10#4 1#4)).wf = false ∧ (Instr.mmaZ false 1 (.pat 1) .r (.pat 2) .r).wf = false ∧ (Instr.mmaC false 1 (.pat 1) .w (.slot 2) .r).wf = false ∧
    (Instr.mmaZ false 1 (.slot 1) .r (.pat 2) .w).wf = false := by decide

/-- The zero field of a collective's second word (R86, R180). -/
theorem test_wf_collectives : (Instr.colRed 1 3 5 0 false 1#28).wf = false ∧ (Instr.colRs 1 3 5 0 false 0x400#28).wf = false ∧ (Instr.colAg 1 3 5 0 true 0x7FF#28).wf = false ∧
    (Instr.colBc 1 3 5 0 true 2#28).wf = false ∧ (Instr.colBc 1 3 5 0 true 0x800#28).wf = true := by decide

/-! ## Words -/

/-- A word, with the extension word that follows it, reads as an instruction of the stream; the fields of each word stand where R79 and the maps R87 to R95 put them. -/
abbrev dec (x : StreamId) (w ext : Nat) (i : Instr) : Prop := decodeWord x w ext = some i

/-- The seven worked examples of spec/03_encoding.md and the first six of spec/05_control_system.md. -/
theorem test_decode_examples :
    dec .c 0x90061100 0 (.add 3 1 2) ∧ dec .c 0x03480FFD 0 (.bne 4 0 0xFFD#12) ∧ dec .c 0x058E2804 0 (.ld .w 7 2 4#10) ∧
    dec .c 0x06081114 0 (.atBinc 4 1 2 .die false) ∧ dec .c 0x028A0001 0x23456789 (.li 5 1#17 0x23456789#32) ∧ dec .s 0x200C48C6 0 (.vfma false 3 1 2 3) ∧
    dec .m 0x0004290A 0 (.mmaZ false 2 (.slot 5) .r (.pat 1) .c) ∧ dec .c 0x0004290A 0 (.xor 2 2 18) ∧
    dec .c 0x06800001 0 (.phase .bay) ∧ dec .c 0x06C44003 0 (.barInit 3 4 .die) ∧ dec .c 0x06C00203 0 (.barArr 3) ∧ dec .c 0x06C00403 0 (.barWt 3) ∧
    dec .c 0x06C25603 0 (.barDl 3 5 true) ∧ dec .c 0x07002300 0 (.mbxSend 2 6) ∧ dec .c 0x07082001 0 (.mbxRecv 4 2) := by
  refine ⟨?_, ?_, ?_, ?_, ?_, ?_, ?_, ?_, ?_, ?_, ?_, ?_, ?_, ?_, ?_⟩ <;> rfl

/-- R88. -/
theorem test_decode_int :
    dec .c 0x302AA980 0 (.add 21 10 19) ∧
    dec .c 0xA02AA981 0 (.sub 21 10 19) ∧
    dec .c 0x102AA982 0 (.mul 21 10 19) ∧
    dec .c 0x802AA983 0 (.mulh 21 10 19) ∧
    dec .c 0xF02AA984 0 (.div 21 10 19) ∧
    dec .c 0x602AA985 0 (.divu 21 10 19) ∧
    dec .c 0xD02AA986 0 (.rem 21 10 19) ∧
    dec .c 0x402AA987 0 (.remu 21 10 19) ∧
    dec .c 0xB02AA988 0 (.and 21 10 19) ∧
    dec .c 0x202AA989 0 (.or 21 10 19) ∧
    dec .c 0x902AA98A 0 (.xor 21 10 19) ∧
    dec .c 0x002AA98B 0 (.shl 21 10 19) ∧
    dec .c 0x702AA98C 0 (.shr 21 10 19) ∧
    dec .c 0xE02AA98D 0 (.sra 21 10 19) ∧
    dec .c 0x502AA98E 0 (.min 21 10 19) ∧
    dec .c 0xC02AA98F 0 (.max 21 10 19) ∧
    dec .c 0x302AA990 0 (.minu 21 10 19) ∧
    dec .c 0xA02AA991 0 (.maxu 21 10 19) ∧
    dec .c 0x102AA992 0 (.slt 21 10 19) ∧
    dec .c 0x802AA993 0 (.sltu 21 10 19) ∧
    dec .c 0xF02AA014 0 (.clz 21 10) ∧
    dec .c 0x602AA015 0 (.ctz 21 10) ∧
    dec .c 0xD02AA016 0 (.popc 21 10) ∧
    dec .c 0x402AA997 0 (.bext 21 10 19) := by
  refine ⟨?_, ?_, ?_, ?_, ?_, ?_, ?_, ?_, ?_, ?_, ?_, ?_, ?_, ?_, ?_, ?_, ?_, ?_, ?_, ?_, ?_, ?_, ?_, ?_⟩ <;> rfl

/-- R81, R87. -/
theorem test_decode_imm :
    dec .c 0xB06AA9A5 0 (.addi 21 10 0x9A5#12) ∧
    dec .c 0x20AAA9A5 0 (.andi 21 10 0x9A5#12) ∧
    dec .c 0x90EAA9A5 0 (.ori 21 10 0x9A5#12) ∧
    dec .c 0x012AA9A5 0 (.xori 21 10 0x9A5#12) ∧
    dec .c 0x716AA025 0 (.shli 21 10 0x25#6) ∧
    dec .c 0xE1AAA025 0 (.shri 21 10 0x25#6) ∧
    dec .c 0x51EAA025 0 (.srai 21 10 0x25#6) ∧
    dec .c 0xC22AA9A5 0 (.slti 21 10 0x9A5#12) ∧
    dec .c 0x326BA5C3 0 (.lui 21 0x1A5C3#17) ∧
    dec .c 0x02ABA5C3 0x89ABCDEF (.li 21 0x1A5C3#17 0x89ABCDEF#32) := by
  refine ⟨?_, ?_, ?_, ?_, ?_, ?_, ?_, ?_, ?_, ?_⟩ <;> rfl

/-- R89. -/
theorem test_decode_fp :
    dec .c 0xA2D666C0 0 (.fadd true 11 6 13) ∧
    dec .c 0x12D66681 0 (.fsub false 11 6 13) ∧
    dec .c 0x82D666C2 0 (.fmul true 11 6 13) ∧
    dec .c 0xF2D66683 0 (.ffma false 11 6 13) ∧
    dec .c 0x62D666C4 0 (.fdiv true 11 6 13) ∧
    dec .c 0xD2D66005 0 (.fsqrt false 11 6) ∧
    dec .c 0x42D666C6 0 (.fmin true 11 6 13) ∧
    dec .c 0xB2D66687 0 (.fmax false 11 6 13) ∧
    dec .c 0x22EA66C8 0 (.fcmpEq true 21 6 13) ∧
    dec .c 0x92EA6689 0 (.fcmpLt false 21 6 13) ∧
    dec .c 0x02EA66CA 0 (.fcmpLe true 21 6 13) ∧
    dec .c 0x72EA600B 0 (.fcvtW false 21 6) ∧
    dec .c 0xE2D6A04C 0 (.fcvtF true 11 10) ∧
    dec .c 0x52EA600D 0 (.fclass false 21 6) ∧
    dec .c 0xC2D6604E 0 (.fmv true 11 6) ∧
    dec .c 0x32D6668F 0 (.fsgnj false 11 6 13) := by
  refine ⟨?_, ?_, ?_, ?_, ?_, ?_, ?_, ?_, ?_, ?_, ?_, ?_, ?_, ?_, ?_, ?_⟩ <;> rfl

/-- R87. -/
theorem test_decode_branch :
    dec .c 0xA31539A5 0 (.beq 10 19 0x9A5#12) ∧
    dec .c 0x135539A5 0 (.bne 10 19 0x9A5#12) ∧
    dec .c 0x839539A5 0 (.blt 10 19 0x9A5#12) ∧
    dec .c 0xF3D539A5 0 (.bge 10 19 0x9A5#12) ∧
    dec .c 0x641539A5 0 (.bltu 10 19 0x9A5#12) ∧
    dec .c 0xD45539A5 0 (.bgeu 10 19 0x9A5#12) ∧
    dec .c 0x44AA5C3B 0 (.jmp 0x2A5C3B#22) ∧
    dec .c 0xB4EA5C3B 0 (.jal 0x2A5C3B#22) ∧
    dec .c 0x2500A000 0 (.jr 10) ∧
    dec .c 0x955404A5 0 (.loop 10 0x4A5#12) := by
  refine ⟨?_, ?_, ?_, ?_, ?_, ?_, ?_, ?_, ?_, ?_⟩ <;> rfl

/-- R87, R90. -/
theorem test_decode_scalar_memory :
    dec .c 0x05AAA6A5 0 (.ld .h 21 10 0x2A5#10) ∧
    dec .c 0x75EAAEA5 0 (.st .d 21 10 0x2A5#10) ∧
    dec .c 0xE62AA982 0 (.atAdd 21 10 19 .bay false) ∧
    dec .c 0x562AA995 0 (.atBinc 21 10 19 .die true) ∧
    dec .c 0xC62AA9A7 0 (.atCas 21 10 19 .dev true) ∧
    dec .c 0x362AA9B8 0 (.atSwp 21 10 19 .dom false) ∧
    dec .c 0xA62AA9C0 0 (.atMax 21 10 19 .core false) ∧
    dec .c 0x162AA9D3 0 (.atFadd 21 10 19 .bay) := by
  refine ⟨?_, ?_, ?_, ?_, ?_, ?_, ?_, ?_⟩ <;> rfl

/-- R84, R87. -/
theorem test_decode_sync :
    dec .c 0x8640A200 0 (.qpush 4 10) ∧
    dec .c 0xF66A0281 0 (.qpop 21 5) ∧
    dec .c 0x666A0182 0 (.qcnt 21 3) ∧
    dec .c 0xD6800000 0 (.phase .core) ∧
    dec .c 0x46C2A12C 0 (.barInit 300 10 .bay) ∧
    dec .c 0xB6C0032C 0 (.barArr 300) ∧
    dec .c 0x26C0052C 0 (.barWt 300) ∧
    dec .c 0x96C2A72C 0 (.barDl 300 10 true) ∧
    dec .c 0x0700A980 0 (.mbxSend 10 19) ∧
    dec .c 0x772AA001 0 (.mbxRecv 21 10) ∧
    dec .c 0xE72AA002 0 (.mbxTry 21 10) := by
  refine ⟨?_, ?_, ?_, ?_, ?_, ?_, ?_, ?_, ?_, ?_, ?_⟩ <;> rfl

/-- R42, R87. -/
theorem test_decode_system :
    dec .c 0x576A0000 0 (.rngNext 21) ∧
    dec .c 0xC76AA001 0 (.nodeAdd 21 10) ∧
    dec .c 0x37400002 0 (.nodeDone) ∧
    dec .c 0xA7400003 0 (.yield) ∧
    dec .c 0x176A0004 0 (.tsc 21) ∧
    dec .c 0x8780A000 0 (.trap 10) ∧
    dec .c 0xF7800001 0 (.eret) ∧
    dec .c 0x67800002 0 (.brk) ∧
    dec .c 0xD7800103 0 (.diffMode .rev) ∧
    dec .c 0x47AAA004 0 (.waitEv 21 10) ∧
    dec .c 0xB7800005 0 (.ctxSw) ∧
    dec .c 0x27EA0071 0 (.csrr 21 .trapCause) ∧
    dec .c 0x9800A010 0 (.csrw .frnd 10) ∧
    dec .c 0x086AA020 0 (.csrx 21 .scaleRcp 10) := by
  refine ⟨?_, ?_, ?_, ?_, ?_, ?_, ?_, ?_, ?_, ?_, ?_, ?_, ?_, ?_⟩ <;> rfl

/-- R91. -/
theorem test_decode_address :
    dec .a 0x70166680 0 (.gadd 11 6 13) ∧
    dec .a 0xE0166681 0 (.gsub 11 6 13) ∧
    dec .a 0x50166682 0 (.gmul 11 6 13) ∧
    dec .a 0xC0166683 0 (.gshl 11 6 13) ∧
    dec .a 0x30166684 0 (.gshr 11 6 13) ∧
    dec .a 0xA0166685 0 (.gand 11 6 13) ∧
    dec .a 0x10166686 0 (.gor 11 6 13) ∧
    dec .a 0x80166687 0 (.gmin 11 6 13) ∧
    dec .a 0xF05669A5 0 (.gaddi 11 6 0x9A5#12) ∧
    dec .a 0x60D60000 0 (.gpop 11 0) ∧
    dec .a 0xD0C06301 0 (.gpush 6 6) ∧
    dec .a 0x410CD9A5 0 (.gbEq 6 13 0x9A5#12) ∧
    dec .a 0xB14CD9A5 0 (.gbNe 6 13 0x9A5#12) ∧
    dec .a 0x218CD9A5 0 (.gbLt 6 13 0x9A5#12) ∧
    dec .a 0x91CCD9A5 0 (.gbGe 6 13 0x9A5#12) ∧
    dec .a 0x022A5C3B 0 (.gjmp 0x2A5C3B#22) ∧
    dec .a 0x724C04A5 0 (.gloop 6 0x4A5#12) ∧
    dec .a 0xE28A6000 0 (.laySet 5 6) ∧
    dec .a 0x52C00949 0 (.bfSet 37 .e4m3s) ∧
    dec .a 0x0096A5C3 0x89ABCDEF (.gli 11 0x0A5C3#17 0x89ABCDEF#32) := by
  refine ⟨?_, ?_, ?_, ?_, ?_, ?_, ?_, ?_, ?_, ?_, ?_, ?_, ?_, ?_, ?_, ?_, ?_, ?_, ?_, ?_⟩ <;> rfl

/-- R79, R91. -/
theorem test_decode_commands :
    dec .a 0xC4960064 0 (.cpWait 11 100) ∧
    dec .a 0x34C06000 0 (.seal 6) ∧
    dec .a 0xA5006000 0 (.shdOpen 6) ∧
    dec .a 0x15006018 0 (.shdPub 6 .dom) ∧
    dec .a 0x850066A0 0 (.shdPubn 6 13 .core) ∧
    dec .a 0xF5006030 0 (.shdDrop 6) ∧
    dec .a 0x65406684 0 (.bktSet 6 13 .die) ∧
    dec .a 0xD5D60064 0 (.colWait 11 100) ∧
    dec .a 0x46006000 0 (.colArb 6) ∧
    dec .a 0xB6406000 0 (.pktArm 6) ∧
    dec .a 0x26560001 0 (.pktWait 11) ∧
    dec .a 0x03172DC8 0x1234ABCD (.cpIn 11 37 5 100 false 0x1234ABCD#32) ∧
    dec .a 0x03572DC9 0x1234ABCD (.cpOut 11 37 5 100 true 0x1234ABCD#32) ∧
    dec .a 0x03972DC8 0x1234ABCD (.cpBb 11 37 5 100 false 0x1234ABCD#32) ∧
    dec .a 0x03D72DC9 0x1234ABCD (.cpGth 11 37 5 100 true 0x1234ABCD#32) ∧
    dec .a 0x04172DC8 0x1234ABCD (.cpSct 11 37 5 100 false 0x1234ABCD#32) ∧
    dec .a 0x04572DC9 0x1234ABCD (.cpFill 11 37 5 100 true 0x1234ABCD#32) ∧
    dec .a 0x05972DC8 0x05A4B800 (.colRed 11 37 5 100 false 0x5A4B800#28) ∧
    dec .a 0x05972DC9 0x15A4B800 (.colRs 11 37 5 100 true 0x5A4B800#28) ∧
    dec .a 0x05972DC8 0x25A4B800 (.colAg 11 37 5 100 false 0x5A4B800#28) ∧
    dec .a 0x05972DC9 0x35A4B800 (.colBc 11 37 5 100 true 0x5A4B800#28) := by
  refine ⟨?_, ?_, ?_, ?_, ?_, ?_, ?_, ?_, ?_, ?_, ?_, ?_, ?_, ?_, ?_, ?_, ?_, ?_, ?_, ?_, ?_⟩ <;> rfl

/-- R82, R83, R92. -/
theorem test_decode_array :
    dec .m 0x902A6B28 0 (.mmaZ false 21 (.slot 13) .c (.pat 5) .r) ∧
    dec .m 0x006A6B29 0 (.mmaC true 21 (.slot 13) .c (.pat 5) .r) ∧
    dec .m 0x70AAA980 0 (.fold 21 10 19) ∧
    dec .m 0xE0AAA001 0 (.foldP 21 10) ∧
    dec .m 0x50C1A5C3 0 (.cixSet 0x1A5C3#17) ∧
    dec .m 0xC0CC0000 0 (.cixSetQ 6) := by
  refine ⟨?_, ?_, ?_, ?_, ?_, ?_⟩ <;> rfl

/-- R39, R92, R93. -/
theorem test_decode_slots :
    dec .m 0x312B2D28 0 (.lds 21 37 0xA5#8) ∧
    dec .m 0xA16B2D2D 0 (.ldsSp 21 37 0xA5#8 5#3) ∧
    dec .m 0x11AB2D28 0 (.accLd 21 37 0xA5#8) ∧
    dec .m 0x81EA0000 0 (.accRel 21) ∧
    dec .m 0xF22A0000 0 (.slotClm 21) ∧
    dec .m 0x626A0000 0 (.slotRel 21) ∧
    dec .m 0xD2CB2D2B 0 (.patOh 5 37 0xA5#8 true true) ∧
    dec .m 0x43000000 0 (.lseAcq) ∧
    dec .m 0xB3000001 0 (.lseRel) ∧
    dec .m 0x234409A5 0 (.mbQNz 2 0x9A5#12) ∧
    dec .m 0x934C19A5 0 (.mbQZ 6 0x9A5#12) ∧
    dec .m 0x038C04A5 0 (.mloop 6 0x4A5#12) ∧
    dec .m 0x73EA5C3B 0 (.mjmp 0x2A5C3B#22) ∧
    dec .m 0x028A0000 0 (.patSet 5 .none) ∧
    dec .m 0x028A0100 0 (.patSet 5 .ones) ∧
    dec .m 0x028A0200 0 (.patSet 5 .ltri) ∧
    dec .m 0x028A0300 0 (.patSet 5 .utri) ∧
    dec .m 0x028A0400 0 (.patSet 5 .sltri) ∧
    dec .m 0x028A05FD 0 (.patSet 5 (.ident 0xFD#8)) ∧
    dec .m 0x028A6600 0 (.patSet 5 (.perm 6)) ∧
    dec .m 0x028A289A 0 (.patSet 5 (.band 9#4 0xA#4)) := by
  refine ⟨?_, ?_, ?_, ?_, ?_, ?_, ?_, ?_, ?_, ?_, ?_, ?_, ?_, ?_, ?_, ?_, ?_, ?_, ?_, ?_, ?_⟩ <;> rfl

/-- R94, R95. -/
theorem test_decode_rows :
    dec .s 0xE02DB401 0 (.vadd true 11 6 13) ∧
    dec .s 0x502DB402 0 (.vsub false 11 6 13) ∧
    dec .s 0xC02DB405 0 (.vmul true 11 6 13) ∧
    dec .s 0x302DB546 0 (.vfma false 11 6 13 5) ∧
    dec .s 0xA02DB409 0 (.vmax true 11 6 13) ∧
    dec .s 0x102DB40A 0 (.vmin false 11 6 13) ∧
    dec .s 0x802DB48D 0 (.vcmp true 11 6 13 .le) ∧
    dec .s 0xF02DB54E 0 (.vsel false 11 6 13 5) ∧
    dec .s 0x602DB651 0 (.vfld true 11 6 13 0x9#4) ∧
    dec .s 0xD02D8012 0 (.vrcp false 11 6) ∧
    dec .s 0x402D8015 0 (.vrsq true 11 6) ∧
    dec .s 0xB02D8556 0 (.vcvt false 11 6 true .e5m2) ∧
    dec .s 0x202D8019 0 (.vmov true 11 6) ∧
    dec .s 0x906D0000 0 (.vbc false 11 4) := by
  refine ⟨?_, ?_, ?_, ?_, ?_, ?_, ?_, ?_, ?_, ?_, ?_, ?_, ?_, ?_⟩ <;> rfl

/-- R94. -/
theorem test_decode_store :
    dec .s 0x00972D28 0 (.vld 11 37 0xA5#8) ∧
    dec .s 0x70CD2D2D 0 (.vst 6 37 0xA5#8 ⟨true, false, true⟩) ∧
    dec .s 0xE12A5A99 0 (.rtRow true 11 21 0x53#7) ∧
    dec .s 0x516B2D2D 0 (.rtSt 21 37 0xA5#8 ⟨true, false, true⟩) ∧
    dec .s 0xC1818001 0 (.histAdd true 6) ∧
    dec .s 0x31800842 0 (.histRd false 33#8) ∧
    dec .s 0xA1800005 0 (.histClr true) ∧
    dec .s 0x11EC0000 0 (.flgRd false 11) ∧
    dec .s 0x81C00003 0 (.flgClr true) ∧
    dec .s 0xF20809A5 0 (.sbQNz 4 0x9A5#12) ∧
    dec .s 0x620E19A5 0 (.sbQZ 7 0x9A5#12) ∧
    dec .s 0xD24E04A5 0 (.sloop 7 0x4A5#12) ∧
    dec .s 0x42AA5C3B 0 (.sjmp 0x2A5C3B#22) ∧
    dec .s 0xB2C1C000 0 (.sclSet false 7) := by
  refine ⟨?_, ?_, ?_, ?_, ?_, ?_, ?_, ?_, ?_, ?_, ?_, ?_, ?_, ?_⟩ <;> rfl

/-! ## Small states -/

/-- The two translation trees of one process: 1 GiB leaves that map each address to itself; `a1` and `a2` are the attributes of the stage-1 and the stage-2 leaf (R289 to R291). -/
def trees (a1 a2 : Nat) : Mem :=
  [(0x1000, 0x2001), (0x2000, 0x3FFFF000 + a2), (0x3000, 0x4001), (0x4000, 0x3FFFF000 + a1)].foldl
    (fun m e => writeBases m (locPa 0 e.1) (leBytes 8 e.2)) Mem.empty

/-- A queued context in user mode with one operand granule, one pair and four banks. -/
def cx : Ctx := { Ctx.fresh with
  life := .active, launch := 1, part := 0x4220000000#64, s1Root := 0x3000, s2Root := 0x1000, freeSlots := [3], freePairs := [0],
  trapVec := 0x0FFF800000005000#64, recPage := 0x30000 }

/-- The same context in a timed kernel. -/
def tx : Ctx := { cx with timed := true }

/-- Cycle 10, memory with readable and writable pages. -/
def st (c : Ctx) : State := { State.reset with cycle := 10, launches := 1, me := c, mem := trees 7 7 }

/-- A GLB pointer of this device and a pointer to byte 16 of the context's own bank 2 (R46, R47). -/
def gp : W64 := 0x0FFF800000010000#64
def bp : W64 := 0x1FF8000000020010#64

/-- Registers s1 and s2, or g1 and g2. -/
def s12 (a b : W64) (c : Ctx) : Ctx := { c with s := (c.s.set 1 a).set 2 b }
def g12 (a b : W64) (c : Ctx) : Ctx := { c with g := (c.g.set 1 a).set 2 b }

/-- Entries of queue q, pushed before this cycle. -/
def qd (q : QNo) (l : List W64) (c : Ctx) : Ctx := c.setQueue q ⟨l.map (⟨·, 3⟩), 0, 0⟩


/-! ## One step, values worked out by hand from the rules -/

/-- The state an instruction answers. -/
def after (i : Instr) (s : State) : State := match exec i s with | .next t => t | .fault _ => s | .refused _ => s
/-- The same once the word accesses it sent are served and its results have landed. -/
def settled (i : Instr) (s : State) : State := landAll (serveAll (after i s))
def sAfter (i : Instr) (a b : W64) : W64 := rdS (settled i (st (s12 a b cx))).me 3

theorem test_int_corners : sAfter (.add 3 1 2) (-1#64) 1#64 = 0#64 ∧ sAfter (.mulh 3 1 2) (-1#64) 2#64 = -1#64 ∧ sAfter (.div 3 1 2) 7#64 0#64 = -1#64 ∧
    sAfter (.rem 3 1 2) (-7#64) 2#64 = -1#64 ∧ sAfter (.sra 3 1 2) (-8#64) 65#64 = -4#64 ∧ sAfter (.bext 3 1 2) 0xABCD#64 0x804#64 = 0xBC#64 ∧
    sAfter (.lui 3 0x1FFFF#17) 0#64 0#64 = -4096#64 ∧ sAfter (.slti 3 1 0xFFF#12) (-2#64) 0#64 = 1#64 := by decide +kernel

/-- 1 + 2^-24 is a tie: it rounds to even and raises NX. -/
theorem test_fadd_tie :
    let s := settled (.fadd false 3 1 2) (st { cx with f := (cx.f.set 1 0x3F800000#32).set 2 0x33800000#32 })
    rdF s.me 3 = 0x3F800000#32 ∧ s.me.fflags = 1#5 := by decide +kernel

/-- s31 gets the address after the word, and the stream goes two words back (R115). -/
theorem test_jal :
    let s := settled (.jal (-2#22)) (st { cx with strC := Strm.fresh 0x1000#64 })
    s.me.strC.pc = 0xFF8#64 ∧ rdS s.me 31 = 0x1004#64 := by decide +kernel

/-- A byte stored into a bank is read back sign-extended (R118). -/
theorem test_store_then_load :
    rdS (settled (.ld .b 3 1 0#10) (settled (.st .b 2 1 0#10) (st (s12 bp 0x180#64 cx)))).me 3 = -128#64 := by decide +kernel

/-- AT.BINC stops at its cap (R123). -/
theorem test_binc_cap :
    let s := settled (.atBinc 3 1 2 .core false) (bankLand (bankLoc 0 cx 2 16) (leBytes 8 5) (st (s12 bp 5#64 cx)))
    rdS s.me 3 = 5#64 ∧ leNat (readBases s.mem (bankLoc 0 cx 2 16) 8) = 5 := by decide +kernel

/-- TRAP leaves class 11, the code and the next address, and enters at TRAP.VEC; ERET goes back after it (R149, R349 to R355). -/
theorem test_trap_and_eret :
    let s := after (.trap 1) (st (s12 77#64 0#64 { cx with strC := Strm.fresh 0x1000#64, status := 2#2 }))
    s.me.strC.pc = cx.trapVec ∧ s.me.status = 1#2 ∧ s.me.trapCause.toNat / 2 ^ 58 = 11 ∧ recField s 160 4 = 77 ∧
    (after .eret s).me.strC.pc = 0x1004#64 ∧ (after .eret s).me.status = 2#2 := by decide +kernel

/-- A queue entry pushed in a cycle is popped from the next one on (R21). -/
theorem test_queue_cycle :
    let s := after (.gpush 1 1) (st (g12 9#64 0#64 cx))
    (after (.qpop 3 1) s).last = .waiting ∧ rdS (settled (.qpop 3 1) { s with cycle := 11 }).me 3 = 9#64 := by decide +kernel

/-- The second pass of a loop starts at the body's first word; the last one goes on after it (R116, R117). -/
theorem test_loop_end :
    let l (n : W64) : Ctx := { cx with strC := { Strm.fresh 0x1008#64 with loops := [⟨0x1004#64, 0x1008#64, n⟩] } }
    (after (.add 0 0 0) (st (l 2#64))).me.strC.pc = 0x1004#64 ∧ (after (.add 0 0 0) (st (l 1#64))).me.strC.pc = 0x100C#64 := by decide +kernel

/-- SLOT.CLM binds the free granule; a second one finds none and traps as class 1 of stream M (R33, R35). -/
theorem test_slot_claim :
    let s := after (.slotClm 31) (st cx)
    s.me.ms[(31 : MReg)].gran = 3 ∧ s.me.freeSlots = [] ∧ (after (.slotClm 30) s).me.trapCause.toNat / 2 ^ 56 = 1 * 4 + 2 := by decide +kernel

/-- The worked example of exponent compression: 106 bytes for exponent fields 127 to 130, 129 for a zero beside 130; the receiver rebuilds the elements (R393). -/
theorem test_exponent_compression :
    let ws : List W32 := (List.range 32).map fun i => BitVec.ofNat 32 ((127 + i % 4) * 2 ^ 23 + i)
    (groupEmax ws, groupWidth ws, (packFp32 1 ws).length) = (130, 2, 106) ∧ unpackFp32 1 32 (packFp32 1 ws) = ws ∧ (packFp32 1 (0#32 :: ws.drop 1)).length = 129 := by
  decide +kernel

/-! ## The premises of the statements can be met -/

theorem meets_DecodedIsWellFormed : decodeWord .s 0x00C3082B 0 = some (.vst 1 33 5 ⟨true, true, false⟩) := rfl

theorem meets_DecodeOfEncode : (Instr.li 6 0x1FFFF#17 7#32).stream = some .c ∧ (Instr.li 6 0x1FFFF#17 7#32).wf = true ∧
    (Instr.mloop 6 2047#12).stream = some .m ∧ (Instr.mloop 6 2047#12).wf = true := ⟨rfl, rfl, rfl, rfl⟩

theorem meets_EncodeOfDecode : decodeWord .c (0x928C0000#32).toNat (0x3F000000#32).toNat = some (.li 6 0#17 0x3F000000#32) := rfl

/-- The word placed after reset is issued by the next step. -/
theorem meets_StepRunsDecoded : Issues (State.reset.withFetchWord 32 0x002AA980) 0x002AA980 0 0#4 ∧
    decodeWord (State.reset.withFetchWord 32 0x002AA980).slot 0x002AA980 0 = some (.add 21 10 19) := by
  refine ⟨⟨by decide, by decide, by decide +kernel, by decide +kernel, by decide +kernel, by decide +kernel, ?_, by decide +kernel, by decide +kernel, by decide +kernel, ?_⟩, by decide +kernel⟩
  · rfl
  · exact .inr (.inl ⟨by decide, by decide, by decide, by decide⟩)

theorem meets_StepKeepsMemoryForm : Sound (State.reset.withFetchWord 32 0x002AA980) ∧ ∃ t, step (State.reset.withFetchWord 32 0x002AA980) = .next t :=
  ⟨by unfold Sound; decide +kernel, _, rfl⟩

theorem meets_IntegerResults : ∃ d v lat n, intOp (.li 0 0x1FFFF#17 7#32) = some (d, v, lat, n) := ⟨_, _, _, _, rfl⟩

theorem meets_CountsAndDivision : (1#64 : W64) ≠ 0#64 ∧ (1#64 <<< 63 : W64) ≠ 0#64 ∧ (remS (-7#64) 3#64).toInt ≠ 0 ∧ rdS cx 2 = 0#64 ∧
    (rdS (s12 (1#64 <<< 63) (-1#64) cx) 1).toInt = -(2 ^ 63) ∧ (rdS (s12 (1#64 <<< 63) (-1#64) cx) 2).toInt = -1 := by decide +kernel

theorem meets_FpResults : (∃ nf d r lat, fpOp (.ffma true 2 4 1) = some (nf, d, r, lat)) ∧ ∃ nf d r lat, fpOp (.fcvtF false 2 0) = some (nf, d, r, lat) :=
  ⟨⟨_, _, _, _, rfl⟩, ⟨_, _, _, _, rfl⟩⟩

theorem meets_FpMovesTestsConversion : (∃ d v, fpMoveOp (.fsgnj true 2 4 1) = some (d, v)) ∧ (∃ d v, fpTestOp (.fclass false 0 1) = some (d, v)) ∧
    isNan32 0xFFFFFFFF#32 = true ∧ isNan32 0x7F800001#32 = true ∧ isNan32 0x7F800000#32 = false :=
  ⟨⟨_, _, rfl⟩, ⟨_, _, rfl⟩, rfl, rfl, rfl⟩

theorem meets_AddressResults : ∃ d v lat n, addrOp (.gmul 0 1 1) = some (d, v, lat, n) := ⟨_, _, _, _, rfl⟩

theorem meets_Branches : ∃ x p a, branchOp (st cx) (.bltu 0 1 0x800#12) = some (x, p, a) := ⟨_, _, _, rfl⟩

theorem meets_Jumps : ∃ x a, jumpOp (st cx) (.jr 31) = some (x, a) := ⟨_, _, rfl⟩

/-- Three loops open. -/
def three : Ctx := { cx with strC := { cx.strC with loops := List.replicate 3 ⟨4#64, 8#64, 2#64⟩ } }

/-- Four loops open. -/
def four : Ctx := { cx with strA := { cx.strA with loops := List.replicate 4 ⟨4#64, 8#64, 2#64⟩ } }

theorem meets_LoopsOpen : (loopOp (st (s12 1#64 0#64 three)) (.loop 1 2047#12) = some (.c, 1#64, 2047#12) ∧ ((st (s12 1#64 0#64 three)).me.strm .c).loops.length < 4) ∧
    loopOp (st (s12 1#64 0#64 three)) (.loop 0 1#12) = some (.c, 0#64, 1#12) ∧
    (loopOp (st (g12 1#64 0#64 four)) (.gloop 1 1#12) = some (.a, 1#64, 1#12) ∧ 4 ≤ ((st (g12 1#64 0#64 four)).me.strm .a).loops.length) :=
  ⟨⟨rfl, by decide⟩, rfl, rfl, by decide⟩

theorem meets_LoopBodies : (2#64 : W64) ≠ 1#64 ∧ (0#64 : W64) ≠ 1#64 ∧ (LoopEnt.mk 4#64 8#64 2#64).stop ≠ 4#64 := by decide

theorem meets_QueuePushes : pushOp (st (s12 7#64 0#64 cx)) (.qpush 4 1) = some (.c, 4, 7#64) ∧
    ((qd 4 (List.replicate 7 1#64) cx).queue 4).full 10 = false ∧ ((qd 4 (List.replicate 8 1#64) cx).queue 4).full 10 = true := by
  refine ⟨rfl, by decide, by decide⟩

theorem meets_QueuePops : AtFront (st (qd 3 [5#64] cx)) 3 5#64 ∧ AtFront (st (qd 0 [5#64, 6#64] tx)) 0 5#64 := ⟨rfl, rfl⟩

theorem meets_QueueControl :
    (∃ a, branchQOp (st (qd 6 [0#64] cx)) (.mbQZ 6 0x7FF#12) = some (.m, 6, false, a)) ∧ AtFront (st (qd 6 [0#64] cx)) 6 0#64 ∧
    (∃ a, branchQOp (st (qd 7 [1#64] cx)) (.sbQNz 7 0x800#12) = some (.s, 7, true, a)) ∧ AtFront (st (qd 7 [1#64] cx)) 7 1#64 ∧
    loopQOp (.sloop 7 1#12) = some (.s, 7, 1#12) ∧ ((qd 7 [1#64] cx).strm .s).loops.length < 4 := ⟨⟨_, rfl⟩, rfl, ⟨_, rfl⟩, rfl, rfl, by decide⟩

theorem meets_ChunkIndexSets : AtFront (st (qd 2 [0x100FFFFFF#64] cx)) 2 0x100FFFFFF#64 ∧ (0x100FFFFFF#64 : W64).toNat < 2 ^ 33 ∧
    (0x100FFFFFF#64 : W64).toNat / 2 ^ 24 ≤ 256 ∧ AtFront (st (qd 2 [0x101000000#64] cx)) 2 0x101000000#64 ∧ 256 < (0x101000000#64 : W64).toNat / 2 ^ 24 :=
  ⟨rfl, by decide, by decide, rfl, by decide⟩

theorem meets_LoadGivesBytes :
    (∃ acc, LdReady (st (s12 gp 0#64 cx)) .d 1 511#10 acc ∧ PlainLoad (st (s12 gp 0#64 cx)) .d acc ∧ remoteWaits (st (s12 gp 0#64 cx)) acc = false ∧
      isSram (firstAt acc) = false ∧ cellsPoison (readSegs ((st (s12 gp 0#64 cx)).touch acc.ss) (visC cx) acc.ss) = false) ∧
    (let s := { st (s12 gp 0#64 cx) with mem := poisonRange (trees 7 7) 0x10000 8 }
     ∃ acc, LdReady s .b 1 7#10 acc ∧ PlainLoad s .b acc ∧ remoteWaits s acc = false ∧ isSram (firstAt acc) = false ∧ cellsPoison (readSegs (s.touch acc.ss) (visC cx) acc.ss) = true) :=
  ⟨⟨_, ⟨by decide, rfl⟩, .inl (.inr rfl), by decide +kernel, by decide +kernel, by decide +kernel⟩,
    _, ⟨by decide, rfl⟩, .inl (.inr rfl), by decide +kernel, by decide +kernel, by decide +kernel⟩

/-- What a check answers when it passes. -/
def okOf {α β : Type} (d : β) (r : Except α β) : β := match r with | .ok x => x | .error _ => d
theorem okOf_eq {α β : Type} (d : β) (r : Except α β) (h : (match r with | .ok _ => true | .error _ => false) = true) : r = .ok (okOf d r) := by
  unfold okOf
  split at h
  · rfl
  · cases h

/-- A timed context whose data page is locked. -/
def lx : Ctx := { s12 gp bp tx with locked := [(0x10000, 4096)] }

/-- The access of a load that passes its checks. -/
def accOf (s : State) (a : SReg) (z : MemSize) : Access :=
  match checkAccess s false .read (ldstPtr s a 0#10 z) (sizeBytes z) with
  | .ok x => x
  | .error _ => ⟨[], 0⟩

theorem accOf_ok (s : State) (a : SReg) (z : MemSize)
    (h : (match checkAccess s false .read (ldstPtr s a 0#10 z) (sizeBytes z) with | .ok _ => true | .error _ => false) = true) :
    checkAccess s false .read (ldstPtr s a 0#10 z) (sizeBytes z) = .ok (accOf s a z) := by
  unfold accOf
  split at h
  · next x e => rw [e]
  · cases h

/-- A load of the C stream that has reached bank 2; its core; another core of the bay. -/
def ww (n : Nat) (loc : Nat) : WordReq := ⟨4, 0, loc, .ld 3 [] false n, false, bp, 0#64, false, 0, 0⟩
def bp1 : W64 := 0x1008000000020010#64

theorem meets_TimedLoadLands :
    ((st lx).me.timed = true ∧ LdReady (st lx) .d 2 0#10 (accOf (st lx) 2 .d) ∧ PlainLoad (st lx) .d (accOf (st lx) 2 .d) ∧
      remoteWaits (st lx) (accOf (st lx) 2 .d) = false ∧ isSram (firstAt (accOf (st lx) 2 .d)) = true) ∧
    (let w := ww 8 (bankLoc 0 cx 2 16)
     w.op = .ld 3 [] false 8 ∧ 8 ≤ 8 - w.loc % 8 ∧ w.core = cx.coreIdx ∧ cellsPoison (readPlace (st cx) (visC cx) w.loc 8) = false ∧ cx.timed = false ∧ tx.timed = true) ∧
    (let s := { st { s12 bp1 0#64 cx with vcount := 2#32, pend := [⟨30, 0, .remote 1⟩, ⟨31, 1, .remote 1⟩] } with ring := [{ cx with core := 1, launch := 2, vrank := 1#32, life := .resident }] }
     LdReady s .d 1 0#10 (accOf s 1 .d) ∧ PlainLoad s .d (accOf s 1 .d) ∧ remoteWaits s (accOf s 1 .d) = true) :=
  ⟨⟨rfl, ⟨by decide, accOf_ok _ _ _ (by decide +kernel)⟩, .inl (.inr rfl), by decide +kernel, by decide +kernel⟩,
    ⟨rfl, by decide +kernel, by decide +kernel, by decide +kernel, rfl, rfl⟩,
    ⟨by decide, accOf_ok _ _ _ (by decide +kernel)⟩, .inl (.inr rfl), by decide +kernel⟩

theorem meets_PointerCarryTraps :
    (rdS (s12 0x0FFFFFFFFFFFFFFF#64 0#64 cx) 1).toNat / 2 ^ 60 ≠ (ldstPtr (st (s12 0x0FFFFFFFFFFFFFFF#64 0#64 cx)) 1 1#10 .b).toNat / 2 ^ 60 := by decide

theorem noAccs_of (s : State) (h : s.mem.vers = []) (k : s.me.priv = []) : NoAccs s := by
  constructor
  · intro v hv; rw [h] at hv; cases hv
  · intro p hp; rw [k] at hp; cases hp

theorem meets_StoreToBank : (∃ acc g, StReady (st (s12 bp 0#64 cx)) .d 1 0#10 acc ∧ PlainPage (st (s12 bp 0#64 cx)) acc ∧ remoteWaits (st (s12 bp 0#64 cx)) acc = false ∧
      acc.ss = [g] ∧ g.len = sizeBytes .d ∧ isSram g.tr.loc = true ∧ NoAccs (st (s12 bp 0#64 cx))) ∧
    Sound (st cx) ∧ ([1#8, 2#8] : List Byte).length ≤ 8 - bankLoc 0 cx 2 22 % 8 :=
  ⟨⟨_, _, ⟨by decide, rfl, by decide +kernel, by decide +kernel⟩, .inr rfl, by decide +kernel, rfl, rfl, by decide +kernel, noAccs_of _ rfl rfl⟩,
    by unfold Sound; decide +kernel, by decide +kernel⟩

theorem meets_StoreToMemory : ∃ acc, StReady (st (s12 gp 0#64 cx)) .d 1 (-512#10) acc ∧
    PlainPage (st (s12 gp 0#64 cx)) acc ∧ NoAccs (st (s12 gp 0#64 cx)) ∧
    (∀ x ∈ bytesAt acc, isSram x = false ∧ isRecord x = false ∧ inRecPage (st (s12 gp 0#64 cx)) cx x = false) ∧
    (∀ g ∈ acc.ss, isSram g.tr.loc = false ∧ inRecPage (st (s12 gp 0#64 cx)) cx g.tr.loc = false) ∧ (bytesAt acc).Nodup ∧ isSram (firstAt acc) = false :=
  ⟨_, ⟨by decide, rfl, by decide +kernel, by decide +kernel⟩, .inr rfl, noAccs_of _ rfl rfl, by decide +kernel, by decide +kernel, by decide +kernel, by decide +kernel⟩

/-- Pages marked D with an adjoint tree, a tape, the mode FWD or REV (R307 to R311). -/
def dx (m : DMode) (c : Ctx) : Ctx := { c with dmode := m, adjRoot := 0x3000#64, tapeBase := 0x0FFF800040000000#64, tapeLimit := 0x0FFF800040010000#64, tapeHead := 0x0FFF800040000000#64 }
def dst (m : DMode) (c : Ctx) : State :=
  { st (dx m c) with mem := [(0x2008, 0x7FFFF007), (0x4008, 0x7FFFF007)].foldl (fun m e => writeBases m (locPa 0 e.1) (leBytes 8 e.2)) (trees 0x47 7) }

/-- The access of a store that passes its checks. -/
def stOf (s : State) (a : SReg) (z : MemSize) : Access := okOf ⟨[], 0⟩ (checkAccess s false .write (ldstPtr s a 0#10 z) (sizeBytes z))

/-- The state in which FWD has stored the word 7 at gp. -/
def fwdDone : State := let s := settled (.st .w 2 1 0#10) (dst .fwd (s12 gp 7#64 cx)); { s with me := { s.me with dmode := .rev } }

theorem meets_DifferentiableAccesses :
    (let s := dst .rev (s12 gp 7#64 cx)
     LdReady s .w 1 0#10 (accOf s 1 .w) ∧ segsDiff (accOf s 1 .w).ss = true ∧ s.me.dmode = .rev ∧
       (∃ c, cellPlace s .rmw (ldstPtr s 1 0#10 .w) = .ok c ∧ revHolds s (cellLoc c) = false)) ∧
    (let s := dst .fwd (s12 gp 7#64 cx)
     StReady s .w 1 0#10 (stOf s 1 .w) ∧ segsDiff (stOf s 1 .w).ss = true ∧ s.me.dmode = .fwd ∧ (∃ ss, s.access s.me .rmw (ldstPtr s 1 0#10 .w) 4 = .ok ss) ∧
       ∃ s1, tapeAppend .c .cs s.me.knownC 1 4 0#64 (ldstPtr s 1 0#10 .w) (readSegs s (visC s.me) (stOf s 1 .w).ss) s = .ok s1) ∧
    (let s := fwdDone
     StReady s .w 1 0#10 (stOf s 1 .w) ∧ segsDiff (stOf s 1 .w).ss = true ∧ s.me.dmode = .rev ∧
       (∃ c, cellPlace s .rmw (ldstPtr s 1 0#10 .w) = .ok c ∧ revHolds s (cellLoc c) = false) ∧
       ∃ r, tapePop .c 1 0#64 (ldstPtr s 1 0#10 .w) 4 s = .ok r) ∧
    (let s := dst .fwd (s12 gp 7#64 cx)
     LdReady s .d 1 0#10 (accOf s 1 .d) ∧ segsDiff (accOf s 1 .d).ss = true ∧ StReady s .b 1 0#10 (stOf s 1 .b) ∧ segsDiff (stOf s 1 .b).ss = true) := by
  refine ⟨⟨⟨by decide, accOf_ok _ _ _ (by decide +kernel)⟩, by decide +kernel, rfl, _, okOf_eq default _ (by decide +kernel), by decide +kernel⟩,
    ⟨⟨by decide, okOf_eq _ _ (by decide +kernel), by decide +kernel, by decide +kernel⟩, by decide +kernel, rfl, ⟨_, okOf_eq [] _ (by decide +kernel)⟩, _,
      okOf_eq (dst .fwd cx) _ (by decide +kernel)⟩,
    ⟨⟨by decide +kernel, okOf_eq _ _ (by decide +kernel), by decide +kernel, by decide +kernel⟩, by decide +kernel, by decide +kernel,
      ⟨_, okOf_eq default _ (by decide +kernel), by decide +kernel⟩, _, okOf_eq ([], ⟨0, []⟩, fwdDone) _ (by decide +kernel)⟩,
    ⟨by decide, accOf_ok _ _ _ (by decide +kernel)⟩, by decide +kernel, ⟨by decide, okOf_eq _ _ (by decide +kernel), by decide +kernel, by decide +kernel⟩, by decide +kernel⟩

theorem meets_AtomicsAtHome : (∃ acc, atomOp (.atBinc 2 1 2 .dev true) = some (.binc, true, .dev, 2, 1, 2) ∧
      AtomReady (st (s12 gp 3#64 cx)) true .dev 1 acc ∧ isSram (firstAt acc) = false ∧ AtomPlaced (st (s12 gp 3#64 cx)) .binc true 2 1 2 acc ∧
      atomBad (st (s12 gp 3#64 cx)).mem (atomReq (st (s12 gp 3#64 cx)) .binc true 2 2 acc) = false) ∧
    (∃ acc, atomOp (.atFadd 0 1 2 .core) = some (.fadd, true, .core, 0, 1, 2) ∧ AtomReady (st (s12 bp 3#64 cx)) true .core 1 acc ∧ isSram (firstAt acc) = true ∧
      AtomPlaced (st (s12 bp 3#64 cx)) .fadd true 0 1 2 acc) ∧
    (let s := { st (s12 gp 3#64 cx) with mem := poisonRange (trees 7 7) 0x10000 8 }
     ∃ acc, AtomReady s true .dev 1 acc ∧ isSram (firstAt acc) = false ∧ AtomPlaced s .binc true 2 1 2 acc ∧ atomBad s.mem (atomReq s .binc true 2 2 acc) = true) := by
  refine ⟨⟨_, rfl, ⟨.inl (by decide), by decide, rfl, by decide +kernel, by decide +kernel, .inr rfl, by decide +kernel, by decide +kernel⟩, by decide +kernel, ?_, by decide +kernel⟩,
    ⟨_, rfl, ⟨.inr (by decide), by decide, rfl, by decide +kernel, by decide +kernel, .inr rfl, by decide +kernel, by decide +kernel⟩, by decide +kernel, ?_⟩,
    _, ⟨.inl (by decide), by decide, rfl, by decide +kernel, by decide +kernel, .inr rfl, by decide +kernel, by decide +kernel⟩, by decide +kernel, ?_, by decide +kernel⟩
  · intro h _; exact absurd h (by decide +kernel)
  · intro h _; exact absurd h (by decide +kernel)
  · intro h _; exact absurd h (by decide +kernel)

/-- The request of a foreign atomic and of a bank's one; its block at gp is demoted and no sector is free. -/
def fr0 : AtomReq := ⟨.add, false, 0x10000, 1#64, 0#64⟩
def br0 : AtomReq := ⟨.add, false, bankLoc 0 cx 2 16, 1#64, 0#64⟩

theorem meets_ForeignAtomic : Sound (st cx) ∧ isSram br0.loc = true ∧ atomBad (trees 7 7) br0 = false ∧
    (blockParked (st cx) (fr0.loc / 512) = false ∧ (reserveForeign fr0 (st cx)).2 = true ∧ atomBad (trees 7 7) fr0 = false) ∧
    atomBad (poisonRange (trees 7 7) 0x10000 8) fr0 = true ∧ blockParked { st cx with foreign := [(1, fr0)] } (fr0.loc / 512) = true ∧
    Sound { st cx with foreign := [(1, fr0)] } := by
  unfold Sound; decide +kernel

/-- A private write of the C stream at a location, not parked or parked. -/
def pw (loc : Nat) (park : Option (Nat × Nat)) : Priv := ⟨.cs, .plain, [⟨loc, 7#8, false⟩], [], none, 0, park, gp, 0#64, 0, 0, false, none⟩

/-- A version of one byte, published at device scope by another core. -/
def vr : Ver := ⟨1, 1, .dev, 0, 1, 0, 0, 0, 0, 0, 7, [], [⟨0x10000, 9#8, false⟩], none, 0, ⟨.cs, 0, none, 0, false⟩⟩

theorem meets_PublishAndRefresh :
    (covers { cx with priv := [pw 0x10000 none] } .c 10 (pw 0x10000 none).prov = true ∧ (pw 0x10000 none).parked = none ∧ (pw 0x10000 none).kind = .plain) ∧
    (let s := { st cx with mem := { trees 7 7 with vers := [vr] } }
     vr ∈ s.mem.vers ∧ vr.acc = none ∧ (⟨0x10000, 9#8, false⟩ : PCell) ∈ vr.cells ∧ (∀ e ∈ vr.cells, e.loc = 0x10000 → e = ⟨0x10000, 9#8, false⟩) ∧
     available .dev vr.scope (s.placeOf s.me) vr.place = true ∧ (∀ u ∈ s.mem.vers, u ≠ vr → cellAt 0x10000 u.cells = none) ∧
     s.me.view.all (·.cell.loc != 0x10000) = true ∧ s.mem.baseVer.all (·.1 != 0x10000) = true ∧ s.mem.atoms.all (·.1 != 0x10000) = true) := by
  decide +kernel

theorem meets_PhaseOrders : (cx.paced = false ∧ cx.timed = false ∧ boundaryBarred .dom .c (st cx) = false) ∧
    ((st tx).me.paced = true ∧ shortOf .die .c (st tx) = 0) ∧
    (let s := st { cx with priv := [pw 0x10000 (some (1, 2))] }
     s.me.paced = false ∧ boundaryBarred .bay .c s = true) ∧
    (st tx).me.timed = true := by decide +kernel

/-- A context with barrier 511 set. -/
def bx (x : BarSt) : Ctx := cx.setBar 511 x

theorem meets_BarrierSetUp :
    ((s12 1#64 16777215#64 cx).bar? 511 = none ∧ 1 ≤ (rdS (s12 1#64 16777215#64 cx) 1).toNat ∧ (rdS (s12 1#64 16777215#64 cx) 1).toNat ≤ 16777215 ∧
      (rdS (s12 1#64 16777215#64 cx) 2).toNat ≤ 16777215) ∧
    ((bx ⟨.die, 2, false, 0, 0#64, false⟩).bar? 511 ≠ none ∧ rdS cx 0 = 0#64 ∧ 16777215 < (rdS (s12 16777216#64 0#64 cx) 1).toNat) ∧
    (bx ⟨.die, 2, false, 0, 0#64, false⟩).bar? 511 = some ⟨.die, 2, false, 0, 0#64, false⟩ := by decide +kernel

/-- One home of barrier 511, whose generation 0 has the given record. -/
def hx (s : State) (g : BarGen) : BarHome := ⟨unitAt s s.me .die, groupOf s s.me, 511, .die, 2, [g]⟩
def sb (x : BarSt) (g : BarGen) : State := { st (bx x) with bars := [hx (st (bx x)) g] }

theorem meets_BarrierRounds :
    (let x : BarSt := ⟨.die, 2, false, 0, 0#64, false⟩
     (st (bx x)).me.bar? 511 = some x ∧ arrivalDiffers (sb x ⟨0, 1, none, 0#64⟩) 511 x = false ∧ windowFull (sb x ⟨0, 1, none, 0#64⟩) 511 x = false ∧
       boundaryBarred .die .c (sb x ⟨0, 1, none, 0#64⟩) = false) ∧
    (let x : BarSt := ⟨.die, 2, true, 0, 0#64, false⟩
     (sb x ⟨0, 2, some 9, 0#64⟩).me.bar? 511 = some x ∧ x.arrived = true ∧ doneAt (sb x ⟨0, 2, some 9, 0#64⟩) 511 x = some 9 ∧
       doneAt (sb x ⟨0, 1, none, 0#64⟩) 511 x = none ∧ x.proceed = false) := by decide +kernel

theorem meets_BarrierSetUp_wait :
    (let x : BarSt := ⟨.die, 2, true, 0, 0#64, true⟩
     (sb x ⟨0, 1, none, 0#64⟩).me.bar? 511 = some x ∧ x.deadline = 0#64 ∧ x.arrived = true ∧ doneAt (sb x ⟨0, 1, none, 0#64⟩) 511 x = none) := by decide +kernel

theorem meets_BarrierEnds :
    (let x : BarSt := ⟨.die, 2, true, 0, 5#64, true⟩
     (sb x ⟨0, 2, none, 0#64⟩).bars[0]? = some (hx (st (bx x)) ⟨0, 2, none, 0#64⟩) ∧
     deadlineEnds { sb x ⟨0, 1, none, 0#64⟩ with me := { bx x with barWait := some 511 }, ptpTop := 9#64 } 511 = true ∧
     (∀ c ∈ (sb x ⟨0, 1, none, 0#64⟩).ctxs, deadlineEnds ((sb x ⟨0, 1, none, 0#64⟩).seenBy c.launch) 511 = false)) := by decide +kernel

/-- Mailbox 1023 bound to the context of node 0, rank 0, for any sender of its partition; and its messages. -/
def mb (l : List W64) : Mbx := ⟨3, 255, 0x4000000000000000#64, l⟩
def sm (l : List W64) (c : Ctx) : State := { st c with mailboxes := [mb l] }

theorem meets_Mailboxes :
    (let s := sm (List.replicate 15 1#64) (s12 1023#64 0#64 cx)
     boxOf s (rdS s.me 1) = some (mb (List.replicate 15 1#64)) ∧ maySend s s.me (mb (List.replicate 15 1#64)) = true ∧ boundaryBarred .dev .c s = false) ∧
    (let s := sm [5#64] (s12 1023#64 0#64 { cx with nodeDie := 3 })
     boxOf s (rdS s.me 1) = some (mb [5#64]) ∧ isReceiver s.me (mb [5#64]) = true ∧ s.me.timed = false) ∧
    (let s := sm [] (s12 1023#64 0#64 { cx with nodeDie := 3 })
     boxOf s (rdS s.me 1) = some (mb []) ∧ isReceiver s.me (mb []) = true ∧ (mb []).msgs = []) ∧
    (let s := sm [] (s12 1023#64 0#64 { tx with nodeDie := 3 })
     boxOf s (rdS s.me 1) = some (mb []) ∧ isReceiver s.me (mb []) = true ∧ s.me.timed = true) ∧
    (let m := mb (List.replicate 16 1#64)
     let s := sm (List.replicate 16 1#64) (s12 1023#64 0#64 cx)
     boxOf s (rdS s.me 1) = some m ∧ maySend s s.me m = true ∧ 16 ≤ m.msgs.length ∧ isReceiver s.me m = false) ∧
    maySend (st cx) { cx with vmid := 5, part := 0x4225000000#64 } (mb []) = false ∧ 1024 ≤ (rdS (s12 1024#64 0#64 cx) 1).toNat := by decide +kernel

theorem meets_WorkAndModes : ((st cx).me.timed = false ∧ (st tx).me.timed = true) ∧
    (let u : RangeU := ⟨0, 0, 0, 5, 9, 2, 1, 0⟩
     [u][0]? = some u ∧ u.remaining ≠ 0 ∧ u.instances ≠ 0) ∧
    (∃ acc, spaceOf (rdG cx 0) ≠ .scr ∧ spaceOf (rdS (s12 gp 0#64 cx) 1) = .glb ∧ (rdS (s12 gp 0#64 cx) 1).toNat % 256 = 0 ∧
      checkAccess (st (s12 gp 0#64 cx)) true .read gp 256 = .ok acc ∧ boundaryBarred .dev .c (st (s12 gp 0#64 cx)) = false) ∧
    (firstFault (stopStreams (st cx)).me = none ∧ allDrained cx = true ∧ (cx.priv.any (·.parked.isSome)) = false ∧
      spaceShort .dev .c (fun _ => true) (stopStreams (st cx)) = 0) ∧
    (firstFault (stopStreams (st { cx with pend := [⟨9, 0, .s 1 0#64⟩] })).me = none ∧ allDrained { cx with pend := [⟨9, 0, .s 1 0#64⟩] } = false) ∧
    (diffInFlight cx = false ∧ diffParked cx = false ∧ coverParked cx .c 10 = false ∧ spaceShort .core .c (diffCovers (st cx)) (st cx) = 0) ∧
    diffInFlight { cx with cmds := [{ (default : Cmd) with dmode := .rev }] } = true :=
  ⟨⟨rfl, rfl⟩, by decide, ⟨_, by decide, by decide, by decide, rfl, by decide +kernel⟩, by decide +kernel, by decide +kernel, by decide +kernel, by decide +kernel⟩

theorem meets_YieldStops : ((st cx).me.timed = false ∧ requested (st cx) cx = false ∧ (st cx).ptp.toNat < cx.yieldDl.toNat ∧ (st tx).me.timed = true) ∧
    (cx.life = .active ∧ Alone (st { cx with yieldDl := 7#64 }) ∧ (7#64 : W64).toNat ≤ (st { cx with yieldDl := 7#64 }).ptp.toNat) := by
  refine ⟨by decide +kernel, by decide, ?_, by decide +kernel⟩
  intro c h; cases h

theorem meets_TimeAndEvents :
    (let s := st (s12 0x10#64 0#64 { cx with events := 0x10#5 })
     (rdS s.me 1).toNat / 32 % 2 ^ 58 = 0 ∧ (rdS s.me 1).toNat % 32 ≠ 0 ∧ pendingEv s &&& (rdS s.me 1).setWidth 5 ≠ 0#5) ∧
    (let s := st (s12 0x8000000000000001#64 0x1#64 cx)
     (rdS s.me 1).toNat / 32 % 2 ^ 58 = 0 ∧ (rdS s.me 1).toNat % 32 ≠ 0 ∧ (rdS s.me 1).getLsbD 63 = true ∧
     (rdS s.me 2).toNat / 32 % 2 ^ 58 = 0 ∧ (rdS s.me 2).toNat % 32 ≠ 0 ∧ pendingEv s &&& (rdS s.me 2).setWidth 5 = 0#5 ∧ (rdS s.me 2).getLsbD 63 = false) ∧
    (rdS (s12 0x20#64 0#64 cx) 1).toNat / 32 % 2 ^ 58 ≠ 0 ∧ (rdS cx 0).toNat % 32 = 0 := by decide +kernel

/-- The premises of an entry as one test. -/
def canB (t : TrapReq) (s : State) : Bool :=
  s.mem.wf && !s.judging && s.me.life != .vacant && (!s.me.sup || t.cls == 16) && s.me.recPage != 0 && (winTrap s s.me (trapStream t) t.cls).isNone && trapSlotOff t s == 0 &&
  s.me.trapVec != defVecOf s s.me.vmid && s.me.cmds.isEmpty && s.me.acmds.isEmpty && s.me.loads.isEmpty && s.me.rets.isEmpty &&
  (s.me.timed || s.me.pend.isEmpty && s.me.words.isEmpty) && s.me.pend.all fun p => decide (s.clock ≤ p.due)

theorem canEnter_of (t : TrapReq) (s : State) (h : canB t s = true) : CanEnter t s := by
  simp only [canB, Bool.and_eq_true, Bool.not_eq_true', bne_iff_ne, beq_iff_eq, Option.isNone_iff_eq_none, List.isEmpty_iff, Bool.or_eq_true, List.all_eq_true,
    decide_eq_true_eq] at h
  obtain ⟨⟨⟨⟨⟨⟨⟨⟨⟨⟨⟨⟨⟨h1, h2⟩, h0⟩, h3⟩, h4⟩, h6⟩, h7⟩, h8⟩, h9⟩, h10⟩, h11⟩, h12⟩, h13⟩, h14⟩ := h
  exact ⟨h1, h2, h0, fun hs => h3.resolve_left (by simp [hs]), h4, h6, h7, h8, h9, h10, h11, h12, fun ht => h13.resolve_left (by simp [ht]), h14⟩

/-- A held asynchronous trap; a latched interrupt. -/
def hs : State := st { cx with held := [⟨10, []⟩], heldAt := 9 }
def is : State := st { cx with irq := 0x40#7, irqAt := 9, status := 2#2 }

theorem meets_TrapsEnter :
    CanEnter ⟨1, .m, 0, []⟩ { st cx with me := { (st cx).me with trapWait := none } } ∧
    CanEnter ⟨11, .c, 0, []⟩ (st { tx with pend := [⟨12, 1, .s 4 1#64⟩] }) ∧ CanEnter ⟨12, .c, 0, []⟩ (st cx) ∧
    (hs.me.life = .active ∧ hs.me.held = [⟨10, []⟩] ∧ hs.me.heldAt < hs.cycle ∧ hs.me.trapWait = none ∧
       CanEnter ⟨10, .c, 0, []⟩ { hs with me := { hs.me with held := [] } }) ∧
    (is.me.life = .active ∧ is.me.irq ≠ 0#7 ∧ is.me.irqAt < is.cycle ∧ is.me.status = 2#2 ∧ is.me.trapWait = none ∧ CanEnter ⟨16, .c, 0, []⟩ is) :=
  ⟨canEnter_of _ _ (by decide +kernel), canEnter_of _ _ (by decide +kernel), canEnter_of _ _ (by decide +kernel),
    ⟨by decide, rfl, by decide, rfl, canEnter_of _ _ (by decide +kernel)⟩, by decide, by decide, by decide, by decide, rfl, canEnter_of _ _ (by decide +kernel)⟩

/-- A node of the catalogue of die 0 in some state. -/
def nd (i : Nat) (x : NodeSt) : Node := { (default : Node) with idx := i, st := x, v := 1, nbank := 4, nacc := 1, nops := 1 }

/-- A command in flight under tag 127. -/
def cm (k : CmdKind) (x : CmdSt) : Cmd := { (default : Cmd) with id := 5, kind := k, tag := 127, st := x }

/-- A handler whose node runs; a context with a collective in flight. -/
def ns : State := { st { cx with status := 1#2 } with nodes := [nd 0 .running] }
def cs : State := st { cx with cmds := [cm .colAg .running] }

theorem meets_TrapsElsewhere :
    (CanEnter ⟨7, .c, 0, []⟩ (st cx) ∧ ∀ c ∈ (st cx).ring, c.launch ≠ cx.launch) ∧
    (ns.judging = false ∧ ns.me.sup = true ∧ ns.node? 0 0 = some (nd 0 .running)) ∧
    (cs.judging = false ∧ cs.me.sup = false ∧ cs.me.timed = false ∧ cs.me.cmds = [cm .colAg .running] ∧ (cm .colAg .running).isCol = true ∧
       (cm .colAg .running).st ≠ .armed ∧ cs.me.acmds = [] ∧ cs.me.loads = [] ∧ cs.me.rets = [] ∧ cs.me.pend = []) :=
  ⟨⟨canEnter_of _ _ (by decide +kernel), by decide⟩, ⟨rfl, by decide, rfl⟩, rfl, by decide, rfl, rfl, by decide, by decide, rfl, rfl, rfl, rfl⟩

/-- A handler with a valid frame. -/
def fr : Frame := ⟨[⟨4#64, 8#64, 2#64⟩], [], [], [0, 0, 0, 0], [0#64, 0#64, 0#64, 0#64], none, none⟩
def hd : Ctx := { cx with status := 1#2, frame := some fr }
/-- A second context of the core, resident in the other bank. -/
def ox : Ctx := { cx with bank := 1, launch := 2, life := .resident }

theorem meets_ReturnsAndSwitches :
    (hd.sup = true ∧ hd.frame = some fr ∧ handlerPending hd = false ∧ eretReplay fr (st hd) = none) ∧
    (let f := { fr with replay := some (pw 0x10000 none) }
     let s := { st hd with mem := writeBases (trees 7 7) (locPa 0 0x30008) (leBytes 8 4) }
     eretReplay f s = some (pw 0x10000 none) ∧ (pw 0x10000 none).kind = .plain) ∧
    handlerPending { hd with pend := [⟨9, 0, .s 1 0#64⟩] } = true ∧
    (cx.sup = false ∧ ({ hd with frame := none } : Ctx).frame = none) ∧
    (let s := { st hd with ring := [ox] }
     s.me.sup = true ∧ s.me.timed = false ∧ otherBank s s.me = some ox ∧ ox.launch ≠ s.me.launch) ∧
    otherBank (st hd) hd = none := by decide +kernel

theorem meets_SpecialRegisters :
    (mayRead false .tapeHead = true ∧ mayRead true .trapCause = true) ∧
    (mayWrite false .tapeBase = true ∧ csrHeld .tapeBase cx = false ∧ (cx.timed && cx.sup) = false) ∧
    (mayWrite true .trapVec = true ∧ csrHeld .trapVec { tx with status := 1#2 } = false ∧ ({ tx with status := 1#2 } : Ctx).sup = true) ∧
    (mayRead false .trapVec = false ∧ mayWrite false .status = false ∧ mayWrite true .dmode = false) ∧
    (mayWrite false .tapeLimit = true ∧ csrHeld .tapeLimit { cx with cmds := [{ cm .cpIn .running with dmode := .fwd }] } = true) ∧
    (0x07E80005 / 2 ^ 22 % 64 = 0x1F ∧ 0x07E80005 % 2 ^ 12 = 5 ∧ 0x08402FFF / 2 ^ 22 % 64 = 0x21) := by decide +kernel

/-- A descriptor that arms bank 3 for frames of type 0x88B5 on port 0, in bank 2 (R184). -/
def armBytes : List Byte := leBytes 8 (3 + 2 ^ 16 + 0x88B5 * 2 ^ 48)
def ax : Ctx := g12 0x1FF8000000020020#64 0x01FF#64 cx
def as : State := { st ax with mem := writeBases (trees 7 7) (bankLoc 0 ax 2 32) armBytes }

theorem meets_StreamASettings :
    ((3 : BankNo).val < cx.nbank ∧ cx.isArmed 3 = false ∧ cx.nbank ≤ (4 : BankNo).val) ∧
    (let c := { cx with arm := [⟨3, 0x88B5, 0, 1, 0⟩] }
     (3 : BankNo).val < c.nbank ∧ c.isArmed 3 = true ∧ c.landed = [] ∧ c.arm ≠ []) ∧
    ((rdG (g12 0x0101#64 0xFFFF#64 cx) 1).toNat < 2 ^ 16 ∧ (rdG (g12 0x0101#64 0xFFFF#64 cx) 2).toNat < 2 ^ 16 ∧ (rdG (g12 0x0101#64 0xFFFF#64 cx) 2).toNat % 256 ≠ 0 ∧
      (rdG (g12 0x0101#64 0xFFFF#64 cx) 1).toNat / 256 ≠ 0) ∧
    (2 ^ 16 ≤ (rdG (g12 0x10000#64 0x0100#64 cx) 1).toNat ∧ (rdG (g12 0x10000#64 0x0100#64 cx) 2).toNat % 256 = 0 ∧ (rdG (g12 0x00FF#64 0#64 cx) 1).toNat / 256 = 0) ∧
    (let d := okOf [] (readForA as (visA ax) (rdG ax 1) 32)
     spaceOf (rdG as.me 1) = .scr ∧ (rdG as.me 1).toNat % 32 = 0 ∧ d = armBytes ++ List.replicate 24 0#8 ∧ armBad d = false ∧ leNat d % 64 < ax.nbank ∧
       ax.bankFmt (leNat d % 64) = .raw ∧ ax.isArmed (leNat d % 64) = false ∧ bankBusy as (leNat d % 64) = false) ∧
    (({ cx with landed := [3] } : Ctx).landed = [3] ∧ cx.landed = [] ∧ cx.arm = []) := by decide +kernel

/-- Register g1 holds a pointer or a value; the layout registers hold 0: one row of one raw byte. -/
def gs (v : W64) (c : Ctx) : State := st (g12 v 0#64 c)

/-- 127 or 128 commands in flight. -/
def many (n : Nat) (c : Ctx) : Ctx := { c with cmds := List.replicate n (cm .cpIn .running) }

theorem meets_CopiesIssue :
    (copyOp (.cpIn 1 3 0 127 true 0xFE000000#32) = some (.cpIn, 1, 3, 0, 127, true, 0xFE000000) ∧ (gs gp (many 127 cx)).me.timed = false ∧
      (gs gp (many 127 cx)).me.cmds.length < 128 ∧ (∃ ss, cmdChecks (gs gp (many 127 cx)) (newCmd .cpIn 1 3 0 127 true 0xFE000000 (gs gp (many 127 cx))) = .ok ss ∧
        segsDiff ss = false) ∧ cx.diffWait = false) ∧
    (copyOp (.cpFill 1 0 0 0 false 0#32) = some (.cpFill, 1, 0, 0, 0, false, 0) ∧ (gs gp tx).me.timed = true ∧
      ∃ ss, cmdChecks (gs gp tx) (newCmd .cpFill 1 0 0 0 false 0 (gs gp tx)) = .ok ss ∧ segsDiff ss = false ∧
        cmdTier (gs gp tx) (newCmd .cpFill 1 0 0 0 false 0 (gs gp tx)) ss = some 4) ∧
    (128 ≤ (many 128 cx).cmds.length ∧ (many 128 cx).timed = false ∧ (many 128 tx).timed = true) ∧
    (∃ e, cmdChecks (gs 0#64 cx) (newCmd .cpIn 1 3 0 127 true 0 (gs 0#64 cx)) = .error e) ∧ cx.nbank ≤ (4 : BankNo).val :=
  ⟨⟨rfl, rfl, by decide +kernel, ⟨_, okOf_eq [] _ (by decide +kernel), by decide +kernel⟩, rfl⟩,
    ⟨rfl, rfl, _, okOf_eq [] _ (by decide +kernel), by decide +kernel, by decide +kernel⟩, by decide +kernel, ⟨_, rfl⟩, by decide⟩

/-- A context whose layout register l5 describes one FP32 element and whose communicator 3 is this device alone; with a bucket. -/
def kx (b : List Bucket) : Ctx := { g12 gp 0#64 cx with l := cx.l.set 5 0x1000000000000000#64, buckets := b }
def ks (b : List Bucket) : State := { st (kx b) with comms := [(0, 3, [0])] }
def bk (n : Nat) (a : Option Nat) : Bucket := ⟨[(0x10000, 4)], gp, 4, .dev, n, a⟩

theorem meets_CollectivesIssue :
    (colOp (.colRed 1 3 5 0 false 0#28) = some (.colRed, 1, 3, 5, 0, false, 0) ∧ colIllegal (ks []) (newCol .colRed 1 3 5 0 false 0 (ks [])) = false ∧
      (ks []).me.cmds.length < 128 ∧ (∃ ss, colSegs (ks []) (newCol .colRed 1 3 5 0 false 0 (ks [])) = .ok ss) ∧ (ks []).me.diffWait = false ∧ (0 : Nat) / 2 ^ 27 % 2 = 0) ∧
    (colIllegal (ks [bk 3 none]) (newCol .colRed 1 3 5 0 false (2 ^ 27) (ks [bk 3 none])) = false ∧
      (∃ ss, colSegs (ks [bk 3 none]) (newCol .colRed 1 3 5 0 false (2 ^ 27) (ks [bk 3 none])) = .ok ss) ∧ 2 ^ 27 / 2 ^ 27 % 2 = 1 ∧
      (ks [bk 3 none]).me.buckets.find? (·.base == rdG (ks []).me 1) = some (bk 3 none) ∧ (bk 3 none).armed = none ∧
      (bk 3 none).total = colBytes (newCol .colRed 1 3 5 0 false (2 ^ 27) (ks [bk 3 none])) ∧ (bk 3 none).count < (bk 3 none).total) ∧
    colIllegal (ks []) (newCol .colRed 1 4 5 0 false 0 (ks [])) = true ∧ (st tx).me.timed = true :=
  ⟨⟨rfl, by decide +kernel, by decide, ⟨_, okOf_eq [] _ (by decide +kernel)⟩, rfl, by decide⟩,
    ⟨by decide +kernel, ⟨_, okOf_eq [] _ (by decide +kernel)⟩, by decide, by decide +kernel, rfl, by decide +kernel, by decide⟩, by decide +kernel, rfl⟩

/-- The armed collective of a full bucket. -/
def ac : Cmd := cm .colRed .armed
def fs : State := { ks [bk 4 (some 5)] with me := { kx [bk 4 (some 5)] with cmds := [ac] } }
/-- Fifteen buckets elsewhere. -/
def fifteen : List Bucket := List.replicate 15 { bk 0 none with base := 64#64 }

theorem meets_BucketsFire :
    (spaceOf (rdG (g12 gp 1#64 (kx fifteen)) 1) = .glb ∧ 1 ≤ (rdG (g12 gp 1#64 (kx fifteen)) 2).toNat ∧ (rdG (g12 gp 1#64 (kx fifteen)) 2).toNat < 2 ^ 32 ∧
      (kx fifteen).buckets.length < 16 ∧ ∃ ss, (st (g12 gp 1#64 (kx fifteen))).access (g12 gp 1#64 (kx fifteen)) .read gp 1 = .ok ss) ∧
    (spaceOf (rdG (g12 bp 0#64 cx) 1) ≠ .glb ∧ rdG (g12 bp 0#64 cx) 2 = 0#64 ∧ 2 ^ 32 ≤ (rdG (g12 gp 0x100000000#64 cx) 2).toNat ∧
      (({ g12 gp 1#64 cx with buckets := { bk 0 none with base := 64#64 } :: fifteen } : Ctx).buckets.find? (·.base == gp)) = none ∧
      16 ≤ ({ bk 0 none with base := 64#64 } :: fifteen).length) ∧
    (fs.me.buckets.find? (·.base == (bk 4 (some 5)).base) = some (bk 4 (some 5)) ∧ (bk 4 (some 5)).armed = some 5 ∧ (bk 4 (some 5)).total ≤ (bk 4 (some 5)).count ∧
      Mine fs 5 ac) :=
  ⟨⟨by decide, by decide, by decide, by decide, _, okOf_eq [] _ (by decide +kernel)⟩, by decide +kernel, by decide +kernel, rfl, by decide, rfl⟩

/-- A sealed buffer of one one-byte block (R275 to R277): colophon with its CRC, block header, payload. -/
def colBytesAt (sealed : Nat) : List Byte :=
  leBytes 64 (0x4B434C50 * 2 ^ 480 + 9 * 2 ^ 469 + sealed * 2 ^ 468 + 1 * 2 ^ 400 + 128 * 2 ^ 336 + 0x07B0001E)
def blkBytes : List Byte := leBytes 16 (80 * 2 ^ 64 + 1 * 2 ^ 40 + 1 * 2 ^ 16) ++ [0x5A#8]
def es (sealed : Nat) (c : Ctx) : State := { st c with mem := writeBases (trees 7 7) 0x10000 (colBytesAt sealed ++ blkBytes) }
/-- A command that moves blocks (EXP = 2), before its first block. -/
def xc : Cmd := { cm .cpIn .running with ptr := gp, lay := 0x20000#64, tag := 3 }
/-- A CP.FILL of the last row of bank 2, ready to move. -/
def fc : Cmd := { cm .cpFill .running with ptr := 0x5A#64, bank := 2, w1 := 127 * 2 ^ 25 }
def ms : State := st { cx with cmds := [fc] }
def mvState (m : Mv) : State := match m with | .ok s => s | .fault s _ => s | .page s _ _ => s
theorem mvState_eq (m : Mv) (h : (match m with | .ok _ => true | _ => false) = true) : m = .ok (mvState m) := by
  cases m with
  | ok s => rfl
  | fault s f => cases h
  | page s d r => cases h
/-- An all-gather over one rank, running; its memory is the buffer at gp. -/
def gc : Cmd := { cm .colAg .running with ptr := gp, bank := 3, lay := 0x1000000000000000#64 }
def gst : State := { st { cx with cmds := [gc] } with comms := [(0, 3, [0])] }
def gst1 : State := touchRuns gc.ptr [(0, gc.count * elemBytes gc.other)] gst
/-- A recorded fault under tag 9. -/
def tf : TagFault := ⟨⟨5, 1, 0, 0, gp⟩, 0#64, gp, 0, 0, [], false⟩

theorem meets_CommandsEnd :
    (let s := st { cx with cmds := [cm .cpIn .waiting, { cm .cpIn .waiting with id := 6 }] }
     Mine s 5 (cm .cpIn .waiting) ∧ (cm .cpIn .waiting).st = .waiting ∧ ∀ d ∈ s.me.cmds, d.tag = (cm .cpIn .waiting).tag → (cm .cpIn .waiting).id ≤ d.id) ∧
    (Mine (es 1 { cx with cmds := [xc] }) 5 xc ∧ xc.st = .running ∧ expLeft (es 1 { cx with cmds := [xc] }) xc ≠ 0 ∧
      ∃ col bs, colOf (es 1 { cx with cmds := [xc] }) xc = .ok col ∧ expandNext (es 1 { cx with cmds := [xc] }) xc col = .ok bs) ∧
    (Mine ms 5 fc ∧ moveReady ms fc = true ∧ mvCopy fc ms = .ok (mvState (mvCopy fc ms)) ∧ cmdParked (mvState (mvCopy fc ms)) 5 = false ∧ fc.id = 5 ∧
      Sound ms ∧ fc.kind = .cpFill ∧ fc.skip = [] ∧ fc.row0 + layRows fc.lay ≤ 128 ∧ (fillRow fc.fmt (layCols fc.lay) (fc.ptr.setWidth 32)).length ≤ 512) ∧
    (Mine ms 5 fc ∧ fc.id = 5 ∧ (ms.me.tag fc.tag).fault = none ∧ fc.tape = none) ∧
    (Mine gst 5 gc ∧ gc.id = 5 ∧ gc.isCol = true ∧ gc.st = .running ∧ gst.me.core ≠ 9 ∧
      mvCollective gc ⟨[], false⟩ gst1 = (.ok (mvState (mvCollective gc ⟨[], false⟩ gst1).1), false) ∧
      (mvState (mvCollective gc ⟨[], false⟩ gst1).1).me.core = gst.me.core ∧ cmdParked (mvState (mvCollective gc ⟨[], false⟩ gst1).1) 5 = false ∧
      gc.tape = none ∧ (gst.me.tag gc.tag).fault = none) ∧
    ((cx.cmds.any fun x => x.tag == (127 : TagNo).val) = false ∧ (cx.tag 127).fault = none) ∧
    (({ cx with cmds := [fc] } : Ctx).cmds.any fun x => x.tag == (127 : TagNo).val) = true ∧
    ((cx.setTag 9 ⟨0, some tf, none, false⟩).cmds.any fun x => x.tag == (9 : TagNo).val) = false ∧ ((cx.setTag 9 ⟨0, some tf, none, false⟩).tag 9).fault = some tf := by
  refine ⟨⟨rfl, by decide⟩, ⟨rfl, rfl, by decide +kernel, _, _, okOf_eq [] _ (by decide +kernel), okOf_eq [] _ (by decide +kernel)⟩,
    ⟨rfl, by decide +kernel, mvState_eq _ (by decide +kernel), by decide +kernel, rfl, by unfold Sound; decide +kernel, rfl, rfl, by decide, by decide⟩,
    ⟨rfl, rfl, rfl, rfl⟩, ⟨rfl, rfl, rfl, rfl, by decide, Prod.ext (mvState_eq _ (by decide +kernel)) (by decide +kernel), by decide +kernel, by decide +kernel, rfl, rfl⟩,
    by decide, by decide, by decide, rfl⟩

/-- A shadow descriptor of two rows of four bytes, one page apart, from the page after gp's (R174). -/
def shdBytes : List Byte := leBytes 64 (0x0FFF800000011000 + 4 * 2 ^ 64 + 2 * 2 ^ 96 + 4096 * 2 ^ 128)
def ss0 (c : Ctx) : State := { st (g12 gp 2#64 c) with mem := writeBases (trees 7 7) 0x10000 shdBytes }
def sh : Shadow := ⟨[(0, 0x11000, 4), (1, 0x12000, 4)], gp, 0x0FFF800000011000#64, 4, 2, 4096, [], []⟩
def seven : List Shadow := List.replicate 7 { sh with base := 0x0FFF800000021000#64, ext := [] }
def rowsAt (s : State) : List (Nat × List Seg) := okOf [] (rowSegs s (shdDesc shdBytes) 2 0)

theorem meets_SealsAndShadows :
    (∀ b < 2, spaceOf (rdG (g12 gp 0#64 cx) 1) = .glb ∧ (rdG (g12 gp 0#64 cx) 1).toNat % 64 = 0 ∧
      okOf [] (readForA (es b (g12 gp 0#64 cx)) [] gp 64) = colBytesAt b ∧ colValid (colBytesAt b) = true ∧ colSealed (colBytesAt b) = decide (b = 1) ∧
      (bufferSegs (es b (g12 gp 0#64 cx)) gp (colBytesAt b)).isOk = true ∧ boundaryBarred .dev .a (es b (g12 gp 0#64 cx)) = false ∧ (es b (g12 gp 0#64 cx)).me.priv = []) ∧
    (okOf [] (readShd (ss0 { cx with shadows := seven }) gp) = shdBytes ∧ shdBad shdBytes = false ∧ ({ cx with shadows := seven } : Ctx).shadows.length < 8 ∧
      (rowSegs (ss0 { cx with shadows := seven }) (shdDesc shdBytes) 2 0).isOk = true ∧
      (let r := (rowsAt (ss0 { cx with shadows := seven })).flatMap (·.2)
       segsDiff r = false ∧ sealedHit (ss0 cx).mem r = false ∧ recPageHit (ss0 cx) true r = false ∧ shadowHit (ss0 { cx with shadows := seven }) true r = false)) ∧
    (okOf [] (readShd (ss0 { cx with shadows := [sh] }) gp) = shdBytes ∧ [sh].find? (isShadow (shdDesc shdBytes)) = some sh ∧ sh.nrows ≠ 0 ∧
      writersLeft { cx with shadows := [sh] } = false ∧ writerFault { cx with shadows := [sh] } = none ∧ (rdG (g12 gp 2#64 cx) 2).toNat ≤ sh.nrows ∧ (rdG cx 0).toNat ≤ sh.nrows ∧
      swapShort .dev sh 2 (ss0 { cx with shadows := [sh] }) = 0) ∧
    (let s := { st (g12 gp 2#64 cx) with mem := writeBases (trees 7 7) 0x10000 (leBytes 64 (0x0FFF800000011000 + 4 * 2 ^ 64)) }
     (readForA s (visA s.me) gp 64).isOk = true ∧ shdBad (okOf [] (readForA s (visA s.me) gp 64)) = true) ∧
    writersLeft { cx with shadows := [sh], cmds := [cm .cpOut .running] } = true ∧ (writerFault (cx.setTag 9 ⟨0, some tf, some tf, false⟩)) = some (9, tf) ∧
    seven.find? (isShadow (shdDesc shdBytes)) = none := by decide +kernel

/-- The context with slot handle m31 in some state on granule 3, banks 0 and 3 in formats of their own. -/
def mx (x : SlotSt) : Ctx := { cx with ms := cx.ms.set 31 ⟨x, 3, ⟨.fp16, [], none⟩⟩, bf := (cx.bf.set 0 .fp16).set 3 .int32, backSlots := [2] }

/-- Bank 1 filled with well-formed 2:4 metadata, positions 0 and 1 in every group. -/
def metaCells (x n : Nat) : List Host.Cell := (List.range' x n).map fun a => (a, 0x44#8)
theorem getCell_metaCells (n : Nat) : ∀ x i : Nat, i < n → getCell (x + i) (metaCells x n) = 0x44#8 := by
  induction n with
  | zero => intro x i h; omega
  | succ n ih =>
    intro x i h
    simp only [metaCells, List.range'_succ, List.map_cons, getCell]
    cases i with
    | zero => simp
    | succ i =>
      rw [if_neg (by omega), show x + (i + 1) = (x + 1) + i by omega]
      exact ih (x + 1) i (by omega)
def mst : State := { st (mx .claimed) with mem := { Mem.empty with base := metaCells (bankLoc 0 cx 1 0) 65536 } }
theorem bankLoc_off (r : Nat) (c : Ctx) (b o : Nat) : bankLoc r c b o = bankLoc r c b 0 + o := by simp [bankLoc, locSram]
theorem metaRows (r : List Byte) (h : r ∈ rowsFrom mst 1 0 32) : metaOk r 256 = true := by
  simp only [rowsFrom, List.mem_map, List.mem_range] at h
  obtain ⟨k, hk, rfl⟩ := h
  have hb : bankRowBytes mst 1 (0 + k) 32 = List.replicate 32 0x44#8 := by
    unfold bankRowBytes
    refine List.ext_getElem (by simp) fun i h1 _ => ?_
    simp only [List.length_map, List.length_range] at h1
    rw [List.getElem_map, List.getElem_range, List.getElem_replicate]
    have hp : mst.mem.poison = [] := rfl
    have hb : mst.mem.base = metaCells (bankLoc 0 cx 1 0) 65536 := rfl
    have hx : bankLoc mst.rank mst.me 1 (512 * ((0 + k) % 128)) + i = bankLoc 0 cx 1 0 + (512 * ((0 + k) % 128) + i) := by
      rw [bankLoc_off, show bankLoc mst.rank mst.me 1 0 = bankLoc 0 cx 1 0 from rfl, Nat.add_assoc]
    rw [hp, List.contains_nil, if_neg Bool.false_ne_true, readBase, hb, hx]
    exact getCell_metaCells _ _ _ (by omega)
  rw [hb]; decide +kernel

theorem meets_SlotsAndPatterns :
    (cx.ms[(31 : MReg)].st = .unbound ∧ cx.freeSlots = [3] ∧ (mx .loaded).ms[(31 : MReg)].st ≠ .unbound ∧ ({ cx with freeSlots := [] } : Ctx).freeSlots = []) ∧
    (2 ∈ (mx .claimed).backSlots ∧ granBusy (mx .claimed) 2 10 = false) ∧
    ((mx .claimed).ms[(31 : MReg)].st ≠ .unbound ∧ (0 : BankNo).val < (mx .claimed).nbank ∧ (mx .claimed).bankFmt 0 ≠ .raw ∧ (mx .claimed).isArmed 0 = false ∧
      granBusy (mx .claimed) 3 10 = false ∧ CleanRows (st (mx .claimed)) 0 255 (lineBytes .fp16 false)) ∧
    ((mx .claimed).ms[(31 : MReg)].st ≠ .unbound ∧ 0 + (1#3).toNat < (mx .claimed).nbank ∧ (mx .claimed).bankFmt 0 = .fp16 ∧ fmtScaled .fp16 = false ∧
      (mx .claimed).bankFmt 1 = .raw ∧ (mx .claimed).isArmed 1 = false ∧ (∀ r ∈ rowsFrom mst 1 0 (folioWidth .fp16 / 8), metaOk r (folioWidth .fp16) = true) ∧
      CleanRows mst 0 0 (lineBytes .fp16 true) ∧ CleanRows mst 1 0 (folioWidth .fp16 / 8)) ∧
    ((mx .claimed).nbank ≤ (4 : BankNo).val ∧ (mx .claimed).bankFmt 2 = .raw ∧ ({ mx .claimed with arm := [⟨0, 1, 0, 1, 0⟩] } : Ctx).isArmed 0 = true) ∧
    (∀ c ∈ (st cx).ctxs, ∀ a ∈ c.acmds, a.id ≠ 5) ∧ patOp (.ident 0x81#8) = some (.ident (-127)) ∧
    (AtFront (st (qd 6 [8131#64] (mx .claimed))) 6 8131#64 ∧ (8131#64 : W64).toNat < 2 ^ 13 ∧ (8131#64 : W64).toNat % 64 < 4 ∧ (mx .claimed).bankFmt (8131 % 64) = .int32 ∧
      bankRowPoison (st (mx .claimed)) 3 127 512 = false) ∧
    ((qd 2 [1#64, 2#64, 3#64] cx).queue 2).fronts? (((9#4).toNat + 3) / 4) 10 = some [1#64, 2#64, 3#64] ∧
    (let v : W64 := BitVec.ofNat 64 (8 + 23 * 2 ^ 5 + 1 * 2 ^ 10 + 0xFFFFFF * 2 ^ 34)
     AtFront (st (qd 6 [v] (mx .claimed))) (if true then 6 else 2) v ∧ (mx .claimed).bankFmt 3 = .int32 ∧ v.toNat < 2 ^ 58 ∧ v.toNat / 2 ^ 10 % 2 ^ 24 ≠ 0 ∧
       v.toNat / 2 ^ 5 % 32 + 1 ≤ 24 ∧ v.toNat % 32 + (v.toNat / 2 ^ 5 % 32 + 1) ≤ 32) := by
  refine ⟨by decide +kernel, by decide +kernel, ⟨by decide +kernel, by decide +kernel, by decide +kernel, by decide +kernel, by decide +kernel, fun _ _ => rfl⟩,
    ⟨by decide +kernel, by decide +kernel, by decide +kernel, by decide +kernel, by decide +kernel, by decide +kernel, metaRows, fun _ _ => rfl, fun _ _ => rfl⟩, by decide +kernel, by decide +kernel, rfl,
    ⟨rfl, by decide +kernel, by decide +kernel, by decide +kernel, rfl⟩, by decide +kernel, rfl, by decide +kernel, by decide +kernel, by decide +kernel, by decide +kernel, by decide +kernel⟩

/-- Bay 0 with a term of context 1 that has counted n commands, and pending requests. -/
def by0 (t : Option Term) (r : List LReq) : Bay := { Bay.fresh 0 0 with term := t, reqs := r }
def bst (t : Option Term) (r : List LReq) (c : Ctx) : State := { st c with bays := [by0 t r] }
def bf32 : Ctx := { cx with bf := cx.bf.set 3 .fp32, backPairs := [2] }

theorem meets_AccumulatorsAndLeases :
    ((3 : BankNo).val < bf32.nbank ∧ bf32.bankFmt 3 = .fp32 ∧ bf32.freePairs ≠ [] ∧ CleanRows (st bf32) 3 1 512) ∧ bf32.nbank ≤ (4 : BankNo).val ∧
    (bf32.bankFmt 0 ≠ .fp32 ∧ bf32.bankFmt 0 ≠ .int32 ∧ bf32.ks[(31 : KReg)].st = .empty ∧ ({ bf32 with freePairs := [] } : Ctx).freePairs = []) ∧
    ({ bf32 with ks := bf32.ks.set 31 { Acc.fresh with st := .seeded } } : Ctx).ks[(31 : KReg)].st ≠ .empty ∧
    (2 ∈ bf32.backPairs ∧ pairBusy bf32 2 10 = false) ∧ (termOf (bst (some ⟨1, 0, 15⟩) [] cx)).isSome = true ∧ termOf (bst (some ⟨2, 0, 0⟩) [] cx) = none ∧
    (let s := bst none [⟨1, 9⟩, ⟨2, 3⟩] cx
     grantDue s (s.bay 0 0) = true ∧ chooseReq s (s.bay 0 0) = some ⟨1, 9⟩) := by
  refine ⟨⟨by decide, by decide, by decide, fun _ _ => rfl⟩, by decide, by decide, by decide, by decide, by decide, by decide, by decide +kernel⟩

/-- Slot m1 holds a folio, p5 a pattern, k3 an accumulator; context 1 has a term with one command left. -/
def px (f : Fmt) (k : Acc) (cix : Nat) : Ctx := { cx with
  ms := cx.ms.set 1 ⟨.loaded, 3, ⟨f, [], none⟩⟩, ps := cx.ps.set 5 (.ident 0), ks := cx.ks.set 3 k, cix := cix }
def ps (f : Fmt) (k : Acc) (cix : Nat) : State := bst (some ⟨1, 0, 15⟩) [] (px f k cix)
def sd : Acc := { Acc.fresh with st := .seeded }
def tg (o : Bool) (i : Nat) : Acc := ⟨.tagged, false, 0, i, o, false, 0⟩
def two : Ctx := { cx with ks := (cx.ks.set 4 (tg false 6)).set 5 (tg false 7) }
def twoSt : State := bst (some ⟨1, 0, 0⟩) [] two
/-- An array command in flight. -/
def am (b : Bool) : ACmd := { (default : ACmd) with id := 5, kind := .grid, started := b, occ := 128, done := 10 }

theorem meets_ArrayCommands :
    (mmaOp (.mmaZ true 3 (.slot 1) .r (.pat 5) .r) = some (false, true, 3, .slot 1, .r, .pat 5, .r) ∧ MmaReady (ps .fp16 Acc.fresh 7) false 3 (.slot 1) .r (.pat 5) .r false) ∧
    (MmaReady (ps .fp16 sd 0) true 3 (.slot 1) .c (.slot 1) .w false ∧ (ps .fp16 sd 0).me.ks[(3 : KReg)].st = .seeded ∧ (ps .fp16 sd 0).me.cix = 0) ∧
    (MmaReady (ps .fp32 (tg true 7) 8) true 3 (.slot 1) .r (.slot 1) .r false ∧ (px .fp32 (tg true 7) 8).ks[(3 : KReg)].isOpen = true ∧
      mmaFp32 (ps .fp32 (tg true 7) 8) (.slot 1) (.slot 1) = true) ∧
    (MmaReady (ps .fp32 (tg false 7) 8) true 3 (.slot 1) .r (.slot 1) .r false ∧ MmaReady (ps .fp16 sd 1) true 3 (.slot 1) .r (.slot 1) .r false) ∧
    (accepts (bst none [] cx) (mmaStart (bst none [] cx) false 3 (.slot 1) (.pat 5)) (mmaOcc (bst none [] cx) (.slot 1) (.pat 5)) = false ∧
      accepts (bst none [] tx) (mmaStart (bst none [] tx) false 3 (.slot 1) (.pat 5)) (mmaOcc (bst none [] tx) (.slot 1) (.pat 5)) = false ∧ tx.timed = true) ∧
    (accepts twoSt (mmaStart twoSt false 3 (.slot 1) (.pat 5)) (mmaOcc twoSt (.slot 1) (.pat 5)) = true ∧ selLoaded two (.slot 1) = false ∧ selSet two (.pat 5) = false ∧
      mmaPair two (.slot 1) (.pat 5) = none) ∧
    (accepts twoSt (startOf twoSt .fold [] [two.ks[(4 : KReg)].pair, two.ks[(5 : KReg)].pair]) 128 = true ∧ two.freePairs ≠ [] ∧ foldInput two.ks[(4 : KReg)] = true ∧
      foldInput two.ks[(5 : KReg)] = true ∧ two.ks[(4 : KReg)].int = two.ks[(5 : KReg)].int ∧ two.ks[(4 : KReg)].level = two.ks[(5 : KReg)].level ∧
      two.ks[(4 : KReg)].index % 2 = 0 ∧ two.ks[(5 : KReg)].index = two.ks[(4 : KReg)].index + 1) ∧
    (accepts twoSt (startOf twoSt .fold [] [two.ks[(4 : KReg)].pair]) 128 = true ∧ two.ks[(5 : KReg)].index % 2 = 1) ∧
    (let s := st { cx with acmds := [am false] }
     s.me.acmds.find? (·.id == 5) = some (am false) ∧ startOp (am false).kind 5 = some (.arrayCommandStart 5) ∧ startReadyA s s.me (am false) = true) ∧
    (let s := st { cx with acmds := [am true] }
     s.me.acmds.find? (·.id == 5) = some (am true) ∧ doneReadyA s s.me (am true) = true) := by
  refine ⟨⟨rfl, ?_⟩, ⟨?_, rfl, rfl⟩, ⟨?_, rfl, rfl⟩, ⟨?_, ?_⟩, by decide +kernel, by decide +kernel, by decide +kernel, by decide +kernel, by decide +kernel, by decide +kernel⟩ <;>
    (unfold MmaReady; decide +kernel)

theorem meets_RowResults : (∃ nf d lat f, rowInstrOp (.vsel true 1 2 3 4) = some (nf, d, lat, f)) ∧ rtBusy (st cx) = false ∧
    (rtBusy (st { cx with rtFree := 11 }) = true ∧ ({ cx with rtFree := 11 } : Ctx).timed = false) ∧
    (rtBusy (st { tx with rtFree := 1 }) = true ∧ tx.timed = true) ∧ AtFront (st (qd 7 [5#64] cx)) 7 5#64 :=
  ⟨⟨_, _, _, _, rfl⟩, by decide, by decide, by decide, rfl⟩

theorem meets_RowsFlagsCounters :
    (rtBusy (st (mx .unbound)) = false ∧ bankRowErr (st (mx .unbound)) 0 255 = none ∧
      poisonedRange (st (mx .unbound)).mem (rowLoc (st (mx .unbound)) 0 127 + rowBytes .fp16 128) (rowBytes .fp16 128) = false) ∧
    (Sound (st (mx .unbound)) ∧ bankRowErr (st (mx .unbound)) 3 127 = none) ∧ (mx .unbound).nbank ≤ (4 : BankNo).val ∧
    ((3 : BankNo).val < (mx .unbound).nbank ∧ (mx .unbound).bankFmt 2 = .raw ∧ ({ mx .unbound with arm := [⟨0, 1, 0, 1, 0⟩] } : Ctx).isArmed 0 = true ∧
      128 ≤ (128#8 : Byte).toNat ∧ (mx .unbound).bankFmt 3 = .int32) ∧
    ((33#8 : Byte).toNat < 34 ∧ ((qd 5 (List.replicate 7 1#64) cx).queue 5).full 10 = false) ∧ AtFront (st (qd 4 [5#64] tx)) 4 5#64 :=
  ⟨by decide +kernel, ⟨by unfold Sound; decide +kernel, by decide +kernel⟩, by decide, by decide +kernel, by decide, rfl⟩

/-- An array command of pair 0 ordered before the retirement, on handle k3; a handle whose front is open. -/
def wx : Ctx := { cx with ks := cx.ks.set 3 (tg false 6), acmds := [am true] }
def ox3 : Ctx := { cx with ks := cx.ks.set 3 (tg true 6), fronts := [⟨0, false, true, []⟩] }
/-- A retirement that is due, its gives behind one that found no room. -/
def rx : Ctx := { cx with rets := [⟨4, 0, 2, 10, 3#4, true⟩], strS := { cx.strS with held := [1#4] } }

theorem meets_Retirements :
    (openSeen (st two) 4 = false ∧ rtBusy (st two) = false ∧ rtWaits (st two) 4 = false) ∧
    (openSeen (st ox3) 3 = true ∧ rtBusy (st ox3) = false ∧ rtWaits (st ox3) 3 = false ∧ bankRowErr (st { ox3 with bf := (mx .unbound).bf }) 3 127 = none) ∧
    (openSeen (st wx) 3 = false ∧ rtBusy (st wx) = false ∧ rtWaits (st wx) 3 = true) ∧
    (openSeen (st (mx .unbound)) 4 = false ∧ rtWaits (st (mx .unbound)) 4 = false ∧ bankRowErr (st (mx .unbound)) 3 127 = none) ∧
    (retDue rx 10 = some ⟨4, 0, 2, 10, 3#4, true⟩ ∧ (3#4 : BitVec 4).getLsbD 0 = true ∧ rx.strS.held ≠ []) := by decide +kernel

/-- A context stopped for a save; an overrun; one that waits for the memory processor. -/
def vx : Ctx := { cx with life := .stopped, saving := some .forced }
def ovx : Ctx := { cx with acmds := [am false], forcedCtr := some 0 }
def rn : Node := { nd 0 .running with savedOne := true }
def ovs : State := { st ovx with nodes := [rn], bays := [{ Bay.fresh 0 0 with run := 28673 }] }
def wt : Ctx := { cx with life := .awaiting, frame := some fr, trapCause := 0x1C00000000000000#64 }

theorem oneNode_of (s : State) (n : Node) (h : s.node? n.die n.idx = some n) (h1 : s.nodes = [n]) : OneNode s n :=
  ⟨h, fun m hm _ _ => by rw [h1] at hm; exact List.mem_singleton.mp hm⟩
theorem onePart_of (s : State) (p : Part) (h : s.part? p.vmid = some p) (h1 : s.parts = [p]) : OnePart s p :=
  ⟨h, fun m hm _ => by rw [h1] at hm; exact List.mem_singleton.mp hm⟩
theorem alone_of (s : State) (h : s.ring = []) : Alone s := by intro c hc; rw [h] at hc; cases hc

theorem overSpilled_of (s t : State) (h : ((List.range 4).all fun d => lineVersions s d == lineVersions t d) = true) : overSpilled s t = false := by
  simp only [List.all_eq_true, beq_iff_eq] at h
  simp only [overSpilled, List.any_eq_false, Bool.and_eq_true, decide_eq_true_eq, not_and]
  intro d hd _
  simp [spilledOn, h d hd]

theorem saveReady_of (s : State) (hd : drained s.me = true)
    (h : ((List.range 4).all fun d => lineVersions s d == lineVersions ((publishAll .dom s).mapMe fun c => { c with life := .vacant }) d) = true) : saveReady s = true := by
  simp [saveReady, saveShort, hd, overSpilled_of _ _ h]

theorem meets_CoreSteps :
    ((({ cx with strA := { cx.strA with held := [3#4, 1#4] } } : Ctx).strm .a).held = [3#4, 1#4] ∧ giveRoom { cx with strA := { cx.strA with held := [3#4, 1#4] } } .a 3#4 10 = true) ∧
    (afterLanding (.s 31 7#64) { cx with pend := [] } = some (putS { cx with pend := [] } 31 7#64) ∧ (10 : Nat) ≤ (st cx).now ∧ (st cx).now < 11) ∧
    (cx.life ≠ .vacant ∧ cx.dlSeen = false ∧ (7#64 : W64).toNat ≤ (st cx).ptp.toNat) ∧
    (({ st vx with nodes := [rn] } : State).node? 0 0 = some rn ∧ vx.life = .stopped ∧ vx.saving = some .forced ∧ saveReady { st vx with nodes := [rn] } = true) ∧
    (OneNode ovs rn ∧ rn.die = ovs.me.nodeDie ∧ rn.idx = ovs.me.nodeIdx ∧ overruns ovs rn = true ∧ QuietCtx ovs.me ∧ Alone ovs ∧ ovs.me.acmds = [am false] ∧ ∀ b ∈ [am false], b.kind ≠ .load) ∧
    (wt.life = .awaiting ∧ wt.frame = some fr ∧ Alone (st wt) ∧ wt.trapVec ≠ defVecOf (st wt) wt.vmid ∧ wt.trapCause.toNat / 2 ^ 58 = 7 ∧ (st wt).shoots = []) ∧
    restartDue { st cx with bays := [{ Bay.fresh 0 0 with frozen := true }] } { Bay.fresh 0 0 with frozen := true } = true :=
  ⟨by decide, ⟨rfl, by decide, by decide⟩, by decide, ⟨rfl, by decide, by decide, saveReady_of _ (by decide) (by decide +kernel)⟩,
    ⟨oneNode_of _ _ rfl rfl, by decide, by decide, by decide +kernel, ⟨rfl, rfl, rfl, rfl, rfl⟩, alone_of _ rfl, rfl, by decide⟩, ⟨by decide, rfl, alone_of _ rfl, by decide, by decide, rfl⟩, by decide⟩

/-- One node of the catalogue, its entry block at gp. -/
def n1 (x : NodeSt) : Node := { nd 3 x with code := gp, readyAt := 0 }
def nsx (n : Node) : State := { st cx with nodes := [n] }
def gen : Node := { n1 .ready with kind := 1, v := 8 }
def entry : List Byte := List.replicate 40 0#8
/-- A node that has finished and its successor. -/
def na : Node := { n1 .finishing with succs := [(0, 4)] }
def nb : Node := { nd 4 .waiting with preds := 1 }
def pairSt : State := { st cx with nodes := [na, nb] }
/-- The partition 0 with 100 sectors. -/
def p0 : Part := { (default : Part) with vmid := 0, dies := [0, 1, 2, 3], quota := 100, high := 10 }
def pst (p : Part) : State := { st cx with parts := [p] }
/-- The same catalogue with the process and the partition of the node. -/
def dsp (n : Node) : State := { nsx n with spaces := [⟨0, 0, 0, 0x3000, 0, 0⟩], parts := [{ p0 with s2Root := 0x1000 }] }

theorem meets_SchedulerSteps :
    (let s := { nsx (n1 .ready) with cycle := agingCycles }
     OneNode s (n1 .ready) ∧ n1 .ready ∈ s.nodes ∧ agesNow s (n1 .ready) = true) ∧
    ((nsx gen).nodes = [gen] ∧ gen.st = .ready ∧ gen.kind = 1 ∧ gen.cset = 0 ∧ gen.v ≤ (freeGp (nsx gen) 0).length ∧ gen.die < 4 ∧ (nodeRead (dsp gen) gen gen.code 16).isSome = true) ∧
    (let n := n1 .ready
     (dsp n).nodes = [n] ∧ n.st = .ready ∧ n.kind = 0 ∧ n.cset = 0 ∧ n.timed = false ∧ n.launched = false ∧ n.range = 0 ∧
       neverFits (dsp n) [n] n = none ∧ (∃ sp, placeEntry (dsp n) [] (occOf (dsp n)) [n] = some [(n, sp)] ∧ sp.length = 1 ∧ ∀ x ∈ sp, x.core < 384) ∧ Sound (dsp n) ∧ nodeRead (dsp n) n n.code 40 = some entry ∧
       entryBad entry = false) ∧
    (OneNode (nsx (n1 .finishing)) (n1 .finishing) ∧ (n1 .finishing).st = .finishing ∧ (n1 .finishing).comp = 0#64 ∧ (n1 .finishing).succs = [] ∧ (n1 .finishing).decl = []) ∧
    (OneNode pairSt na ∧ OneNode pairSt nb ∧ na ≠ nb ∧ na.st = .finishing ∧ na.comp = 0#64 ∧ na.status = 0 ∧ na.decl = [] ∧ na.succs = [(nb.die, nb.idx)] ∧ nb.st = .waiting ∧ nb.preds ≠ 0) ∧
    ((({ st cx with gpCores := [⟨0, 7, 0, 3, 0#64, 0#64⟩] } : State).gpCores.any fun g => g.nd == 0 && g.ni == 3) = true) ∧
    (let n := nd 0 .running
     OneNode (nsx n) n ∧ n.st = .running ∧ n.timed = false ∧ n.requests = [] ∧ (nsx n).me.life ≠ .vacant ∧ (nsx n).me.nodeDie = n.die ∧ (nsx n).me.nodeIdx = n.idx) ∧
    OnePart (pst p0) p0 := by
  refine ⟨⟨oneNode_of _ _ rfl rfl, by decide, by decide +kernel⟩, by decide +kernel,
    ⟨rfl, rfl, rfl, rfl, rfl, rfl, rfl, by decide +kernel, ⟨_, rfl, rfl, by decide +kernel⟩, by unfold Sound; decide +kernel, by decide +kernel, by decide⟩, ⟨oneNode_of _ _ rfl rfl, rfl, rfl, rfl, rfl⟩,
    ⟨?_, ?_, by decide, rfl, rfl, rfl, rfl, rfl, rfl, by decide⟩, by decide, ⟨oneNode_of _ _ rfl rfl, rfl, rfl, rfl, by decide, rfl, rfl⟩, onePart_of _ _ rfl rfl⟩ <;>
    (unfold OneNode; decide +kernel)

/-- A parked write of a context in partition 0, and of a command. -/
def pk : Priv := pw 0x10000 (some (1, 2))
def pkx : Ctx := { cx with priv := [pk] }
def pages (q : Nat) : Part := { p0 with quota := q, pages := [⟨0x10000, 4096, true, false⟩] }
def pc : Priv := { pk with src := .cmd 5 127 }
def oc : Ctx := { cx with priv := [pc], cmds := [cm .cpOut .parked] }
/-- A version of one byte that every view is past. -/
def fv : Ver := { vr with stamp := 1 }
def fvs : State := { st { cx with view := [⟨⟨0x10000, 3#8, false⟩, 0⟩], acq := [⟨0, 0, [1]⟩] } with mem := { trees 7 7 with vers := [fv] } }
def mreq : MapReq := ⟨0, 0x20000, 4096, none, [⟨0x4010, 7#64⟩]⟩
def sreq : ShootReq := ⟨0, none, 0x10000, 4096, [⟨0x4000, 7#64⟩]⟩
/-- The page's block holds all its sectors, or is demoted and its partition has none left. -/
def pks (dem : Bool) (q : Nat) : State := { st pkx with parts := [pages q], blocks := [⟨128, 8, dem, 0⟩] }
def ocs : State := { st oc with parts := [p0], cycle := 2 + Config.parkCycles }

theorem sectors_range (b : List Byte) : 1 ≤ Config.sectorsOf b ∧ Config.sectorsOf b ≤ 8 := by
  show 1 ≤ max 1 (min 8 _) ∧ max 1 (min 8 _) ≤ 8
  omega

theorem reserveBlock_held (s : State) (v blk : Nat) (p : Part) (b : Block) (hp : s.part? v = some p) (hb : s.blockOf blk = b) (hd : b.demoted = false)
    (h8 : b.sectors = 8) : (reserveBlock v blk s).2 = true := by
  simp only [reserveBlock, reserveFor, hp, hb, hd, h8, Bool.false_eq_true, if_false]
  rw [if_pos (sectors_range _).2]

theorem reserveBlock_none (s : State) (v blk : Nat) (p : Part) (b : Block) (hp : s.part? v = some p) (hb : s.blockOf blk = b) (hd : b.demoted = true)
    (h0 : p.free = 0) : (reserveBlock v blk s).2 = false := by
  have h1 := (sectors_range (blockContent s blk)).1
  simp only [reserveBlock, reserveFor, hp, hb, hd, h0, if_true]
  rw [if_neg (by omega), if_neg (by omega)]

theorem reserveAll_one (p : Priv) (s : State) (blk : Nat) (h : blocksOf p.cells = [blk]) (hc : compBlock s blk = true) :
    (reserveAll p s).2 = (reserveBlock s.me.vmid blk (s.mapMe fun c => { c with priv := c.priv.map fun x => if x = p then { placedCells s p with parked := none } else x })).2 := by
  unfold reserveAll
  rw [h]
  simp only [List.filter_cons, hc, List.filter_nil, List.foldl_cons, List.foldl_nil, if_true]
  split
  · next hy => exact hy.symm
  · next hn => simpa using hn

theorem reserve_held : (reserveAll pk (pks false 8)).2 = true :=
  (reserveAll_one _ _ 128 (by decide) (by decide +kernel)).trans (reserveBlock_held _ _ _ (pages 8) ⟨128, 8, false, 0⟩ rfl rfl rfl rfl)

theorem reserve_none : (reserveAll pk (pks true 0)).2 = false :=
  (reserveAll_one _ _ 128 (by decide) (by decide +kernel)).trans (reserveBlock_none _ _ _ (pages 0) ⟨128, 8, true, 0⟩ rfl rfl rfl rfl)

theorem meets_MemorySteps :
    (headOf (parkedIn (pks false 8) 0) = some (cx.launch, pk) ∧ (reserveAll pk (pks false 8)).2 = true ∧ pk.kind = .plain ∧ pk.src = .cs ∧ (pks false 8).foreign = []) ∧
    (headOf (parkedIn (pks true 0) 0) = some (cx.launch, pk) ∧ (reserveAll pk (pks true 0)).2 = false) ∧
    (headOf (overdueIn ocs p0.vmid) = some (cx.launch, pc) ∧ pc.src = .cmd 5 127 ∧ Mine ocs 5 (cm .cpOut .parked) ∧ (cm .cpOut .parked).id = 5 ∧
       (cm .cpOut .parked).tape = none ∧ (ocs.me.tag 127).fault = none ∧ OnePart ocs p0) ∧
    (let p := { p0 with quota := 5, low := 6 }
     startsEngine (pst p) p = true ∧ actsOn (pst p) p = true ∧ needsRoom (pst p) p = true ∧ p.balloon = [] ∧ coldest (pst p) p = none ∧ p.alerted = false) ∧
    ((7#63 : BitVec 63).toNat / 2 ^ 60 % 8 ≠ 1 ∧ (7#63 : BitVec 63).toNat / 2 ^ 60 % 8 ≠ 2) ∧
    (fvs.mem.vers = [fv] ∧ fv.acc = none ∧ fv.cells = [⟨0x10000, 9#8, false⟩] ∧ foldable fvs fv ⟨0x10000, 9#8, false⟩ = true ∧ fvs.mem.baseVer = [] ∧ fvs.blocks = []) ∧
    ((⟨0x10000, 1, false, 0⟩ : MemErr).corrected = false ∧ (⟨0x10000, 1, false, 0⟩ : MemErr).len ≠ 0) ∧ (∀ c ∈ State.reset.ctxs, c.life = .vacant) ∧
    ((pst { p0 with quota := 31 }).part? 0 = some { p0 with quota := 31 } ∧ overcommits { p0 with quota := 31 } mreq = true) ∧
    (overcommits p0 mreq = false ∧ execFault (pst p0) mreq = none ∧ mreq.part = p0.vmid ∧ (pst p0).shoots = [] ∧ overwrites (pst p0) mreq.writes = false) ∧
    ((Link.fresh 2).lost = false ∧ (Link.fresh 2).faulty ≤ 5) ∧
    (let s := { pst p0 with mem := writeBases (trees 7 7) 0x20000 [0xFF#8, 0xFF#8, 0xFF#8, 0x0F#8] }
     s.part? 0 = some p0 ∧ (execFault s { mreq with exec := some .c }).isSome = true) ∧
    ((Change.shoot sreq).pinned (st cx) = false ∧ (Change.shoot sreq).answered (st cx) = [] ∧ (st cx).shoots = [] ∧ (Change.shoot sreq).pinned (st lx) = true ∧
      (Change.shoot sreq).answered (st lx) = []) ∧
    (let r : MigrateReq := ⟨0x10000, 0x11000, 4096, []⟩
     (Change.move r).pinned (st cx) = false ∧ (Change.move r).answered (st cx) = [] ∧ (r.oldFrame + r.size ≤ r.newFrame ∨ r.newFrame + r.size ≤ r.oldFrame) ∧
      (Change.move r).pinned (st lx) = true ∧ (Change.move r).answered (st lx) = []) ∧
    closeDue { State.reset with patches := [⟨0, [], []⟩, ⟨1, [], []⟩] } = true := by
  refine ⟨⟨by decide +kernel, reserve_held, rfl, rfl, rfl⟩, ⟨by decide +kernel, reserve_none⟩, ⟨by decide +kernel, rfl, rfl, rfl, rfl, rfl, onePart_of _ _ rfl rfl⟩, by decide +kernel, by decide, ⟨rfl, rfl, rfl, by decide +kernel, rfl, rfl⟩, by decide, by decide,
    by decide +kernel, by decide +kernel, by decide +kernel, by decide, by decide +kernel, by decide +kernel, by decide +kernel⟩

/-- The remaining premises of the same statement: canonical memory, one partition, no command. -/
theorem meets_MemorySteps_forms : Sound (pst { p0 with balloon := [200, 201] }) ∧ OnePart (pst { p0 with balloon := [200, 201] }) { p0 with balloon := [200, 201] } ∧
    Sound fvs ∧ OnePart (pst p0) p0 ∧ NoCmds (st cx) ∧ Sound (st cx) := by
  refine ⟨by unfold Sound; decide +kernel, onePart_of _ _ rfl rfl, by unfold Sound; decide +kernel, onePart_of _ _ rfl rfl, ?_, by unfold Sound; decide +kernel⟩
  intro c hc
  rcases List.mem_singleton.mp (show c ∈ [cx] from hc) with rfl
  rfl

/-- An image of epoch 1 for the package with no slot and no area (R378). -/
def img : List Byte := leBytes 64 (0x45524641 * 2 ^ 480 + 1 * 2 ^ 472 + 1 * 2 ^ 440 + 64 * 2 ^ 368 + 1 * 2 ^ 367)

theorem meets_MemorySteps_images : imageStatus State.reset [] ≠ 0 ∧
    (Config.signatureOk patchKey (img.take (imgLength img)) ((img.drop (imgLength img)).take 132) = true → imageStatus State.reset img = 0) := by
  refine ⟨?_, fun h => ?_⟩
  · unfold imageStatus
    split
    · decide
    · decide +kernel
  · unfold imageStatus
    rw [h]; decide +kernel

/-- A port, a good flit with sequence number 0 for virtual channel 0, and a frame of type 0x88B5 (R184, R389). -/
def flit (crc : Nat) : List Byte := List.replicate 252 0#8 ++ leBytes 4 crc
def lks : State := { st cx with links := [Link.fresh 2] }
def ether : EthFrame := ⟨0, 0, List.replicate 12 0#8 ++ [0x88#8, 0xB5#8] ++ List.replicate 46 0#8, true, 5#64⟩
def arm3 : Armed := ⟨3, 0x88B5, 0, 1, 0⟩
def boot0 : BootImage := { (default : BootImage) with formatOk := true, partOk := true, firmwareOk := true }

theorem meets_LinksClockBoot :
    (lks.links.find? (·.port == 2) = some (Link.fresh 2) ∧ (Link.fresh 2).lost = false ∧ flitGood (flit 0) = false ∧ flitGood (flit 0x67E65321) = true ∧
      leNat ((flit 0x67E65321).take 2) = (Link.fresh 2).rxSeq ∧ leNat (((flit 0x67E65321).drop 2).take 1) ≤ 2 ∧ leNat (((flit 0x67E65321).drop 3).take 1) = 0) ∧
    ((2 : Nat) ≤ 2 ∧ (1 : Nat) < 2 ∧ (∀ c ∈ lks.ctxs, c.priv = []) ∧ ∀ c ∈ lks.ctxs, c.cmds = []) ∧
    (({ ether with fcsOk := false } : EthFrame).fcsOk = false ∧ ether.fcsOk = true ∧ armedFor (st cx) ether = none) ∧
    (let s := st { cx with arm := [arm3] }
     armedFor s ether = some (s.me.launch, arm3) ∧ s.me.core ≠ 9 ∧ ether.bytes.length ≤ 65472) ∧
    (List.replicate 32 (7#8 : Byte)).length = 32 := by
  refine ⟨by decide +kernel, by decide, by decide, by decide +kernel, by decide⟩

theorem meets_LinksClockBoot_boot : (∃ x, bootFailure { boot0 with mode := 3 } = some x) ∧ boot0.patch = none ∧
    (Config.signatureOk rootKey boot0.bytes [] = true → bootFailure boot0 = none) := by
  refine ⟨?_, rfl, fun h => ?_⟩
  · unfold bootFailure
    split
    · exact ⟨_, rfl⟩
    · exact ⟨_, rfl⟩
  · unfold bootFailure
    rw [h]; rfl

/-- A call slip of one instance (R324) at the port of function 0, with the catalogues open. -/
def slip1 : List Byte := leBytes 256 (0x0FFF800000010000 + 1 * 2 ^ 320)
def hst : State := { pst p0 with bootstat := 0x08000000#64, subPorts := [⟨0, 1, slip1, 0#64, 0#6⟩], fns := [⟨0, [9], 0#6, 0#64⟩] }
def wd (die asid : Nat) : W32 := BitVec.ofNat 32 (asid * 2 ^ 16 + die)
/-- A mailbox of general core 1 of die 0, with a sender of its own partition. -/
def gb (l : List W64) : Mbx := ⟨0, 7, 0x8001000000000000#64, l⟩
def gbs (l : List W64) : State := { pst p0 with mailboxes := [gb l] }
/-- A copy from host memory whose page is a host page of the unified tree. -/
def hp : W64 := 0x5000000000010000#64
def hcx : Ctx := { cx with uRoot := 0x5000, cmds := [{ cm .cpIn .running with ptr := hp }] }
def hmem : Mem := [(0x5000, 0x6001), (0x6000, 0x7001), (0x7000, 0x3FFFF000 + 0x87)].foldl (fun m e => writeBases m e.1 (leBytes 8 e.2)) (trees 7 7)
def hss : State := { st hcx with mem := hmem }
def jr : Jrn := { (default : Jrn) with mode := 1#2, limit := 32#64, draw := [0#64, 0#64, 0#64] }

theorem meets_HostSide :
    ((submitSlip 0 1 0 9 hst).2 = 0 ∧ catalogueOpen hst = true ∧ (wd 0 9).toNat / 4 % 2 ^ 14 = 0 ∧ (partDies hst 0).contains 0 = true ∧ (hst.fnOf 0).asids.contains 9 = true) ∧
    (catalogueOpen (st cx) = false ∧ (0x00090004#32 : W32).toNat / 4 % 2 ^ 14 ≠ 0 ∧ (hst.fnOf 0).asids.contains ((wd 3 8).toNat / 2 ^ 16) = false ∧
      (partDies { hst with parts := [{ p0 with dies := [0] }] } 0).contains ((wd 3 9).toNat % 4) = false) ∧
    ((0xFFFFFFFFFFFF#64 : W64).toNat < 2 ^ 48 ∧ (st cx).me.life ≠ .vacant) ∧
    (fnExists hst 0 = true ∧ fnExists hst 16 = false ∧ spaceOf gp = .glb ∧ spaceOf bp ≠ .glb) ∧
    (unifiedPlace hst (procCtx hst 0 0 9 0 0) 0 = none ∧
      (let s := { hss with spaces := [⟨9, 0, 0, 0x3000, 0x5000, 0⟩], parts := [{ p0 with s2Root := 0x1000 }] }
       (unifiedPlace s (procCtx s 0 0 9 0 0) 0x10000).isSome = true)) ∧
    (let x := { cm .cpIn .running with ptr := hp }
     hss.ring = [] ∧ hss.me.life ≠ .vacant ∧ hss.me.cmds = [x] ∧ x.isCol = false ∧ spaceOf x.ptr = .host ∧ x.st = .running ∧
       (hss.hostLoc hss.me .read x.ptr).isOk = true ∧ isHostBus (okOf default (hss.hostLoc hss.me .read x.ptr)).loc = true ∧ x.tape = none ∧
       (hss.me.tag x.tag).fault = none) ∧
    ((1#64 : W64).toNat % 64 ≠ 0 ∧ (64#64 : W64).toNat % 64 = 0) ∧
    (let s := gbs (List.replicate 15 1#64)
     gpMaySend s 0 (s.mbx (7 / 256) (7 % 256)) = true ∧ (s.mbx 0 7).msgs.length < 16 ∧ gpMaySend { s with mailboxes := [] } 0 (State.mbx { s with mailboxes := [] } 0 7) = false) ∧
    (let s := gbs [5#64]
     gpReceives s 0 1 (s.mbx (7 / 256) (7 % 256)) = true ∧ (s.mbx 0 7).msgs = [5#64] ∧ gpReceives s 0 2 (s.mbx 0 7) = false) ∧ 16 ≤ (gb (List.replicate 16 1#64)).msgs.length ∧
    (jr.mode = 1#2 ∧ drawSeq (jr.draw.take 3 ++ [9#64]) = nextSeq jr ∧ jr.head.toNat + 32 ≤ jr.limit.toNat) ∧
    (let j := { jr with mode := 2#2 }
     j.mode = 2#2 ∧ j.head.toNat < j.limit.toNat ∧ ({ j with head := 32#64 } : Jrn).limit.toNat ≤ ({ j with head := 32#64 } : Jrn).head.toNat) := by
  decide +kernel

/-! ## Fits holds of instructions of every family -/

theorem meets_WordFormsComplete_c :
    Fits (.loop 1 1#12) (st three) ∧ Fits (.qpop 3 1) (st (qd 1 [5#64] cx)) ∧ Fits (.qpush 4 1) (st cx) ∧ Fits (.ld .d 3 1 511#10) (st (s12 gp 0#64 cx)) ∧
    Fits (.st .d 2 1 0#10) (st (s12 bp 0#64 cx)) ∧ Fits (.atBinc 2 1 2 .dev true) (st (s12 gp 3#64 cx)) ∧ Fits (.atFadd 0 1 2 .core) (st (s12 bp 3#64 cx)) ∧ Fits (.phase .dom) (st cx) ∧
    Fits (.barInit 511 1 .die) (st (s12 2#64 0#64 cx)) ∧ Fits (.barArr 511) (sb ⟨.die, 2, false, 0, 0#64, false⟩ ⟨0, 1, none, 0#64⟩) ∧
    Fits (.barWt 511) (sb ⟨.die, 2, true, 0, 0#64, false⟩ ⟨0, 2, some 9, 0#64⟩) ∧ Fits (.barDl 511 1 true) (st (bx ⟨.die, 2, false, 0, 0#64, false⟩)) ∧
    Fits (.mbxSend 1 2) (sm [] (s12 1023#64 0#64 cx)) ∧ Fits (.mbxRecv 2 1) (sm [5#64] (s12 1023#64 0#64 { cx with nodeDie := 3 })) ∧
    Fits (.mbxTry 2 1) (sm [] (s12 1023#64 0#64 { cx with nodeDie := 3 })) ∧ Fits (.nodeAdd 2 1) (st (s12 gp 0#64 cx)) ∧ Fits .nodeDone (st cx) ∧ Fits .eret (st hd) ∧
    Fits (.diffMode .rev) (st cx) ∧ Fits (.waitEv 3 1) (st (s12 0x8000000000000001#64 0#64 cx)) ∧ Fits .ctxSw { st hd with ring := [ox] } ∧ Fits (.csrw .trapVec 1) (st { tx with status := 1#2 }) := by
  refine ⟨show _ < _ by decide, ⟨_, rfl⟩, show _ = _ by decide, ⟨_, ⟨by decide, rfl⟩, .inl (.inr rfl), by decide +kernel⟩,
    ⟨_, ⟨by decide, rfl, by decide +kernel, by decide +kernel⟩, .inr rfl, by decide +kernel⟩,
    ⟨_, .inl (by decide), by decide, rfl, by decide +kernel, by decide +kernel, .inr rfl, by decide +kernel, by decide +kernel⟩,
    ⟨_, .inr (by decide), by decide, rfl, by decide +kernel, by decide +kernel, .inr rfl, by decide +kernel, by decide +kernel⟩,
    ⟨.inl rfl, by decide +kernel⟩, ⟨by decide, by decide, by decide⟩, ⟨_, rfl, rfl, by decide +kernel, by decide +kernel, by decide +kernel⟩,
    ⟨_, rfl, rfl, .inl (by decide +kernel)⟩, show _ = _ by decide, ⟨_, rfl, by decide, by decide, by decide +kernel⟩, ⟨_, rfl, by decide, by decide⟩, ⟨_, rfl, by decide⟩,
    ⟨rfl, by decide, by decide, ⟨_, rfl⟩, by decide +kernel⟩, ⟨by decide +kernel, by decide +kernel, by decide, by decide +kernel⟩, ⟨by decide, rfl, by decide +kernel⟩,
    ⟨rfl, by decide, by decide +kernel, by decide +kernel, by decide +kernel⟩, ⟨by decide, by decide, .inl (by decide)⟩, ⟨by decide, rfl, by decide⟩, ⟨by decide, by decide⟩⟩

theorem meets_WordFormsComplete_a :
    Fits (.bfSet 3 .fp32) (st cx) ∧ Fits (.cpIn 1 3 0 127 true 0xFE000000#32) (gs gp (many 127 cx)) ∧ Fits (.cpFill 1 0 0 0 false 0#32) (gs gp tx) ∧
    Fits (.colRed 1 3 5 0 false 0#28) (ks []) ∧ Fits (.colRed 1 3 5 0 false 0x8000000#28) (ks [bk 3 none]) ∧ Fits (.cpWait 1 127) (st cx) ∧
    Fits (.seal 1) (es 1 (g12 gp 0#64 cx)) ∧ Fits (.shdOpen 1) (ss0 { cx with shadows := seven }) ∧ Fits (.shdPub 1 .dev) (ss0 { cx with shadows := [sh] }) ∧
    Fits (.shdPubn 1 2 .dev) (ss0 { cx with shadows := [sh] }) ∧ Fits (.shdDrop 1) (ss0 { cx with shadows := [sh] }) ∧ Fits (.bktSet 1 2 .dev) (st (g12 gp 1#64 (kx fifteen))) ∧
    Fits (.colArb 1) (st (g12 0x0101#64 0#64 cx)) ∧ Fits (.pktArm 1) as ∧ Fits (.pktWait 1) (st { cx with landed := [3] }) := by
  refine ⟨⟨by decide, by decide⟩,
    ⟨by decide +kernel, rfl, by decide +kernel, by decide +kernel, by decide +kernel, by decide +kernel, by decide +kernel, by decide +kernel, by decide +kernel, fun h => absurd h (by decide +kernel), _,
      okOf_eq [] _ (by decide +kernel), .inr rfl, fun h => absurd h (by decide)⟩,
    ⟨by decide, rfl, by decide +kernel, fun h => absurd h (by decide +kernel), by decide +kernel, by decide +kernel, .inl rfl, by decide +kernel, by decide +kernel, fun h => absurd h (by decide +kernel), _,
      okOf_eq [] _ (by decide +kernel), .inr rfl, fun _ => by decide +kernel⟩,
    ⟨by decide +kernel, by decide, ⟨_, okOf_eq [] _ (by decide +kernel), .inl rfl⟩, fun h => absurd h (by decide +kernel)⟩,
    ⟨by decide +kernel, by decide, ⟨_, okOf_eq [] _ (by decide +kernel), .inl rfl⟩, fun _ => ⟨bk 3 none, by decide +kernel, rfl, by decide +kernel⟩⟩,
    ⟨by decide, by decide⟩,
    ⟨by decide, by decide, by decide +kernel, _, _, okOf_eq [] _ (by decide +kernel), by decide +kernel, okOf_eq [] _ (by decide +kernel)⟩,
    ⟨by decide, shdBytes, _, (okOf_eq [] _ (by decide +kernel)).trans (congrArg _ (by decide +kernel)), okOf_eq [] _ (by decide +kernel), by decide +kernel, by decide +kernel, by decide +kernel,
      by decide +kernel⟩,
    ⟨sh, ⟨shdBytes, (okOf_eq [] _ (by decide +kernel)).trans (congrArg _ (by decide +kernel)), by decide +kernel⟩, by decide, by decide, by decide +kernel, by decide +kernel⟩,
    ⟨sh, ⟨shdBytes, (okOf_eq [] _ (by decide +kernel)).trans (congrArg _ (by decide +kernel)), by decide +kernel⟩, by decide, by decide, by decide +kernel, by decide +kernel⟩,
    ⟨sh, shdBytes, (okOf_eq [] _ (by decide +kernel)).trans (congrArg _ (by decide +kernel)), by decide +kernel⟩,
    ⟨by decide, by decide, by decide, .inl (by decide), _, okOf_eq [] _ (by decide +kernel)⟩, ⟨by decide, by decide, by decide⟩,
    ⟨.inr (by decide), by decide, _, okOf_eq [] _ (by decide +kernel), by decide +kernel, by decide +kernel, by decide +kernel, by decide +kernel, by decide +kernel⟩, show _ ≠ _ by decide⟩

theorem meets_WordFormsComplete_ms :
    Fits (.mmaZ true 3 (.slot 1) .r (.pat 5) .r) (ps .fp16 Acc.fresh 7) ∧ Fits (.mmaC true 3 (.slot 1) .r (.slot 1) .r) (ps .fp32 (tg true 7) 8) ∧
    Fits (.fold 6 4 5) twoSt ∧ Fits (.foldP 6 4) twoSt ∧ Fits (.cixSetQ 2) (st (qd 2 [0x100FFFFFF#64] cx)) ∧ Fits (.lds 31 0 255#8) (st (mx .claimed)) ∧
    Fits (.accLd 31 3 1#8) (st bf32) ∧ Fits (.slotClm 31) (st cx) ∧ Fits (.slotRel 31) (st (mx .loaded)) ∧ Fits (.patSet 1 .ltri) (st cx) ∧
    Fits (.patSet 1 (.perm 6)) (st (qd 6 [8131#64] (mx .claimed))) ∧ Fits (.patSet 1 (.band 9#4 0#4)) (st (qd 2 [1#64, 2#64, 3#64] cx)) ∧
    Fits (.patOh 1 3 127#8 false true) (st (qd 6 [BitVec.ofNat 64 (8 + 23 * 2 ^ 5 + 1 * 2 ^ 10 + 0xFFFFFF * 2 ^ 34)] (mx .claimed))) ∧ Fits .lseAcq (bst (some ⟨1, 0, 15⟩) [] cx) ∧
    Fits (.vfma false 1 2 3 4) (st cx) ∧ Fits (.vld 1 0 255#8) (st (mx .unbound)) ∧ Fits (.vst 1 3 127#8 ⟨true, true, false⟩) (st (mx .unbound)) ∧
    Fits (.rtRow true 1 4 5#7) (st two) ∧ Fits (.rtSt 4 3 127#8 ⟨true, true, true⟩) (st (mx .unbound)) ∧ Fits (.histRd false 33#8) (st (qd 5 (List.replicate 7 1#64) cx)) ∧
    Fits (.mloop 6 1#12) (st (qd 6 [0#64] cx)) ∧ Fits (.sbQZ 7 1#12) (st (qd 7 [0#64] cx)) := by
  refine ⟨⟨⟨false, by unfold MmaReady; decide +kernel⟩, by decide +kernel⟩, ⟨⟨false, by unfold MmaReady; decide +kernel⟩, by decide +kernel⟩,
    ⟨by decide +kernel, by decide, by decide, by decide, by decide, by decide, by decide, by decide⟩, ⟨by decide +kernel, by decide, by decide, by decide⟩,
    ⟨_, rfl, by decide, by decide⟩, ⟨by decide, by decide, by decide, by decide, by decide +kernel, by decide +kernel, .inl rfl⟩,
    ⟨by decide, .inl rfl, by decide, .inl rfl⟩, ⟨by decide, by decide⟩, show _ ≠ _ by decide, trivial,
    ⟨_, rfl, by decide, by decide, by decide, .inl rfl⟩, show _ = _ by decide, ⟨_, rfl, by decide, by decide, by decide, .inl rfl⟩, show _ = _ by decide,
    show _ = _ by decide, ⟨by decide, by decide, .inl rfl⟩, ⟨by decide, by decide⟩, ⟨by decide, by decide +kernel, by decide +kernel⟩,
    ⟨by decide, by decide, by decide +kernel, by decide +kernel⟩, ⟨by decide, by decide⟩, ⟨⟨_, rfl⟩, by decide⟩, ⟨_, rfl⟩⟩

/-! ## Further premises: clauses with conditions of their own -/

theorem meets_LoadGivesBytes_bound : cx.timed = false ∧ timedLat (st cx) (okOf ⟨[], 0⟩ (checkAccess (st cx) false .read gp 8)).ss = some 1280 := by decide +kernel

/-- A load that has reached bank 2 of core 1, with the bytes the stream saw. -/
theorem meets_TimedLoadLands_served :
    (let w := ww 8 (bankLoc 0 cx 2 16)
     w.op = .ld 3 [] false 8 ∧ w.core = (st cx).me.coreIdx ∧ ownBank (st cx) cx w.loc = true ∧ cellsPoison (readPlace (st cx) [] w.loc 8) = false) ∧
    (let c : Ctx := { cx with core := 1, launch := 2, vrank := 1#32, life := .resident }
     let s : State := { st { cx with vcount := 2#32 } with ring := [c] }
     let w : WordReq := { ww 1 (bankLoc 0 c 2 16) with op := .ld 3 [7#8] false 1 }
     w.op = .ld 3 [7#8] false [7#8].length ∧ [7#8].length ≤ 8 - w.loc % 8 ∧ ownBank s s.me w.loc = false ∧ w.core ≠ s.me.coreIdx ∧ w.core / 4 = s.me.coreIdx / 4 ∧
       sramCore w.loc = w.core) := by decide +kernel

theorem meets_DifferentiableAccesses_home : cellPoison (dst .rev cx) 0x40000000 = false ∧ locRank 0x40000000 = (dst .rev cx).rank ∧ isHostBus 0x40000000 = false := by decide +kernel

theorem meets_AtomicValues : isNan32 ((0xFFC00001#64 : W64).setWidth 32) = true ∧ AtOp.swp ≠ AtOp.fadd := by decide

/-- Two writes of one byte, by commands of two tags. -/
theorem meets_PublishAndRefresh_winner :
    (let p : Priv := { pw 0x10000 none with src := .cmd 6 3 }
     let q : Priv := { pw 0x10000 none with src := .cmd 5 4 }
     p.kind = .plain ∧ q.kind = .plain ∧ (cellAt 0x10000 p.cells).isSome = true ∧ (cellAt 0x10000 q.cells).isSome = true ∧ beats q p = false ∧
       cellAt 0x10000 (pw 0x20000 none).cells = none) := by decide

theorem meets_PhaseOrders_lands : (let s := st { tx with pend := [⟨0, 4, .refresh .die 3 6⟩], priv := [pw 0x10000 none] }
    s.me.timed = true ∧ s.me.pend = [⟨s.clock, 4, .refresh .die 3 6⟩] ∧ ∀ q ∈ s.me.priv, q.parked = none) ∧
    spaceShort .die .c (phaseCovers 3 6) (st tx) = 0 ∧ Scope.die ≠ Scope.dom ∧ ({ tx with status := 1#2 } : Ctx).timed = true := by
  exact ⟨⟨by decide +kernel, by decide +kernel, by decide +kernel⟩, by decide +kernel, by decide, by decide⟩

theorem meets_WorkAndModes_noRange : unitsOf (st cx) cx.nodeDie cx.nodeIdx = [] ∧ (st cx).node? cx.nodeDie cx.nodeIdx = none ∧
    unitsOf { st cx with nodes := [nd 0 .running] } 0 0 = [] ∧ (nd 0 .running).range = 0 := by decide

theorem meets_YieldStops_quiet : QuietCtx cx ∧ cx.acmds = [] := ⟨⟨rfl, rfl, rfl, rfl, rfl⟩, rfl⟩

/-- Two results of a queued context that has stopped for its entry; an interrupt in a handler that has enabled interrupts. -/
def ls : State := st { cx with pend := [⟨9, 1, .s 4 7#64⟩, ⟨9, 2, .tag 3 ⟨0, none, none, false⟩⟩], trapWait := some ⟨11, .c, 0, []⟩ }
def lc : Ctx := { putS { cx with trapWait := none } 4 7#64 with tags := ((putS { cx with trapWait := none } 4 7#64).setTag 3 ⟨0, none, none, false⟩).tags }

theorem meets_TrapsEnter_drained : ls.judging = false ∧ ls.me.sup = false ∧ ls.me.timed = false ∧ landedCtx { ls.me with trapWait := none } = some lc ∧ ls.me.words = [] ∧ ls.me.rets = [] ∧
    ls.me.acmds = [] ∧ ls.me.loads = [] ∧ ls.me.cmds = [] ∧ CanEnter ⟨11, .c, 0, []⟩ { ls with me := lc } :=
  ⟨rfl, by decide, rfl, by decide +kernel, rfl, rfl, rfl, rfl, rfl, canEnter_of _ _ (by decide +kernel)⟩

theorem meets_TrapsEnter_nested :
    (let s := st { cx with irq := 0x40#7, irqAt := 9, status := 3#2, irqNow := true }
     s.me.life = .active ∧ s.me.irq ≠ 0#7 ∧ s.me.irqAt < s.cycle ∧ s.me.status.getLsbD 1 = true ∧ s.me.sup = true ∧ s.me.irqNow = true ∧ s.me.trapWait = none ∧
       CanEnter ⟨16, .c, 0, []⟩ s) := ⟨rfl, by decide, by decide, by decide, by decide, rfl, rfl, canEnter_of _ _ (by decide +kernel)⟩

/-- n versions of one byte, none of which a second resident context has met. -/
def many1 (n : Nat) : List Ver := (List.range n).map fun k => { vr with id := k + 1 }
def full (n : Nat) (c : Ctx) : State := { st { c with priv := [pw 0x10000 none] } with ring := [ox], seqs := n, mem := { trees 7 7 with vers := many1 n } }

theorem eraseDups_const (l : List Nat) (k : Nat) (h : ∀ x ∈ l, x = k) (hn : l ≠ []) : l.eraseDups = [k] := by
  cases l with
  | nil => exact absurd rfl hn
  | cons a t =>
    rw [List.eraseDups_cons, h a (by simp), List.filter_eq_nil_iff.mpr (by intro x hx; simp [h x (by simp [hx])]), List.eraseDups_nil]

theorem spilledOn_one (s : State) (l : List Ver) (hv : s.mem.vers = l) (hl : l ≠ []) (hc : ∀ v ∈ l, v.acc = none ∧ v.cells.map (·.loc) = [0x10000])
    (hb : s.mem.baseVer = []) (hk : s.rank = 0) (hr : ∃ c ∈ residentCtxs s, c.view = []) : spilledOn s 0 = l.length - 8 + min (l.length - (l.length - 8)) (Config.roomSpills 0 l.length) := by
  have hbel : ∀ v, below s v 0x10000 = false := by
    intro v
    obtain ⟨c, hc, hw⟩ := hr
    refine List.all_eq_false.mpr ⟨c, hc, ?_⟩
    simp [hw, baseAbove, hb]
  have hlv : lineVersions s 0 = l.map fun v => (128, v.id) := by
    unfold lineVersions
    rw [hv]
    clear hl hv
    induction l with
    | nil => rfl
    | cons v t ih =>
      have ⟨ha, hx⟩ := hc v (by simp)
      obtain ⟨x, hcell, hxl⟩ : ∃ x, v.cells = [x] ∧ x.loc = 0x10000 := by
        match hq : v.cells with
        | [] => simp [hq] at hx
        | [x] => exact ⟨x, rfl, by simpa [hq] using hx⟩
        | _ :: _ :: _ => simp [hq] at hx
      have hf : (locKind x.loc == 0 && locRank x.loc == s.rank && paDie x.loc == 0 && !pastByte s v x.loc) = true := by
        rw [hxl, hk]; simp only [pastByte, ha, hbel, Option.isSome_none, Bool.false_eq_true, if_false]; decide
      rw [List.flatMap_cons, ih fun v h => hc v (by simp [h]), List.map_cons, hcell, List.filter_cons, if_pos hf]
      simp [hxl, List.eraseDups_cons]
  have h1 : ((l.map fun v => (128, v.id)).map (·.1)).eraseDups = [128] := eraseDups_const _ _ (by simp) (by simp [hl])
  unfold spilledOn
  simp only [hlv, h1, List.map_cons, List.map_nil, List.sum_cons, List.sum_nil, List.length_map]
  rw [List.filter_eq_self.mpr (by simp)]
  simp

theorem rise (f : Nat → Nat) (a : Nat) : ∃ n, a ≤ n ∧ f n ≤ f (n + 1) := by
  refine Classical.byContradiction fun h => ?_
  have h1 : ∀ n, a ≤ n → f (n + 1) < f n := fun n hn => Nat.lt_of_not_le fun hf => h ⟨n, hn, hf⟩
  have h2 : ∀ k, f (a + k) + k ≤ f a := by
    intro k
    induction k with
    | zero => simp
    | succ k ih => have := h1 (a + k) (by omega); rw [show a + (k + 1) = a + k + 1 from (Nat.add_assoc a k 1).symm]; omega
  have := h2 (f a + 1); omega

theorem foldl_max_pos (p : Nat → Prop) [DecidablePred p] (f : Nat → Nat) (l : List Nat) (k : Nat) (h : 0 < k ∨ ∃ d ∈ l, p d ∧ 0 < f d) :
    0 < l.foldl (fun k d => if p d then max k (f d) else k) k := by
  induction l generalizing k with
  | nil => simpa using h
  | cons a t ih =>
    refine ih _ ?_
    rcases h with h | ⟨d, hd, hp, hf⟩
    · left; dsimp only; split <;> omega
    · rcases List.mem_cons.mp hd with rfl | hd
      · left; dsimp only; rw [if_pos hp]; omega
      · exact .inr ⟨d, hd, hp, hf⟩

/-- Versions of one byte beyond what the area holds: a publish of one more finds no room. -/
theorem short_full (ps : List Pend) (sel : Prov → Bool) (hs : sel (pw 0x10000 none).prov = true) :
    ∃ n, 0 < spaceShort .die .c sel (full n { tx with pend := ps }) := by
  obtain ⟨n, hn, hr⟩ := rise (fun n => min 8 (Config.roomSpills 0 n)) 131200
  refine ⟨n, ?_⟩
  have hl : (many1 n).length = n := by simp [many1]
  have hm : ∀ v ∈ many1 n, v.acc = none ∧ v.cells.map (·.loc) = [0x10000] := by
    intro v hv; simp only [many1, List.mem_map] at hv; obtain ⟨k, -, rfl⟩ := hv; exact ⟨rfl, rfl⟩
  have hr0 : ∃ c ∈ residentCtxs (full n { tx with pend := ps }), c.view = [] := ⟨ox, List.mem_filter.mpr ⟨.tail _ (.head _), rfl⟩, rfl⟩
  have h0 := spilledOn_one (full n { tx with pend := ps }) _ rfl (List.ne_nil_of_length_pos (by rw [show (full n { tx with pend := ps }).mem.vers = many1 n from rfl, hl]; omega)) hm rfl rfl hr0
  rw [show (full n { tx with pend := ps }).mem.vers = many1 n from rfl, hl] at h0
  have hcov : (full n { tx with pend := ps }).me.priv.filter (fun p => sel p.prov && p.parked.isNone) = [pw 0x10000 none] := by
    show List.filter _ [pw 0x10000 none] = _
    rw [List.filter_cons, if_pos (by rw [hs]; rfl)]; rfl
  have hvs : (publishSel .die .c sel (full n { tx with pend := ps })).mem.vers =
      ((many1 n).map fun v => if widens (full n { tx with pend := ps }).me .die sel v then { v with scope := .die } else v) ++
        versOf (full n { tx with pend := ps }) (full n { tx with pend := ps }).me .die 1 (n + 1) [pw 0x10000 none] := by
    rw [← hcov]; rfl
  have h1 := spilledOn_one (publishSel .die .c sel (full n { tx with pend := ps })) _ hvs (by simp [versOf]) (by
    intro v hv
    rcases List.mem_append.mp hv with h | h
    · obtain ⟨u, hu, rfl⟩ := List.mem_map.mp h
      split <;> exact hm u hu
    · simp [versOf] at h; subst h; exact ⟨rfl, rfl⟩) rfl rfl ⟨ox, List.mem_filter.mpr ⟨.tail _ (.head _), rfl⟩, rfl⟩
  simp only [List.length_append, List.length_map, hl] at h1
  rw [show (versOf (full n { tx with pend := ps }) (full n { tx with pend := ps }).me .die 1 (n + 1) [pw 0x10000 none]).length = 1 from rfl] at h1
  unfold spaceShort
  rw [if_pos (by show List.any [pw 0x10000 none] _ = true; simp only [List.any_cons, hs]; rfl)]
  refine foldl_max_pos (fun d => Config.areaVersions < spilledOn (publishSel .die .c sel (full n { tx with pend := ps })) d) _ (List.range 4) 0 (.inr ⟨0, by decide, ?_, ?_⟩)
  · simp only [h1, Config.areaVersions]; omega
  · simp only [h0, h1, show n - (n - 8) = 8 by omega, show n + 1 - (n + 1 - 8) = 8 by omega]; omega

theorem meets_PhaseOrders_short : (∃ n, let s := full n { tx with pend := [] }
      s.me.timed = true ∧ Scope.die ≠ Scope.dom ∧ shortOf .die .c s ≠ 0) ∧
    (∃ n, let s := full n { tx with pend := [⟨0, 4, .refresh .die 3 6⟩] }
      s.me.pend = [⟨0, 4, .refresh .die 3 6⟩] ∧ (0 : Nat) ≤ s.clock ∧ 0 < spaceShort .die .c (phaseCovers 3 6) s) := by
  refine ⟨?_, ?_⟩
  · obtain ⟨n, h⟩ := short_full [] (covers { tx with priv := [pw 0x10000 none], pend := [] } .c 0) (by decide)
    exact ⟨n, rfl, by decide, Nat.ne_of_gt h⟩
  · obtain ⟨n, h⟩ := short_full [⟨0, 4, .refresh .die 3 6⟩] (phaseCovers 3 6) (by decide)
    exact ⟨n, rfl, Nat.zero_le _, h⟩

/-! ## Further premises: the A and M streams -/

theorem meets_CopiesIssue_diff :
    (let s := gs gp { cx with diffWait := true }
     s.me.diffWait = true ∧ (newCmd .cpGth 1 3 0 127 true 0 s).isIndexed = true) ∧
    (let s := dst .rev { g12 gp 0#64 cx with diffWait := true }
     s.me.diffWait = true ∧ (cmdChecks s (newCmd .cpIn 1 3 0 127 true 0 s)).isOk = true ∧ segsDiff (okOf [] (cmdChecks s (newCmd .cpIn 1 3 0 127 true 0 s))) = true) := by
  decide +kernel

/-- A block to decode (EXP = 1). -/
def xd : Cmd := { xc with lay := 0x10000#64 }

def xst : State := es 0 { cx with cmds := [xd] }
theorem meets_CommandsEnd_decode : Mine xst 5 xd ∧ xd.st = .running ∧ expLeft xst xd ≠ 0 ∧ layExp xd.lay ≠ 2 ∧ (colOf xst xd).isOk = true ∧
    (expandNext xst xd (okOf [] (colOf xst xd))).isOk = true := ⟨rfl, by decide +kernel⟩

/-- A colophon with a wrong CRC; a shadow whose first row holds a byte. -/
def badCol : State := { st (g12 gp 0#64 cx) with mem := writeBases (trees 7 7) 0x10000 (leBytes 64 (0x4B434C50 * 2 ^ 480 + 1)) }
def shc : Shadow := { sh with cells := [⟨0x11000, 7#8, false⟩] }

theorem noShort (s : State) (sc : Scope) (x : StreamId) (sel : Prov → Bool)
    (h : ((List.range 4).all fun d => let ps := lineVersions (publishSel sc x sel s) d
      (((ps.map (·.1)).eraseDups.map fun l => (ps.filter (·.1 == l)).length - 8).sum == 0) && decide (ps.length ≤ Config.areaVersions)) = true) :
    spaceShort sc x sel s = 0 := by
  have hs : ∀ d ∈ List.range 4, ¬ Config.areaVersions < spilledOn (publishSel sc x sel s) d := by
    intro d hd
    have := List.all_eq_true.mp h d hd
    simp only [Bool.and_eq_true, beq_iff_eq, decide_eq_true_eq] at this
    simp only [spilledOn, this.1]; omega
  have hf : ∀ (l : List Nat) (f : Nat → Nat), (∀ d ∈ l, ¬ Config.areaVersions < spilledOn (publishSel sc x sel s) d) →
      l.foldl (fun k d => if Config.areaVersions < spilledOn (publishSel sc x sel s) d then max k (f d) else k) 0 = 0 := by
    intro l f hl
    induction l with
    | nil => rfl
    | cons a t ih => rw [List.foldl_cons, if_neg (hl a (by simp))]; exact ih fun d h => hl d (by simp [h])
  unfold spaceShort
  split
  · exact hf _ _ hs
  · rfl

theorem meets_SealsAndShadows_more :
    (spaceOf (rdG badCol.me 1) = .glb ∧ (rdG badCol.me 1).toNat % 64 = 0 ∧ colValid (okOf [] (readForA badCol [] gp 64)) = false ∧ (readForA badCol [] gp 64).isOk = true) ∧
    (rowCells shc shc.nrows ≠ [] ∧ shc.nrows ≠ 0 ∧ isShadow (shdDesc shdBytes) shc = true) ∧
    swapShort .dev shc 2 (ss0 { cx with shadows := [shc] }) = 0 := by
  refine ⟨by decide +kernel, by decide +kernel, ?_⟩
  exact noShort _ _ _ _ (by decide +kernel)

def pv (b f wm n i : Nat) : W64 := BitVec.ofNat 64 (b + wm * 2 ^ 5 + n * 2 ^ 10 + f * 2 ^ 58 + i * 2 ^ 34)

theorem meets_SlotsAndPatterns_traps :
    cx.freeSlots.Pairwise (· ≤ ·) ∧
    (AtFront (st (qd 6 [8192#64] (mx .claimed))) 6 8192#64 ∧ 2 ^ 13 ≤ (8192#64 : W64).toNat) ∧
    (AtFront (st (qd 6 [2#64] (mx .claimed))) 6 2#64 ∧ (2#64 : W64).toNat % 64 < (mx .claimed).nbank ∧ (mx .claimed).bankFmt 2 ≠ .int32) ∧
    (AtFront (st (qd 6 [4#64] (mx .claimed))) 6 4#64 ∧ (4#64 : W64).toNat < 2 ^ 13 ∧ (mx .claimed).nbank ≤ (4#64 : W64).toNat % 64) ∧
    (AtFront (st (qd 2 [pv 0 0 23 1 0] (mx .claimed))) (if false then 6 else 2) (pv 0 0 23 1 0) ∧ (mx .claimed).nbank ≤ (4 : BankNo).val ∧ (2 : BankNo).val < (mx .claimed).nbank ∧
      (mx .claimed).bankFmt (2 : BankNo).val ≠ .int32) ∧
    (3 : BankNo).val < (mx .claimed).nbank ∧ 2 ^ 58 ≤ (pv 0 1 23 1 0).toNat ∧ (pv 0 0 23 0 0).toNat / 2 ^ 10 % 2 ^ 24 = 0 ∧ 23 < (pv 0 0 24 1 0).toNat / 2 ^ 5 % 32 ∧
    32 < (pv 9 0 23 1 0).toNat % 32 + ((pv 9 0 23 1 0).toNat / 2 ^ 5 % 32 + 1) ∧ ((pv 9 0 23 1 0).toNat < 2 ^ 58 ∧ (pv 9 0 23 1 0).toNat / 2 ^ 10 % 2 ^ 24 ≠ 0) := by
  refine ⟨by decide, ⟨rfl, by decide⟩, ⟨rfl, by decide, by decide⟩, ⟨rfl, by decide, by decide⟩, ⟨rfl, by decide, by decide, by decide⟩, ?_⟩
  decide

theorem meets_AccumulatorsAndLeases_empty : bf32.ks[(31 : KReg)].st = .empty ∧ bf32.freePairs ≠ [] ∧ bf32.freePairs.Pairwise (· ≤ ·) := by decide

/-- Two closed handles of two data types; one EMPTY. -/
def mixed : State := { twoSt with me := { two with ks := two.ks.set 5 { tg false 7 with int := true } } }

theorem meets_ArrayCommands_folds :
    (accepts mixed (startOf mixed .fold [] [mixed.me.ks[(4 : KReg)].pair, mixed.me.ks[(5 : KReg)].pair]) 128 = true ∧ mixed.me.ks[(4 : KReg)].st ≠ .empty ∧
      mixed.me.ks[(5 : KReg)].st ≠ .empty ∧ mixed.me.ks[(4 : KReg)].int ≠ mixed.me.ks[(5 : KReg)].int) ∧
    (accepts twoSt (startOf twoSt .fold [] [two.ks[(5 : KReg)].pair, two.ks[(4 : KReg)].pair]) 128 = true ∧ two.ks[(5 : KReg)].int = two.ks[(4 : KReg)].int ∧
      two.ks[(5 : KReg)].index % 2 = 1) ∧
    foldInput two.ks[(6 : KReg)] = false := by decide +kernel

/-! ## Further premises: the S stream and the steps no word encodes -/

/-- An atomic on a demoted block whose partition has no sector left: it parks (R266). -/
def noSec : State := { st (s12 gp 3#64 cx) with mem := trees 7 39, parts := [pages 0], blocks := [⟨128, 8, true, 0⟩] }
def noAcc : Access := okOf ⟨[], 0⟩ (checkAccess noSec true .rmw gp 4)

theorem meets_AtomicsAtHome_parks : AtomReady noSec true .dev 1 noAcc ∧ ¬ AtomPlaced noSec .binc true 2 1 2 noAcc := by
  refine ⟨⟨.inl (by decide), by decide, rfl, by decide +kernel, by decide +kernel, .inr rfl, by decide +kernel, by decide +kernel⟩, fun h => ?_⟩
  have h1 := h (by decide +kernel) (by decide +kernel)
  have hb : blocksOf (atomPriv noSec (atomReq noSec .binc true 2 2 noAcc) 2 (rdS noSec.me 1)).cells = [128] := by decide +kernel
  have h2 : ∀ p : Priv, blocksOf p.cells = [128] → (p.parked.isNone = true) → (reserveAtom p noSec).2 = false := by
    intro p hp hn
    unfold reserveAtom
    rw [hp]
    simp only [List.foldl_cons, List.foldl_nil, Bool.true_and]
    split
    · exact reserveBlock_none _ _ _ (pages 0) ⟨128, 8, true, 0⟩ rfl rfl rfl rfl
    · rfl
  rw [h2 _ hb (by decide +kernel)] at h1
  exact Bool.noConfusion h1

theorem meets_RowsFlagsCounters_flags :
    (let s := st { cx with lfNow := (10, [1#6]) }
     rtBusy s = false ∧ s.me.timed = false ∧ flagsNow s = true) ∧ flagsNow (st cx) = false := by decide +kernel

theorem meets_Retirements_more :
    (bankRowErr (st { ox3 with bf := (mx .unbound).bf }) 3 127 = none ∧ (mx .unbound).nbank ≤ (4 : BankNo).val ∧ (2 : BankNo).val < (mx .unbound).nbank ∧ (mx .unbound).bankFmt 2 = .raw ∧
      ({ mx .unbound with arm := [⟨0, 1, 0, 1, 0⟩] } : Ctx).isArmed 0 = true ∧ 128 ≤ (128#8 : Byte).toNat ∧ (mx .unbound).bankFmt 3 = .int32) ∧
    (rtBusy (st { cx with rtFree := 11 }) = true ∧ ({ cx with rtFree := 11 } : Ctx).timed = false) ∧ (rtBusy (st { tx with rtFree := 1 }) = true ∧ tx.timed = true) ∧
    (let c : Ctx := { rx with strS := cx.strS }
     retDue c 10 = some ⟨4, 0, 2, 10, 3#4, true⟩ ∧ c.strS.held = [] ∧ c.fifoSM.room 10 = true ∧ c.fifoSC.room 10 = true) ∧
    (let c : Ctx := { cx with rets := [⟨4, 0, 2, 10, 2#4, true⟩] }
     retDue c 10 = some ⟨4, 0, 2, 10, 2#4, true⟩ ∧ (2#4 : BitVec 4).getLsbD 1 = true ∧ (2#4 : BitVec 4).getLsbD 0 = false ∧ c.fifoSM.room 10 = true) ∧
    (retDue { cx with rets := [⟨4, 0, 2, 10, 0#4, true⟩] } 10 = some ⟨4, 0, 2, 10, 0#4, true⟩) ∧ retDue cx 10 = none := by decide +kernel

theorem meets_CoreSteps_more :
    (landHeld (st { cx with pend := [⟨10, 1, .s 31 7#64⟩] }) ⟨10, 1, .s 31 7#64⟩ = false ∧ (10 : Nat) ≤ (st cx).clock) ∧
    (rerouted (st wt) wt.trapCause = false ∧ wt.core ≠ 9 ∧ wt.frame.isSome = true) ∧
    (let c : Ctx := { cx with cmds := [cm .cpIn .pageWait] }
     c.life = .active ∧ c.cmds = [cm .cpIn .pageWait] ∧ (cm .cpIn .pageWait).st = .pageWait) := by decide +kernel

theorem canFinish_of (s : State) (n : Node) (h : n.st = .finishing) (hf : unitFits (nodeCtx s n) (declared s n ++ [(n.comp, recordOf n 0#64)]) s = true)
    (hl : ((List.range 4).all fun d => lineVersions s d == lineVersions (finishNode n s) d) = true) : canFinish s n = true := by
  simp [canFinish, h, hf, overSpilled_of _ _ hl]

theorem meets_SchedulerSteps_finish : canFinish (nsx (n1 .finishing)) (n1 .finishing) = true ∧ canFinish pairSt na = true ∧ canFinish (nsx (n1 .running)) (n1 .running) = false :=
  ⟨canFinish_of _ _ rfl (by decide +kernel) (by decide +kernel), canFinish_of _ _ rfl (by decide +kernel) (by decide +kernel), by decide⟩

/-- A donation of the page at 0x10000, of a process whose pages have C set; the message that makes it and the one that withdraws it (R270). -/
def dp : Part := { p0 with s2Root := 0x1000 }
def dgs : State := { dsp (n1 .ready) with mem := trees 7 39, parts := [dp] }
def dn : Donation := ⟨0x10000, 4096, [(0x10000, 4096)]⟩

theorem meets_MemorySteps_donation :
    (OnePart dgs dp ∧ NoCmds dgs) ∧
    (let m : BitVec 63 := BitVec.ofNat 63 (2 ^ 60 + 0x10000)
     donationFor dgs dp m.toNat = some dn ∧ m.toNat / 2 ^ 60 % 8 = 1 ∧ dgs.shoots = [] ∧ (Change.give 0 dn).pinned dgs = false ∧ (Change.give 0 dn).answered dgs = [] ∧
       donationFor (pst p0) p0 m.toNat = none) ∧
    (let m : BitVec 63 := BitVec.ofNat 63 (2 * 2 ^ 60 + 0x10000)
     m.toNat / 2 ^ 60 = 2 ∧ m.toNat / 2 ^ 52 % 256 = 0 ∧ m.toNat % 4096 = 0 ∧ m.toNat / 2 ^ 47 % 32 ≤ 20 ∧ dn.va = m.toNat / 2 ^ 12 % 2 ^ 35 * 4096 ∧
       dn.size = 2 ^ (12 + m.toNat / 2 ^ 47 % 32) ∧ dn.va % dn.size = 0 ∧ ({ p0 with donations := [dn] } : Part).donations = [dn]) := by
  refine ⟨⟨onePart_of _ _ rfl rfl, ?_⟩, by decide +kernel, by decide⟩
  intro c hc
  rcases List.mem_singleton.mp (show c ∈ [cx] from hc) with rfl
  rfl

theorem meets_MemorySteps_more : (pk.cells ≠ [] ∧ (pks false 8).me.core ≠ 9) ∧ ((fvs.mem.vers.map (·.id)).Nodup ∧ ∀ v ∈ fvs.mem.vers, v.acc = none) ∧
    (∀ u ∈ fvs.mem.vers, u = fv) ∧ closeDue State.reset = false ∧ p0.dies ≠ [] := by decide +kernel

/-- Link 2 with one credit of each channel, a flit of channel 2, and flits that acknowledge. -/
def flitW (sq vc ack aseq crc : Nat) : List Byte := leBytes 2 sq ++ [BitVec.ofNat 8 vc, BitVec.ofNat 8 ack] ++ leBytes 2 aseq ++ List.replicate 246 0#8 ++ leBytes 4 crc
def okFlit (sq vc ack aseq : Nat) : List Byte := flitW sq vc ack aseq (crc32c ((flitW sq vc ack aseq 0).take 252))

theorem meets_LinksClockBoot_flits :
    (let l := Link.fresh 2
     lks.link? l.port = some l ∧ l.lost = false ∧ l.sendQ = [] ∧ l.replay.length < 128 ∧ 0 < l.credits.getD 1 0 ∧ l.txSeq < 4096 ∧ l.rxSeq < 4096 ∧
       ({ l with credits := [0, 0, 0] } : Link).credits.getD 1 0 = 0 ∧ ({ lks with links := [{ l with credits := [0, 0, 0] }] } : State).link? 2 = some { l with credits := [0, 0, 0] }) ∧
    (let b := okFlit 0 2 0 0
     flitGood b = true ∧ leNat (b.take 2) = 0 ∧ leNat ((b.drop 3).take 1) = 0 ∧ leNat ((b.drop 2).take 1) = 2 ∧ ((Link.fresh 2).received.filter (·.1 == 2)).length < 64) ∧
    (∀ k < 3, flitGood (okFlit 5 1 k 4095) = true ∧ leNat ((okFlit 5 1 k 4095).take 2) ≠ (Link.fresh 2).rxSeq ∧ leNat (((okFlit 5 1 k 4095).drop 3).take 1) = k) ∧
    ((∀ l, lks.link? 3 = some l → l.lost = true) ∧ 2 ≤ min 2 (8 - (Link.fresh 2).faulty) ∧ min 1 (8 - (Link.fresh 2).faulty) < 2 ∧ ∀ c ∈ lks.ctxs, c.priv = [] ∧ c.pend = []) := by
  refine ⟨by decide +kernel, by decide +kernel, by decide +kernel, ⟨?_, by decide, by decide, by decide⟩⟩
  intro l h; rw [show lks.link? 3 = none from rfl] at h; cases h

/-- A copy from device 1, which lies behind port 2; frames that pause, are too long or come at once. -/
def rk : Cmd := { cm .cpIn .running with ptr := 0x0000800000010000#64 }
def rks : State := { st { cx with cmds := [rk] } with links := [Link.fresh 2], routes := [0, 2], devCount := 2 }

theorem meets_LinksClockBoot_frames :
    (rks.link? 2 = some (Link.fresh 2) ∧ rks.ring = [] ∧ rks.me.cmds = [rk] ∧ rks.me.priv = [] ∧ rks.me.pend = [] ∧ cmdBehind rks 2 rk = true ∧ rk.tape = none ∧ (rks.me.tag rk.tag).fault = none) ∧
    (sameTime ether (st cx).inputs = [] ∧ 9216 < (List.replicate 9217 (0#8 : Byte)).length ∧ ether.bytes.length ≤ 9216 ∧ isPause ether = false ∧
      (let f : EthFrame := { ether with bytes := List.replicate 12 0#8 ++ [0x88#8, 0x08#8] }
       f.fcsOk = true ∧ f.bytes.length ≤ 9216 ∧ isPause f = true)) ∧
    (let g : EthFrame := { ether with time := 4#64 }
     ({ st cx with inputs := [.frameReceive g] } : State).inputs = [.frameReceive g] ∧ g.die = ether.die ∧ g.time < ether.time ∧
       armedFor { st cx with inputs := [.frameReceive g] } g = none) := by decide +kernel

theorem meets_LinksClockBoot_stages (b : BootImage) (h : Config.signatureOk rootKey b.bytes [] = true) :
    bootFailure { b with formatOk := false } = some (3, 3, 0) ∧ bootFailure { boot0 with bytes := b.bytes, partOk := false } = some (3, 4, 0) ∧
    bootFailure { boot0 with bytes := b.bytes, firmwareOk := false } = some (4, 5, 0) ∧ bootFailure { boot0 with bytes := b.bytes, badDie := some 3 } = some (5, 6, 3) ∧
    bootFailure { boot0 with bytes := b.bytes, multiDomain := true, rank := 4096 } = some (6, 3, 0) := by
  refine ⟨?_, ?_, ?_, ?_, ?_⟩ <;> (unfold bootFailure; simp only [h]; rfl)

theorem meets_LinksClockBoot_report : (List.replicate 32 (7#8 : Byte)).length = 32 ∧ (∀ e ∈ State.reset.evidence, e.length = 64) ∧
    ∀ e ∈ [Config.sha512 boot0.bytes, Config.sha512 (Config.firmwareOf boot0.bytes)], (Config.sha512 boot0.bytes).length = 64 → (Config.sha512 (Config.firmwareOf boot0.bytes)).length = 64 → e.length = 64 := by
  refine ⟨rfl, by decide, fun e he h1 h2 => ?_⟩
  rcases List.mem_cons.mp he with rfl | he
  · exact h1
  · exact List.mem_singleton.mp he ▸ h2

/-! ## Further premises: the host's side and the commands -/

theorem notOver (s t : State) (h : ((List.range 4).all fun d => let ps := lineVersions t d
      (((ps.map (·.1)).eraseDups.map fun l => (ps.filter (·.1 == l)).length - 8).sum == 0) && decide (ps.length ≤ Config.areaVersions)) = true) :
    overSpilled s t = false := by
  simp only [overSpilled, List.any_eq_false, Bool.and_eq_true, decide_eq_true_eq, not_and]
  intro d hd ha
  have := List.all_eq_true.mp h d hd
  simp only [Bool.and_eq_true, beq_iff_eq, decide_eq_true_eq] at this
  simp only [spilledOn, this.1] at ha
  omega

theorem meets_HostSide_submit :
    (slipBad hst.devCount (padTo 256 (hst.subPort 0 1).slip) = false ∧ (∀ n ∈ hst.nodes, n.die = (wd 0 9).toNat % 4 → n.idx ≠ 0) ∧ (wd 0 9).toNat / 4 % 2 ^ 14 = 0 ∧
      (partDies hst (fnVmid 0)).contains ((wd 0 9).toNat % 4) = true ∧ (hst.fnOf 0).asids.contains ((wd 0 9).toNat / 2 ^ 16) = true) ∧
    (let s := { hst with subPorts := [⟨0, 1, slip1.set 0 1#8, 0#64, 0#6⟩] }
     catalogueOpen s = true ∧ (s.fnOf 0).asids.contains 9 = true ∧ slipBad s.devCount (padTo 256 (s.subPort 0 1).slip) = true) ∧
    2 ^ 48 ≤ (0x1000000000000#64 : W64).toNat := by decide +kernel

def fullCat (n : Nat) : State := { hst with nodes := (List.range n).map fun i => nd i .waiting }
theorem meets_HostSide_full (n : Nat) : ∀ j, j < n → ∃ k ∈ (fullCat n).nodes, k.die = 0 ∧ k.idx = j :=
  fun j hj => ⟨nd j .waiting, List.mem_map.mpr ⟨j, List.mem_range.mpr hj, rfl⟩, rfl, rfl⟩

/-- Function 0 with its process 9; the same with a page that has C set and a demoted block in a partition without sectors. -/
def bst2 : State := { hst with spaces := [⟨9, 0, 0, 0x3000, 0x5000, 0⟩], parts := [{ p0 with s2Root := 0x1000 }] }
def bst3 : State := { bst2 with mem := trees 7 39, parts := [{ pages 0 with s2Root := 0x1000 }], blocks := [⟨128, 8, true, 0⟩], mailboxes := [gb []] }
def cel : List PCell := [⟨0x10000, 7#8, false⟩]

theorem unitReserve_none : (unitReserve cel bst3).2 = false := by
  have hp : compPart bst3 (128 * 512) = some { pages 0 with s2Root := 0x1000 } := by decide +kernel
  have hb : blockParked bst3 128 = false := by decide +kernel
  unfold unitReserve
  rw [show blocksOf cel = [128] by decide]
  simp only [List.foldl_cons, List.foldl_nil, hp, hb, Bool.not_false, Bool.and_self, if_true]
  have h1 := (sectors_range (overlay 128 cel (blockContent bst3 128))).1
  have hq : bst3.part? 0 = some { pages 0 with s2Root := 0x1000 } := rfl
  have hk : bst3.blockOf 128 = ⟨128, 8, true, 0⟩ := rfl
  show (reserveFor 0 128 _ bst3).2 = false
  simp only [reserveFor, hq, hk, if_true]
  have hf : ({ pages 0 with s2Root := 0x1000 } : Part).free = 0 := rfl
  rw [if_neg (by omega), if_neg (by rw [hf]; omega)]

theorem unitFits_none (c : Ctx) (hc : ∃ ss, bst3.access c .write gp 1 = .ok ss ∧ cellsOf ss [7#8] = cel ∧ unitMay bst3 ss = true) : unitFits c [(gp, [7#8])] bst3 = false := by
  obtain ⟨ss, h1, h2, h3⟩ := hc
  simp only [unitFits, List.foldl_cons, List.foldl_nil, List.length_singleton, h1, h2, h3, unitReserve_none]
  rfl

theorem meets_HostSide_bar2 :
    (fnExists bst2 0 = true ∧ (bst2.fnOf 0).asids.contains 9 = true ∧ bst2.hostWait = [] ∧ unitFits (fnCtx bst2 0 9) [(gp, [7#8])] bst2 = true ∧ overSpilled bst2 (bar2Now 0 9 gp [7#8] bst2) = false ∧
      (bst2.access (fnCtx bst2 0 9) .write gp 1).isOk = true ∧ (let ss := okOf [] (bst2.access (fnCtx bst2 0 9) .write gp 1)
        unitMay bst2 ss = true ∧ (segLocs ss).Nodup ∧ (∀ x ∈ segLocs ss, isSram x = false) ∧ (segLocs ss)[0]? = some 0x10000)) ∧
    (fnExists bst3 0 = true ∧ (bst3.fnOf 0).asids.contains 9 = true ∧ bst3.hostWait = [] ∧ unitFits (fnCtx bst3 0 9) [(gp, [7#8])] bst3 = false) := by
  refine ⟨⟨by decide +kernel, by decide +kernel, rfl, by decide +kernel, notOver _ _ (by decide +kernel), by decide +kernel, by decide +kernel⟩,
    by decide +kernel, by decide +kernel, rfl, unitFits_none _ ⟨_, okOf_eq [] _ (by decide +kernel), by decide +kernel, by decide +kernel⟩⟩

theorem meets_HostSide_linkDown :
    (hss.ring = [] ∧ hss.me.cmds = [{ cm .cpIn .running with ptr := hp }] ∧ cmdOnHost hss { cm .cpIn .running with ptr := hp } = true) ∧
    ((st cx).me.cmds = [] ∧ (∀ c ∈ (st cx).ctxs, c.die / 2 ≠ 1)) := by decide +kernel

/-- General core 1 with the catalogues open. -/
def gos (l : List W64) : State := { gbs l with bootstat := 0x08000000#64 }

theorem meets_HostSide_general :
    (gpHeld (gbs []) 1 = true ∧ gpHeld (gbs []) 0 = false ∧ gpHeld (gos []) 1 = false) ∧
    (gpMaySend (gos []) 0 (gb []) = true ∧ (gos []).mbx (7 / 256) (7 % 256) = gb [] ∧ (gos []).hostWait = [] ∧ sendFits 0 1 9 [] (gos []) = true ∧
      overSpilled (gos []) (sendNow 0 1 9 7 [] 1#64 (gos [])) = false) ∧
    (gpMaySend bst3 0 (gb []) = true ∧ gpHeld bst3 1 = false ∧ bst3.mbx (7 / 256) (7 % 256) = gb [] ∧ bst3.hostWait = [] ∧ sendFits 0 1 9 [(gp, 7#8)] bst3 = false) ∧
    (gpReceives (gos [5#64]) 0 1 ((gos [5#64]).mbx (7 / 256) (7 % 256)) = true ∧ ((gos [5#64]).mbx (7 / 256) (7 % 256)).msgs = [5#64]) := by
  refine ⟨by decide +kernel, ⟨by decide +kernel, by decide +kernel, rfl, by decide +kernel, notOver _ _ (by decide +kernel)⟩,
    ⟨by decide +kernel, by decide +kernel, by decide +kernel, rfl, unitFits_none _ ⟨_, okOf_eq [] _ (by decide +kernel), by decide +kernel, by decide +kernel⟩⟩, by decide +kernel⟩

theorem meets_HostSide_journal :
    (let d := drawClear (jr.draw.take 3 ++ [9#64])
     drawSeq d = nextSeq jr ∧ jr.head.toNat + 32 ≤ jr.limit.toNat ∧ jr.draw ≠ []) ∧
    (let j : Jrn := { jr with limit := 31#64 }
     j.mode = 1#2 ∧ j.limit.toNat < j.head.toNat + 32) ∧
    (drawSeq (drawClear (({ jr with lastSeq := some 4#32 } : Jrn).draw.take 3 ++ [9#64])) ≠ nextSeq { jr with lastSeq := some 4#32 }) ∧
    ({ jr with mode := 0#2 } : Jrn).mode ≠ 1#2 ∧
    (let s : State := { st cx with jrnPend := [(0, 1, 0#64, [5#8])], journals := [{ jr with mode := 2#2 }] }
     s.jrn 0 0 = { jr with mode := 2#2 } ∧ s.jrnPend = [(0, 1, (s.jrn 0 0).head, [5#8])] ∧ (s.jrn 0 0).head.toNat < (s.jrn 0 0).limit.toNat) := by decide +kernel

/-- One FP32 element between gp and row 0 of bank 3, FP32, in a mode. -/
def dc : Ctx := { g12 gp 0#64 cx with bf := cx.bf.set 3 .fp32, l := cx.l.set 5 0x1000000000000000#64 }
def ds (m : DMode) : State := dst m dc
def nc (k : CmdKind) (s : State) : Cmd := newCmd k 1 3 5 0 false 0 s
def fwd1 : State := after (.cpOut 1 3 5 0 false 0#32) (ds .fwd)
def rev1 : State := { fwd1 with me := { fwd1.me with dmode := .rev, cmds := [] } }
/-- A copy of the element, running; a transposed copy from bank to bank; a gather with index 3 in bank 2. -/
def rc (k : CmdKind) : Cmd := { cm k .running with ptr := gp, bank := 3, fmt := .fp32, lay := 0x1000000000000000#64 }
def rs : State := st { dc with cmds := [rc .cpIn] }
def gcm (m : DMode) : Cmd := { rc .cpGth with w1 := 2 * 2 ^ 19, dmode := m }

theorem meets_CommandsMove_rows :
    (rowMove (rc .cpIn)).isSome = true ∧ (rowMove (rc .cpOut)).isSome = true ∧ (rowMove (rc .cpBb)).isSome = true ∧ (rowMove (rc .cpGth)).isSome = true ∧ (rowMove (rc .cpSct)).isSome = true ∧
    (match mvCopy (rc .cpIn) rs with | .ok _ => true | _ => false) = true ∧
    ((readRuns rs (rc .cpIn) gp [(0, 4)]).isOk = true ∧ cellsPoison (okOf [] (readRuns rs (rc .cpIn) gp [(0, 4)])) = false ∧ (rc .cpIn).skip = []) ∧
    ((rc .cpOut).row0 + 127 < 128 ∧ poisonedRange (rs.orderedCmd (rc .cpOut)).mem (bankLoc rs.rank rs.me 3 (512 * 127)) 4 = false) ∧
    (match writeRuns (rc .cpOut) gp [(0, 2), (2, 2)] (leBytes 4 7) rs with | .ok _ => true | _ => false) = true ∧
    (match writeRuns (rc .cpOut) gp [(0, 4)] (leBytes 4 7) rs with | .ok _ => true | _ => false) = true ∧
    (let ss := okOf [] (rs.access rs.me .write (gp + 0#64) 4)
     (rs.access rs.me .write (gp + 0#64) 4).isOk = true ∧ ss.length = 1 ∧ ss.all (fun g => g.len == 4 && !isSram g.tr.loc && !inRecPage rs rs.me g.tr.loc) = true ∧ rs.me.shadows = [] ∧ rs.me.priv = []) ∧
    (let c : Cmd := { rc .cpBb with ptr := bp }
     (cmdSrcRow rs c c.xfmt 0).isSome = true ∧ (rs.scrLoc rs.me c.ptr 1).isOk = true ∧ layT c.lay = false ∧ layT 0x1000000002000000#64 = layT 0x1000000002000000#64) := by decide +kernel

/-- An index bank in INT32. -/
def gq : State := { ds .rev with me := { (ds .rev).me with bf := (cx.bf.set 3 .fp32).set 2 .int32 } }

theorem meets_CommandsMove_gather :
    (let s := { ds .rev with me := { (ds .rev).me with cmds := [gcm .rev] } }
     let c := gcm .rev
     poisonedRange (s.orderedCmd c).mem (bankLoc s.rank s.me 2 0) 4 = false ∧ gatherOver c 0 = false ∧ gatherDiff c .read 0 s = true ∧ gatherDiff c .write 0 s = true) ∧
    (gatherDiff (gcm .off) .read 0 rs = false ∧ gatherDiff (gcm .off) .write 0 rs = false ∧ gatherOver (gcm .off) 0 = false) ∧
    (let c := newCmd .cpGth 1 3 5 0 false 0x100000 gq
     gq.me.cmds.length < 128 ∧ gq.me.diffWait = false ∧ c.bank < gq.me.nbank ∧ c.xbank < gq.me.nbank ∧ cmdIllegal gq c = false ∧ spaceOk c = true ∧
       c.ptr.toNat % 2 ^ layAlign c.lay = 0 ∧ indexedDiff gq c = true) := by decide +kernel

theorem meets_CommandsMove_ops : copyOp (.cpIn 1 3 5 0 false 0#32) = some (.cpIn, 1, 3, 5, 0, false, 0) ∧ copyOp (.cpOut 1 3 5 0 false 0#32) = some (.cpOut, 1, 3, 5, 0, false, 0) ∧
    copyOp (.cpGth 1 3 5 0 false 0x100000#32) = some (.cpGth, 1, 3, 5, 0, false, 0x100000) := ⟨rfl, rfl, rfl⟩

theorem meets_CommandsMove_collective : (match mvCollective gc ⟨[], false⟩ gst with | (.ok _, _) => true | _ => false) = true := by decide +kernel

theorem meets_CommandsMove_issue :
    (∀ m ∈ [DMode.fwd, .rev], let s := ds m
     s.me.cmds.length < 128 ∧ s.me.diffWait = false ∧ s.me.dmode ≠ .off ∧ (cmdChecks s (nc .cpIn s)).isOk = true ∧
       segsDiff (okOf [] (cmdChecks s (nc .cpIn s))) = true ∧ (nc .cpIn s).fmt = .fp32 ∧ (nc .cpIn s).other = .fp32 ∧ (cellErr s (nc .cpIn s)).isNone = true ∧ s.me.timed = false) ∧
    (let s := ds .fwd
     let c := nc .cpOut s
     (cmdChecks s c).isOk = true ∧ segsDiff (okOf [] (cmdChecks s c)) = true ∧ (runsSegs s .rmw c.ptr (cmdRuns c)).isOk = true ∧ retriesFwd s c = none ∧
       (tapeAppend .a (.cmd c.id c.tag) c.seen 2 (4 * c.count) c.lay c.ptr (oldTile s c) s).isOk = true) ∧
    (let s := { ds .fwd with me := { (ds .fwd).me with tapeLimit := 0x0FFF800040000020#64 } }
     let c := nc .cpOut s
     (runsSegs s .rmw c.ptr (cmdRuns c)).isOk = true ∧ retriesFwd s c = none ∧ (tapeAppend .a (.cmd c.id c.tag) c.seen 2 (4 * c.count) c.lay c.ptr (oldTile s c) s).isOk = false) ∧
    (let c := nc .cpOut rev1
     (cmdChecks rev1 c).isOk = true ∧ segsDiff (okOf [] (cmdChecks rev1 c)) = true ∧ (cellErr rev1 c).isNone = true ∧ (tapePop .a 2 c.lay c.ptr (4 * c.count) rev1).isOk = true ∧
       (tapePop .a 2 c.lay c.ptr (4 * c.count) (ds .rev)).isOk = false) ∧
    (let s := { ds .rev with me := { (ds .rev).me with bf := cx.bf.set 3 .bf16 } }
     (cmdChecks s (nc .cpIn s)).isOk = true ∧ (nc .cpIn s).fmt ≠ .fp32) := by decide +kernel

theorem meets_CommandsMove_tape :
    (let s := ds .fwd
     let ss := okOf [] (s.access s.me .write s.me.tapeHead (recSize 4))
     (tapeAppend .a (.cmd 5 127) [] 2 4 0#64 gp [] s).isOk = true ∧ (s.access s.me .write s.me.tapeHead (recSize 4)).isOk = true ∧ ss.length = 1 ∧ tapeEmpty s.me = true ∧
       ss.all (fun g => g.len == recSize 4 && !isSram g.tr.loc && !inRecPage s s.me g.tr.loc) = true ∧ s.me.shadows = [] ∧ s.me.priv = []) ∧
    (let s := { fwd1 with me := { fwd1.me with priv := [], cmds := [] } }
     tapeEmpty s.me = false ∧ (tapeTop rev1 .a false).isOk = true) ∧ (leBytes 4 7).length = 4 := by decide +kernel

/-- Adjoint pages of their own, 1 GiB above the pages they belong to. -/
def da : State := { ds .rev with
  me := { (ds .rev).me with adjRoot := 0x5000#64 },
  mem := [(0x5000, 0x6001), (0x6000, 0xBFFFF007)].foldl (fun m e => writeBases m (locPa 0 e.1) (leBytes 8 e.2)) (ds .rev).mem }

theorem meets_CommandsMove_rev :
    (let s := da
     let c : Cmd := { rc .cpOut with dmode := .rev, blocks := [(0, leBytes 4 7)] }
     let t := okOf default (cellPlace s .rmw (diffPtr c 0 0))
     c.fault = none ∧ c.nextBlock = 0 ∧ (match mvElts c (mvCell c) s with | .ok _ => true | _ => false) = true ∧ (cellPlace s .rmw (diffPtr c 0 0)).isOk = true ∧
       (cellPlace s .read (diffPtr c 0 0)).isOk = true ∧ (cellPlace s .write (diffPtr c 0 0)).isOk = true ∧ poisonedRange (s.orderedCmd c).mem (bankElt s c 0 0) 4 = false ∧
       cellPoison s (cellLoc t) = false ∧ isSram (cellLoc t) = false ∧ inRecPage s s.me (cellLoc t) = false ∧ (match mvRestore c 0 0 s with | .ok _ => true | _ => false) = true ∧
       (let ss := okOf [] (s.access s.me .write (diffPtr c 0 0) 4)
        ss.length = 1 ∧ ss.all (fun g => g.len == 4 && !isSram g.tr.loc && !inRecPage s s.me g.tr.loc && (decide (cellLoc t + 4 ≤ g.tr.loc) || decide (g.tr.loc + 4 ≤ cellLoc t))) = true)) := by
  decide +kernel

end Sys2Proof.Tests
end

section
/-! SUPPORT. Proofs: the special registers, bank rows, the histogram and the lane flags. -/
namespace Sys2Proof.Machine

open Sys2Proof.Safety

/-! ## Several results of one instruction (R104, R105) -/

/-- The state with the results of one instruction pending, each with its landing cycle. -/
def withResults (l : List (Nat × Land)) (s : State) : State :=
  { s with me := { s.me with pend := withPends s.seqs s.me.pend l }, seqs := s.seqs + l.length }

theorem withResults_nil (s : State) : withResults [] s = s := rfl

theorem withResults_cons (due : Nat) (w : Land) (l : List (Nat × Land)) (s : State) :
    withResults ((due, w) :: l) s = withResults l (pendAt due w s) := by
  simp only [withResults, withPends, pendAt, List.length_cons, State.mk.injEq, true_and, and_true]
  omega

theorem withResults_append (l r : List (Nat × Land)) (s : State) :
    withResults (l ++ r) s = withResults r (withResults l s) := by
  induction l generalizing s with
  | nil => rfl
  | cons e l ih => rw [List.cons_append, withResults_cons, ih, withResults_cons]

/-- The S stream's row writes, one after another. -/
theorem foldl_pendAt_writes (lat ret x : Nat) (ws : List (Nat × List Byte)) (s : State) :
    ws.foldl (fun s w => pendAt (s.clock + lat) (.bankRow (x + w.1) w.2 ret none) s) s =
      withResults (ws.map fun w => (s.clock + lat, .bankRow (x + w.1) w.2 ret none)) s := by
  induction ws generalizing s with
  | nil => rfl
  | cons w ws ih => rw [List.foldl_cons, ih, List.map_cons, withResults_cons]; rfl

/-- What a stored row leaves pending (R225, R229). -/
theorem storeOut_eq (ret x : Nat) (o : RowOut) (fs : List Flags) (hist : Option (List Nat)) (lat : Nat) (s : State) :
    storeOut ret x o fs hist lat s = withResults (rowPends (s.clock + lat) ret x o fs hist) s := by
  unfold rowPends
  rw [withResults_append, ← foldl_pendAt_writes, withResults_cons]
  cases hist with
  | none => rfl
  | some is => rw [withResults_cons, withResults_nil]; rfl

/-! ## Going on with results pending -/

theorem sameBytes_trans {s t u : State} (h : SameBytes s t) (k : SameBytes t u) : SameBytes s u :=
  fun x => ⟨(k x).1.trans (h x).1, (k x).2.trans (h x).2⟩

/-- The context is changed to `c` and results are pending, and the instruction retires: nothing else changes, and every byte reads as before. -/
theorem retire_withMe_withResults_spec (x : StreamId) (l : List (Nat × Land)) {s : State} {c : Ctx} (hr : SameReader s.me c)
    (hx : c.strm x = s.me.strm x) (hn : (s.withMe c).now = s.now) :
    Ran x 1 s (retire x 1 (withResults l (s.withMe c))) ∧ OnlyMe s (retire x 1 (withResults l (s.withMe c))) ∧
    ButStream x { c with pend := withPends s.seqs c.pend l } (retire x 1 (withResults l (s.withMe c))).me ∧
    SameBytes s (retire x 1 (withResults l (s.withMe c))) := by
  obtain ⟨⟨hl, hs⟩, ho, _, hm, hb⟩ := retire_spec x 1 (withResults l (s.withMe c))
  have hc : SameBytes s (withResults l (s.withMe c)) := sameBytes_of_onlyMe rfl hr
  have hp : (withResults l (s.withMe c)).me.strm x = c.strm x := by cases x <;> rfl
  refine ⟨⟨hl, ?_⟩, onlyMe_trans (t := withResults l (s.withMe c)) rfl ho, hm, sameBytes_trans hc hb⟩
  rw [hs, hp, hx, ← hn]
  rfl

/-- Results of an instruction that then retires. -/
theorem retire_withResults_spec (x : StreamId) (l : List (Nat × Land)) (s : State) :
    Ran x 1 s (retire x 1 (withResults l s)) ∧ OnlyMe s (retire x 1 (withResults l s)) ∧
    ButStream x { s.me with pend := withPends s.seqs s.me.pend l } (retire x 1 (withResults l s)).me ∧
    SameBytes s (retire x 1 (withResults l s)) :=
  retire_withMe_withResults_spec x l (c := s.me) ⟨rfl, rfl, rfl, rfl, rfl, rfl, rfl, rfl, rfl⟩ rfl rfl

/-- A change of the context by an instruction that then retires. -/
theorem retire_withMe_spec (x : StreamId) {s : State} {c : Ctx} (hr : SameReader s.me c) (hx : c.strm x = s.me.strm x)
    (hn : (s.withMe c).now = s.now) :
    Ran x 1 s (retire x 1 (s.withMe c)) ∧ OnlyMe s (retire x 1 (s.withMe c)) ∧ ButStream x c (retire x 1 (s.withMe c)).me ∧
    SameBytes s (retire x 1 (s.withMe c)) :=
  retire_withMe_withResults_spec x [] hr hx hn

theorem issuePast_spec (x : StreamId) (n : Nat) (s : State) :
    (issuePast x n s).last = .issued ∧ (issuePast x n s).me = s.me.setStrm x (stepPast n s.now (s.me.strm x)) ∧ OnlyMe s (issuePast x n s) ∧
    SameBytes s (issuePast x n s) := by
  have ho : OnlyMe s (issuePast x n s) := rfl
  refine ⟨rfl, rfl, ho, sameBytes_regs ho ?_⟩
  cases x <;> exact ⟨rfl, rfl, rfl, rfl, rfl, rfl, rfl, rfl, rfl⟩

/-- A retirement of the S stream in progress. -/
def withRet (r : Retiring) (s : State) : State := s.withMe { s.me with rets := s.me.rets ++ [{ r with counts := !s.me.timed }] }

theorem retireLater_eq (r : Retiring) (s : State) :
    retireLater r s = if s.me.timed then retire .s 1 (withRet r s) else issuePast .s 1 (withRet r s) := rfl

theorem sameBytes_withRet (r : Retiring) (s : State) : SameBytes s (withRet r s) :=
  sameBytes_of_onlyMe rfl ⟨rfl, rfl, rfl, rfl, rfl, rfl, rfl, rfl, rfl⟩

theorem sameBytes_withResults (l : List (Nat × Land)) (s : State) : SameBytes s (withResults l s) :=
  sameBytes_of_onlyMe rfl ⟨rfl, rfl, rfl, rfl, rfl, rfl, rfl, rfl, rfl⟩

/-- An instruction of the S stream that retires later (R18, R229, R368). -/
theorem retireLater_spec (r : Retiring) (s : State) :
    WentOn r s (retireLater r s) ∧ OnlyMe s (retireLater r s) ∧
    (retireLater r s).me = { s.me with rets := (retireLater r s).me.rets, strS := (retireLater r s).me.strS } ∧ SameBytes s (retireLater r s) := by
  rw [retireLater_eq]
  by_cases ht : s.me.timed = true
  · rw [if_pos ht]
    obtain ⟨hr, ho, _, hm, hb⟩ := retire_spec .s 1 (withRet r s)
    exact ⟨⟨by rw [hm]; rfl, fun _ => hr, fun h => absurd ht (by rw [h]; decide)⟩, onlyMe_trans (t := withRet r s) rfl ho, by rw [hm]; rfl,
      sameBytes_trans (sameBytes_withRet r s) hb⟩
  · rw [if_neg ht]
    obtain ⟨hl, hm, ho, hb⟩ := issuePast_spec .s 1 (withRet r s)
    exact ⟨⟨by rw [hm]; rfl, fun h => absurd h ht, fun _ => ⟨hl, by rw [hm]; rfl⟩⟩, onlyMe_trans (t := withRet r s) rfl ho, by rw [hm]; rfl,
      sameBytes_trans (sameBytes_withRet r s) hb⟩

/-! ## Special registers (R42 to R44, R152, R153) -/

theorem csrReadable_eq_mayRead (sup : Bool) (r : Csr) : csrReadable sup r = mayRead sup r := by
  cases sup <;> cases r <;> rfl

theorem csrWritable_eq_mayWrite (sup : Bool) (r : Csr) : csrWritable sup r = mayWrite sup r := by
  cases sup <;> cases r <;> rfl

theorem csrWaits_eq_csrHeld (r : Csr) (c : Ctx) : (csrWaits r && (diffInFlight c || diffParked c)) = csrHeld r c := by
  cases r <;> rfl

/-- CSRR reads, or is an illegal dynamic combination (R43, R152). -/
theorem exec_csrr (d : SReg) (r : Csr) (s : State) :
    exec (.csrr d r) s = if mayRead s.me.sup r then .next (retire .c 1 (wrS d (readCsr s.me r) 1 s)) else illegal .c s := by
  rw [← csrReadable_eq_mayRead]; rfl

/-- What a CSR write does with its results: it traps, waits, or retires with them pending (R43, R44, R153). -/
def csrWrite (r : Csr) (l : List (Nat × Land)) (s : State) : Ans :=
  if !mayWrite s.me.sup r then illegal .c s
  else if csrHeld r s.me then .next (waitAt s) else .next (retire .c 1 (withResults l s))

theorem exec_csrw (r : Csr) (a : SReg) (s : State) :
    exec (.csrw r a) s = csrWrite r [(s.clock + 1, .csr r (rdS s.me a))] s := by
  unfold csrWrite
  rw [← csrWaits_eq_csrHeld, ← csrWritable_eq_mayWrite]; rfl

theorem exec_csrx (d : SReg) (r : Csr) (a : SReg) (s : State) :
    exec (.csrx d r a) s = csrWrite r [(s.clock + 1, .csr r (rdS s.me a)), (s.clock + 1, .s d (readCsr s.me r))] s := by
  unfold csrWrite
  rw [← csrWaits_eq_csrHeld, ← csrWritable_eq_mayWrite]; rfl

theorem csrWrite_illegal {r : Csr} {s : State} (l : List (Nat × Land)) (h : mayWrite s.me.sup r = false) : csrWrite r l s = illegal .c s := by
  unfold csrWrite; rw [h]; rfl

theorem csrWrite_held {r : Csr} {s : State} (l : List (Nat × Land)) (h : mayWrite s.me.sup r = true) (k : csrHeld r s.me = true) :
    csrWrite r l s = .next (waitAt s) := by
  unfold csrWrite; rw [h, k]; rfl

theorem csrWrite_done {r : Csr} {s : State} (l : List (Nat × Land)) (h : mayWrite s.me.sup r = true) (k : csrHeld r s.me = false) :
    csrWrite r l s = .next (retire .c 1 (withResults l s)) := by
  unfold csrWrite; rw [h, k]; rfl

/-- A register of n bits, read zero-extended, gives the low n bits of what was put into it. -/
theorem toNat_narrowed (v : W64) {n : Nat} (hn : n ≤ 64) : ((v.setWidth n).setWidth 64).toNat = v.toNat % 2 ^ n := by
  rw [BitVec.toNat_setWidth_of_le hn, BitVec.toNat_setWidth]

/-- A CSR reads back the bits it has of what was written (R42). -/
theorem readCsr_putCsr (c : Ctx) (r : Csr) (v : W64) (h : mayWrite true r = true) :
    (readCsr (putCsr c r v) r).toNat = v.toNat % 2 ^ csrBits r := by
  cases r with
  | status | frnd | fflags | scaleRcp => exact toNat_narrowed v (by decide)
  | tapeBase | tapeLimit | tapeHead | adjRoot | expStall | trapVec => exact (Nat.mod_eq_of_lt v.isLt).symm
  | ctxclass | vrank | vcount | part | dmode | patchEpoch | yieldDl | trapCause => exact absurd h (by decide)

/-- The modes that may read and write each CSR (R42, R43). -/
theorem mayRead_mayWrite_iff (r : Csr) :
    mayRead true r = true ∧ (mayRead false r = false ↔ r ∈ [Csr.adjRoot, .trapVec, .trapCause]) ∧
    (mayWrite false r = true ↔ r ∈ [Csr.frnd, .fflags, .scaleRcp, .tapeBase, .tapeLimit]) ∧
    (mayWrite true r = true ↔ r ∈ [Csr.status, .frnd, .fflags, .scaleRcp, .tapeBase, .tapeLimit, .tapeHead, .adjRoot, .expStall, .trapVec]) := by
  cases r <;> decide

/-- The CSR numbers R42 lists. -/
def csrNumbers : List Nat :=
  [0x000, 0x001, 0x002, 0x003, 0x004, 0x010, 0x011, 0x020, 0x030, 0x031, 0x032, 0x033, 0x034, 0x040, 0x050, 0x060, 0x070, 0x071]

theorem csrOf_unlisted {n : Nat} (h : n ∉ csrNumbers) : csrOf n = none := by
  simp only [csrNumbers, List.mem_cons, List.not_mem_nil, or_false, not_or] at h
  simp [csrOf, h]

/-- A word of CSRR, CSRW or CSRX with a number that is not listed is refused (R43, R96). -/
theorem decodeWord_csr_unlisted {w : Nat} (ext : Nat) (hm : w / 2 ^ 22 % 64 ∈ [0x1F, 0x20, 0x21]) (hn : w % 2 ^ 12 ∉ csrNumbers) :
    decodeWord .c w ext = none := by
  have hc : csrOf (fld w 0 12) = none := by
    apply csrOf_unlisted
    rwa [fld, Nat.pow_zero, Nat.div_one]
  have hf : fld w 22 6 ∈ [0x1F, 0x20, 0x21] := hm
  simp only [List.mem_cons, List.not_mem_nil, or_false] at hf
  rcases hf with hf | hf | hf
  · by_cases hz : fld w 12 5 = 0 <;> simp [decodeWord, scanWord, decC, hf, hc, orRule, zeroField, hz]
  · by_cases hz : fld w 17 5 = 0 <;> simp [decodeWord, scanWord, decC, hf, hc, orRule, zeroField, hz]
  · simp [decodeWord, scanWord, decC, hf, hc, orRule]

/-- Settles O41: CSRR by the rule of one register result, CSRW and CSRX as one write with its results, the rest by the tables of R42. -/
theorem specialRegisters : Obligations.SpecialRegisters := by
  unfold Obligations.SpecialRegisters
  refine ⟨fun s d r h => ?_, fun s d a r h k => ?_, fun s d r h => ?_, fun s d a r h => ?_, fun s d a r h k => ?_, readCsr_putCsr, fun _ _ => rfl,
    mayRead_mayWrite_iff, fun w ext => decodeWord_csr_unlisted ext⟩
  · obtain ⟨hr, hg, ho, hm, hb⟩ := retire_wrS_spec d (readCsr s.me r) 1 1 s
    exact ⟨_, by rw [exec_csrr, h]; rfl, hr, ho, hg, hm, hb⟩
  · obtain ⟨hr, ho, hm, hb⟩ := retire_withResults_spec .c [(s.clock + 1, .csr r (rdS s.me a))] s
    obtain ⟨kr, ko, km, kb⟩ := retire_withResults_spec .c [(s.clock + 1, .csr r (rdS s.me a)), (s.clock + 1, .s d (readCsr s.me r))] s
    exact ⟨_, _, by rw [exec_csrw, csrWrite_done _ h k], by rw [exec_csrx, csrWrite_done _ h k], hr, kr, ho, ko, hb, kb, hm, km⟩
  · rw [exec_csrr, h]; rfl
  · exact ⟨by rw [exec_csrw, csrWrite_illegal _ h]; rfl, by rw [exec_csrx, csrWrite_illegal _ h]; rfl⟩
  · exact ⟨by rw [exec_csrw, csrWrite_held _ h k]; rfl, by rw [exec_csrx, csrWrite_held _ h k]; rfl⟩

/-! ## The histogram (R27, R232) -/

/-- Counters count up to 0xFFFFFFFF and stay there (R27). -/
theorem histBump_toNat (h : Vector W32 34) (i j : Fin 34) :
    ((histBump h i.val)[j]).toNat = if j = i then min (h[i].toNat + 1) 0xFFFFFFFF else h[j].toNat := by
  have hi : i.val < 34 := i.isLt
  unfold histBump
  rw [dif_pos hi]
  by_cases hm : h[i.val] = 0xFFFFFFFF#32
  · rw [if_pos hm]
    by_cases hj : j = i
    · subst hj; simp [hm]
    · rw [if_neg hj]
  · rw [if_neg hm]
    by_cases hj : j = i
    · subst hj
      have hlt : h[j.val].toNat ≠ 0xFFFFFFFF := fun e => hm (BitVec.eq_of_toNat_eq e)
      have hs : (h[j.val] + 1#32).toNat = h[j.val].toNat + 1 := by bv_omega
      have hb := h[j.val].isLt
      simp only [Fin.getElem_fin, Vector.getElem_set_self, if_true, hs]
      omega
    · have hv : i.val ≠ j.val := fun e => hj (Fin.ext e.symm)
      simp [hj, Vector.getElem_set_ne, hv]

/-- Each value has its counter: 32 for zeros, 33 for what is no number (R232). -/
theorem histIdx_spec (x : Ex) :
    histIdx x < 34 ∧ (histIdx x = 32 ↔ ∃ n e, x = .fin n 0 e) ∧ (histIdx x = 33 ↔ ∀ n m e, x ≠ .fin n m e) := by
  cases x with
  | nan => simp [histIdx]
  | inf b => simp [histIdx]
  | fin n m e =>
    by_cases hm : m = 0
    · subst hm; simp [histIdx]
    · have hb : histIdx (.fin n m e) ≤ 31 := by
        simp only [histIdx, if_neg hm]; omega
      refine ⟨by omega, ⟨fun h => by omega, ?_⟩, ⟨fun h => by omega, fun h => absurd rfl (h n m e)⟩⟩
      rintro ⟨_, _, h⟩
      cases h
      exact absurd rfl hm

/-! ## The retire unit and bank rows (R217, R223) -/

theorem rowInstr_free {s : State} (f : State → Ans) (h : rtBusy s = false) : rowInstr f s = f s := by
  unfold rowInstr; rw [h]; rfl

theorem withRow_usable {s : State} {b : BankNo} {row : Byte} (k : AccKind) (f : State → Ans) (h : bankRowErr s b row = none) :
    withRow b row k f s = f s := by
  unfold withRow; rw [h]

/-- A bank at or above NBANK is an access fault (R30, R223). -/
theorem withRow_beyond {s : State} {b : BankNo} (row : Byte) (k : AccKind) (f : State → Ans) (h : s.me.nbank ≤ b.val) :
    withRow b row k f s = .next (takeTrap ((exAcc s .s 7 0#64 k 0xFF).on .s) s) := by
  have he : bankRowErr s b row = some 7 := by unfold bankRowErr; exact if_pos h
  unfold withRow; rw [he]; rfl

/-- A RAW or armed bank, and an upper half the bank has not, are illegal dynamic combinations (R223). -/
theorem withRow_illegal {s : State} {b : BankNo} {row : Byte} (k : AccKind) (f : State → Ans) (hb : b.val < s.me.nbank)
    (h : s.me.bankFmt b.val = .raw ∨ s.me.isArmed b.val = true ∨ (128 ≤ row.toNat ∧ (s.me.bankFmt b.val = .fp32 ∨ s.me.bankFmt b.val = .int32))) :
    withRow b row k f s = .next (takeTrap ((exIllegal s .s).on .s) s) := by
  have hrow := row.isLt
  have hh : 128 ≤ row.toNat → halfOf row = 1 := fun h => by unfold halfOf; omega
  have he : bankRowErr s b row = some 0 := by
    unfold bankRowErr
    rw [if_neg (by omega)]
    exact if_pos (h.imp_right fun h => h.imp_right fun h => ⟨hh h.1, h.2⟩)
  unfold withRow; rw [he]; rfl

/-! ## Poison on the way to a VLD (R282) -/

theorem homeWrite_mem_congr {s t : State} (x : Nat) (bs : List Byte) (h : t.mem = s.mem) : (homeWrite x bs t).mem = (homeWrite x bs s).mem := by
  unfold homeWrite; rw [h]; split <;> rfl

theorem performAtomic_mem_congr {s t : State} (r : AtomReq) (h : t.mem = s.mem) :
    (performAtomic r t).2.2.2.mem = (performAtomic r s).2.2.2.mem := by
  unfold performAtomic
  rw [h]
  dsimp only
  split
  · exact h
  · unfold homeRead; rw [h]; exact homeWrite_mem_congr _ _ h

theorem landWord_congr (s t : State) : landWord t = landWord s := by
  funext m w
  unfold landWord
  split
  · rfl
  · rfl
  · exact performAtomic_mem_congr _ rfl

/-- The memory a stream meets depends on what is in memory, on the word accesses on their way, on the time and on what the stream knows. -/
theorem orderedFor_mem_congr {s t : State} (x : StreamId) (hm : t.mem = s.mem) (hw : t.me.words = s.me.words) (ht : t.me.timed = s.me.timed)
    (hn : t.now = s.now) (ho : (t.me.strm x).ord = (s.me.strm x).ord) : (t.orderedFor x).mem = (s.orderedFor x).mem := by
  unfold State.orderedFor State.withWords
  dsimp only
  rw [hm, hw, ht, hn, ho, landWord_congr s t]

/-- A poison test of a row half answers as it did before its instruction left results pending and moved its stream on. -/
theorem consumeHalf_clean {s t : State} {b : Nat} {row : Byte} {f : Fmt} {ps : List Pend} {st : Strm} (ho : OnlyMe s t)
    (hm : t.me = { s.me with pend := ps, strS := st }) (hs : st.ord = s.me.strS.ord)
    (h : poisonedRange (s.orderedFor .s).mem (bankLoc s.rank s.me b (512 * rowOf row + halfOff f (halfOf row))) (halfLen f) = false) :
    consumeHalf b row f t = t := by
  have hmem : t.mem = s.mem := by rw [ho]
  have hrank : t.rank = s.rank := by rw [ho]
  have hbay : t.bays = s.bays := by rw [ho]
  have hcyc : t.cycle = s.cycle := by rw [ho]
  have hnow : t.now = s.now := by simp only [State.now, State.nowOf, State.bay, hm, hbay, hcyc]
  have hseen : (t.orderedFor .s).mem = (s.orderedFor .s).mem :=
    orderedFor_mem_congr .s hmem (by rw [hm]) (by rw [hm]) hnow (by rw [hm]; exact hs)
  have hloc : ∀ x, bankLoc t.rank t.me b x = bankLoc s.rank s.me b x := fun x => by rw [hrank, hm]; rfl
  unfold consumeHalf
  rw [hseen, hloc]
  exact if_neg (by rw [h]; decide)

theorem bankLoc_add (rank : Nat) (c : Ctx) (b x y : Nat) : bankLoc rank c b (x + y) = bankLoc rank c b x + y :=
  (Nat.add_assoc _ x y).symm

/-! ## Landing (R26, R225, R236) -/

/-- A row that lands stands in its bank, and no other byte changed (R225). -/
theorem landOne_bankRow_bytes (due seq x ret : Nat) (cov : Option Nat) (bs : List Byte) {s : State} (h : Sound s) :
    readBases (landOne ⟨due, seq, .bankRow x bs ret cov⟩ s).mem x bs.length = bs ∧
    ∀ y, (y < x ∨ x + bs.length ≤ y) → readBase (landOne ⟨due, seq, .bankRow x bs ret cov⟩ s).mem y = readBase s.mem y := by
  have hm : (landOne ⟨due, seq, .bankRow x bs ret cov⟩ s).mem = writeBases s.mem x bs := by cases cov <;> rfl
  rw [hm]
  exact ⟨readBases_writeBases x bs h, fun _ hy => readBase_writeBases_out hy⟩

/-- Lane flags that land are set in LF, lane by lane (R26). -/
theorem landOne_lf_raised (due seq : Nat) (fs : List Flags) (s : State) : Raised fs s.me (landOne ⟨due, seq, .lf fs⟩ s).me := by
  intro j hj
  show ((List.range 128).map fun j => s.me.lf.getD j 0#6 ||| fs.getD j 0#6).getD j 0#6 = _
  simp [List.getD, hj]

/-! ## VLD and VST (R224, R225) -/

/-- The results of a VLD: the row half as FP32, and its lanes' flags (R224). -/
def vldResults (d : VReg) (b : BankNo) (row : Byte) (s : State) : List (Nat × Land) :=
  let f := vldLane (s.me.bankFmt b.val) (rowSeen s b.val (row.toNat % 128))
  [(s.clock + 4, .v d (rowBits fun j => f (128 * (row.toNat / 128) + j))), (s.clock + 4, .lf (rowFlags fun j => f (128 * (row.toNat / 128) + j)))]

theorem mapLanes_eq (f : Nat → Res) : mapLanes f = (rowBits f, rowFlags f) := by
  simp [mapLanes, rowBits, rowFlags, Function.comp_def]

theorem exec_vld {d : VReg} {b : BankNo} {row : Byte} {s : State} (hu : rtBusy s = false) (hb : bankRowErr s b row = none)
    (hp : poisonedRange (s.orderedFor .s).mem (rowLoc s b.val (row.toNat % 128) + rowBytes (s.me.bankFmt b.val) (128 * (row.toNat / 128)))
      (rowBytes (s.me.bankFmt b.val) 128) = false) :
    exec (.vld d b row) s = .next (retire .s 1 (withResults (vldResults d b row s) s)) := by
  obtain ⟨⟨_, hstr⟩, ho, hm, _⟩ := retire_withResults_spec .s (vldResults d b row s) s
  have hord : ((retire .s 1 (withResults (vldResults d b row s) s)).me.strm .s).ord = s.me.strS.ord := by rw [hstr]; rfl
  show execVld d b row s = _
  unfold execVld
  rw [rowInstr_free _ hu, withRow_usable _ _ hb]
  dsimp only
  rw [mapLanes_eq]
  exact congrArg Host.Outcome.next (consumeHalf_clean (b := b.val) (f := s.me.bankFmt b.val) ho hm hord (by rw [bankLoc_add]; exact hp))

/-- The retirement of a VST: four cycles after its issue, it covers no tile (R225). -/
def vstRet (s : State) : Retiring := ⟨s.seqs, 64, s.now, s.now + 4, 0#4, true⟩

/-- What a VST leaves to land. -/
def vstResults (a : VReg) (b : BankNo) (row : Byte) (aux : StAux) (s : State) : List (Nat × Land) :=
  rowPends (s.clock + 4) s.seqs (rowLoc s b.val (row.toNat % 128))
    (storeRow (s.me.bankFmt b.val) (row.toNat / 128) aux s.me.scaleRcp (rowLanes (rdV s.me a))) [] (histOf aux (rowLanes (rdV s.me a)))

theorem exec_vst {a : VReg} {b : BankNo} {row : Byte} {aux : StAux} {s : State} (hu : rtBusy s = false) (hb : bankRowErr s b row = none) :
    exec (.vst a b row aux) s = .next (retireLater (vstRet s) (withResults (vstResults a b row aux s) s)) := by
  show execVst a b row aux s = _
  unfold execVst
  rw [rowInstr_free _ hu, withRow_usable _ _ hb]
  dsimp only
  rw [storeOut_eq]
  rfl

/-- Bank rows that cannot be used, for both instructions (R223). -/
theorem exec_vld_vst_trap {d : VReg} {b : BankNo} {row : Byte} {aux : StAux} {s : State} (e : AccKind → Exc) (hu : rtBusy s = false)
    (h : ∀ k f, withRow b row k f s = .next (takeTrap ((e k).on .s) s)) :
    exec (.vld d b row) s = .next (takeTrap ((e .read).on .s) s) ∧ exec (.vst d b row aux) s = .next (takeTrap ((e .write).on .s) s) :=
  ⟨(rowInstr_free _ hu).trans (h _ _), (rowInstr_free _ hu).trans (h _ _)⟩

/-! ## Histogram, lane flags, SCALE.RCP (R227, R232 to R234) -/

theorem exec_histAdd {nf : Bool} {a : VReg} {s : State} (hu : rtBusy s = false) :
    exec (.histAdd nf a) s =
      .next (retire .s 1 (withResults [(s.clock + 1, .hist ((rowLanes (rdV s.me a)).map fun x => histIdx x.ex))] s)) := by
  show execHistAdd nf a s = _
  unfold execHistAdd
  rw [rowInstr_free _ hu]
  rfl

theorem exec_flgRd {nf : Bool} {d : VReg} {s : State} (hu : rtBusy s = false) :
    exec (.flgRd nf d) s = .next (retire .s 1 (withResults [(s.clock + 1, .v d (flagRow s.me.lf))] s)) := by
  show execFlgRd nf d s = _
  unfold execFlgRd
  rw [rowInstr_free _ hu]
  rfl

theorem exec_histClr {nf : Bool} {s : State} (hu : rtBusy s = false) :
    exec (.histClr nf) s = .next (retire .s 1 (s.withMe { s.me with hist := Vector.replicate 34 0#32 })) := by
  show execHistClr nf s = _
  unfold execHistClr
  rw [rowInstr_free _ hu]
  rfl

/-- The context with counter n pushed into queue 5 (R233). -/
def histPushed (n : Byte) (s : State) : Ctx :=
  s.me.setQueue 5 ((s.me.queue 5).push ((s.me.hist.toList.getD n.toNat 0#32).setWidth 64) s.cycle)

theorem queue_setQueue_same (c : Ctx) (q : QNo) (x : Queue) : (c.setQueue q x).queue q = x := by
  simp [Ctx.queue, Ctx.setQueue]

theorem queue_setQueue_ne (c : Ctx) {q r : QNo} (x : Queue) (h : r ≠ q) : (c.setQueue q x).queue r = c.queue r := by
  have hv : q.val ≠ r.val := fun e => h (Fin.ext e.symm)
  simp [Ctx.queue, Ctx.setQueue, Vector.getElem_set_ne, hv]

theorem exec_histRd {nf : Bool} {n : Byte} {s : State} (hu : rtBusy s = false) (hq : (s.me.queue 5).full s.cycle = false) :
    exec (.histRd nf n) s = .next (retire .s 1 (s.withMe (histPushed n s))) := by
  show execHistRd nf n s = _
  unfold execHistRd
  rw [rowInstr_free _ hu, pushTo_spec, if_neg (by rw [hq]; decide)]
  rfl

/-- FLG.CLR of a queued context waits out the cycle in which lane flags land (R233, R234). -/
theorem exec_flgClr_waits {nf : Bool} {s : State} (hu : rtBusy s = false) (ht : s.me.timed = false) (hf : flagsNow s = true) :
    exec (.flgClr nf) s = .next { s with last := .waiting } := by
  show execFlgClr nf s = _
  unfold execFlgClr
  rw [rowInstr_free _ hu, ht, hf]
  rfl

theorem exec_flgClr {nf : Bool} {s : State} (hu : rtBusy s = false) (h : s.me.timed = true ∨ flagsNow s = false) :
    exec (.flgClr nf) s = .next (retire .s 1 (s.withMe { s.me with lf := if flagsNow s then s.me.lfNow.2 else [] })) := by
  have hn : (!s.me.timed && flagsNow s) = false := by
    rcases h with h | h <;> simp [h]
  show execFlgClr nf s = _
  unfold execFlgClr
  rw [rowInstr_free _ hu, hn]
  rfl

/-- The flags a clear leaves are those that landed in its cycle (R234). -/
theorem flagsKept_getD (s : State) (j : Nat) :
    (if flagsNow s then s.me.lfNow.2 else []).getD j 0#6 = if s.me.lfNow.1 = s.now then s.me.lfNow.2.getD j 0#6 else 0#6 := by
  unfold flagsNow
  by_cases hn : s.me.lfNow.1 = s.now
  · cases hl : s.me.lfNow.2 <;> simp [hn]
  · simp [hn]

theorem exec_sclSet {nf : Bool} {q : QNo} {v : W64} {s : State} (h : AtFront s q v) :
    exec (.sclSet nf q) s =
      .next (retire .s 1 (withResults [(s.clock + 1, .csr .scaleRcp (v &&& 0xFFFFFFFF#64))] (s.withMe (popped s q)))) := by
  show execSclSet nf q s = _
  unfold execSclSet
  rw [(withFront_spec .s q _ s).1 v h]
  rfl

/-- Settles O52: each instruction retires with its results pending, or with its one change of the context; the landings by the laws of memory and of LF. -/
theorem rowsFlagsCounters : Obligations.RowsFlagsCounters := by
  unfold Obligations.RowsFlagsCounters
  refine ⟨fun s d b row hu hb hp => ?_, fun s a b row aux hu hb => ?_, fun _ due seq x ret cov bs => landOne_bankRow_bytes due seq x ret cov bs,
    fun s due seq fs is => ⟨landOne_lf_raised due seq fs s, rfl⟩, fun s d b row aux hu hb => ?_, fun s d b row aux hu hb h => ?_, fun s nf a hu => ?_,
    histBump_toNat, histIdx_spec, fun s nf n hu _ hq => ?_, fun s nf hu => ?_, fun s nf d hu => ?_, fun s nf => exec_flgClr_waits,
    fun s nf hu h => ?_, fun s nf q v h => ?_⟩
  · obtain ⟨hr, ho, hm, hs⟩ := retire_withResults_spec .s (vldResults d b row s) s
    exact ⟨_, exec_vld hu hb hp, hr, ho, ⟨rfl, rfl, rfl⟩, hm, hs⟩
  · obtain ⟨hr, ho, hm, hs⟩ := retireLater_spec (vstRet s) (withResults (vstResults a b row aux s) s)
    exact ⟨_, exec_vst hu hb, hr, onlyMe_trans (t := withResults (vstResults a b row aux s) s) rfl ho, by rw [hm]; rfl, by rw [hm]; rfl,
      sameBytes_trans (sameBytes_withResults _ s) hs⟩
  · exact exec_vld_vst_trap (fun k => exAcc s .s 7 0#64 k 0xFF) hu fun k f => withRow_beyond row k f hb
  · exact exec_vld_vst_trap (fun _ => exIllegal s .s) hu fun k f => withRow_illegal k f hb h
  · obtain ⟨hr, ho, hm, hs⟩ := retire_withResults_spec .s [(s.clock + 1, .hist ((rowLanes (rdV s.me a)).map fun x => histIdx x.ex))] s
    exact ⟨_, exec_histAdd hu, hr, ho, hs, hm⟩
  · obtain ⟨hr, ho, hm, hs⟩ := retire_withMe_spec .s (s := s) (c := histPushed n s) ⟨rfl, rfl, rfl, rfl, rfl, rfl, rfl, rfl, rfl⟩ rfl rfl
    exact ⟨_, exec_histRd hu hq, hr, ho, queue_setQueue_same _ _ _, hm, fun q h => queue_setQueue_ne _ _ h, hs⟩
  · obtain ⟨hr, ho, hm, hs⟩ := retire_withMe_spec .s (s := s) (c := { s.me with hist := Vector.replicate 34 0#32 })
      ⟨rfl, rfl, rfl, rfl, rfl, rfl, rfl, rfl, rfl⟩ rfl rfl
    exact ⟨_, exec_histClr hu, hr, ho, hm, hs⟩
  · obtain ⟨hr, ho, hm, hs⟩ := retire_withResults_spec .s [(s.clock + 1, .v d (flagRow s.me.lf))] s
    exact ⟨_, exec_flgRd hu, hr, ho, ⟨rfl, rfl, rfl⟩, hm, hs⟩
  · obtain ⟨hr, ho, hm, hs⟩ := retire_withMe_spec .s (s := s) (c := { s.me with lf := if flagsNow s then s.me.lfNow.2 else [] })
      ⟨rfl, rfl, rfl, rfl, rfl, rfl, rfl, rfl, rfl⟩ rfl rfl
    exact ⟨_, exec_flgClr hu h, hr, ho, flagsKept_getD s, hm, hs⟩
  · obtain ⟨hr, ho, hm, hs⟩ := retire_withMe_withResults_spec .s [(s.clock + 1, .csr .scaleRcp (v &&& 0xFFFFFFFF#64))] (s := s) (c := popped s q)
      ⟨rfl, rfl, rfl, rfl, rfl, rfl, rfl, rfl, rfl⟩ rfl rfl
    exact ⟨_, exec_sclSet h, hr, ho, hm, hs⟩

end Sys2Proof.Machine
end

section
/-! SUPPORT. Proofs: counts and division of the C stream. -/
namespace Sys2Proof.Machine

open Sys2Proof.Safety

/-! ## Counts (R106) -/

theorem clz64_zero : clz64 0#64 = 64 := rfl

theorem clz64_of_ne_zero {a : W64} (h : a ≠ 0#64) : clz64 a = 63 - a.toNat.log2 := if_neg h

/-- With `clz64 a` zero bits at the top the number is below 2^(64 − `clz64 a`), and its next bit is set (R106). -/
theorem clz64_spec (a : W64) :
    clz64 a ≤ 64 ∧ a.toNat < 2 ^ (64 - clz64 a) ∧ (a ≠ 0#64 → 2 ^ (63 - clz64 a) ≤ a.toNat ∧ clz64 a < 64) ∧ (a = 0#64 → clz64 a = 64) := by
  by_cases h : a = 0#64
  · subst h
    exact ⟨by decide, by decide, fun h => absurd rfl h, fun _ => clz64_zero⟩
  · have hn : a.toNat ≠ 0 := BitVec.toNat_ne.mp h
    have hl : a.toNat.log2 < 64 := (Nat.log2_lt hn).mpr a.isLt
    have htop : 64 - (63 - a.toNat.log2) = a.toNat.log2 + 1 := by omega
    have hbit : 63 - (63 - a.toNat.log2) = a.toNat.log2 := by omega
    rw [clz64_of_ne_zero h, htop, hbit]
    exact ⟨by omega, Nat.lt_log2_self, fun _ => ⟨Nat.log2_self_le hn, by omega⟩, fun k => absurd k h⟩

theorem ctzFrom_zero (n : Nat) : ctzFrom n 0 = n := by
  induction n with
  | zero => rfl
  | succ n ih => exact congrArg (· + 1) ih

/-- A number of at most n bits that is not zero: its lowest set bit (R106). -/
theorem ctzFrom_spec {n x : Nat} (hx : x ≠ 0) (hn : x < 2 ^ n) :
    ctzFrom n x < n ∧ x.testBit (ctzFrom n x) = true ∧ ∀ i, i < ctzFrom n x → x.testBit i = false := by
  induction n generalizing x with
  | zero => omega
  | succ n ih =>
    by_cases ho : x % 2 = 1
    · have h0 : ctzFrom (n + 1) x = 0 := if_pos ho
      rw [h0]
      exact ⟨n.succ_pos, by simp [Nat.testBit_zero, ho], fun i hi => absurd hi i.not_lt_zero⟩
    · have hs : ctzFrom (n + 1) x = ctzFrom n (x / 2) + 1 := if_neg ho
      obtain ⟨hlt, hset, hclear⟩ := ih (x := x / 2) (by omega) (by omega)
      rw [hs]
      refine ⟨by omega, by rwa [Nat.testBit_add_one], fun i hi => ?_⟩
      cases i with
      | zero => simp [Nat.testBit_zero, ho]
      | succ i => rw [Nat.testBit_add_one]; exact hclear i (by omega)

theorem ctz64_spec (a : W64) :
    (a = 0#64 → ctz64 a = 64) ∧
    (a ≠ 0#64 → ctz64 a < 64 ∧ a.getLsbD (ctz64 a) = true ∧ ∀ i, i < ctz64 a → a.getLsbD i = false) := by
  refine ⟨fun h => ?_, fun h => ctzFrom_spec (BitVec.toNat_ne.mp h) a.isLt⟩
  subst h
  exact ctzFrom_zero 64

/-- POPC counts the set bits (R106). -/
theorem popCount_eq_length_filter (n x : Nat) : popCount n x = ((List.range n).filter fun i => x.testBit i).length := by
  induction n generalizing x with
  | zero => rfl
  | succ n ih =>
    have hs : (fun i => x.testBit i) ∘ Nat.succ = fun i => (x / 2).testBit i := funext fun i => Nat.testBit_add_one x i
    have hb : popCount (n + 1) x = x % 2 + popCount n (x / 2) := rfl
    rw [hb, ih, List.range_succ_eq_map, List.filter_cons, List.filter_map, hs]
    rcases Nat.mod_two_eq_zero_or_one x with h | h
    · simp [Nat.testBit_zero, h]
    · simp [Nat.testBit_zero, h, Nat.add_comm]

/-! ## Division (R106, R107) -/

/-- Division by zero gives all ones, and its remainder is the dividend (R107). -/
theorem division_by_zero (a : W64) : divS a 0#64 = -1#64 ∧ divU a 0#64 = -1#64 ∧ remS a 0#64 = a ∧ remU a 0#64 = a :=
  ⟨rfl, rfl, rfl, rfl⟩

theorem divS_of_ne_zero (a : W64) {b : W64} (h : b ≠ 0#64) : divS a b = BitVec.ofInt 64 (a.toInt.tdiv b.toInt) := if_neg h

theorem divU_of_ne_zero (a : W64) {b : W64} (h : b ≠ 0#64) : divU a b = BitVec.ofNat 64 (a.toNat / b.toNat) := if_neg h

theorem remS_of_ne_zero (a : W64) {b : W64} (h : b ≠ 0#64) : remS a b = BitVec.ofInt 64 (a.toInt.tmod b.toInt) := if_neg h

theorem remU_of_ne_zero (a : W64) {b : W64} (h : b ≠ 0#64) : remU a b = BitVec.ofNat 64 (a.toNat % b.toNat) := if_neg h

/-- The signed remainder fits its register. -/
theorem toInt_remS (a : W64) {b : W64} (h : b ≠ 0#64) : (remS a b).toInt = a.toInt.tmod b.toInt := by
  rw [remS_of_ne_zero a h, ← BitVec.toInt_srem, BitVec.ofInt_toInt]

theorem divS_mul_add_remS (a : W64) {b : W64} (h : b ≠ 0#64) : divS a b * b + remS a b = a := by
  calc divS a b * b + remS a b
      = BitVec.ofInt 64 (a.toInt.tdiv b.toInt) * BitVec.ofInt 64 b.toInt + BitVec.ofInt 64 (a.toInt.tmod b.toInt) := by
        rw [divS_of_ne_zero a h, remS_of_ne_zero a h, BitVec.ofInt_toInt (x := b)]
    _ = BitVec.ofInt 64 (a.toInt.tdiv b.toInt * b.toInt + a.toInt.tmod b.toInt) := by rw [BitVec.ofInt_add, BitVec.ofInt_mul]
    _ = a := by rw [Int.tdiv_mul_add_tmod, BitVec.ofInt_toInt]

theorem divU_mul_add_remU (a : W64) {b : W64} (h : b ≠ 0#64) : divU a b * b + remU a b = a := by
  calc divU a b * b + remU a b
      = BitVec.ofNat 64 (a.toNat / b.toNat) * BitVec.ofNat 64 b.toNat + BitVec.ofNat 64 (a.toNat % b.toNat) := by
        rw [divU_of_ne_zero a h, remU_of_ne_zero a h, BitVec.ofNat_toNat, BitVec.setWidth_eq]
    _ = BitVec.ofNat 64 (a.toNat / b.toNat * b.toNat + a.toNat % b.toNat) := by rw [BitVec.ofNat_add, BitVec.ofNat_mul]
    _ = a := by rw [Nat.div_add_mod', BitVec.ofNat_toNat, BitVec.setWidth_eq]

theorem remU_lt (a : W64) {b : W64} (h : b ≠ 0#64) : remU a b < b := by
  rw [remU_of_ne_zero a h, ← BitVec.umod_def]
  exact BitVec.umod_lt a (by bv_omega)

theorem natAbs_remS_lt (a : W64) {b : W64} (h : b ≠ 0#64) : (remS a b).toInt.natAbs < b.toInt.natAbs := by
  have hb : b.toInt ≠ 0 := fun e => h (BitVec.eq_of_toInt_eq e)
  rw [toInt_remS a h, Int.natAbs_tmod]
  exact Nat.mod_lt _ (Int.natAbs_pos.mpr hb)

/-- The signed remainder has the dividend's sign (R106). -/
theorem remS_neg_iff (a : W64) {b : W64} (h : b ≠ 0#64) (hr : (remS a b).toInt ≠ 0) : (remS a b).toInt < 0 ↔ a.toInt < 0 := by
  rw [toInt_remS a h] at hr ⊢
  have hd : ¬ b.toInt ∣ a.toInt := fun k => hr (Int.tmod_eq_zero_of_dvd k)
  have hs : (a.toInt.tmod b.toInt).sign = a.toInt.sign := by rw [Int.sign_tmod, if_neg hd]
  rw [← Int.sign_eq_neg_one_iff_neg, hs, Int.sign_eq_neg_one_iff_neg]

/-- The most negative number divided by −1 gives itself, with remainder 0 (R107). -/
theorem divS_remS_overflow {a b : W64} (ha : a.toInt = -(2 ^ 63)) (hb : b.toInt = -1) :
    divS a b = BitVec.ofInt 64 (-(2 ^ 63)) ∧ remS a b = 0#64 := by
  have h : b ≠ 0#64 := by rintro rfl; cases hb
  rw [divS_of_ne_zero a h, remS_of_ne_zero a h, ha, hb]
  exact ⟨rfl, rfl⟩

/-- DIV, DIVU, REM and REMU go on, each with its value pending for 20 cycles (R106). -/
theorem exec_divisions (s : State) (d a b : SReg) : ∃ t u v w, exec (.div d a b) s = .next t ∧ exec (.divu d a b) s = .next u ∧
    exec (.rem d a b) s = .next v ∧ exec (.remu d a b) s = .next w ∧
    GetsS d (divS (rdS s.me a) (rdS s.me b)) 20 s t ∧ GetsS d (divU (rdS s.me a) (rdS s.me b)) 20 s u ∧
    GetsS d (remS (rdS s.me a) (rdS s.me b)) 20 s v ∧ GetsS d (remU (rdS s.me a) (rdS s.me b)) 20 s w :=
  have gets (x : W64) : GetsS d x 20 s (retire .c 1 (wrS d x 20 s)) := (retire_wrS_spec d x 20 1 s).2.1
  ⟨_, _, _, _, rfl, rfl, rfl, rfl, gets _, gets _, gets _, gets _⟩

/-- Settles O9: the counts by induction on the number of bits, the corners of R107 by their values, the rest as division of integers. -/
theorem countsAndDivision : Obligations.CountsAndDivision := by
  unfold Obligations.CountsAndDivision
  refine ⟨clz64_spec, ctz64_spec, fun a => popCount_eq_length_filter 64 a.toNat, division_by_zero, by decide, by decide,
    fun s d a b hb => ?_, fun s d a b ha hb => ?_, fun a b h => ⟨divS_mul_add_remS a h, divU_mul_add_remU a h, remU_lt a h,
      natAbs_remS_lt a h, remS_neg_iff a h⟩⟩
  · have h := exec_divisions s d a b
    rwa [hb] at h
  · have hz : rdS s.me b ≠ 0#64 := fun e => by rw [e] at hb; cases hb
    obtain ⟨hq, hr⟩ := divS_remS_overflow ha hb
    have h := exec_divisions s d a b
    rwa [hq, hr, divU_of_ne_zero _ hz, remU_of_ne_zero _ hz] at h

end Sys2Proof.Machine
end

section
/-! SUPPORT. Proofs: FP32 moves, comparisons and conversion to INT32 of the C stream. -/
namespace Sys2Proof.Machine

open Sys2Proof.Safety

/-! ## Values (R111, R113) -/

theorem isNan32_iff (a : W32) : isNan32 a = true ↔ 0x7F800000 < a.toNat % 2 ^ 31 := decide_eq_true_iff

/-- Exactly one operand is NaN: FMIN and FMAX give the other one (R111). -/
theorem minFp32_maxFp32_one_nan {a b : W32} (ha : isNan32 a = true) (hb : isNan32 b = false) :
    minFp32 a b = b ∧ minFp32 b a = b ∧ maxFp32 a b = b ∧ maxFp32 b a = b := by
  simp [minFp32, maxFp32, ha, hb]

/-- Both operands are NaN (R111). -/
theorem minFp32_maxFp32_both_nan {a b : W32} (ha : isNan32 a = true) (hb : isNan32 b = true) :
    minFp32 a b = 0x7FC00000#32 ∧ maxFp32 a b = 0x7FC00000#32 := by
  simp [minFp32, maxFp32, ha, hb, qnan32]

/-- A comparison with a NaN is false (R111). -/
theorem compareFp32_nan {a b : W32} (h : isNan32 a = true ∨ isNan32 b = true) :
    eqFp32 a b = false ∧ ltFp32 a b = false ∧ leFp32 a b = false := by
  rcases h with h | h
  · simp [eqFp32, ltFp32, leFp32, h]
  · simp [eqFp32, ltFp32, leFp32, h]

/-- FSGNJ: the sign of b before the other bits of a (R113). -/
theorem sgnj_eq_append (a b : W32) : sgnj a b = b.extractLsb 31 31 ++ a.extractLsb 30 0 := by
  have hmag : ∀ i < 32, (0x7FFFFFFF#32).getLsbD i = decide (i < 31) := by decide
  have hsign : ∀ i < 32, (0x80000000#32).getLsbD i = decide (i = 31) := by decide
  apply BitVec.eq_of_getLsbD_eq
  intro i hi
  rw [sgnj, BitVec.getLsbD_or, BitVec.getLsbD_and, BitVec.getLsbD_and, hmag i hi, hsign i hi, BitVec.getLsbD_append]
  by_cases h : i = 31
  · subst h; simp
  · have hlt : i < 31 := by omega
    simp [h, hlt]

/-! ## The instructions -/

theorem exec_of_fpMoveOp {i : Instr} {d : FReg} {v : Ctx → W32} (h : fpMoveOp i = some (d, v)) (s : State) :
    exec i s = .next (retire .c 1 (withResults [(s.clock + 1, .f d (v s.me))] s)) := by
  unfold fpMoveOp at h
  split at h
  case h_1 => cases h; rfl
  case h_2 => cases h; rfl
  case h_3 => cases h; rfl
  case h_4 => cases h; dsimp only; rw [← sgnj_eq_append]; rfl
  case h_5 => cases h

theorem exec_of_fpTestOp {i : Instr} {d : SReg} {v : Ctx → W64} (h : fpTestOp i = some (d, v)) (s : State) :
    exec i s = .next (retire .c 1 (wrS d (v s.me) 1 s)) := by
  unfold fpTestOp at h
  split at h
  case h_1 => cases h; rfl
  case h_2 => cases h; rfl
  case h_3 => cases h; rfl
  case h_4 => cases h; rfl
  case h_5 => cases h

/-- What FCVT.W leaves pending: the INT32 sign-extended, and its flags but for nf (R112). -/
def fcvtWResults (nf : Bool) (d : SReg) (a : FReg) (s : State) : List (Nat × Land) :=
  let r := cvtW (s.me.frnd.toNat % 4) (rdF s.me a)
  (s.clock + 4, .s d ((BitVec.ofNat 32 r.bits).signExtend 64)) :: if nf then [] else [(s.clock + 4, .fflags r.flags)]

theorem exec_fcvtW (nf : Bool) (d : SReg) (a : FReg) (s : State) :
    exec (.fcvtW nf d a) s = .next (retire .c 1 (withResults (fcvtWResults nf d a s) s)) := by
  unfold fcvtWResults
  rw [withResults_cons]
  cases nf with
  | true => rfl
  | false => rw [if_neg (by decide), withResults_cons]; rfl

/-- Settles O11: each instruction retires with its results pending; the values by the cases of R111. -/
theorem fpMovesTestsConversion : Obligations.FpMovesTestsConversion := by
  unfold Obligations.FpMovesTestsConversion
  refine ⟨fun i d v h s => ?_, fun i d v h s => ?_, fun nf d a s => ?_,
    fun a b => ⟨isNan32_iff a, minFp32_maxFp32_one_nan, minFp32_maxFp32_both_nan, compareFp32_nan⟩, by decide⟩
  · obtain ⟨hr, ho, hm, hb⟩ := retire_withResults_spec .c [(s.clock + 1, .f d (v s.me))] s
    exact ⟨_, exec_of_fpMoveOp h s, hr, ho, hm, hb⟩
  · obtain ⟨hr, hg, ho, hm, hb⟩ := retire_wrS_spec d (v s.me) 1 1 s
    exact ⟨_, exec_of_fpTestOp h s, hr, ho, hg, hm, hb⟩
  · obtain ⟨hr, ho, hm, hb⟩ := retire_withResults_spec .c (fcvtWResults nf d a s) s
    exact ⟨_, exec_fcvtW nf d a s, hr, ho, rfl, hm, hb⟩

end Sys2Proof.Machine
end

section
/-! SUPPORT. Proofs: setting up barriers and their deadlines. -/
namespace Sys2Proof.Machine

open Sys2Proof.Safety

/-! ## Barriers of a context (R40) -/

@[simp] theorem Ctx.bar?_setBar_same (c : Ctx) (b : Nat) (x : BarSt) : (c.setBar b x).bar? b = some x := by
  simp [Ctx.bar?]

@[simp] theorem Ctx.bar?_setBar_ne (c : Ctx) {b n : Nat} (x : BarSt) (h : n ≠ b) : (c.setBar b x).bar? n = c.bar? n := by
  have hfind : (c.bars.filter (·.1 != b)).find? (·.1 == n) = c.bars.find? (·.1 == n) := by
    rw [List.find?_filter]
    congr 1
    funext a
    by_cases ha : a.1 = n
    · simp [ha, h]
    · simp [ha]
  unfold Ctx.bar?
  rw [Ctx.setBar_bars, List.find?_cons_of_neg (by simp [h.symm]), hfind]

/-- An instruction of the C stream whose one effect is the state of one barrier. -/
theorem retire_setBar_spec (b : Nat) (x : BarSt) (s : State) :
    let t := retire .c 1 (s.withMe (s.me.setBar b x))
    Ran .c 1 s t ∧ OnlyMe s t ∧ t.me.bar? b = some x ∧ (∀ n, n ≠ b → t.me.bar? n = s.me.bar? n) ∧
    t.me = { s.me with bars := t.me.bars, strC := t.me.strC } ∧ SameBytes s t := by
  obtain ⟨hr, ho, hm, hb⟩ := retire_withMe_spec .c (s := s) (c := s.me.setBar b x) ⟨rfl, rfl, rfl, rfl, rfl, rfl, rfl, rfl, rfl⟩ rfl rfl
  exact ⟨hr, ho, s.me.bar?_setBar_same b x, fun _ => s.me.bar?_setBar_ne x, hm, hb⟩

/-! ## BAR.INIT and BAR.DL (R132, R136) -/

/-- The operands of a BAR.INIT that traps: a barrier that is set, or a count that is none (R132). -/
theorem exec_barInit_illegal {b : BarNo} {a : SReg} {s : State} (sc : Scope)
    (h : s.me.bar? b ≠ none ∨ rdS s.me a = 0#64 ∨ 16777215 < (rdS s.me a).toNat) : exec (.barInit b a sc) s = illegal .c s := by
  have hbad : (rdS s.me a).toNat = 0 ∨ 16777215 < (rdS s.me a).toNat ∨ (s.me.bar? b).isSome := by
    rcases h with hset | hzero | hbig
    · exact .inr (.inr (Option.isSome_iff_ne_none.mpr hset))
    · exact .inl (by rw [hzero]; rfl)
    · exact .inr (.inl hbig)
  exact if_pos hbad

theorem exec_barInit_clear {b : BarNo} {a : SReg} {s : State} (sc : Scope) (hc : s.me.bar? b = none) (h1 : 1 ≤ (rdS s.me a).toNat)
    (h2 : (rdS s.me a).toNat ≤ 16777215) :
    exec (.barInit b a sc) s = .next (retire .c 1 (s.withMe (s.me.setBar b ⟨sc, (rdS s.me a).toNat, false, 0, 0#64, false⟩))) := by
  have hgood : ¬((rdS s.me a).toNat = 0 ∨ 16777215 < (rdS s.me a).toNat ∨ (s.me.bar? b).isSome) := by
    rintro (hzero | hbig | hset)
    · omega
    · omega
    · rw [hc] at hset; cases hset
  exact if_neg hgood

theorem exec_barDl_clear {b : BarNo} {s : State} (a : SReg) (p : Bool) (h : s.me.bar? b = none) : exec (.barDl b a p) s = illegal .c s := by
  show execBarDl b a p s = _
  unfold execBarDl
  rw [h]

theorem exec_barDl_set {b : BarNo} {x : BarSt} {s : State} (a : SReg) (p : Bool) (h : s.me.bar? b = some x) :
    exec (.barDl b a p) s = .next (retire .c 1 (s.withMe (s.me.setBar b { x with deadline := rdS s.me a, proceed := p }))) := by
  show execBarDl b a p s = _
  unfold execBarDl
  rw [h]

/-! ## No deadline (R135, R136) -/

theorem pastDeadline_zero (top : W64) : pastDeadline 0#64 top = false := rfl

theorem deadlineEnds_of_no_deadline {b : Nat} {x : BarSt} {s : State} (h : s.me.bar? b = some x) (hd : x.deadline = 0#64) :
    deadlineEnds s b = false := by
  simp [deadlineEnds, h, hd, pastDeadline_zero]

/-- A BAR.WT whose generation is not complete waits while no deadline ends it (R134, R135). -/
theorem exec_barWt_waits {b : BarNo} {x : BarSt} {s : State} (h : s.me.bar? b = some x) (ha : x.arrived = true) (hg : doneAt s b x = none)
    (hd : (x.proceed && pastDeadline x.deadline s.ptpTop) = false) :
    exec (.barWt b) s = .next (waitAt (s.withMe { s.me with barWait := some b.val })) := by
  show execBarWt b s = _
  unfold execBarWt
  rw [h]
  dsimp only
  rw [ha, hg, hd]
  rfl

/-- Settles O31: BAR.INIT and BAR.DL by the one rule for setting a barrier, their traps by their guards, the wait by the deadline 0 that no time is past. -/
theorem barrierSetUp : Obligations.BarrierSetUp := by
  unfold Obligations.BarrierSetUp
  refine ⟨fun s b a sc hc h1 h2 => ⟨_, exec_barInit_clear sc hc h1 h2, retire_setBar_spec b _ s⟩, fun s b a sc h => exec_barInit_illegal sc h,
    fun s b a p x h => ⟨_, exec_barDl_set a p h, retire_setBar_spec b _ s⟩, fun s b a p h => exec_barDl_clear a p h,
    fun s b x h hd => ⟨deadlineEnds_of_no_deadline h hd, fun ha hg => ⟨_, exec_barWt_waits h ha hg ?_, rfl, rfl⟩⟩⟩
  rw [hd, pastDeadline_zero, Bool.and_false]

end Sys2Proof.Machine
end
